-- ==== Sys2Proof/Word.lean ====
section
/-! DEFINITION. The word types of the ZN16 and their plainest arithmetic (spec 00 R1, 06 R148). -/

namespace Sys2Proof

/-- A 32-bit register value (06 R142, R143). -/
abbrev Word := BitVec 32
/-- A 64-bit value: a register pair, a clause word, a device register (04 R90, 01 R26). -/
abbrev Dword := BitVec 64
/-- A byte of memory. -/
abbrev Byte := BitVec 8
/-- A set of lanes of one group: bit L is lane L. W is 64 on the ZN16 (02 R38). -/
abbrev Lanes := BitVec 64
/-- An accumulator cell, acc56 (07 R173). -/
abbrev Acc56 := BitVec 56

/-- The even and the odd half of a pair, as one 64-bit value (04 R90). -/
def pairOf (lo hi : Word) : Dword := hi ++ lo

/-- Bits [31:0] of a 64-bit value. -/
def lowWord (x : Dword) : Word := x.setWidth 32

/-- Bits [63:32] of a 64-bit value. -/
def highWord (x : Dword) : Word := (x >>> 32).setWidth 32

end Sys2Proof
end

