-- ==== Sys2Proof/Config.lean ====
section
/-! DEFINITION. What an implementation fixes: the ZN16's constants (spec 25 R437, 01 R28), and the free values, which
have no body: nothing can be proved of what they are. -/

namespace Sys2Proof.Config

/-- Lanes of a group, W (02 R38). -/
def lanes : Nat := 64
/-- Region store buffer entries (05 R124). -/
def bufferEntries : Nat := 128
/-- Backed bytes of a basin (01 R19, 09 R221). -/
def basinSize : Nat := 0xA000000
/-- Records of a slot directory (09 R233). -/
def slotRecords : Nat := 8192
/-- Records of a subscription table that serve programs, and those reserved for dispatchers (09 R233). -/
def subRecords : Nat := 61440
def reservedRecords : Nat := 4096
/-- Pending set of a partition (03 R58). -/
def pendingSet : Nat := 1024
/-- Tags of a page-request queue (21 R383). -/
def requestTags : Nat := 4096
/-- Reorder window of a target (10 R251). -/
def window : Nat := 256

/-- Which of two values an access returns where the spec allows either: drawn afresh for each use (05 R117, 02 R30,
04 R79, 09 R226, 17 R350, 21 R381). -/
opaque pick : Nat → Nat → Bool

/-- A byte of a set whose contents became undefined (01 R25), by the epoch of the set and the address. -/
opaque freeByte : Nat → Nat → BitVec 8

/-- A byte that the spec leaves open elsewhere: a register-file image layout, a save image (21 R398). -/
opaque freeImage : Nat → Nat → BitVec 8

/-- What a lane of a latch holds that its only writers, scalar forms without an active lane, left as it was (04 R93, R95):
drawn afresh for each. -/
opaque freeLatch : Nat → Nat → BitVec 64

/-- The order in which walks that fail together end, and so raise their requests (21 R383): drawn afresh for each, by
region. -/
opaque walkEnd : Nat → Nat → Nat

/-- What a field of a saved cell comes to where software has changed the bytes that hold it, whose layout the spec leaves
open (21 R398): by the image and a number. -/
opaque freeField : Nat → Nat → BitVec 64

/-- A byte of another package's memory before this package has seen it written, by its global address (10 R257), and whether a
packet for such an address meets RouteFail beyond the lookup here: at a later package, or stranded on a link (10 R259). -/
opaque farByte : Nat → BitVec 8
opaque strand : Nat → Nat → Bool

/-- The device identity signatures over a digest (24 R434): RSA-3072, then SLH-DSA-SHA2-192s. -/
opaque identityRsa : BitVec 384 → List (BitVec 8)
opaque identitySlh : BitVec 384 → List (BitVec 8)

/-- Fused values (24 R430, R434): minimum SVN, digests of the two public keys, the device serial. -/
opaque fusedSvn : BitVec 32
opaque fusedRsa : BitVec 384
opaque fusedSlh : BitVec 384
opaque serial : List (BitVec 8)

/-- Charge weights (23 R412, R420): of one lane's operation of a kind, by OP and FN, and of a ballast operation; the energy
that a weight stands for, in 1/1,024 µJ; and the energy of one action of the device, by its number. -/
opaque charge : Nat → Nat
opaque ballastCharge : Nat
opaque energyOf : Nat → Nat
opaque actionEnergy : Nat → Nat

/-- The full-load estimate of a cluster, and its datapath slots in a window (23 R414, R415): die, cluster. -/
opaque fullLoad : Nat → Nat → Nat
opaque slots : Nat → Nat → Nat

/-- How far a cluster's reading of the timer may lie behind another's, in ns, and how far it does: drawn afresh as time
passes, modulo the bound's successor (23 R423). -/
def skew : Nat := 2
opaque lag : Nat → Nat → Nat

/-- Which resident groups an element of the vector register file holds or a cell's share or tiles hold (21 R401): element, unit. -/
opaque elementHolds : Nat → Nat → Bool

end Sys2Proof.Config
end

