-- ==== Sys2Proof/Syntax.lean ====
section
/-! DEFINITION. The instruction words of the ZN16 (spec 04) and the device events of the opcode table, one constructor
of `Instr` per row of the table. Register numbers stay the bit fields of their encoding; everything else is a name. -/

namespace Sys2Proof

/-- The special sources (04 R87), in the order of their selectors 652 to 667. -/
inductive Special where
  | lane | width | logw | widlo | widhi | cell | core | cluster | die | time | group | slot | lcore | prio | tlbase
  | ngroup
  deriving DecidableEq, Repr

/-- A source operand (04 R86). An immediate holds its value as an 8-bit two's-complement number. -/
inductive Src where
  | v (n : BitVec 9)
  | s (n : BitVec 7)
  | b (n : BitVec 2)
  | lit (n : BitVec 3)
  | sp (k : Special)
  | imm (i : BitVec 8)
  deriving DecidableEq, Repr

/-- Operand B of a form that exists in format V and in format I (04 R84, 06 R148). -/
inductive SrcI where
  | src (x : Src)
  | imm (i : BitVec 20)
  deriving DecidableEq, Repr

/-- The head of an instruction word other than OP and FN (04 R83): guard, SETF, NWB, LAT. -/
structure Head where
  gn : Bool
  gp : BitVec 3
  setf : BitVec 4
  nwb : Bool
  lat : BitVec 2
  deriving DecidableEq, Repr

/-- The branch mode of BRA (05 R131). -/
inductive BraMode where
  | plain | any | all
  deriving DecidableEq, Repr

/-- Carry operands of IADDC and ISUBB (06 R150). -/
inductive Carry where
  | v (b : Src) (cie : Bool) (co ci : BitVec 3)
  | i (imm : BitVec 14) (co ci : BitVec 3)
  deriving DecidableEq, Repr

/-- One source, scalar or vector form (06 R148, R152). -/
structure Body1 where
  sc : Bool
  mod : BitVec 2
  d : BitVec 9
  a : Src
  deriving DecidableEq, Repr

/-- Two sources, format V or I (06 R148, R152). -/
structure Body2 where
  sc : Bool
  mod : BitVec 2
  d : BitVec 9
  a : Src
  b : SrcI
  deriving DecidableEq, Repr

/-- Three sources (06 R148, R152). -/
structure Body3 where
  sc : Bool
  mod : BitVec 2
  d : BitVec 9
  a : Src
  b : Src
  c : Src
  deriving DecidableEq, Repr

/-- IADDC and ISUBB (06 R150). -/
structure BodyC where
  sc : Bool
  d : BitVec 9
  a : Src
  b : Carry
  deriving DecidableEq, Repr

/-- LUT3 (06 R155). -/
structure BodyLut where
  sc : Bool
  d : BitVec 9
  a : Src
  table : BitVec 8
  z : BitVec 9
  deriving DecidableEq, Repr

/-- SEL (06 R157). -/
structure BodySel where
  sc : Bool
  d : BitVec 9
  a : Src
  b : Src
  p : BitVec 3
  deriving DecidableEq, Repr

/-- The four cases of MOV (06 R158). -/
inductive MovForm where
  | mov (d : BitVec 9) (a : SrcI)
  | fromLstat (d : BitVec 9)
  | toLstat (a : Src)
  | mov64 (d : BitVec 9) (a : SrcI)
  deriving DecidableEq, Repr

/-- Operand B of ICMP and FCMP, with the combination of format V (06 R160). -/
inductive CmpB where
  | v (b : Src) (cmb : BitVec 2) (cp : BitVec 3)
  | i (imm : BitVec 20)
  deriving DecidableEq, Repr

/-- ICMP and FCMP (06 R160); `uns` and `wide` are false in FCMP. -/
structure BodyCmp where
  cond : BitVec 3
  uns : Bool
  wide : Bool
  d : BitVec 3
  a : Src
  b : CmpB
  deriving DecidableEq, Repr

/-- PAND, POR, PXOR (06 R161). -/
structure BodyP2 where
  na : Bool
  nb : Bool
  d : BitVec 3
  a : BitVec 3
  b : BitVec 3
  deriving DecidableEq, Repr

/-- PNOT, PMOV (06 R161). -/
structure BodyP1 where
  na : Bool
  d : BitVec 3
  a : BitVec 3
  deriving DecidableEq, Repr

/-- FP forms with a rounding mode, two sources and format I (08 R195). -/
structure BodyF2I where
  rm : BitVec 2
  mod : BitVec 2
  d : BitVec 9
  a : Src
  b : SrcI
  deriving DecidableEq, Repr

/-- FP forms with a rounding mode and two sources (08 R200, R202). -/
structure BodyF2 where
  rm : BitVec 2
  mod : BitVec 2
  d : BitVec 9
  a : Src
  b : Src
  deriving DecidableEq, Repr

/-- FP forms with a rounding mode and three sources (08 R195, R202, R204). -/
structure BodyF3 where
  rm : BitVec 2
  mod : BitVec 2
  d : BitVec 9
  a : Src
  b : Src
  c : Src
  deriving DecidableEq, Repr

/-- F2I, I2F, F2F, I2I (08 R205 to R210); `sat` is false outside I2I. -/
structure BodyCvt where
  rm : BitVec 2
  sat : Bool
  st : BitVec 4
  dt : BitVec 4
  sel : BitVec 2
  d : BitVec 9
  a : Src
  deriving DecidableEq, Repr

/-- The load sizes (04 R103): zero-extended or full sizes, and the sign-extended ones. -/
inductive LdSize where
  | n8 | n16 | b32 | b64 | b128 | i8 | i16
  deriving DecidableEq, Repr

/-- The store sizes (04 R103). -/
inductive StSize where
  | b8 | b16 | b32 | b64 | b128
  deriving DecidableEq, Repr

/-- ATOM, ATOMB, RED (09 R237, R243). -/
structure BodyAtom where
  op : BitVec 4
  b64 : Bool
  ord : BitVec 2
  d : BitVec 9
  addr : Src
  off : BitVec 14
  scope : BitVec 4
  deriving DecidableEq, Repr

/-- CTRADD, CTRWAIT, CTRRD (11 R275). -/
structure BodyCtr where
  sreg : Bool
  d : BitVec 9
  addr : Src
  off : BitVec 14
  scope : BitVec 4
  deriving DecidableEq, Repr

/-- MMA and MMAZ (12 R294). -/
structure BodyMma where
  g : BitVec 3
  n128 : Bool
  acc : BitVec 4
  ha : BitVec 4
  hb : BitVec 4
  bus : Bool
  msk : Bool
  gsel : BitVec 3
  ka : BitVec 12
  kb : BitVec 12
  deriving DecidableEq, Repr

/-- The counter of an asynchronous engine instruction, absent with CE = 0 (14 R322). -/
structure EngCtr where
  c : Src
  scope : BitVec 4
  deriving DecidableEq, Repr

/-- TLBINV's four modes (21 R405). -/
inductive TlbMode where
  | page (c : BitVec 7) (a : BitVec 7)
  | ctx (c : BitVec 7)
  | gpa (c : BitVec 7) (a : BitVec 7)
  | all
  deriving DecidableEq, Repr

/-- Where a host's write goes (spec 01 R27): to an offset of its function's BAR 0, to a physical address of memory, or to
an address of a context. -/
inductive HostVia where
  | bar0
  | memory
  | context (k : Nat)
  deriving DecidableEq, Repr

/-- Who writes a device register (01 R27): firmware, Bilael, the physical function, virtual function f, or a device
access of a context whose CTXCTL.FN is `fn`. -/
inductive Agent where
  | fw | bilael | pf
  | vf (f : Nat)
  | dev (fn : Nat)
  deriving DecidableEq, Repr

/-- Where an ECC error strikes (21 R400). `die` and `base` name the structure that counts it (24 R436). -/
inductive EccSite where
  | memory (pa : Nat)
  | operandBuffer (cell : Nat) (granule : Nat)
  | accumulator (unit : Nat) (index : Nat)
  | group (unit : Nat)
  | cache (die : Nat)
  deriving DecidableEq, Repr

/-- One row of the opcode table per constructor. The rows up to `haltc` are instructions; those after it are the
device events that the table lists as steps of their own (95). -/
inductive Instr where
  -- control, family 0x0 (05 R131)
  | nop (h : Head)
  | bra (h : Head) (mode : BraMode) (tgt : BitVec 32)
  | brax (h : Head) (a : Src)
  | call (h : Head) (tgt : BitVec 32)
  | callx (h : Head) (a : Src)
  | ret (h : Head)
  | exit (h : Head)
  | spawn (h : Head) (d : BitVec 7) (pe : BitVec 3) (a : Src) (ent : BitVec 8)
  | join (h : Head) (a b : Src)
  | yield (h : Head)
  | trap (h : Head) (code : BitVec 16)
  | bkpt (h : Head) (code : BitVec 16)
  -- integer, family 0x1 (06 R148)
  | iadd (h : Head) (x : Body2)
  | isub (h : Head) (x : Body2)
  | iaddc (h : Head) (x : BodyC)
  | isubb (h : Head) (x : BodyC)
  | imul (h : Head) (x : Body2)
  | imulh (h : Head) (x : Body2)
  | imad (h : Head) (x : Body3)
  | imadw (h : Head) (x : Body3)
  | idiv (h : Head) (x : Body2)
  | irem (h : Head) (x : Body2)
  | udiv (h : Head) (x : Body2)
  | urem (h : Head) (x : Body2)
  | imin (h : Head) (x : Body2)
  | imax (h : Head) (x : Body2)
  | umin (h : Head) (x : Body2)
  | umax (h : Head) (x : Body2)
  | iabs (h : Head) (x : Body1)
  | ineg (h : Head) (x : Body1)
  | iadd64 (h : Head) (x : Body2)
  | lea (h : Head) (x : Body2)
  -- logic and bitfield, family 0x2 (06 R152)
  | and (h : Head) (x : Body2)
  | or (h : Head) (x : Body2)
  | xor (h : Head) (x : Body2)
  | andn (h : Head) (x : Body2)
  | not (h : Head) (x : Body1)
  | mov (h : Head) (sc : Bool) (x : MovForm)
  | lut3 (h : Head) (x : BodyLut)
  | shl (h : Head) (x : Body2)
  | shr (h : Head) (x : Body2)
  | sar (h : Head) (x : Body2)
  | rotl (h : Head) (x : Body2)
  | fshf (h : Head) (x : Body3)
  | bfx (h : Head) (x : Body3)
  | bfi (h : Head) (x : Body3)
  | brev (h : Head) (x : Body1)
  | popc (h : Head) (x : Body1)
  | clz (h : Head) (x : Body1)
  | ctz (h : Head) (x : Body1)
  | bperm (h : Head) (x : Body3)
  | sel (h : Head) (x : BodySel)
  | movxRd (h : Head) (d : BitVec 9) (a b : Src)
  | movxWr (h : Head) (a b c : Src)
  -- compare and predicate, family 0x3 (06 R160 to R162)
  | icmp (h : Head) (x : BodyCmp)
  | fcmp (h : Head) (x : BodyCmp)
  | pand (h : Head) (x : BodyP2)
  | por (h : Head) (x : BodyP2)
  | pxor (h : Head) (x : BodyP2)
  | pnot (h : Head) (x : BodyP1)
  | pmov (h : Head) (x : BodyP1)
  | pcnt (h : Head) (d : BitVec 9) (a : BitVec 3)
  | pany (h : Head) (d : BitVec 3) (a : BitVec 3)
  | pall (h : Head) (d : BitVec 3) (a : BitVec 3)
  | lead (h : Head) (d : BitVec 3) (a : BitVec 3)
  -- FP32, family 0x4 (08 R193 to R201)
  | fadd (h : Head) (x : BodyF2I)
  | fsub (h : Head) (x : BodyF2I)
  | fmul (h : Head) (x : BodyF2I)
  | ffma (h : Head) (x : BodyF3)
  | fmin (h : Head) (d : BitVec 9) (a : Src) (b : SrcI)
  | fmax (h : Head) (d : BitVec 9) (a : Src) (b : SrcI)
  | frnd (h : Head) (rm : BitVec 2) (d : BitVec 9) (a : Src)
  | fclass (h : Head) (d : BitVec 9) (a : Src)
  | fscale (h : Head) (x : BodyF2)
  | fexp (h : Head) (d : BitVec 9) (a : Src)
  -- packed half, family 0x5 (08 R202 to R204)
  | hadd2 (h : Head) (x : BodyF2)
  | hmul2 (h : Head) (x : BodyF2)
  | hfma2 (h : Head) (x : BodyF3)
  | badd2 (h : Head) (x : BodyF2)
  | bmul2 (h : Head) (x : BodyF2)
  | bfma2 (h : Head) (x : BodyF3)
  | hmnx2 (h : Head) (mx bf : Bool) (d : BitVec 9) (a b : Src)
  | hdot2 (h : Head) (x : BodyF3)
  -- conversion, family 0x6 (08 R205 to R215)
  | f2i (h : Head) (x : BodyCvt)
  | i2f (h : Head) (x : BodyCvt)
  | f2f (h : Head) (x : BodyCvt)
  | i2i (h : Head) (x : BodyCvt)
  | pack8 (h : Head) (dt : BitVec 4) (d : BitVec 9) (a b : Src)
  | unpack8 (h : Head) (st dt : BitVec 4) (sel : BitVec 2) (d : BitVec 9) (a : Src)
  | pack6 (h : Head) (d : BitVec 9) (a b : Src)
  | pack4 (h : Head) (sel : BitVec 2) (d : BitVec 9) (a b : Src)
  | unpack4 (h : Head) (dt : BitVec 4) (sel : BitVec 2) (d : BitVec 9) (a : Src)
  | scaleq (h : Head) (q : BitVec 4) (d : BitVec 9) (a : Src)
  | quant (h : Head) (q : BitVec 4) (d : BitVec 9) (a b : Src)
  -- special functions, family 0x7 (08 R217)
  | rcp (h : Head) (ap : Bool) (d : BitVec 9) (a : Src)
  | rsq (h : Head) (ap : Bool) (d : BitVec 9) (a : Src)
  | sqrt (h : Head) (ap : Bool) (d : BitVec 9) (a : Src)
  | exp2 (h : Head) (d : BitVec 9) (a : Src)
  | log2 (h : Head) (d : BitVec 9) (a : Src)
  | sinp (h : Head) (d : BitVec 9) (a : Src)
  | cosp (h : Head) (d : BitVec 9) (a : Src)
  | tanh (h : Head) (d : BitVec 9) (a : Src)
  -- cross-lane, family 0x8 (06 R163 to R171)
  | perm (h : Head) (d : BitVec 9) (a b c : Src)
  | shfl (h : Head) (mode : BitVec 2) (d : BitVec 9) (a b : Src)
  | rdstep (h : Head) (op : BitVec 4) (d : BitVec 9) (a : Src) (k : BitVec 3)
  | rdx (h : Head) (op : BitVec 4) (d : BitVec 9) (a : Src)
  | scan (h : Head) (op : BitVec 4) (excl : Bool) (d : BitVec 9) (a : Src)
  | bcast (h : Head) (d : BitVec 9) (a b : Src)
  -- memory, family 0x9 (09 R237 to R242)
  | ld (h : Head) (sz : LdSize) (d : BitVec 9) (addr : Src) (off : BitVec 14) (scope : BitVec 4) (hint : BitVec 2)
  | ldu (h : Head) (sz : LdSize) (d : BitVec 7) (addr : Src) (off : BitVec 14) (scope : BitVec 4) (hint : BitVec 2)
  | ldk (h : Head) (sz : LdSize) (d : BitVec 9) (addr : Src) (off : BitVec 14)
  | ldb (h : Head) (sz : LdSize) (d : BitVec 9) (addr : Src) (off : BitVec 14) (w c : Bool)
  | ldl (h : Head) (sz : LdSize) (d : BitVec 9) (addr : Src) (off : BitVec 14)
  | st (h : Head) (sz : StSize) (x : BitVec 9) (addr : Src) (off : BitVec 14) (hint : BitVec 2)
  | stu (h : Head) (sz : StSize) (x : BitVec 7) (addr : Src) (off : BitVec 14) (hint : BitVec 2)
  | stb (h : Head) (sz : StSize) (x : BitVec 9) (addr : Src) (off : BitVec 14) (f : Bool)
  | stl (h : Head) (sz : StSize) (x : BitVec 9) (addr : Src) (off : BitVec 14)
  | pref (h : Head) (l2 : Bool) (addr : Src) (off : BitVec 14)
  | fillb (h : Head) (clear : Bool) (n : BitVec 7) (addr : Src) (off : BitVec 14)
  -- atomics and subscriptions, family 0xA (09 R243 to R247)
  | atom (h : Head) (x : BodyAtom)
  | atomb (h : Head) (x : BodyAtom)
  | red (h : Head) (x : BodyAtom)
  | ldsub (h : Head) (ring : Bool) (d : BitVec 9) (addr : Src) (off : BitVec 14)
  | unsub (h : Head) (addr : Src) (off : BitVec 14)
  | substat (h : Head) (d : BitVec 9) (addr : Src) (off : BitVec 14)
  -- asynchronous work, family 0xB (11 R265 to R275, R282; 14 R312, R317)
  | copy (h : Head) (out ob : Bool) (k : BitVec 4) (scope : BitVec 4) (mask : Bool) (r c : Src)
  | copyl (h : Head) (scope : BitVec 4) (r c : Src)
  | copym (h : Head) (n4 : Bool) (k : BitVec 4) (scope : BitVec 4) (r c : Src)
  | ctradd (h : Head) (x : BodyCtr)
  | ctrwait (h : Head) (x : BodyCtr)
  | ctrrd (h : Head) (x : BodyCtr)
  | fork (h : Head) (r : Src) (n1 : BitVec 4)
  | rdv (h : Head) (r : Src) (n1 : BitVec 4)
  | objreq (h : Head) (req : BitVec 2) (scope : BitVec 4) (r c : Src)
  -- matrix, family 0xC (12)
  | gang (h : Head) (k : BitVec 3) (a : Src)
  | rsv (h : Head) (k : BitVec 4) (n : BitVec 7)
  | rsvrel (h : Head) (k : BitVec 4)
  | obld (h : Head) (k : BitVec 4) (x : BitVec 9) (addr : Src) (off : BitVec 14) (scope : BitVec 4)
  | obst (h : Head) (k : BitVec 4) (x : BitVec 9) (addr : Src) (off : BitVec 14)
  | mma (h : Head) (x : BodyMma)
  | mmaz (h : Head) (x : BodyMma)
  | accrd (h : Head) (form : BitVec 2) (d : BitVec 9) (r c : Src) (t : BitVec 4)
  | accwr (h : Head) (raw : Bool) (t : BitVec 4) (r c x : Src)
  | accz (h : Head) (t : BitVec 4)
  | buspub (h : Head) (hb : BitVec 4) (kb : BitVec 12) (mask : BitVec 4) (n128 : Bool)
  | bussub (h : Head) (c : BitVec 2) (n : BitVec 12)
  -- synchronisation, family 0xD (17 R357, 18 R365 to R367)
  | bar (h : Head) (gang : Option (BitVec 3))
  | bara (h : Head) (gang : Option (BitVec 3))
  | barw (h : Head) (gang : Option (BitVec 3))
  | fence (h : Head) (u : Bool) (scope : BitVec 4)
  | pfence (h : Head) (mask : BitVec 5) (scope : BitVec 4)
  | acq (h : Head) (k : Bool) (scope : BitVec 4)
  | rel (h : Head) (scope : BitVec 4)
  | sleep (h : Head) (a : Src) (imm : BitVec 20)
  -- engine, family 0xE (14 R322 to R331)
  | estream (h : Head) (j : BitVec 3) (r c : Src)
  | ereduce (h : Head) (ty : BitVec 2) (d : BitVec 3) (mask : BitVec 8) (ctr : Option EngCtr)
  | ebcast (h : Head) (q : BitVec 3) (mask : BitVec 8) (ctr : Option EngCtr)
  | ecopy (h : Head) (d q : BitVec 3) (ctr : Option EngCtr)
  | egemv (h : Head) (bf : Bool) (r : Src) (ctr : Option EngCtr)
  | routeCnt (h : Head) (r : Src) (ctr : Option EngCtr)
  | routeScan (h : Head) (r : Src) (ctr : Option EngCtr)
  | routePlace (h : Head) (r : Src) (ctr : Option EngCtr)
  | routeComb (h : Head) (r : Src) (ctr : Option EngCtr)
  | esig (h : Head) (code : BitVec 16) (r : Src)
  -- privileged, family 0xF (21 R403 to R408)
  | csrr (h : Head) (d : BitVec 7) (csr : BitVec 12)
  | csrw (h : Head) (csr : BitVec 12) (a : Src)
  | tlbinv (h : Head) (m : TlbMode)
  | rett (h : Head)
  | presp (h : Head) (a : Src)
  | haltc (h : Head) (a : Src)
  -- events of cores and groups (04, 05)
  | clauseFetch (u : Nat)
  | clauseStart (port : Nat)
  | groupUrgent (u : Nat)
  | resultLands (u tok : Nat)
  | storeAck (u : Nat)
  | groupExit (u : Nat)
  | slotFill (core : Nat)
  | joinerSaveRetry (u : Nat)
  | joinComplete (u : Nat)
  -- events of the dispatcher (03, 24)
  | publishObserved (p n : Nat)
  | publishPoll (p n : Nat)
  | publishTranslationRetry (p n : Nat)
  | dependenceSatisfied (l j : Nat)
  | dependencePoll (l j : Nat)
  | conditionRead (l : Nat)
  | cellPlace (p : Nat)
  | launchRetire (l : Nat)
  -- register writes with a step of their own (01, 03, 10, 11, 21, 24)
  | partitionOpen (g : Agent) (p : Nat) (x : Dword)
  | partitionClose (g : Agent) (p : Nat) (x : Dword)
  | ilmapWrite (g : Agent) (n : Nat) (x : Dword)
  | illockSet (g : Agent) (x : Dword)
  | launchListEnable (g : Agent) (p n : Nat) (x : Dword)
  | launchListDisable (g : Agent) (p n : Nat) (x : Dword)
  | bscWrite (g : Agent) (src : Nat) (x : Dword)
  | bsstatRefusedClear (g : Agent) (stack : Nat) (x : Dword)
  | ctxctlWrite (g : Agent) (c : Nat) (x : Dword)
  | preemptSave (g : Agent) (c : Nat) (x : Dword)
  | preemptResume (g : Agent) (c : Nat) (x : Dword)
  | cellSave (cell : Nat)
  | cellRestore (img : Nat)
  | breakpointResume (g : Agent) (c : Nat) (x : Dword)
  | kill (g : Agent) (c : Nat) (x : Dword)
  | killComplete (c : Nat)
  | prqEnable (g : Agent) (f : Nat) (x : Dword)
  | evqEnable (g : Agent) (p : Nat) (x : Dword)
  | tierpoolWrite (g : Agent) (p d : Nat) (x : Dword)
  | registerWrite (g : Agent) (pa : Nat) (x : Dword)
  -- translation, traps, migration (21)
  | translationWalk (c : Nat) (va : Dword) (acc : Nat) (sup : Bool)
  | pageRequestRecord (f : Nat)
  | parkedLaneReplay (u tok : Nat)
  | trapDeliver (u : Nat)
  | miggoWrite (g : Agent) (p : Nat) (x : Dword)
  | migrationComplete (k : Nat)
  -- basin, pushes, fabric (09, 10)
  | subscribeRecord (die off : Nat)
  | pushLand (die off : Nat)
  | unsubAck (die off : Nat)
  | fullEmptyWaitServe (die granule : Nat)
  | packetAccept (src cls : Nat)
  | packetPerform (home src k : Nat)
  | globalRoute (k : Nat)
  | linkFrameRetry (stack port : Nat)
  | linkFault (stack port : Nat)
  | boundViolation (mech : Nat) (ns bound : BitVec 32) (src : BitVec 16)
  -- engines and cards (11, 14)
  | copyExecute (k : Nat)
  | copymOperationStart (k : Nat)
  | copymSliceLand (k j : Nat)
  | cardListStart (k : Nat)
  | cardClose (k : Nat)
  | engineAsyncComplete (stack k : Nat)
  | engineTrap (stack : Nat)
  | tierRequest (p : Nat)
  | tierMoveComplete (p : Nat) (k : Nat)
  | tierAgeSample (p : Nat) (k : Nat)
  -- matrix, barriers, waits (12, 18)
  | matrixOpComplete (core : Nat)
  | busStepDeliver (core : Nat)
  | barrierWaveRelease (cell b : Nat)
  | sleepExpire (u : Nat)
  -- power, errors, Bilael (21, 23, 24)
  | cbalWindow (die pair : Nat)
  | cbalHoldEnd (die cluster : Nat)
  | boostInterval (die : Nat)
  | retentionEnter (die cluster : Nat)
  | retentionWake (die cluster : Nat) (failed : List Nat)
  | eccCorrectable (site : EccSite)
  | eccUncorrectable (site : EccSite)
  | patrolScrub (pa : Nat)
  | timerDisciplineLost
  | packageReset
  | getreport
  | loadimg (pa : Nat)
  | diepowerOff (die : Nat)
  | diepowerOn (die : Nat)
  | readerr
  | setpatrol (x : Dword)
  | reset
  | hostWrite (g : Agent) (via : HostVia) (addr : Dword) (bytes : List Byte)
  | izeusLinkFail (port : Nat)
  | izeusLinkTrain (port : Nat)
  deriving DecidableEq, Repr

end Sys2Proof
end

