-- ==== Sys2Proof/Machine/State.lean ====
section
/-! DEFINITION. The state of a ZN16 package as plain data: the device's memories and registers, the resident groups,
and every agent that acts on its own (INVENTORY.md, State). Sparse tables are association lists with rising keys; an
absent key holds the default that the field's docstring names. -/

namespace Sys2Proof.Machine

/-- A table from numbers to values: keys strictly rising. -/
abbrev Assoc (α : Type) := List (Nat × α)

/-! ### The memory model (17) -/

/-- The paths of an access (09 R228). -/
inductive Path where
  | d | k | t | p | i
  deriving DecidableEq, Repr

/-- Who acts (17 R340): its source, and for a group its number and its cell. -/
structure Party where
  src : Nat
  uid : Option Nat
  cell : Nat
  deriving DecidableEq, Repr

/-- What happens before an event (17 R347): writes, by stamp, and the values that reads returned, as `readKey`s (R349). -/
structure View where
  known : List Nat
  read : List Nat
  deriving DecidableEq, Repr

/-- A release, or a fence that releases the writes after it (17 R345, R346): who performs it, its scope, what happens before
it, and the copy or card whose counter addition it is, 0 for none (R350). -/
structure Rel where
  who : Party
  scope : Nat
  view : View
  job : Nat
  deriving DecidableEq, Repr

/-- A value that an access of a group returned (17 R343): the write and the word as `key`, the path, whether the page was a
U page, and whether the access passed the L1 by without filling it. -/
structure ReadRec where
  key : Nat
  path : Path
  u : Bool
  past : Bool
  deriving DecidableEq, Repr

/-- A packet's way through the fabric (10 R248, R249): the channels that it has still to cross, and its place in the order in
which packets entered the first of them, or reached their target. -/
structure Trip where
  way : List Nat
  entered : Nat
  deriving DecidableEq, Repr

/-! ### Groups -/

/-- A register that a kind-A instruction will write (05 R117). -/
inductive Dst where
  | v (n lane : Nat)
  | s (n : Nat)
  | p (n : Nat)
  deriving DecidableEq, Repr

/-- A result that has been performed and waits for its flag: the register, the value, and whether the register has
been written since the instruction issued (05 R117). -/
structure PWrite where
  dst : Dst
  val : Word
  hit : Bool
  deriving DecidableEq, Repr

/-- What a lane of a kind-A instruction waits for. -/
inductive LaneSt where
  | ready
  | walking
  | parked (req : Nat)
  | full (ticket : Nat)
  | away
  deriving DecidableEq, Repr

/-- The page kinds of an access (09 R223). -/
inductive PageKind where
  | c | s | u
  deriving DecidableEq, Repr

/-- One aligned piece of an access: physical address (or global address), bytes, kind. -/
structure Piece where
  pa : Nat
  len : Nat
  glob : Bool
  kind : PageKind
  deriving DecidableEq, Repr

/-- A lane of a load or atomic that has not been performed. `addr` is the address or basin offset, `aux` the operand
captured at issue, `own` the group's buffered bytes at issue (05 R124). -/
structure LaneReq where
  lane : Nat
  addr : Dword
  aux : BitVec 128
  pieces : List Piece
  own : List (Nat × Byte)
  st : LaneSt
  deriving DecidableEq, Repr

/-- An instruction whose last effect is to come: its flag falls when no lane, no outstanding part and no result is
left (05 R118). `left` counts parts performed elsewhere: packets, copies, deliveries. -/
structure Pend where
  tok : Nat
  flag : Option Nat
  ins : Instr
  addr : Dword
  idx : Nat
  act : Lanes
  nwb : Bool
  lanes : List LaneReq
  writes : List PWrite
  left : Nat
  poison : Option Nat
  deriving DecidableEq, Repr

/-- A register write, a clause or a trap carries these values (21 R389). -/
structure TrapRec where
  cause : Nat
  addr : Dword
  idx : Nat
  info : Dword
  mask : Lanes
  deriving DecidableEq, Repr

/-- An entry of the region store buffer (05 R124, 09 R242, 17 R357): bytes within one aligned 64-byte block, a range
of full bits, or a fence's marker. `tlast` marks bytes of poisoned granules (12 R306). -/
inductive BufItem where
  | bytes (glob : Bool) (kind : PageKind) (data : List (Nat × Byte)) (full : List Nat) (poison : List Nat)
  | fill (start n : Nat) (set : Bool) (tok : Option Nat)
  | marker
  deriving DecidableEq, Repr

/-- The region start (05 R123): PC table copy, restart index, and whether a BAR resumes at its Wait half (18 R366). -/
structure Region where
  pcs : Assoc Dword
  index : Nat
  half : Bool
  deriving DecidableEq, Repr

/-- A clause fetched by its group and found legal (04 R77, R98). `started` once the port has started it; `next` is the next instruction, `half` whether it is a BAR at its Wait half (18 R366). -/
structure Clause where
  addr : Dword
  hdr : Dword
  words : List Dword
  lits : List Dword
  started : Bool
  next : Nat
  half : Bool
  deriving DecidableEq, Repr

/-- Why a group is not ready (05 R120). -/
inductive Wait where
  | no
  | join (q n : Nat)
  | barrier (b : Nat) (at_ : Option Nat)
  | arrive (b : Nat)
  | counter (ins : Instr)
  | sleep (until_ : Nat)
  | rendezvous (g : Nat)
  | cards (ins : Instr)
  | halted
  | fault (reqs : List Nat)
  | exit
  | bus
  | drain (tok : Nat)
  | stores (stamps : List Nat)
  deriving DecidableEq, Repr

/-- A group's pending bit of a barrier (18 R358, R366): the recorded phase, the instruction that arrived, and once the phase
has opened its arrivals, which are releases (17 R345). -/
structure BarRec where
  phase : BitVec 32
  addr : Dword
  idx : Nat
  act : Lanes
  rels : List Rel
  deriving DecidableEq, Repr

/-- A live child of SPAWN (05 R136, R138): its sequence number, its number, and whether it still is in the overflow
list. -/
structure Kid where
  seqNo : Nat
  uid : Nat
  queued : Bool
  deriving DecidableEq, Repr

/-- A resident group, or an engine program (05 R110, 14 R318). Of the memory model (17): `fences` are its RELs and FENCEs, which
release the writes after them; `view` is what happens before its next access, `viewU` the same for an access to a U page
(R344); `reads` the values that it has returned (R343); `heard` the releases that its reads have read from, with whether the
page was a U page, for a later ACQ or FENCE (R346); `covers` the writes that its PFENCEs cover for reads on a path, and
`coversK` those that an ACQ.k has still to complete; `jobs` the copies and cards whose additions it has acquired (R350);
`ended` the exits of its children, by sequence number (05 R138). Absent keys: v, s and LSTAT 0, predicates false, flags
idle, depth 0, latch lanes 0, accumulator cells +0. -/
structure Group where
  uid : Nat
  launch : Option Nat
  ctx : Nat
  cell : Nat
  cellNo : Dword
  index : Nat
  ngroup : Nat
  lcore : Nat
  kimg : Dword
  nent : Nat
  args : Dword
  ent : Nat
  vr : Nat
  sr : Nat
  acct : Nat
  obuf : Nat
  tlsb : Nat
  tlsBase : Dword
  prio : Nat
  wids : List Dword
  stamp : Nat
  vregs : Assoc Word
  sregs : Assoc Word
  preds : Assoc Lanes
  lstat : Assoc Word
  pc : Assoc Dword
  depth : Assoc Nat
  rstack : Assoc Dword
  flags : Assoc Nat
  latch : Assoc Dword
  latchOk : BitVec 4
  unacked : Nat
  region : Region
  resume : Option (Nat × Bool)
  buf : List BufItem
  fenceSet : List Nat
  fences : List Rel
  ldbc : Bool
  clause : Option Clause
  pend : List Pend
  wait : Wait
  readyAt : Option Nat
  urgent : Bool
  view : View
  viewU : View
  reads : List ReadRec
  heard : List (Bool × Rel)
  covers : List (Nat × Path)
  coversK : List (Nat × Path)
  jobs : List Nat
  intrap : Bool
  shadow : Option (Region × TrapRec)
  taddr : Dword
  tscr : Assoc Dword
  taking : Option TrapRec
  late : Option TrapRec
  bars : Assoc BarRec
  parent : Option Nat
  seqNo : Nat
  kids : List Kid
  ended : List (Nat × Rel)
  acc : Assoc Acc56
  accPoison : List Nat
  engine : Option Nat
  deriving DecidableEq, Repr

/-! ### Cells, matrix engine and bus -/

/-- A barrier (18 R358). `captured` is a gang barrier's register value, `rels` the phase's arrivals as releases (17 R345). -/
structure Barrier where
  phase : BitVec 32
  arrived : BitVec 32
  captured : BitVec 32
  rels : List Rel
  deriving DecidableEq, Repr

/-- A member of a gang operation (12 R291, R292). -/
structure Member where
  unit : Nat
  uid : Nat
  gi : Nat
  x : BodyMma
  record : BitVec 128
  tok : Option Nat
  addr : Dword
  idx : Nat
  act : Lanes
  deriving DecidableEq, Repr

/-- An open rendezvous latch (12 R291). -/
structure Latch where
  value : BitVec 32
  zero : Bool
  x : BodyMma
  members : List Member
  deriving DecidableEq, Repr

/-- A published step of B (12 R300): the cell and the group that published it, and the record as it was then. -/
structure BusStep where
  id : Nat
  cell : Nat
  uid : Nat
  tok : Option Nat
  record : BitVec 128
  hb : BitVec 4
  kb : BitVec 12
  mask : BitVec 4
  n128 : Bool
  ctx : Nat
  deriving DecidableEq, Repr

/-- An entry of a core's bus subscription queue, with the group that subscribed (12 R301). -/
structure BusSub where
  chan : Nat
  count : Nat
  uid : Nat
  tok : Option Nat
  ctx : Nat
  deriving DecidableEq, Repr

/-- A started matrix operation (12 R292, R298, R302): B is the record `hb` of the own cell or, on the bus, the step it took,
with the bytes and the poison of the publisher's range at its delivery. -/
structure MatOp where
  id : Nat
  cell : Nat
  value : BitVec 32
  zero : Bool
  x : BodyMma
  members : List Member
  hb : Option (BitVec 128)
  step : Option BusStep
  ctx : Nat
  bshare : Assoc Byte
  bpoison : List Nat
  deriving DecidableEq, Repr

/-- The state that a cell owns (12 R283, 18 R358). Absent keys: gang 0, handle unreserved, mask all ones, share byte
0. Barriers 0 to 7 are the gang barriers, 8 the cell barrier; absent, phase 0 and empty. -/
structure CellSt where
  uid : Nat
  core : Option Nat
  ctx : Nat
  launch : Option Nat
  ngroup : Nat
  obuf : Nat
  gangs : Assoc (BitVec 32)
  rdv : Assoc Latch
  handles : Assoc (BitVec 128)
  masks : Assoc (BitVec 256)
  share : Assoc Byte
  sharePoison : List Nat
  barriers : Assoc Barrier
  exited : BitVec 32
  wantSave : Bool
  deriving DecidableEq, Repr

/-- A saved group: its state with its wait for a page request, and the slot that it left. -/
structure SavedGroup where
  g : Group
  slot : Nat
  deriving DecidableEq, Repr

/-- A save image (21 R396 to R398, 03 R68) in save slot `slot`. `joiner` holds, for a group saved by JOIN, when it was
saved; `go` when PREEMPT bit 1, or a retention wake, returned a cell to the dispatcher; `spawn` is the core's spawn counter
(05 R136). -/
structure SaveImg where
  id : Nat
  ctx : Nat
  slot : Nat
  core : Nat
  cell : Option CellSt
  groups : List SavedGroup
  joiner : Option Nat
  go : Option Nat
  spawn : Nat
  deriving DecidableEq, Repr

/-! ### Cores, clusters, dies -/

/-- A queued child of the overflow ring (03 R65): which ring entry, its number, its parent, the parent's slot, its
sequence number, the stores that it waits for (05 R137), its parent's cell number, its base WID and its entry. -/
structure RingChild where
  entry : Nat
  uid : Nat
  parent : Nat
  parentSlot : Nat
  seqNo : Nat
  stores : List Nat
  cellNo : Dword
  base : Dword
  ent : Nat
  deriving DecidableEq, Repr

/-- A core's state outside its groups. Caches hold whole lines by line address: 128 bytes for code, 128 for data. -/
structure CoreSt where
  stamp : Nat
  spawn : Nat
  rings : Assoc (Nat × List RingChild)
  l1 : Assoc (List Byte)
  kcache : Assoc (List Byte)
  icache : Assoc (List Byte)
  bus : List BusSub
  steps : List BusStep
  ops : List MatOp
  launches : List Nat
  deriving DecidableEq, Repr

/-- A cluster (23, 21 R401, R402). `speed` is in fifths of a core cycle per ns: 18, 19 or 20; `cycle` counts millionths of a
fifth; `lag` is how far its reading of the timer lies behind `now` (R423). Of its charge windows: the estimate `est` of the
window that runs, the part `shares` of each context in it, the same of the window before, and the device's estimate
`coming` for the next (R412, R415, R421); `lighter` while it is to perform ballast, with the operations performed, and
`heldIn` once a hold has begun in the window; `window` is when the last one was judged (R413). `hold` is the core cycle at
which a hold ends at the latest. -/
structure ClusterSt where
  cycle : Nat
  speed : Nat
  lag : Nat
  hold : Option Nat
  est : Nat
  shares : Assoc Nat
  prevEst : Nat
  prevShares : Assoc Nat
  coming : Nat
  lighter : Bool
  ballast : Nat
  heldIn : Bool
  window : Nat
  asleep : Bool
  offline : Bool
  idleSince : Nat
  deriving DecidableEq, Repr

/-- A die (24 R435, 09 R231, 23 R417, R418): `noClaim` intervals have ended without a claim; `boundary` is the last
interval boundary served. -/
structure DieSt where
  power : Bool
  ticket : Nat
  ptr : Nat
  permits : Nat
  noClaim : Nat
  boundary : Nat
  deriving DecidableEq, Repr

/-! ### The fabric -/

/-- Ordering classes (10 R250). -/
inductive OrdClass where
  | strict | release | bulk | push
  deriving DecidableEq, Repr

/-- What a packet does at its target (09 R240, R242, R243; 11 R275). -/
inductive PBody where
  | write (data : List (Nat × Byte)) (full : List Nat) (poison : List Nat)
  | fill (start n : Nat) (set : Bool)
  | rmw (op : BitVec 4) (wide : Bool) (v w : Dword)
  | marker
  deriving DecidableEq, Repr

/-- A packet in flight (10 R250, R251). `home` 0 to 15 names its target stack, 16 the register space, 17 the basin of the
sender's own die, which it reaches without the fabric. `stamp` is its place in the program order of its group; `after` are
packets whose acknowledgment it waits for (17 R357); `rel` is the scope of a release access, which waits for every earlier
access of its group (17 R344), and `rels` the fences that release it (R346). -/
structure Packet where
  stamp : Nat
  src : Nat
  unit : Nat
  uid : Nat
  home : Nat
  cls : OrdClass
  seq : Option Nat
  accepted : Bool
  trip : Trip
  glob : Option Dword
  pa : Nat
  body : PBody
  tok : Option Nat
  ctx : Option Nat
  after : List Nat
  rel : Option Nat
  rels : List Rel
  deriving DecidableEq, Repr

/-- What another package asks of this one (10 R259; 09 R234, R245): a write, which may be a release at a scope, a read, an
atomic, and a subscription of one of its slots, made or removed. -/
inductive ForeignReq where
  | write (data : List Byte) (rel : Option Nat)
  | read (n : Nat)
  | rmw (op : BitVec 4) (wide : Bool) (v w : Dword)
  | sub (slot : Nat)
  | unsub (slot : Nat)
  deriving DecidableEq, Repr

/-- A subscription request on its way to the home (09 R245); `prev` are the slot's granules whose bits it cleared. -/
structure SubReq where
  die : Nat
  off : Nat
  granule : Nat
  prev : List Nat
  ctx : Nat
  unit : Nat
  uid : Nat
  tok : Nat
  lane : Nat
  deriving DecidableEq, Repr

/-- What a global packet is: a store or an atomic without a result of this package, a lane (unit, uid, token, lane), a
subscription of this package, or another package's request. -/
inductive GlobWhat where
  | store (p : Packet)
  | lane (unit uid tok lane : Nat)
  | sub (q : SubReq)
  | foreign (r : ForeignReq)
  deriving DecidableEq, Repr

/-- A global packet (10 R259) on its way to an Izeus port or, from another package, to its target. `src` is its source, of
another package its identifier there above 2^16 and the port; `port` is the port of its lookup and then the one by which it
leaves; `home` the stack toward which it has been routed, with its sequence number and its way; `out` once it has left the
package and waits for its answer. -/
structure GlobPacket where
  id : Nat
  addr : Dword
  port : Nat
  crossings : Nat
  src : Nat
  ctx : Option Nat
  home : Option Nat
  seq : Nat
  trip : Trip
  out : Bool
  what : GlobWhat
  deriving DecidableEq, Repr

/-- A store performed and not yet acknowledged (09 R229), with the way of its response. -/
structure Ack where
  stamp : Nat
  unit : Nat
  uid : Nat
  tok : Option Nat
  ctx : Option Nat
  trip : Trip
  deriving DecidableEq, Repr

/-- Whose write it is (17 R342, R346): the agent, the path, the copy or card that it belongs to (0 for none), the place in
its group's program order, whether its page was a U page, whether it is a read-modify-write, and the releases that it
carries. -/
structure Author where
  who : Party
  path : Path
  job : Nat
  prog : Nat
  u : Bool
  rmw : Bool
  rels : List Rel
  deriving DecidableEq, Repr

/-- A write as performed, in the order of `old`, which for each byte is its coherence order (17 R343): its stamp, its author, the bytes
before it, the full bits that it set, as ranges of granules, and how far its bytes have moved since (R356). -/
structure OldBytes where
  stamp : Nat
  author : Author
  data : List (Nat × Byte)
  full : List (Nat × Nat)
  shift : Int
  deriving DecidableEq, Repr

/-! ### Translation -/

/-- A translation that a TLB may hold (21 R381): context, 64 KiB region, and what the walk found; `leaves` are the
addresses of the leaf entries that its walk used, `gpas` the guest-physical regions. -/
structure TlbEntry where
  ctx : Nat
  region : Nat
  base : Nat
  kind : PageKind
  r : Bool
  w : Bool
  x : Bool
  sup : Bool
  leaves : List Nat
  gpas : List Nat
  deriving DecidableEq, Repr

/-- An outstanding page request (21 R383). -/
structure PageReq where
  id : Nat
  ctx : Nat
  stage : Nat
  fn : Nat
  srcfn : Nat
  region : Nat
  level : Nat
  reason : Nat
  acc : Nat
  tag : Option Nat
  written : Bool
  deriving DecidableEq, Repr

/-- A page migration in progress (21 R387), or a move of the tier agent (11 R281). -/
structure Move where
  id : Nat
  part : Nat
  old : Nat
  new : Nat
  size : Nat
  ptea : Nat
  ctr : Nat
  object : Option Nat
  deriving DecidableEq, Repr

/-! ### Standing loads -/

/-- Who receives the pushes of a watched granule (09 R233, 03 R55, R59): a slot here, a dispatcher, or a slot of the package
beyond a port. -/
inductive Watcher where
  | slot (die off : Nat)
  | publish (p n : Nat)
  | dep (launch j : Nat)
  | far (port slot : Nat)
  deriving DecidableEq, Repr

/-- A subscriber record (09 R233). -/
structure Sub where
  granule : Nat
  who : Watcher
  ctx : Nat
  deriving DecidableEq, Repr

/-- State of a slot record (09 R233, R245 to R247). -/
inductive SlotSt where
  | awaiting | active | removing
  deriving DecidableEq, Repr

/-- A record of a slot directory; `unsub` are the UNSUB lanes that wait for the home: unit, uid, token. -/
structure SlotRec where
  ring : Bool
  granule : Nat
  ctx : Nat
  st : SlotSt
  widx : Nat
  ovr : Nat
  unsub : List (Nat × Nat × Nat)
  deriving DecidableEq, Repr

/-- A push in flight (09 R234), with the poison of its granule, its way, and the write whose value it carries, with what
happens before it (17 R354). -/
structure Push where
  stamp : Nat
  src : Nat
  who : Watcher
  data : List Byte
  bad : Bool
  trip : Trip
  wrote : Nat
  rels : List Rel
  deriving DecidableEq, Repr

/-! ### Launches -/

/-- Where a launch stands (03, 24 R424). -/
inductive LaunchSt where
  | pending | ready | placing | running
  deriving DecidableEq, Repr

/-- A launch in flight: the words read (02 R30), the satisfied dependences, the condition word as the instant of readiness
found it (03 R61), none where it could not be read, what happens before its threads (17 R347), and the deal; `skipped` once its skipped entries have been reported. -/
structure Launch where
  part : Nat
  list : Nat
  seq : Nat
  ctx : Nat
  record : Nat
  words : List Dword
  side : List Dword
  tlsb : Nat
  nent : Nat
  codeBase : Dword
  codeSz : Nat
  start : Dword
  vr : Nat
  sr : Nat
  acct : Nat
  obuf : Nat
  sat : BitVec 4
  poll : BitVec 4
  st : LaunchSt
  readyAt : Nat
  cond : Option Dword
  view : View
  skipped : Bool
  nextCell : Nat
  waiting : List Nat
  turn : Nat
  live : Nat
  ended : Nat
  deriving DecidableEq, Repr

/-- Per launch list: MIRROR disabled (03 R63), the PUBLISH fault recorded, the subscription held. -/
structure ListSt where
  noMirror : Bool
  faulted : Bool
  poll : Bool
  deriving DecidableEq, Repr

/-! ### Copies, cards, engines -/

/-- What an agent's access waits for (21 R385, R391): page requests, and whether one of them was cancelled. -/
structure Await where
  reqs : List Nat
  dead : Bool
  deriving DecidableEq, Repr

/-- Where a copy reads or writes its image (11 R266, R272). -/
inductive CopyEnd where
  | basin (die off : Nat)
  | ob (cell k off : Nat)
  | va (a : Dword)
  deriving DecidableEq, Repr

/-- How a copy has ended: the engine that performed it, 6 × stack + engine, the reason of a failure, the count, and the
poison. -/
structure CopyFin where
  place : Nat
  err : Nat
  count : Dword
  poff : Option Nat
  pbytes : Nat
  deriving DecidableEq, Repr

/-- A copy request (11 R260, R267, R268, R272). `rels` are the fences of the group that issued it (17 R347); `record` none for a linear copy, whose source is `src`; `words` are the record's
once it has been read, and `place` the engine, 6 × stack + engine, once the request has passed to it. `fin` once its writes
have been performed, while its addition waits. -/
structure CopyReq where
  id : Nat
  ctx : Nat
  core : Nat
  record : Option Dword
  out : Bool
  origin : List (BitVec 32)
  img : CopyEnd
  src : Dword
  len : Dword
  mask : Bool
  handle : Option (BitVec 128)
  ctr : Option Dword
  scope : BitVec 4
  card : Option Nat
  priv : Bool
  rels : List Rel
  words : List Dword
  place : Option Nat
  fin : Option CopyFin
  aw : Await
  deriving DecidableEq, Repr

/-- An issued COPYM (11 R269): `place` is the engine of its slice once its operation has started, `aw` waits for its slice,
`caw` for its counter; `landed` are the slices that its counter has counted. -/
structure CopymReq where
  id : Nat
  ctx : Nat
  core : Nat
  n4 : Bool
  k : BitVec 4
  record : Dword
  origin : List (BitVec 32)
  off : Nat
  cell : Nat
  handle : BitVec 128
  ctr : Dword
  scope : BitVec 4
  priv : Bool
  rels : List Rel
  place : Nat
  aw : Await
  caw : Await
  landed : List Nat
  deriving DecidableEq, Repr

/-- A started COPYM operation: the record's words, the reason for which all of it fails, its members, the slices whose
bytes have landed, and those that have failed. -/
structure CopymOp where
  id : Nat
  n4 : Bool
  words : List Dword
  err : Nat
  members : List CopymReq
  moved : List Nat
  failed : List Nat
  deriving DecidableEq, Repr

/-- A job card in flight (02 R47 to R49, 14 R312 to R316): `place` is the engine of a copy card's copy, and `fin` its ERR once
its addition has been made or discarded (R320). -/
structure Card where
  id : Nat
  va : Dword
  words : List Dword
  ctx : Nat
  core : Nat
  list : Nat
  rels : List Rel
  deps : List Nat
  running : Bool
  work : Bool
  err : Nat
  poff : Option Nat
  pbytes : Nat
  inc : Dword
  place : Nat
  fin : Option Nat
  aw : Await
  deriving DecidableEq, Repr

/-- The addition of 2^63 that a rejected card's counter has still to receive, while it waits for a page request (14 R313). -/
structure Owed where
  id : Nat
  ctx : Nat
  core : Nat
  va : Dword
  err : Nat
  ctr : Dword
  scope : Nat
  aw : Await
  deriving DecidableEq, Repr

/-- An asynchronous engine instruction in progress (14 R322); `words` are those of the records that it has read. -/
structure EngAsync where
  id : Nat
  ins : Instr
  streams : Assoc (Dword × Dword)
  arg : Dword
  ctr : Option (Dword × BitVec 4)
  tok : Option Nat
  clause : Dword
  words : List Dword
  fin : Option CopyFin
  aw : Await
  deriving DecidableEq, Repr

/-- The weir engine of a stack beside its group record (14 R318). -/
structure EngineSt where
  card : Nat
  streams : Assoc (Dword × Dword)
  work : List EngAsync
  err : Nat
  poff : Option Nat
  pbytes : Nat
  deriving DecidableEq, Repr

/-- A route job in one of the four slots of a stack's route engine (14 R330, R334): the forms that it has not ended, and
the record's words once the first of them has begun. -/
structure RouteJob where
  id : Nat
  stack : Nat
  ctx : Nat
  record : Dword
  forms : List Nat
  words : List Dword
  card : Option Nat
  eng : Option Nat
  aw : Await
  deriving DecidableEq, Repr

/-- The requests of OBJREQ and tier cards (11 R279, R282). -/
inductive TierKind where
  | promote | demote | touch
  deriving DecidableEq, Repr

/-- A request of a tier agent: `t0` once a promote has been accepted for allocation (R280), `age` the last promote or touch of its
object accepted since, `fin` once it is decided. -/
structure TierReq where
  id : Nat
  part : Nat
  ctx : Nat
  entry : Dword
  kind : TierKind
  ctr : Option Dword
  scope : BitVec 4
  card : Option Nat
  priv : Bool
  t0 : Option Nat
  age : Nat
  fin : Option Nat
  aw : Await
  deriving DecidableEq, Repr

/-- The states of an object (11 R276). -/
inductive ObjSt where
  | hbm | promoting | basin | demoting
  deriving DecidableEq, Repr

/-- An object that a tier agent knows, by the physical address of its entry (11 R276); `sampled` is the last 1 µs
interval in which an access set its age, and `due` says that the entry has still to show it (R278). -/
structure Object where
  part : Nat
  entry : Nat
  die : Nat
  hpa : Nat
  va : Dword
  size : Nat
  st : ObjSt
  off : Nat
  age : Nat
  sampled : Nat
  due : Bool
  deriving DecidableEq, Repr

/-! ### The package -/

/-- What firmware does apart from writing registers: it measures the topology and extends MR3 to MR7 (24 R431), and it
writes memory, which it reaches before any partition does (01 R25). -/
inductive FirmAct where
  | measure
  | extend (i : Nat) (d : BitVec 384)
  | store (pa : Nat) (data : List Byte)
  deriving DecidableEq, Repr

/-- What Bilael does to the timer (23 R422): it sets it once, and corrects its rate; `drift` as in the state. -/
inductive TimerAct where
  | set (ns : Nat)
  | rate (drift : Nat)
  deriving DecidableEq, Repr

/-- What this package has sent to another: through a port, for a source or a slot there, these bytes, or a failure (10 R259;
09 R234). -/
structure Sent where
  port : Nat
  dest : Nat
  fail : Bool
  data : List Byte
  deriving DecidableEq, Repr

/-- Who moves next. The schedule is the model's own, and plain data: an event of the table, one instruction of a
clause in flight, a lane of a load or atomic performed ahead of its flag, time, the device's estimate of the charge of a
cluster's coming window (23 R415), energy that no instruction or action accounts for (R421), what firmware and Bilael do
of themselves, the links and attachments that training will find at fault (24 R428), the first packet of a channel crossing its link (10 R249), and what
other packages do: answer a global packet (0: done; for a subscription 1: no free record; else RouteFail), write their own
memory, and send a packet (10 R259). -/
inductive Turn where
  | event (i : Instr)
  | issue (unit : Nat)
  | perform (unit tok lane : Nat)
  | tick (ns : Nat)
  | estimate (die cluster n : Nat)
  | charge (ctx : Nat) (units : Nat)
  | house (part : Nat) (units : Nat)
  | firmware (a : FirmAct)
  | timer (a : TimerAct)
  | wiring (bad : List Nat)
  | cross (chan : Nat)
  | remote (k : Nat) (ans : Nat)
  | far (data : List (Nat × Byte))
  | foreign (port crossings : Nat) (addr : Dword) (src : Nat) (r : ForeignReq)
  deriving DecidableEq, Repr

/-- The whole package. Absent keys of `regs` hold the register's reset value; of `cores`, `clusters` and `dies` the
state at reset. Keys of `groups` are issuer numbers: (48d + p) × 32 + slot, and 12288 + stack for a weir engine.
`views` holds, by the number
of a copy or card, what happens before its work (17 R347), and `fences` the FENCEs performed, in the fence order (R348).
`far` holds the bytes of other packages that this package has seen written, by global address, `farPoison` their poisoned
granules (10 R257), `farSubs` the subscriptions of this package there (09 R245), and `outbox` what it has sent to them in
answer or as pushes. `seqs` and `done` count, by source and target, the numbers taken and performed (10 R250), and `buckets`
the quarters of a byte in a contract's bucket, below 0 while a transfer performed whole is still to be paid for (R252).
`joinTries` lists, by number, the waiting joiners
whose save has been refused, and whether it is to be tried again (03 R68). `drift` is the nominal time, in
ns, in which the timer counts a million (23 R422), and `timerSet` says that Bilael may set it no more; `wiring` lists the
links and attachments that training finds at fault (24 R428). -/
structure State where
  now : Nat
  drift : Nat
  timerSet : Bool
  agenda : List Turn
  cur : Nat
  draw : Nat
  uid : Nat
  mem : List Host.Cell
  blankEpoch : Assoc Nat
  poison : List Nat
  full : List Nat
  regs : Assoc Dword
  groups : Assoc Group
  cells : Assoc CellSt
  saved : List SaveImg
  joinTries : Assoc Bool
  launches : Assoc Launch
  lists : Assoc ListSt
  cores : Assoc CoreSt
  clusters : Assoc ClusterSt
  dies : Assoc DieSt
  packets : List Packet
  seqs : Assoc Nat
  done : Assoc Nat
  buckets : Assoc Int
  acks : List Ack
  old : List OldBytes
  views : Assoc View
  fences : List Rel
  tlb : List TlbEntry
  requests : List PageReq
  subs : Assoc (List Sub)
  subReqs : List SubReq
  slots : Assoc SlotRec
  pushes : List Push
  copies : List CopyReq
  copyms : List CopymReq
  copymOps : List CopymOp
  cards : List Card
  owed : List Owed
  engines : Assoc EngineSt
  routeJobs : List RouteJob
  tierReqs : List TierReq
  objects : List Object
  moves : List Move
  evSeq : Assoc Nat
  evLost : Assoc Nat
  links : List Nat
  globals : List GlobPacket
  far : Assoc Byte
  farPoison : List Nat
  farSubs : List Sub
  outbox : List Sent
  wiring : List Nat
  safeMode : Bool
  fwUp : Bool
  mr : Assoc (BitVec 384)
  flash : List Byte
  energy : Assoc Nat
  deriving DecidableEq, Repr

/-- Why the machine stops with a fault. -/
inductive Fault where
  /-- Raised by every instruction: the issuer that `cur` names has no clause in flight. `step` never issues there.
  Safe. -/
  | noIssuer
  deriving DecidableEq, Repr

/-- Why an instruction has no meaning. -/
inductive Refusal where
  /-- An arm of `exec` that is not modelled yet. Safe. -/
  | notModelled (mnemonic : String)
  deriving DecidableEq, Repr

/-- The package right after reset (spec 24 R428 to R431; INVENTORY.md, State). -/
def State.reset : State where
  now := 0
  drift := 1000000
  timerSet := false
  agenda := []
  cur := 0
  draw := 0
  uid := 0
  mem := []
  blankEpoch := []
  poison := []
  full := []
  regs := []
  groups := []
  cells := []
  saved := []
  joinTries := []
  launches := []
  lists := []
  cores := []
  clusters := []
  dies := []
  packets := []
  seqs := []
  done := []
  buckets := []
  acks := []
  old := []
  views := []
  fences := []
  tlb := []
  requests := []
  subs := []
  subReqs := []
  slots := []
  pushes := []
  copies := []
  copyms := []
  copymOps := []
  cards := []
  owed := []
  engines := []
  routeJobs := []
  tierReqs := []
  objects := []
  moves := []
  evSeq := []
  evLost := []
  links := []
  globals := []
  far := []
  farPoison := []
  farSubs := []
  outbox := []
  wiring := []
  safeMode := false
  fwUp := false
  mr := []
  flash := []
  energy := []

end Sys2Proof.Machine
end

