-- ==== Sys2Proof/Machine/Assoc.lean ====
section
/-! DEFINITION. Operations on the sparse tables of State. Every one keeps keys rising, so that equal tables are equal
data. -/

namespace Sys2Proof.Machine

/-- The value at a key. -/
def aget {α : Type} : Assoc α → Nat → Option α
  | [], _ => none
  | (j, v) :: t, k => if j = k then some v else aget t k

/-- Writes a key, in its place. -/
def aput {α : Type} : Assoc α → Nat → α → Assoc α
  | [], k, v => [(k, v)]
  | (j, x) :: t, k, v =>
    if k < j then (k, v) :: (j, x) :: t else if j = k then (k, v) :: t else (j, x) :: aput t k v

/-- Removes a key. -/
def adel {α : Type} (t : Assoc α) (k : Nat) : Assoc α := t.filter fun x => x.1 != k

/-- The value at a key, `d` where there is none. -/
def agetD {α : Type} (d : α) (t : Assoc α) (k : Nat) : α := (aget t k).getD d

/-- Writes a key of a table whose absent keys hold `d`: writing `d` removes the key. -/
def asetD {α : Type} [DecidableEq α] (d : α) (t : Assoc α) (k : Nat) (v : α) : Assoc α :=
  if v = d then adel t k else aput t k v

/-- Keys strictly rising. -/
def arising {α : Type} : Assoc α → Bool
  | [] => true
  | [_] => true
  | (j, _) :: (k, v) :: t => decide (j < k) && arising ((k, v) :: t)

/-- A sorted list of numbers as a set: membership is `elem`. -/
def sput : List Nat → Nat → List Nat
  | [], k => [k]
  | j :: t, k => if k < j then k :: j :: t else if j = k then j :: t else j :: sput t k

/-- Removes a number. -/
def sdel (t : List Nat) (k : Nat) : List Nat := t.filter (· != k)

/-- Adds or removes a number. -/
def sset (t : List Nat) (k : Nat) (b : Bool) : List Nat := if b then sput t k else sdel t k

/-- Numbers strictly rising. -/
def srising : List Nat → Bool
  | [] => true
  | [_] => true
  | j :: k :: t => decide (j < k) && srising (k :: t)

/-- Applies a function to the first element that a test picks. -/
def modifyFirst {α : Type} (p : α → Bool) (f : α → α) : List α → List α
  | [] => []
  | x :: t => if p x then f x :: t else x :: modifyFirst p f t

/-- The first element that a test picks, and the list without it. -/
def takeFirst {α : Type} (p : α → Bool) : List α → Option (α × List α)
  | [] => none
  | x :: t =>
    if p x then some (x, t)
    else
      match takeFirst p t with
      | some (y, r) => some (y, x :: r)
      | none => none

/-- Inserts by a key, behind equal keys: the step of an insertion sort. -/
def insertBy {α : Type} (key : α → Nat) (x : α) : List α → List α
  | [] => [x]
  | y :: t => if key x < key y then x :: y :: t else y :: insertBy key x t

/-- Sorts by a key, stably. -/
def sortBy {α : Type} (key : α → Nat) (l : List α) : List α := l.foldl (fun t x => insertBy key x t) []

/-- The element with the least key, the first of several. -/
def leastBy {α : Type} (key : α → Nat) (l : List α) : Option α := (sortBy key l).head?

/-- Runs a function that may fail over a list, from the left. -/
def foldE {α β ε : Type} (f : β → α → Except ε β) : β → List α → Except ε β
  | b, [] => .ok b
  | b, a :: t =>
    match f b a with
    | .ok b' => foldE f b' t
    | .error e => .error e

end Sys2Proof.Machine
end

