-- ==== Sys2Proof/Machine/Memory.lean ====
section
/-! DEFINITION. Memory by physical address: HBM and the basin windows (spec 01 R19), poison by 16-byte granule
(21 R400), and the basins' full bits (09 R230). -/

namespace Sys2Proof.Machine

/-- The part of memory whose contents became undefined together: a set of HBM (01 R25), or 16 + d, the basin of die d. -/
def epochKey (a : Nat) : Nat := if a < 2 ^ 40 then a / 2 ^ 37 else 16 + (a - 2 ^ 40) / 2 ^ 28

/-- What an address that the memory does not list reads as: 0, and a free value where the contents became undefined. -/
def blank (ep : Assoc Nat) (a : Nat) : Byte :=
  match aget ep (epochKey a) with
  | none => 0
  | some e => Config.freeByte e a

/-- Reads a byte of a memory list. -/
def memGet (ep : Assoc Nat) (m : List Host.Cell) (a : Nat) : Byte := (aget m a).getD (blank ep a)

/-- Writes a byte of a memory list; a byte equal to what an unlisted address reads as is not listed. -/
def memSet (ep : Assoc Nat) (m : List Host.Cell) (a : Nat) (b : Byte) : List Host.Cell :=
  if b = blank ep a then adel m a else aput m a b

/-- The canonical form of a memory: addresses strictly rising, no entry equal to what an unlisted address reads as. -/
def Memory.wf (ep : Assoc Nat) (m : List Host.Cell) : Bool := arising m && m.all fun c => c.2 != blank ep c.1

/-- Reads a byte of memory. -/
def State.byte (s : State) (a : Nat) : Byte := memGet s.blankEpoch s.mem a

/-- Writes a byte of memory. -/
def State.setByte (s : State) (a : Nat) (b : Byte) : State := { s with mem := memSet s.blankEpoch s.mem a b }

/-- Reads `n` bytes from an address. -/
def State.bytes (s : State) (a : Nat) : Nat → List Byte
  | 0 => []
  | n + 1 => s.byte a :: s.bytes (a + 1) n

/-- The number that bytes hold, little-endian (00 R1). -/
def leNat : List Byte → Nat
  | [] => 0
  | b :: t => b.toNat + 256 * leNat t

/-- The `n` little-endian bytes of a number. -/
def natLE (x : Nat) : Nat → List Byte
  | 0 => []
  | n + 1 => BitVec.ofNat 8 x :: natLE (x / 256) n

/-- Reads an 8-byte word. -/
def State.word64 (s : State) (a : Nat) : Dword := BitVec.ofNat 64 (leNat (s.bytes a 8))

/-- Reads `n` 8-byte words (02 R30). -/
def State.words64 (s : State) (a : Nat) : Nat → List Dword
  | 0 => []
  | n + 1 => s.word64 a :: s.words64 (a + 8) n

/-- The granule of an address. -/
def granule (a : Nat) : Nat := a / 16

/-- True when the byte's granule is poisoned (21 R400). -/
def State.poisoned (s : State) (a : Nat) : Bool := s.poison.elem (granule a)

/-- Poisons, or clears the poison of, a granule. -/
def State.setPoison (s : State) (g : Nat) (b : Bool) : State := { s with poison := sset s.poison g b }

/-- The full bit of a basin granule (09 R230). -/
def State.isFull (s : State) (g : Nat) : Bool := s.full.elem g

/-- Sets or clears a full bit. -/
def State.setFull (s : State) (g : Nat) (b : Bool) : State := { s with full := sset s.full g b }

/-- The granules that a run of bytes touches. -/
def granulesOf (a n : Nat) : List Nat :=
  if n = 0 then [] else (List.range ((a + n - 1) / 16 - a / 16 + 1)).map (a / 16 + ·)

/-- A number read from a bit field of a record's words, low word first (02). -/
def field (ws : List Dword) (hi lo : Nat) : Nat :=
  (ws.foldr (fun w n => w.toNat + 2 ^ 64 * n) 0) / 2 ^ lo % 2 ^ (hi + 1 - lo)

/-- A bit field of one word. -/
def bits (w : Dword) (hi lo : Nat) : Nat := w.toNat / 2 ^ lo % 2 ^ (hi + 1 - lo)

/-- Replaces a bit field of one word. -/
def setBits (w : Dword) (hi lo : Nat) (x : Nat) : Dword :=
  let m : Dword := BitVec.ofNat 64 ((2 ^ (hi + 1 - lo) - 1) * 2 ^ lo)
  (w &&& ~~~m) ||| (BitVec.ofNat 64 (x * 2 ^ lo) &&& m)

end Sys2Proof.Machine
end

