-- ==== Sys2Proof/Machine/Crypto.lean ====
section
/-! DEFINITION. The functions that 24 R429 to R431 name: SHA-384, RSA-3072 with PKCS #1 v1.5, SLH-DSA-SHA2-192s. The spec names
them and does not write them out: PRESUMED, from the published standards (log entry 26): FIPS 180-4, RFC 8017, FIPS 205. -/

namespace Sys2Proof.Machine

/-! ### SHA-2 -/

/-- What tells SHA-256 and SHA-512 apart: the round constants, and the rotations and shifts of the four sums. -/
structure Sha2 (n : Nat) where
  ks : List (BitVec n)
  big0 : List Nat
  big1 : List Nat
  small0 : List Nat
  shift0 : Nat
  small1 : List Nat
  shift1 : Nat

/-- The round constants of SHA-512; those of SHA-256 are the upper halves of the first 64. -/
def sha512Ks : List (BitVec 64) :=
  [0x428A2F98D728AE22, 0x7137449123EF65CD, 0xB5C0FBCFEC4D3B2F, 0xE9B5DBA58189DBBC] ++
  [0x3956C25BF348B538, 0x59F111F1B605D019, 0x923F82A4AF194F9B, 0xAB1C5ED5DA6D8118] ++
  [0xD807AA98A3030242, 0x12835B0145706FBE, 0x243185BE4EE4B28C, 0x550C7DC3D5FFB4E2] ++
  [0x72BE5D74F27B896F, 0x80DEB1FE3B1696B1, 0x9BDC06A725C71235, 0xC19BF174CF692694] ++
  [0xE49B69C19EF14AD2, 0xEFBE4786384F25E3, 0x0FC19DC68B8CD5B5, 0x240CA1CC77AC9C65] ++
  [0x2DE92C6F592B0275, 0x4A7484AA6EA6E483, 0x5CB0A9DCBD41FBD4, 0x76F988DA831153B5] ++
  [0x983E5152EE66DFAB, 0xA831C66D2DB43210, 0xB00327C898FB213F, 0xBF597FC7BEEF0EE4] ++
  [0xC6E00BF33DA88FC2, 0xD5A79147930AA725, 0x06CA6351E003826F, 0x142929670A0E6E70] ++
  [0x27B70A8546D22FFC, 0x2E1B21385C26C926, 0x4D2C6DFC5AC42AED, 0x53380D139D95B3DF] ++
  [0x650A73548BAF63DE, 0x766A0ABB3C77B2A8, 0x81C2C92E47EDAEE6, 0x92722C851482353B] ++
  [0xA2BFE8A14CF10364, 0xA81A664BBC423001, 0xC24B8B70D0F89791, 0xC76C51A30654BE30] ++
  [0xD192E819D6EF5218, 0xD69906245565A910, 0xF40E35855771202A, 0x106AA07032BBD1B8] ++
  [0x19A4C116B8D2D0C8, 0x1E376C085141AB53, 0x2748774CDF8EEB99, 0x34B0BCB5E19B48A8] ++
  [0x391C0CB3C5C95A63, 0x4ED8AA4AE3418ACB, 0x5B9CCA4F7763E373, 0x682E6FF3D6B2B8A3] ++
  [0x748F82EE5DEFB2FC, 0x78A5636F43172F60, 0x84C87814A1F0AB72, 0x8CC702081A6439EC] ++
  [0x90BEFFFA23631E28, 0xA4506CEBDE82BDE9, 0xBEF9A3F7B2C67915, 0xC67178F2E372532B] ++
  [0xCA273ECEEA26619C, 0xD186B8C721C0C207, 0xEADA7DD6CDE0EB1E, 0xF57D4F7FEE6ED178] ++
  [0x06F067AA72176FBA, 0x0A637DC5A2C898A6, 0x113F9804BEF90DAE, 0x1B710B35131C471B] ++
  [0x28DB77F523047D84, 0x32CAAB7B40C72493, 0x3C9EBE0A15C9BEBC, 0x431D67C49C100D4C] ++
  [0x4CC5D4BECB3E42B6, 0x597F299CFC657E2A, 0x5FCB6FAB3AD6FAEC, 0x6C44198C4A475817]

def sha512Par : Sha2 64 := ⟨sha512Ks, [28, 34, 39], [14, 18, 41], [1, 8], 7, [19, 61], 6⟩
def sha256Par : Sha2 32 :=
  ⟨(sha512Ks.take 64).map fun (k : BitVec 64) => (k >>> 32).setWidth 32, [2, 13, 22], [6, 11, 25], [7, 18], 3, [17, 19], 10⟩

/-- The initial values of SHA-512 and of SHA-384; those of SHA-256 are the upper halves of SHA-512's. -/
def sha512Iv : List (BitVec 64) :=
  [0x6A09E667F3BCC908, 0xBB67AE8584CAA73B, 0x3C6EF372FE94F82B, 0xA54FF53A5F1D36F1] ++
  [0x510E527FADE682D1, 0x9B05688C2B3E6C1F, 0x1F83D9ABFB41BD6B, 0x5BE0CD19137E2179]
def sha384Iv : List (BitVec 64) :=
  [0xCBBB9D5DC1059ED8, 0x629A292A367CD507, 0x9159015A3070DD17, 0x152FECD8F70E5939] ++
  [0x67332667FFC00B31, 0x8EB44A8768581511, 0xDB0C2E0D64F98FA7, 0x47B5481DBEFA4FA4]
def sha256Iv : List (BitVec 32) := sha512Iv.map fun (x : BitVec 64) => (x >>> 32).setWidth 32

/-- The exclusive or of a word's rotations. -/
def rotSum {n : Nat} (x : BitVec n) (rs : List Nat) : BitVec n := rs.foldl (fun y r => y ^^^ x.rotateRight r) 0

/-- One round. -/
def shaRound {n : Nat} (p : Sha2 n) (k w : BitVec n) : List (BitVec n) → List (BitVec n)
  | [a, b, c, d, e, f, g, h] =>
    let t1 := h + rotSum e p.big1 + ((e &&& f) ^^^ (~~~e &&& g)) + k + w
    let t2 := rotSum a p.big0 + ((a &&& b) ^^^ (a &&& c) ^^^ (b &&& c))
    [t1 + t2, a, b, c, d + t1, e, f, g]
  | st => st

/-- The message schedule's next word, from the sixteen before it. -/
def shaNext {n : Nat} (p : Sha2 n) (win : List (BitVec n)) : BitVec n :=
  let x := win.getD 1 0
  let y := win.getD 14 0
  (rotSum y p.small1 ^^^ (y >>> p.shift1)) + win.getD 9 0 + (rotSum x p.small0 ^^^ (x >>> p.shift0)) + win.headD 0

/-- The rounds of a block; `win` holds the next sixteen words of the schedule. -/
def shaRounds {n : Nat} (p : Sha2 n) : List (BitVec n) → List (BitVec n) → List (BitVec n) → List (BitVec n)
  | [], _, st => st
  | k :: ks, win, st => shaRounds p ks (win.tail ++ [shaNext p win]) (shaRound p k (win.headD 0) st)

/-- The big-endian number of some bytes, and the big-endian bytes of a number. -/
def beNat (bs : List Byte) : Nat := bs.foldl (fun n b => 256 * n + b.toNat) 0
def natBE (x n : Nat) : List Byte := (natLE x n).reverse

/-- The sixteen words of a block. -/
def shaWords {n : Nat} (bs : List Byte) : List (BitVec n) :=
  (List.range 16).map fun i => BitVec.ofNat n (beNat ((bs.drop (n / 8 * i)).take (n / 8)))

/-- A number of blocks of `2 n` bytes. -/
def shaBlocks {n : Nat} (p : Sha2 n) : Nat → List Byte → List (BitVec n) → List (BitVec n)
  | 0, _, st => st
  | m + 1, bs, st =>
    let out := shaRounds p p.ks (shaWords (bs.take (2 * n))) st
    shaBlocks p m (bs.drop (2 * n)) (List.zipWith (· + ·) st out)

/-- The padding: a one bit, zeros, and the length in bits in the last `n / 4` bytes of a block. -/
def shaPad (n : Nat) (bs : List Byte) : List Byte :=
  let z := (2 * n - (bs.length + 1 + n / 4) % (2 * n)) % (2 * n)
  bs ++ (0x80 :: List.replicate z 0) ++ natBE (8 * bs.length) (n / 4)

/-- A digest's bytes. -/
def shaDigest {n : Nat} (p : Sha2 n) (iv : List (BitVec n)) (bs : List Byte) : List Byte :=
  let m := shaPad n bs
  (shaBlocks p (m.length / (2 * n)) m iv).flatMap fun w => natBE w.toNat (n / 8)

def sha256 (bs : List Byte) : List Byte := shaDigest sha256Par sha256Iv bs
def sha512 (bs : List Byte) : List Byte := shaDigest sha512Par sha512Iv bs

/-- SHA-384 (24 R429): the digest's bytes as one value, the first byte lowest. -/
@[irreducible] def sha384 (bs : List Byte) : BitVec 384 := BitVec.ofNat 384 (leNat ((shaDigest sha512Par sha384Iv bs).take 48))

/-! ### RSA-3072, PKCS #1 v1.5 -/

/-- A signature's message for SHA-384: the 384 bytes of the padded digest. -/
def rsaMessage (d : BitVec 384) : List Byte :=
  [0x00, 0x01] ++ List.replicate 314 0xFF ++
    [0x00, 0x30, 0x41, 0x30, 0x0D, 0x06, 0x09, 0x60, 0x86, 0x48, 0x01, 0x65, 0x03, 0x04, 0x02, 0x02, 0x05, 0x00, 0x04, 0x30] ++
    natLE d.toNat 48

/-- Verification (24 R429, R430): modulus and signature are little-endian fields; the exponent is 65,537. -/
@[irreducible] def rsaVerify (modulus : List Byte) (d : BitVec 384) (sig : List Byte) : Bool :=
  let m := leNat modulus
  let s := leNat sig
  decide (s < m) && ((List.range 16).foldl (fun x _ => x * x % m) s * s % m == beNat (rsaMessage d))

/-! ### SLH-DSA-SHA2-192s: n = 24, h = 63, d = 7, h' = 9, a = 14, k = 17, w = 16 -/

/-- An address (FIPS 205, 4.2) in its compressed form of 22 bytes: layer, tree, kind, and three words. -/
def slhAddr (layer tree kind w0 w1 w2 : Nat) : List Byte :=
  natBE layer 1 ++ natBE tree 8 ++ natBE kind 1 ++ natBE w0 4 ++ natBE w1 4 ++ natBE w2 4

/-- F, and H and T of several nodes. -/
def slhF (seed adrs m : List Byte) : List Byte := (sha256 (seed ++ List.replicate 40 0 ++ adrs ++ m)).take 24
def slhT (seed adrs m : List Byte) : List Byte := (sha512 (seed ++ List.replicate 104 0 ++ adrs ++ m)).take 24

/-- The digest of the message: MGF1 with SHA-512, 39 bytes. -/
def slhDigest (r seed root m : List Byte) : List Byte :=
  (sha512 (r ++ seed ++ sha512 (r ++ seed ++ root ++ m) ++ natBE 0 4)).take 39

/-- Digit `i` of `b` bits, counted from the first bit of the bytes. -/
def slhDigit (bs : List Byte) (b i : Nat) : Nat := beNat bs / 2 ^ (8 * bs.length - b * (i + 1)) % 2 ^ b

/-- A piece of 24 bytes. -/
def slhPiece (bs : List Byte) (i : Nat) : List Byte := (bs.drop (24 * i)).take 24

/-- The chain function: `s` steps from step `i`. -/
def slhChain (seed : List Byte) (adrs : Nat → List Byte) : Nat → Nat → List Byte → List Byte
  | 0, _, x => x
  | s + 1, i, x => slhChain seed adrs s (i + 1) (slhF seed (adrs i) x)

/-- The root of a tree from a node at height 0 and its authentication path: `adrs` gives the address of a node's height and index. -/
def slhClimb (seed : List Byte) (adrs : Nat → Nat → List Byte) : List (List Byte) → Nat → Nat → List Byte → List Byte
  | [], _, _, x => x
  | y :: path, z, i, x =>
    slhClimb seed adrs path (z + 1) (i / 2) (slhT seed (adrs (z + 1) (i / 2)) (if i % 2 = 0 then x ++ y else y ++ x))

/-- The WOTS+ public key of a signature of a node. -/
def slhWots (seed : List Byte) (layer tree key : Nat) (sig m : List Byte) : List Byte :=
  let msg := (List.range 48).map (slhDigit m 4)
  let sum := natBE (16 * msg.foldl (fun n x => n + (15 - x)) 0) 2
  let all := msg ++ (List.range 3).map (slhDigit sum 4)
  let tips := (all.zip (List.range 51)).flatMap fun x =>
    slhChain seed (fun j => slhAddr layer tree 0 key x.2 j) (15 - x.1) x.1 (slhPiece sig x.2)
  slhT seed (slhAddr layer tree 1 key 0 0) tips

/-- The root of an XMSS tree from its signature: 51 chains, and 9 nodes of the path. -/
def slhXmss (seed : List Byte) (layer tree leaf : Nat) (sig m : List Byte) : List Byte :=
  slhClimb seed (fun z i => slhAddr layer tree 2 0 z i) ((List.range 9).map fun i => slhPiece sig (51 + i)) 0 leaf
    (slhWots seed layer tree leaf sig m)

/-- The hypertree from layer `j` on. -/
def slhTree (seed : List Byte) : Nat → Nat → Nat → Nat → List Byte → List Byte → List Byte
  | 0, _, _, _, _, m => m
  | c + 1, j, tree, leaf, sig, m =>
    slhTree seed c (j + 1) (tree / 512) (tree % 512) (sig.drop 1440) (slhXmss seed j tree leaf sig m)

/-- The FORS public key: 17 trees of height 14. -/
def slhFors (seed : List Byte) (tree leaf : Nat) (sig md : List Byte) : List Byte :=
  let roots := (List.range 17).flatMap fun i =>
    let x := slhDigit md 14 i
    let p := (List.range 14).map fun j => slhPiece sig (15 * i + 1 + j)
    let i0 := i * 2 ^ 14 + x
    slhClimb seed (fun z k => slhAddr 0 tree 3 leaf z k) p 0 i0 (slhF seed (slhAddr 0 tree 3 leaf 0 i0) (slhPiece sig (15 * i)))
  slhT seed (slhAddr 0 tree 4 leaf 0 0) roots

/-- Verification (24 R429, R430) of D's bytes, with an empty context. -/
@[irreducible] def slhVerify (key : List Byte) (d : BitVec 384) (sig : List Byte) : Bool :=
  let seed := key.take 24
  let root := (key.drop 24).take 24
  let dg := slhDigest (sig.take 24) seed root ([0x00, 0x00] ++ natLE d.toNat 48)
  let tree := beNat ((dg.drop 30).take 7) % 2 ^ 54
  let leaf := beNat ((dg.drop 37).take 2) % 2 ^ 9
  let fors := slhFors seed tree leaf ((sig.drop 24).take 6120) (dg.take 30)
  sig.length == 16224 && slhTree seed 7 0 tree leaf (sig.drop 6144) fors == root

end Sys2Proof.Machine
end

