-- ==== Sys2Proof/Machine/Flags.lean ====
section
/-! DEFINITION. The bits of LSTAT (spec 06 R146) and every integer flag computation: saturation, carry and borrow,
overflow and division by zero (06 R149 to R151). A result comes with the LSTAT bits it sets. The conditions of
floating-point results are in Float.lean (07 R185). -/

namespace Sys2Proof.Machine

def lsDZ : Word := 0x1
def lsOV : Word := 0x2
def lsSAT : Word := 0x4
def lsNV : Word := 0x100
def lsDZF : Word := 0x200
def lsOF : Word := 0x400
def lsUF : Word := 0x800
def lsNX : Word := 0x1000
/-- The bits of LSTAT that exist. -/
def lsAll : Word := 0x1F07

/-- An exact signed result clamped to 32 bits (06 R149). -/
def satS (x : Int) : Word × Word :=
  if x < -(2 ^ 31) then (0x80000000, lsSAT)
  else if 2 ^ 31 - 1 < x then (0x7FFFFFFF, lsSAT)
  else (BitVec.ofInt 32 x, 0)

/-- An exact result clamped to 0 … 2^32 − 1 (06 R149). -/
def satU (x : Int) : Word × Word :=
  if x < 0 then (0, lsSAT)
  else if 2 ^ 32 - 1 < x then (0xFFFFFFFF, lsSAT)
  else (BitVec.ofInt 32 x, 0)

/-- IADD (06 R148, R149). -/
def addMode (mod : BitVec 2) (a b : Word) : Word × Word :=
  match mod.toNat with
  | 0 => (a + b, 0)
  | 1 => satS (a.toInt + b.toInt)
  | _ => satU ((a.toNat : Int) + b.toNat)

/-- ISUB (06 R148, R149). -/
def subMode (mod : BitVec 2) (a b : Word) : Word × Word :=
  match mod.toNat with
  | 0 => (a - b, 0)
  | 1 => satS (a.toInt - b.toInt)
  | _ => satU ((a.toNat : Int) - b.toNat)

/-- IABS and INEG: 0x8000_0000 has no positive counterpart (06 R149). -/
def negMode (sat : Bool) (x : Word) : Word × Word :=
  if x = 0x80000000 then (if sat then (0x7FFFFFFF, lsSAT) else (0x80000000, lsOV)) else (-x, 0)

/-- IADDC: sum and carry (06 R150). -/
def addCarry (a b : Word) (cin : Bool) : Word × Bool :=
  let t := a.toNat + b.toNat + (if cin then 1 else 0)
  (BitVec.ofNat 32 t, decide (2 ^ 32 ≤ t))

/-- ISUBB: difference and borrow (06 R150). -/
def subBorrow (a b : Word) (cin : Bool) : Word × Bool :=
  let t : Int := (a.toNat : Int) - b.toNat - (if cin then 1 else 0)
  (BitVec.ofInt 32 t, decide (t < 0))

/-- Quotient or remainder with the LSTAT bits of R151. -/
def divide (signed quot : Bool) (x y : Word) : Word × Word :=
  if y = 0 then
    (if quot then (if signed then (if x.toInt < 0 then 0x80000000 else 0x7FFFFFFF) else 0xFFFFFFFF) else x, lsDZ)
  else if signed = true ∧ x = 0x80000000 ∧ y = 0xFFFFFFFF then (if quot then 0x80000000 else 0, lsOV)
  else if signed then
    let q := x.toInt.tdiv y.toInt
    (BitVec.ofInt 32 (if quot then q else x.toInt - q * y.toInt), 0)
  else (BitVec.ofNat 32 (if quot then x.toNat / y.toNat else x.toNat % y.toNat), 0)

end Sys2Proof.Machine
end

