-- ==== Sys2Proof/Machine/Float.lean ====
section
/-! DEFINITION. Number formats to the last bit (spec 07): how a code decodes to a value, how a value rounds into a
code with the conditions reported, and exact arithmetic on values. -/

namespace Sys2Proof.Machine

/-- A value: NaN, an infinity, or (−1)^neg × m × 2^e. A zero keeps its sign. -/
inductive FVal where
  | nan
  | inf (neg : Bool)
  | fin (neg : Bool) (m : Nat) (e : Int)
  deriving DecidableEq, Repr

/-- How a format treats its top codes (07 R175, R184): infinities and NaNs, and overflow to infinity; the same codes
but saturating overflow (E5M2); one NaN and saturation (E4M3); neither. -/
inductive FStyle where
  | wide | sat | e4m3 | plain
  deriving DecidableEq, Repr

/-- A sign, exponent and fraction format (07 R173). -/
structure Fmt where
  man : Nat
  exp : Nat
  bias : Nat
  style : FStyle
  deriving DecidableEq, Repr

def fp32 : Fmt := ⟨23, 8, 127, .wide⟩
def fp16 : Fmt := ⟨10, 5, 15, .wide⟩
def bf16 : Fmt := ⟨7, 8, 127, .wide⟩
def e4m3 : Fmt := ⟨3, 4, 7, .e4m3⟩
def e5m2 : Fmt := ⟨2, 5, 15, .sat⟩
def e3m2 : Fmt := ⟨2, 3, 3, .plain⟩
def e2m1 : Fmt := ⟨1, 2, 1, .plain⟩
/-- The element formats of SD6 and SD4 under QUANT (08 R215). -/
def sd6 : Fmt := ⟨2, 2, 1, .plain⟩
def sd4 : Fmt := ⟨1, 1, 1, .plain⟩
def acc56 : Fmt := ⟨45, 10, 511, .wide⟩
/-- FP32⟨p⟩ by its fraction bits (08 R216); its codes are shifted left to FP32 codes. -/
def fp32p (p : Nat) : Fmt := ⟨p - 1, 8, 127, .wide⟩

/-- Rounding modes (07 R183), as the two bits of FN (08 R193). -/
inductive RMode where
  | rne | rz | ru | rd
  deriving DecidableEq, Repr

/-- The mode of two bits. -/
def rmode (x : BitVec 2) : RMode :=
  match x.toNat with
  | 0 => .rne
  | 1 => .rz
  | 2 => .ru
  | _ => .rd

/-- The number of significant bits. -/
def bitLen (n : Nat) : Nat := if n = 0 then 0 else n.log2 + 1

namespace Fmt

/-- All exponent bits set, fraction 0. -/
def infCode (F : Fmt) : Nat := (2 ^ F.exp - 1) * 2 ^ F.man
/-- The code of the largest finite magnitude (07 R175). -/
def maxCode (F : Fmt) : Nat :=
  match F.style with
  | .wide | .sat => F.infCode - 1
  | .e4m3 => 2 ^ (F.man + F.exp) - 2
  | .plain => 2 ^ (F.man + F.exp) - 1
/-- The canonical NaN (07 R175, R184). -/
def nanCode (F : Fmt) : Nat :=
  match F.style with
  | .wide | .sat => F.infCode + 2 ^ (F.man - 1)
  | .e4m3 => 2 ^ (F.man + F.exp) - 1
  | .plain => 0
/-- The sign bit. -/
def signBit (F : Fmt) (neg : Bool) : Nat := if neg then 2 ^ (F.man + F.exp) else 0
/-- The exponent of the lowest place of a subnormal. -/
def emin (F : Fmt) : Int := 1 - (F.bias : Int) - (F.man : Int)

/-- The value of a code (07 R174 to R176). -/
def decode (F : Fmt) (c : Nat) : FVal :=
  let neg := c.testBit (F.man + F.exp)
  let e := c / 2 ^ F.man % 2 ^ F.exp
  let f := c % 2 ^ F.man
  let top := 2 ^ F.exp - 1
  if e = top ∧ (F.style = .wide ∨ F.style = .sat) then (if f = 0 then .inf neg else .nan)
  else if e = top ∧ F.style = .e4m3 ∧ f = 2 ^ F.man - 1 then .nan
  else if e = 0 then .fin neg f F.emin
  else .fin neg (2 ^ F.man + f) ((e : Int) - (F.bias : Int) - (F.man : Int))

end Fmt

/-- Whether a magnitude whose integer part in units of the last place is `n`, with `rem` in 0 (exact), 1 (below half),
2 (half), 3 (above half) left over, rounds up (07 R183). -/
def roundsUp (mode : RMode) (neg : Bool) (n rem : Nat) : Bool :=
  match mode with
  | .rne => decide (rem = 3) || (decide (rem = 2) && n.testBit 0)
  | .rz => false
  | .ru => !neg && decide (rem ≠ 0)
  | .rd => neg && decide (rem ≠ 0)

/-- The integer part of m / 2^d and its remainder class. -/
def splitAt (m d : Nat) : Nat × Nat :=
  if bitLen m + 1 < d then (0, if m = 0 then 0 else 1)
  else
    let n := m / 2 ^ d
    let r := m % 2 ^ d
    (n, if r = 0 then 0 else if 2 * r < 2 ^ d then 1 else if 2 * r = 2 ^ d then 2 else 3)

/-- RoundToFormat with the conditions of R185 as LSTAT bits (07 R183 to R185). -/
def roundTo (F : Fmt) (mode : RMode) : FVal → Nat × Word
  | .nan => (F.nanCode, if F.style = .plain then lsNV ||| lsNX else 0)
  | .inf neg =>
    match F.style with
    | .wide | .sat => (F.signBit neg + F.infCode, 0)
    | _ => (F.signBit neg + F.maxCode, lsNV ||| lsNX)
  | .fin neg m e =>
    if m = 0 then (F.signBit neg, 0)
    else
      let u : Int := max ((bitLen m : Int) + e - 1 - (F.man : Int)) F.emin
      let (n, rem) := if u ≤ e then (m * 2 ^ (e - u).toNat, 0) else splitAt m (u - e).toNat
      let n := if roundsUp mode neg n rem then n + 1 else n
      let code := (u - F.emin).toNat * 2 ^ F.man + n
      if F.maxCode < code then
        (F.signBit neg +
          (if F.style = .wide ∧ ¬(mode = .rz ∨ (mode = .ru ∧ neg = true) ∨ (mode = .rd ∧ neg = false)) then F.infCode
            else F.maxCode), lsOF ||| lsNX)
      else
        (F.signBit neg + code,
          if rem = 0 then 0 else if code < 2 ^ F.man then lsUF ||| lsNX else lsNX)

/-- The value of an E8M0 code (07 R177). -/
def e8m0Decode (c : Nat) : FVal := if c = 255 then .nan else .fin false 1 ((c : Int) - 127)

/-- RoundToFormat for an E8M0 target (07 R184). -/
def e8m0Round (mode : RMode) : FVal → Nat × Word
  | .nan => (255, 0)
  | .inf _ => (255, lsNV ||| lsNX)
  | .fin neg m e =>
    if m = 0 then (0, lsNX)
    else
      let k : Int := (bitLen m : Int) + e - 1
      let pow := decide (m = 2 ^ (bitLen m - 1))
      if k < -127 then (0, lsUF ||| lsNX)
      else
        let half := 3 * 2 ^ (bitLen m - 1)
        let up := !pow &&
          match mode with
          | .ru => true
          | .rne => decide (half < 2 * m) || (decide (2 * m = half) && ((k + 127) % 2 != 0))
          | _ => false
        let k' := if up then k + 1 else k
        if 127 < k' then (254, lsOF ||| lsNX)
        else ((k' + 127).toNat, if pow && !neg then 0 else lsNX)

/-! ### Exact arithmetic -/

namespace FVal

/-- The negated value (08 R194). -/
def neg : FVal → FVal
  | .nan => .nan
  | .inf s => .inf (!s)
  | .fin s m e => .fin (!s) m e

/-- NaN test. -/
def isNan : FVal → Bool
  | .nan => true
  | _ => false

/-- Infinity test. -/
def isInf : FVal → Bool
  | .inf _ => true
  | _ => false

/-- Zero test. -/
def isZero : FVal → Bool
  | .fin _ m _ => m == 0
  | _ => false

/-- The sign; false for a NaN. -/
def sign : FVal → Bool
  | .nan => false
  | .inf s => s
  | .fin s _ _ => s

/-- The magnitude. -/
def abs : FVal → FVal
  | .nan => .nan
  | .inf _ => .inf false
  | .fin _ m e => .fin false m e

/-- The signed integer that m × 2^e is in units of 2^lo, for lo ≤ e. -/
def scaled (s : Bool) (m : Nat) (e lo : Int) : Int :=
  let n : Int := (m * 2 ^ (e - lo).toNat : Nat)
  if s then -n else n

/-- The exact sum. An exact zero takes its sign by R196, with `rd` true under the mode .rd. -/
def add (rd : Bool) : FVal → FVal → FVal
  | .nan, _ => .nan
  | _, .nan => .nan
  | .inf s, .inf t => if s = t then .inf s else .nan
  | .inf s, _ => .inf s
  | _, .inf t => .inf t
  | .fin s m e, .fin t n f =>
    if m = 0 ∧ n ≠ 0 then .fin t n f
    else if n = 0 ∧ m ≠ 0 then .fin s m e
    else
      let lo := min e f
      let x := scaled s m e lo + scaled t n f lo
      if x = 0 then .fin (if s = t then s else rd) 0 0 else .fin (decide (x < 0)) x.natAbs lo

/-- The exact product (08 R195, R196). -/
def mul : FVal → FVal → FVal
  | .nan, _ => .nan
  | _, .nan => .nan
  | .inf s, .inf t => .inf (s != t)
  | .inf s, .fin t n _ => if n = 0 then .nan else .inf (s != t)
  | .fin s m _, .inf t => if m = 0 then .nan else .inf (s != t)
  | .fin s m e, .fin t n f => .fin (s != t) (m * n) (e + f)

/-- True when a product is 0 × ∞ (08 R195). -/
def zeroInf (x y : FVal) : Bool := (x.isZero && y.isInf) || (x.isInf && y.isZero)

/-- Compares two values that are not NaN; −0 equals +0. -/
def lt : FVal → FVal → Bool
  | .nan, _ => false
  | _, .nan => false
  | .inf s, .inf t => s && !t
  | .inf s, _ => s
  | _, .inf t => !t
  | .fin s m e, .fin t n f =>
    let lo := min e f
    decide (scaled s m e lo < scaled t n f lo)

/-- Equality of values; −0 equals +0. -/
def eqv (x y : FVal) : Bool := !x.isNan && !y.isNan && !lt x y && !lt y x

/-- ⌊log2⌋ of a nonzero magnitude. -/
def floorLog2 : FVal → Int
  | .fin _ m e => (bitLen m : Int) + e - 1
  | _ => 0

/-- Multiplies by a power of two. -/
def scaleBy (k : Int) : FVal → FVal
  | .fin s m e => .fin s m (e + k)
  | x => x

end FVal

/-- RoundToIntegral of a finite magnitude: the integer, and whether the value was one (08 R198, R208). -/
def roundInt (mode : RMode) (neg : Bool) (m : Nat) (e : Int) : Nat × Bool :=
  if 0 ≤ e then (m * 2 ^ e.toNat, true)
  else
    let (n, rem) := splitAt m (-e).toNat
    (if roundsUp mode neg n rem then n + 1 else n, decide (rem = 0))

/-- An integer as a value. -/
def ofInt (x : Int) : FVal := .fin (decide (x < 0)) x.natAbs 0

/-- The FP32 value of a word. -/
def f32 (x : Word) : FVal := fp32.decode x.toNat

/-- RoundToFormat into FP32. -/
def toF32 (mode : RMode) (v : FVal) : Word × Word :=
  let (c, fl) := roundTo fp32 mode v
  (BitVec.ofNat 32 c, fl)

/-- FP32 addition rounded RNE, NaN canonical, no condition (06 R168, 09 R243, 14 R324). -/
def addF32 (x y : Word) : Word := (toF32 .rne ((f32 x).add false (f32 y))).1

/-! ### Arithmetic with its conditions (08 R195) -/

/-- A sum in a format, with NV and the conditions of the rounding. -/
def fsum (F : Fmt) (mode : RMode) (x y : FVal) : Nat × Word :=
  let v := x.add (mode == .rd) y
  if v.isNan then (F.nanCode, if x.isNan || y.isNan then 0 else lsNV) else roundTo F mode v

/-- A product in a format. -/
def fprod (F : Fmt) (mode : RMode) (x y : FVal) : Nat × Word :=
  let v := x.mul y
  if v.isNan then (F.nanCode, if x.isNan || y.isNan then 0 else lsNV) else roundTo F mode v

/-- a × b + c with one rounding; 0 × ∞ raises Invalid even with a NaN addend. -/
def ffused (F : Fmt) (mode : RMode) (a b c : FVal) : Nat × Word :=
  let v := (a.mul b).add (mode == .rd) c
  if v.isNan then
    (F.nanCode, if (a.isNan || b.isNan || c.isNan) && !a.zeroInf b then 0 else lsNV)
  else roundTo F mode v

/-- minimumNumber and maximumNumber on codes, −0 below +0 (08 R197). -/
def fminmax (F : Fmt) (mx : Bool) (x y : Nat) : Nat :=
  let a := F.decode x
  let b := F.decode y
  if a.isNan then (if b.isNan then F.nanCode else y)
  else if b.isNan then x
  else
    let less := a.lt b || (a.eqv b && a.sign && !b.sign)
    if less != mx then x else y

/-! ### Irrational results, to far more bits than any format keeps -/

/-- The fixed-point precision of the series below. -/
def prec : Nat := 320
def one320 : Nat := 2 ^ prec
/-- ⌊π × 2^320⌋. -/
def pi320 : Nat :=
  0x3243f6a8885a308d313198a2e03707344a4093822299f31d0082efa98ec4e6c89452821e638d01377
/-- ⌊ln 2 × 2^320⌋. -/
def ln2x320 : Nat :=
  0xb17217f7d1cf79abc9e3b39803f2f6af40f343267298b62d8a0d175b8baafa2be7b876206debac98

/-- Fixed-point product. -/
def fxMul (x y : Nat) : Nat := x * y / one320

/-- e^t for a fixed-point t below 1: term t^k / k! and its successors. -/
def expSeries (t : Nat) : Nat → Nat → Nat → Nat
  | 0, _, _ => 0
  | fuel + 1, k, term => term + expSeries t fuel (k + 1) (fxMul term t / (k + 1))

/-- e^t for t below 1. -/
def fxExp (t : Nat) : Nat := expSeries t 80 0 one320

/-- The alternating series of sine and cosine: the sum of the terms of even and of odd place. -/
def trigSeries (t2 : Nat) : Nat → Nat → Nat → Nat × Nat
  | 0, _, _ => (0, 0)
  | fuel + 1, k, term =>
    let r := trigSeries t2 fuel (k + 2) (fxMul term t2 / ((k + 1) * (k + 2)))
    (term + r.2, r.1)

/-- sin t for t up to π / 2. -/
def fxSin (t : Nat) : Nat :=
  let r := trigSeries (fxMul t t) 45 1 t
  r.1 - r.2

/-- cos t for t up to π / 2. -/
def fxCos (t : Nat) : Nat :=
  let r := trigSeries (fxMul t t) 45 0 one320
  r.1 - r.2

/-- z + z^3/3 + z^5/5 + … for z up to 1/3. -/
def atanhSeries (z2 : Nat) : Nat → Nat → Nat → Nat
  | 0, _, _ => 0
  | fuel + 1, k, zk => zk / k + atanhSeries z2 fuel (k + 2) (fxMul zk z2)

/-- ln y for a fixed-point y in [1, 2). -/
def fxLn (y : Nat) : Nat :=
  let z := (y - one320) * one320 / (y + one320)
  2 * atanhSeries (fxMul z z) 110 1 z

/-- A value strictly between x and x + 2^−320 units, for a fixed-point x: an irrational result. -/
def irr (neg : Bool) (x : Nat) (e : Int) : FVal := .fin neg (2 * x + 1) (e - prec - 1)

/-- ⌊√n⌋ by bits from the top. -/
def isqrtLoop (n : Nat) : Nat → Nat → Nat
  | 0, r => r
  | k + 1, r =>
    let r' := r + 2 ^ k
    isqrtLoop n k (if r' * r' ≤ n then r' else r)

/-- ⌊√n⌋. -/
def isqrt (n : Nat) : Nat := isqrtLoop n (bitLen n / 2 + 1) 0

/-- 1 / x for a nonzero finite x. -/
def recip (s : Bool) (m : Nat) (e : Int) : FVal :=
  let k := bitLen m + 64
  let q := 2 ^ k / m
  if q * m = 2 ^ k then .fin s q (-(k : Int) - e) else .fin s (2 * q + 1) (-(k : Int) - e - 1)

/-- √x for a positive finite x. -/
def sqrtVal (m : Nat) (e : Int) : FVal :=
  let odd := e % 2 != 0
  let m' := (if odd then 2 * m else m) * 2 ^ 128
  let h := ((if odd then e - 1 else e) - 128) / 2
  let r := isqrt m'
  if r * r = m' then .fin false r h else .fin false (2 * r + 1) (h - 1)

/-- 1 / √x for a positive finite x. -/
def rsqrtVal (m : Nat) (e : Int) : FVal :=
  let odd := e % 2 != 0
  let m' := if odd then 2 * m else m
  let e' := if odd then e - 1 else e
  let r := isqrt (2 ^ 256 / m')
  let h := (-e' - 256) / 2
  if r * r * m' = 2 ^ 256 then .fin false r h else .fin false (2 * r + 1) (h - 1)

/-- The integer part (rounded down) and the 320-bit fraction of a finite value whose exponent is at least −320. -/
def splitInt (s : Bool) (m : Nat) (e : Int) : Int × Nat :=
  let x : Int := FVal.scaled s m e (-320)
  (x / (one320 : Int), (x % (one320 : Int)).toNat)

/-- 2^x for a nonzero finite x. -/
def exp2Val (s : Bool) (m : Nat) (e : Int) : FVal :=
  let l : Int := (bitLen m : Int) + e
  if 10 < l then (if s then .fin false 1 (-1000) else .fin false 1 1000)
  else if l < -100 then .fin false (if s then 2 ^ 100 - 1 else 2 ^ 100 + 1) (-100)
  else
    let (n, f) := splitInt s m e
    if f = 0 then .fin false 1 n else irr false (fxExp (fxMul f ln2x320)) n

/-- log2 x for a positive finite x other than 1. -/
def log2Val (m : Nat) (e : Int) : FVal :=
  let l := bitLen m
  let k : Int := (l : Int) + e - 1
  let y := m * 2 ^ (prec + 1 - l)
  if y = one320 then ofInt k
  else
    let f : Int := (fxLn y * one320 / ln2x320 : Nat)
    let x : Int := k * (one320 : Int) + f
    irr (decide (x < 0)) (if x < 0 then x.natAbs - 1 else x.natAbs) 0

/-- sin (πx) for a finite x that is not an integer. -/
def sinpVal (s : Bool) (m : Nat) (e : Int) : FVal :=
  let l : Int := (bitLen m : Int) + e
  if l < -80 then
    -- π x, to which the sine is nearer than any rounding boundary
    irr s (m * pi320) e
  else
    let (n, f) := splitInt s m e
    let neg := n % 2 != 0
    let f' := if 2 * f ≤ one320 then f else one320 - f
    if 2 * f = one320 then .fin neg 1 0 else irr neg (fxSin (fxMul f' pi320)) 0

/-- cos (πx) for a finite x that is not half an odd integer. -/
def cospVal (s : Bool) (m : Nat) (e : Int) : FVal :=
  let l : Int := (bitLen m : Int) + e
  if l < -100 then .fin false (2 ^ 100 - 1) (-100)
  else
    let (n, f) := splitInt s m e
    let odd := n % 2 != 0
    if f = 0 then .fin odd 1 0
    else
      let flip := decide (one320 < 2 * f)
      let f' := if flip then one320 - f else f
      irr (odd != flip) (fxCos (fxMul f' pi320)) 0

/-- tanh x for a nonzero finite x. -/
def tanhVal (s : Bool) (m : Nat) (e : Int) : FVal :=
  let l : Int := (bitLen m : Int) + e
  if 6 < l then .fin s (2 ^ 60 - 1) (-60)
  else if l < -40 then .fin s (m * 2 ^ 64 - 1) (e - 64)
  else
    let u := (FVal.scaled false m e (-320)).toNat * 2
    let n := u / ln2x320
    let x := fxExp (u % ln2x320) * 2 ^ n
    irr s ((x - one320) * one320 / (x + one320)) 0

end Sys2Proof.Machine
end

