-- ==== Sys2Proof/Machine/Legal.lean ====
section
/-! DEFINITION. Which instruction words are legal (spec 04 R85 to R101 and the encoding rules of each chapter): the
field checks of R97, result kinds, the registers an instruction names (R91), and what an engine clause may hold. -/

namespace Sys2Proof

/-- Result kinds of the opcode map (04 R100): fixed latency, asynchronous, none. -/
inductive Kind where
  | fixed | async | none
  deriving DecidableEq, Repr

/-- A per-lane special source (06 R145). -/
def Special.perLane : Special → Bool
  | .lane | .widlo | .widhi | .tlbase => true
  | _ => false

namespace Src

/-- Legal as a 64-bit operand: pairs are named by their even register (04 R90). -/
def ok64 : Src → Bool
  | .v n => n.getLsbD 0 == false
  | .s n => n.getLsbD 0 == false
  | .lit n => n.getLsbD 0 == false
  | _ => true

/-- An s register, a literal half or an immediate (05 R138, 18 R367, 21 R407). -/
def isSLI : Src → Bool
  | .s _ | .lit _ | .imm _ => true
  | _ => false

/-- A source with one value for the whole group (09 R219 for FILLB, 21 R408). -/
def isScalar : Src → Bool
  | .s _ | .lit _ | .imm _ => true
  | .sp k => !k.perLane
  | _ => false

/-- A 64-bit scalar source: an even s register, an even literal half or an immediate (05 R136, 21 R404). -/
def isScalarPair (x : Src) : Bool := x.isSLI && x.ok64

/-- A control target: a v pair, an s pair, an even literal half or an immediate (05 R132). -/
def isTarget : Src → Bool
  | .b _ | .sp _ => false
  | x => x.ok64

/-- The ADDR class of LD: an even v register, an even s register or a latch (09 R219). -/
def isAddr : Src → Bool
  | .v n => n.getLsbD 0 == false
  | .s n => n.getLsbD 0 == false
  | .b _ => true
  | _ => false

/-- An even v or s register (14 R312, 11 R282). -/
def isRegPair : Src → Bool
  | .v n => n.getLsbD 0 == false
  | .s n => n.getLsbD 0 == false
  | _ => false

/-- The CSEL class: an even v register, an even s register or an even literal half (11 R265). -/
def isCtr : Src → Bool
  | .v n => n.getLsbD 0 == false
  | .s n => n.getLsbD 0 == false
  | .lit n => n.getLsbD 0 == false
  | _ => false

/-- An even s register. -/
def isSPair : Src → Bool
  | .s n => n.getLsbD 0 == false
  | _ => false

/-- A block of `n` registers starting at a multiple of `k`, whole within its file (11 R265). -/
def isBlock (k n : Nat) : Src → Bool
  | .v i => i.toNat % k == 0 && i.toNat + n ≤ 512
  | .s i => i.toNat % k == 0 && i.toNat + n ≤ 128
  | _ => false

/-- What an engine clause may read: s0 to s63, a latch, a literal half, TIME, an immediate (04 R101). -/
def engineOk : Src → Bool
  | .v _ => false
  | .s n => n.toNat < 64
  | .sp k => k == .time
  | _ => true

end Src

/-- Operand B with the pair rule of a 64-bit operand. -/
def SrcI.ok64 : SrcI → Bool
  | .src x => x.ok64
  | .imm _ => true

/-- Even register number. -/
def even {w : Nat} (n : BitVec w) : Bool := n.getLsbD 0 == false

/-- D of a vector or scalar form (04 R89): a scalar form names s0 to s127. -/
def dOk (sc : Bool) (d : BitVec 9) : Bool := !sc || d.toNat < 128

/-- The number of registers a load of this size fills (09 R237). -/
def LdSize.regs : LdSize → Nat
  | .b64 => 2
  | .b128 => 4
  | _ => 1

/-- Bytes of a load (04 R103). -/
def LdSize.bytes : LdSize → Nat
  | .n8 | .i8 => 1
  | .n16 | .i16 => 2
  | .b32 => 4
  | .b64 => 8
  | .b128 => 16

/-- The number of registers a store of this size reads. -/
def StSize.regs : StSize → Nat
  | .b64 => 2
  | .b128 => 4
  | _ => 1

/-- Bytes of a store. -/
def StSize.bytes : StSize → Nat
  | .b8 => 1
  | .b16 => 2
  | .b32 => 4
  | .b64 => 8
  | .b128 => 16

/-- Width in bits of a conversion type code (08 R205). -/
def cvtWidth (t : BitVec 4) : Nat :=
  match t.toNat with
  | 0 => 32
  | 1 | 2 => 16
  | 3 | 4 => 8
  | 5 => 6
  | 6 => 4
  | 7 => 8
  | 8 | 12 => 8
  | 9 | 13 => 16
  | 10 | 14 => 32
  | _ => 64

/-- The element selector that a source type allows (08 R207). -/
def cvtSelOk (st : BitVec 4) (sel : BitVec 2) : Bool :=
  match cvtWidth st with
  | 64 | 32 => sel == 0
  | 16 => sel.toNat ≤ 1
  | _ => true

/-- Field checks shared by F2I, I2F, F2F and I2I (08 R206, R207). -/
def BodyCvt.ok (x : BodyCvt) : Bool :=
  cvtSelOk x.st x.sel && (cvtWidth x.st != 64 || x.a.ok64) && (cvtWidth x.dt != 64 || even x.d)

/-- Scope codes 12 to 15 are reserved (02 R31). -/
def scopeOk (c : BitVec 4) : Bool := c.toNat ≤ 11

/-- Field checks of ATOM, ATOMB and RED (09 R237, R243). -/
def BodyAtom.ok (x : BodyAtom) : Bool :=
  x.op.toNat ≤ 10 && !(x.op == 10 && x.b64) && scopeOk x.scope && (!x.b64 || even x.d)

/-- Field checks of the counter instructions (11 R275). -/
def BodyCtr.ok (x : BodyCtr) : Bool :=
  dOk x.sreg x.d && even x.d && x.addr.isAddr && scopeOk x.scope

/-- Field checks of MMA and MMAZ (12 R294). -/
def BodyMma.ok (x : BodyMma) : Bool :=
  decide (2 ≤ x.g.toNat) && decide (x.g.toNat ≤ 6) && (!x.bus || (x.hb == 0 && x.kb == 0))

/-- The counter of an engine instruction (14 R322). -/
def engCtrOk : Option EngCtr → Bool
  | none => true
  | some c => c.c.isCtr && scopeOk c.scope

/-- A comparison's operands (06 R160). -/
def BodyCmp.ok (x : BodyCmp) : Bool :=
  (!x.wide || x.a.ok64) &&
  match x.b with
  | .v b cmb cp => (!x.wide || b.ok64) && (cmb != 0 || cp == 0)
  | .i _ => true

/-- CSR numbers that exist (21 R403). -/
def csrOk (c : BitVec 12) : Bool := c.toNat ≤ 6 || (decide (16 ≤ c.toNat) && decide (c.toNat ≤ 19))

/-- CSR numbers that CSRW may name (21 R403, R404). -/
def csrRw (c : BitVec 12) : Bool := c.toNat == 2 || (decide (16 ≤ c.toNat) && decide (c.toNat ≤ 19))

namespace Instr

/-- The device events of the table: everything after HALTC. -/
def isEvent : Instr → Bool
  | .clauseFetch _ | .clauseStart _ | .groupUrgent _ | .resultLands _ _ | .storeAck _ | .groupExit _ | .slotFill _
  | .joinerSaveRetry _ | .joinComplete _ | .publishObserved _ _ | .publishPoll _ _ | .publishTranslationRetry _ _
  | .dependenceSatisfied _ _ | .dependencePoll _ _ | .conditionRead _ | .cellPlace _ | .launchRetire _
  | .partitionOpen _ _ _ | .partitionClose _ _ _ | .ilmapWrite _ _ _ | .illockSet _ _ | .launchListEnable _ _ _ _
  | .launchListDisable _ _ _ _ | .bscWrite _ _ _ | .bsstatRefusedClear _ _ _ | .ctxctlWrite _ _ _
  | .preemptSave _ _ _ | .preemptResume _ _ _ | .cellSave _ | .cellRestore _ | .breakpointResume _ _ _ | .kill _ _ _
  | .killComplete _ | .prqEnable _ _ _ | .evqEnable _ _ _ | .tierpoolWrite _ _ _ _ | .registerWrite _ _ _
  | .translationWalk _ _ _ _ | .pageRequestRecord _ | .parkedLaneReplay _ _ | .trapDeliver _ | .miggoWrite _ _ _
  | .migrationComplete _ | .subscribeRecord _ _ | .pushLand _ _ | .unsubAck _ _ | .fullEmptyWaitServe _ _
  | .packetAccept _ _ | .packetPerform _ _ _ | .globalRoute _ | .linkFrameRetry _ _ | .linkFault _ _
  | .boundViolation _ _ _ _ | .copyExecute _ | .copymOperationStart _ | .copymSliceLand _ _ | .cardListStart _
  | .cardClose _ | .engineAsyncComplete _ _ | .engineTrap _ | .tierRequest _ | .tierMoveComplete _ _
  | .tierAgeSample _ _ | .matrixOpComplete _ | .busStepDeliver _ | .barrierWaveRelease _ _ | .sleepExpire _
  | .cbalWindow _ _ | .cbalHoldEnd _ _ | .boostInterval _ | .retentionEnter _ _ | .retentionWake _ _ _
  | .eccCorrectable _ | .eccUncorrectable _ | .patrolScrub _ | .timerDisciplineLost | .packageReset | .getreport
  | .loadimg _ | .diepowerOff _ | .diepowerOn _ | .readerr | .setpatrol _ | .reset | .hostWrite _ _ _ _
  | .izeusLinkFail _ | .izeusLinkTrain _ => true
  | _ => false

/-- The head of an instruction word; events have none. -/
def head? : Instr → Option Head
  | .nop h | .bra h _ _ | .brax h _ | .call h _ | .callx h _ | .ret h | .exit h | .spawn h _ _ _ _ | .join h _ _
  | .yield h | .trap h _ | .bkpt h _ | .iadd h _ | .isub h _ | .iaddc h _ | .isubb h _ | .imul h _ | .imulh h _
  | .imad h _ | .imadw h _ | .idiv h _ | .irem h _ | .udiv h _ | .urem h _ | .imin h _ | .imax h _ | .umin h _
  | .umax h _ | .iabs h _ | .ineg h _ | .iadd64 h _ | .lea h _ | .and h _ | .or h _ | .xor h _ | .andn h _ | .not h _
  | .mov h _ _ | .lut3 h _ | .shl h _ | .shr h _ | .sar h _ | .rotl h _ | .fshf h _ | .bfx h _ | .bfi h _ | .brev h _
  | .popc h _ | .clz h _ | .ctz h _ | .bperm h _ | .sel h _ | .movxRd h _ _ _ | .movxWr h _ _ _ | .icmp h _
  | .fcmp h _ | .pand h _ | .por h _ | .pxor h _ | .pnot h _ | .pmov h _ | .pcnt h _ _ | .pany h _ _ | .pall h _ _
  | .lead h _ _ | .fadd h _ | .fsub h _ | .fmul h _ | .ffma h _ | .fmin h _ _ _ | .fmax h _ _ _ | .frnd h _ _ _
  | .fclass h _ _ | .fscale h _ | .fexp h _ _ | .hadd2 h _ | .hmul2 h _ | .hfma2 h _ | .badd2 h _ | .bmul2 h _
  | .bfma2 h _ | .hmnx2 h _ _ _ _ _ | .hdot2 h _ | .f2i h _ | .i2f h _ | .f2f h _ | .i2i h _ | .pack8 h _ _ _ _
  | .unpack8 h _ _ _ _ _ | .pack6 h _ _ _ | .pack4 h _ _ _ _ | .unpack4 h _ _ _ _ | .scaleq h _ _ _ | .quant h _ _ _ _
  | .rcp h _ _ _ | .rsq h _ _ _ | .sqrt h _ _ _ | .exp2 h _ _ | .log2 h _ _ | .sinp h _ _ | .cosp h _ _ | .tanh h _ _
  | .perm h _ _ _ _ | .shfl h _ _ _ _ | .rdstep h _ _ _ _ | .rdx h _ _ _ | .scan h _ _ _ _ | .bcast h _ _ _
  | .ld h _ _ _ _ _ _ | .ldu h _ _ _ _ _ _ | .ldk h _ _ _ _ | .ldb h _ _ _ _ _ _ | .ldl h _ _ _ _ | .st h _ _ _ _ _
  | .stu h _ _ _ _ _ | .stb h _ _ _ _ _ | .stl h _ _ _ _ | .pref h _ _ _ | .fillb h _ _ _ _ | .atom h _ | .atomb h _
  | .red h _ | .ldsub h _ _ _ _ | .unsub h _ _ | .substat h _ _ _ | .copy h _ _ _ _ _ _ _ | .copyl h _ _ _
  | .copym h _ _ _ _ _ | .ctradd h _ | .ctrwait h _ | .ctrrd h _ | .fork h _ _ | .rdv h _ _ | .objreq h _ _ _ _
  | .gang h _ _ | .rsv h _ _ | .rsvrel h _ | .obld h _ _ _ _ _ | .obst h _ _ _ _ | .mma h _ | .mmaz h _
  | .accrd h _ _ _ _ _ | .accwr h _ _ _ _ _ | .accz h _ | .buspub h _ _ _ _ | .bussub h _ _ | .bar h _ | .bara h _
  | .barw h _ | .fence h _ _ | .pfence h _ _ | .acq h _ _ | .rel h _ | .sleep h _ _ | .estream h _ _ _
  | .ereduce h _ _ _ _ | .ebcast h _ _ _ | .ecopy h _ _ _ | .egemv h _ _ _ | .routeCnt h _ _ | .routeScan h _ _
  | .routePlace h _ _ | .routeComb h _ _ | .esig h _ _ | .csrr h _ _ | .csrw h _ _ | .tlbinv h _ | .rett h
  | .presp h _ | .haltc h _ => some h
  | _ => none

/-- The result kind of each form (04 R102). -/
def kind : Instr → Kind
  | .spawn .. | .ld .. | .ldu .. | .ldk .. | .ldb .. | .ldl .. | .atom .. | .atomb .. | .ldsub .. | .substat ..
  | .ctrrd .. | .accrd .. => .async
  | .iadd .. | .isub .. | .iaddc .. | .isubb .. | .imul .. | .imulh .. | .imad .. | .imadw .. | .idiv .. | .irem ..
  | .udiv .. | .urem .. | .imin .. | .imax .. | .umin .. | .umax .. | .iabs .. | .ineg .. | .iadd64 .. | .lea ..
  | .and .. | .or .. | .xor .. | .andn .. | .not .. | .mov .. | .lut3 .. | .shl .. | .shr .. | .sar .. | .rotl ..
  | .fshf .. | .bfx .. | .bfi .. | .brev .. | .popc .. | .clz .. | .ctz .. | .bperm .. | .sel .. | .movxRd ..
  | .movxWr .. | .icmp .. | .fcmp .. | .pand .. | .por .. | .pxor .. | .pnot .. | .pmov .. | .pcnt .. | .pany ..
  | .pall .. | .lead .. | .fadd .. | .fsub .. | .fmul .. | .ffma .. | .fmin .. | .fmax .. | .frnd .. | .fclass ..
  | .fscale .. | .fexp .. | .hadd2 .. | .hmul2 .. | .hfma2 .. | .badd2 .. | .bmul2 .. | .bfma2 .. | .hmnx2 ..
  | .hdot2 .. | .f2i .. | .i2f .. | .f2f .. | .i2i .. | .pack8 .. | .unpack8 .. | .pack6 .. | .pack4 .. | .unpack4 ..
  | .scaleq .. | .quant .. | .rcp .. | .rsq .. | .sqrt .. | .exp2 .. | .log2 .. | .sinp .. | .cosp .. | .tanh ..
  | .perm .. | .shfl .. | .rdstep .. | .rdx .. | .scan .. | .bcast .. | .csrr .. => .fixed
  | _ => .none

/-- The head rules of R96 and R97: SETF 12 to 14 are reserved; a kind-A form has LAT 0 and names a flag unless NWB;
a form of kind — has LAT 0 and NWB 0. -/
def headOk (i : Instr) : Bool :=
  match i.head? with
  | none => true
  | some h =>
    (h.setf.toNat ≤ 11 || h.setf == 15) &&
    match i.kind with
    | .fixed => true
    | .async => h.lat == 0 && (h.nwb || h.setf != 15)
    | .none => h.lat == 0 && !h.nwb

/-- The body-field checks of each form (04 R97 and the chapter of the form). -/
def fieldsOk : Instr → Bool
  | .brax _ a | .callx _ a => a.isTarget
  | .spawn _ _ _ a _ => a.isScalarPair
  | .join _ a b => a.isSLI && b.isSLI
  | .iadd _ x | .isub _ x => x.mod.toNat ≤ 2 && dOk x.sc x.d
  | .iaddc _ x | .isubb _ x => dOk x.sc x.d
  | .imul _ x | .imin _ x | .imax _ x | .umin _ x | .umax _ x | .and _ x | .or _ x | .xor _ x | .andn _ x | .shl _ x
  | .shr _ x | .sar _ x | .rotl _ x => x.mod == 0 && dOk x.sc x.d
  | .imulh _ x | .idiv _ x | .irem _ x | .udiv _ x | .urem _ x => x.mod.toNat ≤ 1 && dOk x.sc x.d
  | .imad _ x => x.mod == 0 && dOk x.sc x.d
  | .imadw _ x => x.mod.toNat ≤ 1 && dOk x.sc x.d && even x.d && x.c.ok64
  | .iabs _ x | .ineg _ x => x.mod.toNat ≤ 1 && dOk x.sc x.d
  | .iadd64 _ x => x.mod == 0 && dOk x.sc x.d && even x.d && x.a.ok64 && x.b.ok64
  | .lea _ x => dOk x.sc x.d && even x.d && x.a.ok64
  | .not _ x | .brev _ x | .popc _ x | .clz _ x | .ctz _ x => x.mod == 0 && dOk x.sc x.d
  | .mov _ sc (.mov d _) => dOk sc d
  | .mov _ sc (.fromLstat d) => dOk sc d
  | .mov _ _ (.toLstat _) => true
  | .mov _ sc (.mov64 d a) => dOk sc d && even d && a.ok64
  | .lut3 _ x => dOk x.sc x.d && dOk x.sc x.z
  | .fshf _ x | .bfx _ x => x.mod.toNat ≤ 1 && dOk x.sc x.d
  | .bfi _ x | .bperm _ x => x.mod == 0 && dOk x.sc x.d
  | .sel _ x => dOk x.sc x.d
  | .icmp _ x => x.cond.toNat ≤ 5 && x.ok
  | .fcmp _ x => !x.uns && !x.wide && x.ok
  | .fscale _ x => x.mod == 0
  | .fexp _ d _ => even d
  | .hdot2 _ x => x.mod.toNat ≤ 1
  | .f2i _ x => !x.sat && x.st.toNat ≤ 7 && decide (8 ≤ x.dt.toNat) && x.ok
  | .i2f _ x => !x.sat && decide (8 ≤ x.st.toNat) && x.dt.toNat ≤ 7 && x.ok
  | .f2f _ x => !x.sat && x.st.toNat ≤ 7 && x.dt.toNat ≤ 7 && x.ok
  | .i2i _ x => x.rm == 0 && decide (8 ≤ x.st.toNat) && decide (8 ≤ x.dt.toNat) && x.ok
  | .pack8 _ dt _ a b => (dt == 3 || dt == 4) && a.ok64 && b.ok64
  | .unpack8 _ sty dt e d _ =>
    (sty == 3 || sty == 4) && dt.toNat ≤ 2 && (if dt == 0 then e.toNat ≤ 1 else e == 0) && even d
  | .pack6 _ _ a b => a.ok64 && b.ok64
  | .pack4 _ e _ a b => e.toNat ≤ 1 && a.ok64 && b.ok64
  | .unpack4 _ dt e d _ => dt.toNat ≤ 2 && (dt == 0 || e.toNat ≤ 1) && even d
  | .scaleq _ q _ _ => q.toNat ≤ 6
  | .quant _ q _ _ _ => q.toNat ≤ 6
  | .shfl _ _ _ _ b =>
    match b with
    | .imm i => decide (-7 ≤ i.toInt)
    | _ => true
  | .rdstep _ op _ _ k => op.toNat ≤ 10 && k.toNat ≤ 6
  | .rdx _ op _ _ => op.toNat ≤ 10
  | .scan _ op _ _ _ => op.toNat ≤ 10
  | .bcast _ _ _ b => b.isSLI
  | .ld _ sz d addr _ scope hint => d.toNat % sz.regs == 0 && addr.isAddr && scopeOk scope && hint.toNat ≤ 2
  | .ldu _ sz d addr _ scope hint => d.toNat % sz.regs == 0 && addr.isSPair && scopeOk scope && hint.toNat ≤ 2
  | .ldk _ sz d addr _ => d.toNat % sz.regs == 0 && addr.isAddr
  | .ldl _ sz d _ _ => d.toNat % sz.regs == 0
  | .ldb _ sz d _ _ _ _ => d.toNat % sz.regs == 0
  | .st _ sz x addr _ hint => x.toNat % sz.regs == 0 && addr.isAddr && hint.toNat ≤ 2
  | .stu _ sz x addr _ hint => x.toNat % sz.regs == 0 && addr.isSPair && hint.toNat ≤ 2
  | .stb _ sz x _ _ _ => x.toNat % sz.regs == 0
  | .stl _ sz x _ _ => x.toNat % sz.regs == 0
  | .pref _ _ addr _ => addr.isAddr
  | .fillb _ _ _ addr _ => addr.isScalar
  | .atom _ x => x.ok && x.addr.isAddr
  | .atomb _ x => x.ok
  | .red _ x => x.ok && x.addr.isAddr && x.op.toNat != 8 && x.op.toNat != 9 && (x.ord == 0 || x.ord == 2)
  | .ldsub _ _ _ addr _ => addr.isAddr
  | .copy _ out ob k scope mask r c =>
    r.isBlock 8 8 && c.isCtr && scopeOk scope && (!out || (!ob && !mask)) && (!ob || !mask) && (ob || k == 0)
  | .copyl _ scope r c => r.isBlock 2 6 && c.isCtr && scopeOk scope
  | .copym _ _ _ scope r c =>
    r.isBlock 8 8 && c.isCtr && scopeOk scope &&
    match r with
    | .s _ => true
    | _ => false
  | .ctradd _ x | .ctrwait _ x | .ctrrd _ x => x.ok
  | .fork _ r _ | .rdv _ r _ => r.isRegPair
  | .objreq _ req scope r c => req.toNat ≤ 2 && scopeOk scope && r.isRegPair && c.isCtr
  | .rsv _ _ n => n.toNat % 4 == 0
  | .obld _ _ _ addr _ scope => addr.isAddr && scopeOk scope
  | .obst _ _ _ addr _ => addr.isAddr
  | .mma _ x | .mmaz _ x => x.ok
  | .accrd _ form d _ _ _ => form.toNat ≤ 2 && (form != 2 || even d)
  | .accwr _ raw _ _ _ x =>
    match x with
    | .v n => !raw || even n
    | _ => false
  | .buspub _ _ _ mask _ => mask != 0
  | .bussub _ _ n => n != 0
  | .fence _ _ scope | .rel _ scope => scopeOk scope
  | .pfence _ mask scope => scopeOk scope && decide (4 ≤ scope.toNat) &&
    decide (2 ≤ ((List.range 5).filter fun i => mask.getLsbD i).length)
  | .acq _ k scope => scopeOk scope && (!k || decide (4 ≤ scope.toNat))
  | .sleep _ a _ => a.isSLI
  | .estream _ _ r c => r.isSPair && c.isCtr
  | .ereduce _ ty _ mask ctr => ty.toNat ≤ 2 && mask != 0 && engCtrOk ctr
  | .ebcast _ _ mask ctr => mask != 0 && engCtrOk ctr
  | .ecopy _ _ _ ctr => engCtrOk ctr
  | .egemv _ _ r ctr | .routeCnt _ r ctr | .routeScan _ r ctr | .routePlace _ r ctr | .routeComb _ r ctr =>
    r.isSPair && engCtrOk ctr
  | .esig _ _ r => r.isSPair
  | .csrr _ d csr => even d && csrOk csr
  | .csrw _ csr a => csrRw csr && a.isScalarPair
  | .tlbinv _ m =>
    match m with
    | .page _ a | .gpa _ a => even a
    | _ => true
  | .presp _ a => a.isSLI
  | .haltc _ a => a.isScalar
  | _ => true

/-- The ranges of a device event's operands. -/
def eventOk : Instr → Bool
  | .publishObserved p n | .publishPoll p n | .publishTranslationRetry p n | .launchListEnable _ p n _
  | .launchListDisable _ p n _ => p < 8 && n < 4
  | .cellPlace p | .partitionOpen _ p _ | .partitionClose _ p _ | .evqEnable _ p _ | .miggoWrite _ p _ | .tierRequest p
  | .tierMoveComplete p _ | .tierAgeSample p _ => p < 8
  | .tierpoolWrite _ p d _ => p < 8 && d < 8
  | .dependenceSatisfied _ j | .dependencePoll _ j => j < 4
  | .ilmapWrite _ n _ => n < 4
  | .bscWrite _ src _ => src < 65536
  | .bsstatRefusedClear _ s _ | .engineAsyncComplete s _ | .engineTrap s => s < 16
  | .ctxctlWrite _ c _ | .preemptSave _ c _ | .preemptResume _ c _ | .breakpointResume _ c _ | .kill _ c _
  | .killComplete c => c < 256
  | .translationWalk c _ acc _ => c < 256 && acc < 6
  | .prqEnable _ f _ | .pageRequestRecord f => f < 33
  | .clauseStart p => p < 400
  | .slotFill c | .matrixOpComplete c | .busStepDeliver c => c < 384
  | .subscribeRecord d _ | .pushLand d _ | .unsubAck d _ | .fullEmptyWaitServe d _ | .boostInterval d
  | .diepowerOff d | .diepowerOn d => d < 8
  | .cbalWindow d k => d < 8 && k < 6
  | .cbalHoldEnd d k | .retentionEnter d k | .retentionWake d k _ => d < 8 && k < 12
  | .linkFrameRetry s p => s < 16 && p < 10
  | .linkFault s p => s < 16 && p < 6
  | .packetAccept _ c => c < 4
  | .packetPerform s _ _ => s < 25
  | .barrierWaveRelease _ b => b < 9
  | .izeusLinkFail p | .izeusLinkTrain p => p < 32
  | .boundViolation m _ _ _ => 1 ≤ m && m ≤ 5
  | _ => true

/-- Every check that one word admits, or the ranges of an event. -/
def legal (i : Instr) : Bool := i.headOk && i.fieldsOk && i.eventOk

/-- Instructions marked L: they stand last in their clause (04 R100). -/
def isLast : Instr → Bool
  | .bra .. | .brax .. | .call .. | .callx .. | .ret .. | .exit .. | .yield .. | .trap .. | .rett .. | .haltc .. => true
  | _ => false

/-- Instructions marked E: they end their region (04 R100). -/
def endsRegion : Instr → Bool
  | .exit .. | .spawn .. | .join .. | .trap .. | .atom .. | .red .. | .ldsub .. | .unsub .. | .copy .. | .copyl ..
  | .copym .. | .ctradd .. | .fork .. | .bar .. | .bara .. | .rel .. => true
  | _ => false

/-- Instructions marked P (04 R100). -/
def isPriv : Instr → Bool
  | .csrr .. | .csrw .. | .tlbinv .. | .rett .. | .presp .. | .haltc .. => true
  | _ => false

/-- Instructions of engine clauses only (04 R102, family 0xE). -/
def engineOnly : Instr → Bool
  | .estream .. | .ereduce .. | .ebcast .. | .ecopy .. | .egemv .. | .routeCnt .. | .routeScan .. | .routePlace ..
  | .routeComb .. | .esig .. => true
  | _ => false

/-- A register or selector that an instruction names, with how many registers follow it. -/
inductive Use where
  | src (x : Src) (n : Nat)
  | dv (n : Nat) (k : Nat)
  | ds (n : Nat) (k : Nat)
  deriving DecidableEq, Repr

/-- D of a form that is vector or scalar. -/
def useD (sc : Bool) (d : BitVec 9) (k : Nat) : Use := if sc then .ds d.toNat k else .dv d.toNat k

/-- Operand B as a use. -/
def useI (b : SrcI) (k : Nat) : List Use :=
  match b with
  | .src x => [.src x k]
  | .imm _ => []

/-- A two-source body. -/
def use2 (x : Body2) (kd ka kb : Nat) : List Use := useD x.sc x.d kd :: .src x.a ka :: useI x.b kb

/-- A counter operand of an engine instruction. -/
def useCtr (c : Option EngCtr) : List Use :=
  match c with
  | some c => [.src c.c 2]
  | none => []

/-- Every register and selector that an instruction names (04 R91, R95, R101). -/
def uses : Instr → List Use
  | .brax _ a | .callx _ a => [.src a 2]
  | .spawn _ d _ a _ => [.ds d.toNat 1, .src a 2]
  | .join _ a b => [.src a 1, .src b 1]
  | .iadd _ x | .isub _ x | .imul _ x | .imulh _ x | .idiv _ x | .irem _ x | .udiv _ x | .urem _ x | .imin _ x
  | .imax _ x | .umin _ x | .umax _ x | .and _ x | .or _ x | .xor _ x | .andn _ x | .shl _ x | .shr _ x | .sar _ x
  | .rotl _ x => use2 x 1 1 1
  | .iaddc _ x | .isubb _ x => useD x.sc x.d 1 :: .src x.a 1 ::
    match x.b with
    | .v b _ _ _ => [.src b 1]
    | .i _ _ _ => []
  | .imad _ x | .fshf _ x | .bfx _ x | .bfi _ x | .bperm _ x => [useD x.sc x.d 1, .src x.a 1, .src x.b 1, .src x.c 1]
  | .imadw _ x => [useD x.sc x.d 2, .src x.a 1, .src x.b 1, .src x.c 2]
  | .iabs _ x | .ineg _ x | .not _ x | .brev _ x | .popc _ x | .clz _ x | .ctz _ x => [useD x.sc x.d 1, .src x.a 1]
  | .iadd64 _ x => use2 x 2 2 2
  | .lea _ x => use2 x 2 2 1
  | .mov _ sc (.mov d a) => useD sc d 1 :: useI a 1
  | .mov _ sc (.fromLstat d) => [useD sc d 1]
  | .mov _ _ (.toLstat a) => [.src a 1]
  | .mov _ sc (.mov64 d a) => useD sc d 2 :: useI a 2
  | .lut3 _ x => [useD x.sc x.d 1, .src x.a 1, useD x.sc x.z 1]
  | .sel _ x => [useD x.sc x.d 1, .src x.a 1, .src x.b 1]
  | .movxRd _ d a b => [.dv d.toNat 1, .src a 1, .src b 1]
  | .movxWr _ a b c => [.src a 1, .src b 1, .src c 1]
  | .icmp _ x | .fcmp _ x =>
    let k := if x.wide then 2 else 1
    .src x.a k ::
    match x.b with
    | .v b _ _ => [.src b k]
    | .i _ => []
  | .pcnt _ d _ => [.dv d.toNat 1]
  | .fadd _ x | .fsub _ x | .fmul _ x => .dv x.d.toNat 1 :: .src x.a 1 :: useI x.b 1
  | .ffma _ x | .hfma2 _ x | .bfma2 _ x | .hdot2 _ x => [.dv x.d.toNat 1, .src x.a 1, .src x.b 1, .src x.c 1]
  | .fmin _ d a b | .fmax _ d a b => .dv d.toNat 1 :: .src a 1 :: useI b 1
  | .frnd _ _ d a | .fclass _ d a => [.dv d.toNat 1, .src a 1]
  | .fscale _ x | .hadd2 _ x | .hmul2 _ x | .badd2 _ x | .bmul2 _ x => [.dv x.d.toNat 1, .src x.a 1, .src x.b 1]
  | .fexp _ d a => [.dv d.toNat 2, .src a 1]
  | .hmnx2 _ _ _ d a b => [.dv d.toNat 1, .src a 1, .src b 1]
  | .f2i _ x | .i2f _ x | .f2f _ x | .i2i _ x =>
    [.dv x.d.toNat (if cvtWidth x.dt == 64 then 2 else 1), .src x.a (if cvtWidth x.st == 64 then 2 else 1)]
  | .pack8 _ _ d a b | .pack6 _ d a b | .pack4 _ _ d a b => [.dv d.toNat 1, .src a 2, .src b 2]
  | .unpack8 _ _ _ _ d a | .unpack4 _ _ _ d a => [.dv d.toNat 2, .src a 1]
  | .scaleq _ _ d a => [.dv d.toNat 1, .src a 1]
  | .quant _ _ d a b => [.dv d.toNat 1, .src a 1, .src b 1]
  | .rcp _ _ d a | .rsq _ _ d a | .sqrt _ _ d a | .exp2 _ d a | .log2 _ d a | .sinp _ d a | .cosp _ d a | .tanh _ d a =>
    [.dv d.toNat 1, .src a 1]
  | .perm _ d a b c => [.dv d.toNat 1, .src a 1, .src b 1, .src c 1]
  | .shfl _ _ d a b | .bcast _ d a b => [.dv d.toNat 1, .src a 1, .src b 1]
  | .rdstep _ _ d a _ | .rdx _ _ d a | .scan _ _ _ d a => [.dv d.toNat 1, .src a 1]
  | .ld _ sz d addr _ _ _ | .ldk _ sz d addr _ => [.dv d.toNat sz.regs, .src addr 2]
  | .ldu _ sz d addr _ _ _ => [.ds d.toNat sz.regs, .src addr 2]
  | .ldl _ sz d addr _ | .ldb _ sz d addr _ _ _ => [.dv d.toNat sz.regs, .src addr 1]
  | .st _ sz x addr _ _ => [.dv x.toNat sz.regs, .src addr 2]
  | .stu _ sz x addr _ _ => [.ds x.toNat sz.regs, .src addr 2]
  | .stb _ sz x addr _ _ | .stl _ sz x addr _ => [.dv x.toNat sz.regs, .src addr 1]
  | .pref _ _ addr _ => [.src addr 2]
  | .fillb _ _ n addr _ => [.ds n.toNat 1, .src addr 1]
  | .atom _ x | .red _ x => [.dv x.d.toNat ((if x.b64 then 2 else 1) * (if x.op == 9 then 2 else 1)), .src x.addr 2]
  | .atomb _ x => [.dv x.d.toNat ((if x.b64 then 2 else 1) * (if x.op == 9 then 2 else 1)), .src x.addr 1]
  | .ldsub _ _ d addr _ => [.dv d.toNat 1, .src addr 2]
  | .unsub _ addr _ => [.src addr 1]
  | .substat _ d addr _ => [.dv d.toNat 1, .src addr 1]
  | .copy _ _ _ _ _ _ r c | .copym _ _ _ _ r c => [.src r 8, .src c 2]
  | .copyl _ _ r c => [.src r 6, .src c 2]
  | .ctradd _ x | .ctrwait _ x | .ctrrd _ x => [useD x.sreg x.d 2, .src x.addr 2]
  | .fork _ r _ | .rdv _ r _ => [.src r 2]
  | .objreq _ _ _ r c => [.src r 2, .src c 2]
  | .gang _ _ a => [.src a 1]
  | .rsv _ _ n => [.src (.s n) 4]
  | .obld _ _ x addr _ _ | .obst _ _ x addr _ => [.dv x.toNat 1, .src addr 2]
  | .accrd _ form d r c _ => [.dv d.toNat (if form == 2 then 2 else 1), .src r 1, .src c 1]
  | .accwr _ raw _ r c x => [.src r 1, .src c 1, .src x (if raw then 2 else 1)]
  | .sleep _ a _ => [.src a 1]
  | .estream _ _ r c => [.src r 2, .src c 2]
  | .ereduce _ _ _ _ ctr | .ebcast _ _ _ ctr | .ecopy _ _ _ ctr => useCtr ctr
  | .egemv _ _ r ctr | .routeCnt _ r ctr | .routeScan _ r ctr | .routePlace _ r ctr | .routeComb _ r ctr =>
    .src r 2 :: useCtr ctr
  | .esig _ _ r => [.src r 2]
  | .csrr _ d _ => [.ds d.toNat 2]
  | .csrw _ _ a => [.src a 2]
  | .tlbinv _ (.page c a) => [.ds c.toNat 1, .ds a.toNat 2]
  | .tlbinv _ (.gpa c a) => [.ds c.toNat 1, .ds a.toNat 2]
  | .tlbinv _ (.ctx c) => [.ds c.toNat 1]
  | .presp _ a | .haltc _ a => [.src a 1]
  | _ => []

/-- R91: every register named lies within the entry's demands (`vr`, `sr` the highest legal numbers). -/
def Use.inRange (vr sr : Nat) : Use → Bool
  | .src (.v n) k => n.toNat + k ≤ vr + 1
  | .src (.s n) k => n.toNat + k ≤ sr + 1
  | .src _ _ => true
  | .dv n k => n + k ≤ vr + 1
  | .ds n k => n + k ≤ sr + 1

/-- R82: a literal half that the clause supplies. -/
def Use.litOk (lits : Nat) : Use → Bool
  | .src (.lit n) k => n.toNat + k ≤ 2 * lits
  | _ => true

/-- R101: what an engine clause may name. -/
def Use.engineOk : Use → Bool
  | .src x k => x.engineOk &&
    match x with
    | .s n => n.toNat + k ≤ 64
    | _ => true
  | .dv _ _ => false
  | .ds n k => n + k ≤ 64

/-- The latch selectors an instruction reads. -/
def latchReads (i : Instr) : List (BitVec 2) :=
  i.uses.filterMap fun u =>
    match u with
    | .src (.b n) _ => some n
    | _ => none

/-- The forms marked W whose operands R101 allows in an engine clause. -/
def engineForm : Instr → Bool
  | .nop .. | .bra .. | .exit .. | .icmp .. | .pand .. | .por .. | .pxor .. | .pnot .. | .pmov .. | .ldu .. | .stu .. =>
    true
  | .ctradd _ x | .ctrwait _ x | .ctrrd _ x => x.sreg
  | .iadd _ x | .isub _ x | .imul _ x | .imulh _ x | .idiv _ x | .irem _ x | .udiv _ x | .urem _ x | .imin _ x
  | .imax _ x | .umin _ x | .umax _ x | .iadd64 _ x | .lea _ x | .and _ x | .or _ x | .xor _ x | .andn _ x | .shl _ x
  | .shr _ x | .sar _ x | .rotl _ x => x.sc
  | .iaddc _ x | .isubb _ x => x.sc
  | .imad _ x | .imadw _ x | .fshf _ x | .bfx _ x | .bfi _ x | .bperm _ x => x.sc
  | .iabs _ x | .ineg _ x | .not _ x | .brev _ x | .popc _ x | .clz _ x | .ctz _ x => x.sc
  | .mov _ sc _ => sc
  | .lut3 _ x => x.sc
  | .sel _ x => x.sc
  | i => i.engineOnly

/-- R101: legal in an engine clause. -/
def engineOk (i : Instr) : Bool := i.engineForm && i.uses.all Use.engineOk

/-- R97: legal in a clause fetched by a core. -/
def coreOk (i : Instr) : Bool := !i.engineOnly

end Instr

end Sys2Proof
end

