-- ==== Sys2Proof/WellFormed.lean ====
section
/-! DEFINITION. Well-formed instructions: every check of R97 that one instruction word admits (spec 04), and the
operand ranges of a device event. The clause-wide checks are in Decode. -/

namespace Sys2Proof

/-- An instruction whose word no check of R97 rejects, or a device event whose operands name something that exists. -/
def Instr.wf (i : Instr) : Bool := i.legal

end Sys2Proof
end

