-- ==== Sys2Proof/Decode.lean ====
section
/-! DEFINITION. The decoder of an instruction word and of a clause (spec 04 R77 to R103), total and rejecting by name,
and the encoder of a well-formed instruction, written from the same tables. -/

namespace Sys2Proof

/-- Why a word is no legal instruction (04 R97). -/
inductive DecodeError where
  /-- OP, or OP and FN, that the opcode map does not assign. -/
  | unassigned
  /-- A reserved selector, or a selector the field does not accept. -/
  | selector
  /-- A field that the form does not use, or a reserved field, is nonzero. -/
  | reserved
  /-- A field value that the form's description makes illegal, or a broken head rule (R96). -/
  | illegal
  deriving DecidableEq, Repr

/-! ### Selectors -/

/-- The number of a special source, from 0 (04 R87). -/
def Special.num : Special → Nat
  | .lane => 0 | .width => 1 | .logw => 2 | .widlo => 3 | .widhi => 4 | .cell => 5 | .core => 6 | .cluster => 7
  | .die => 8 | .time => 9 | .group => 10 | .slot => 11 | .lcore => 12 | .prio => 13 | .tlbase => 14 | .ngroup => 15

/-- The special source of a number. -/
def Special.ofNum : Nat → Special
  | 0 => .lane | 1 => .width | 2 => .logw | 3 => .widlo | 4 => .widhi | 5 => .cell | 6 => .core | 7 => .cluster
  | 8 => .die | 9 => .time | 10 => .group | 11 => .slot | 12 => .lcore | 13 => .prio | 14 => .tlbase | _ => .ngroup

/-- The 10-bit selector of a source (04 R86). -/
def Src.sel : Src → BitVec 10
  | .v n => n.setWidth 10
  | .s n => BitVec.ofNat 10 (512 + n.toNat)
  | .b n => BitVec.ofNat 10 (640 + n.toNat)
  | .lit n => BitVec.ofNat 10 (644 + n.toNat)
  | .sp k => BitVec.ofNat 10 (652 + k.num)
  | .imm i => BitVec.ofNat 10 (768 + (i + 128#8).toNat)

/-- The source a selector names; 668 to 767 are reserved (04 R86). -/
def Src.ofSel (x : BitVec 10) : Option Src :=
  let n := x.toNat
  if n < 512 then some (.v (BitVec.ofNat 9 n))
  else if n < 640 then some (.s (BitVec.ofNat 7 (n - 512)))
  else if n < 644 then some (.b (BitVec.ofNat 2 (n - 640)))
  else if n < 652 then some (.lit (BitVec.ofNat 3 (n - 644)))
  else if n < 668 then some (.sp (Special.ofNum (n - 652)))
  else if n < 768 then none
  else some (.imm (BitVec.ofNat 8 (n - 768) - 128#8))

/-- FN of a load size (04 R103). -/
def LdSize.fn : LdSize → BitVec 4
  | .n8 => 0 | .n16 => 1 | .b32 => 2 | .b64 => 3 | .b128 => 4 | .i8 => 8 | .i16 => 9

/-- The load size of an FN value. -/
def LdSize.ofFn (f : BitVec 4) : Option LdSize :=
  match f.toNat with
  | 0 => some .n8 | 1 => some .n16 | 2 => some .b32 | 3 => some .b64 | 4 => some .b128 | 8 => some .i8
  | 9 => some .i16 | _ => none

/-- FN of a store size. -/
def StSize.fn : StSize → BitVec 4
  | .b8 => 0 | .b16 => 1 | .b32 => 2 | .b64 => 3 | .b128 => 4

/-- The store size of an FN value. -/
def StSize.ofFn (f : BitVec 4) : Option StSize :=
  match f.toNat with
  | 0 => some .b8 | 1 => some .b16 | 2 => some .b32 | 3 => some .b64 | 4 => some .b128 | _ => none

/-! ### The encoder -/

/-- A one-bit field. -/
def bit (b : Bool) : BitVec 1 := BitVec.ofBool b

/-- The instruction word (04 R83). -/
def packWord (op : BitVec 8) (fn : BitVec 4) (h : Head) (body : BitVec 41) : Dword :=
  op ++ fn ++ bit h.gn ++ h.gp ++ h.setf ++ bit h.nwb ++ h.lat ++ body

/-- Body of format V (04 R84). -/
def packV (mod : BitVec 2) (d : BitVec 9) (a b c : BitVec 10) : BitVec 41 := mod ++ d ++ a ++ b ++ c

/-- Body of format I. -/
def packI (mod : BitVec 2) (d : BitVec 9) (a : BitVec 10) (imm : BitVec 20) : BitVec 41 := mod ++ d ++ a ++ imm

/-- Body of format M. -/
def packM (data : BitVec 9) (addr : BitVec 10) (off : BitVec 14) (scope qual : BitVec 4) : BitVec 41 :=
  data ++ addr ++ off ++ scope ++ qual

/-- Body of format C. -/
def packC (mode : BitVec 4) (tgt : BitVec 32) : BitVec 41 := mode ++ (0#5) ++ tgt

/-- Body of format X. -/
def packX (acc ha hb : BitVec 4) (bus msk : Bool) (gsel : BitVec 3) (ka kb : BitVec 12) : BitVec 41 :=
  acc ++ ha ++ hb ++ bit bus ++ bit msk ++ gsel ++ ka ++ kb

/-- Body of format E. -/
def packE (r c : BitVec 10) (imm : BitVec 21) : BitVec 41 := r ++ c ++ imm

/-- FN of families 0x1 and 0x2 (04 R102): FN[3] scalar, FN[2] format I, FN[1:0] the form. -/
def fnInt (sc i : Bool) (k : BitVec 2) : BitVec 4 := bit sc ++ bit i ++ k

/-- True when operand B is IMM20. -/
def SrcI.isImm : SrcI → Bool
  | .src _ => false
  | .imm _ => true

/-- Body of a two-source form in format V or I. -/
def packVI (mod : BitVec 2) (d : BitVec 9) (a : Src) (b : SrcI) : BitVec 41 :=
  match b with
  | .src x => packV mod d a.sel x.sel 0
  | .imm i => packI mod d a.sel i

/-- A two-source integer or logic form. -/
def enc2 (op : BitVec 8) (k : BitVec 2) (h : Head) (x : Body2) : Dword :=
  packWord op (fnInt x.sc x.b.isImm k) h (packVI x.mod x.d x.a x.b)

/-- A one-source integer or logic form. -/
def enc1 (op : BitVec 8) (k : BitVec 2) (h : Head) (x : Body1) : Dword :=
  packWord op (fnInt x.sc false k) h (packV x.mod x.d x.a.sel 0 0)

/-- A three-source integer or logic form. -/
def enc3 (op : BitVec 8) (k : BitVec 2) (h : Head) (x : Body3) : Dword :=
  packWord op (fnInt x.sc false k) h (packV x.mod x.d x.a.sel x.b.sel x.c.sel)

/-- IADDC and ISUBB (06 R150). -/
def encC (k : BitVec 2) (h : Head) (x : BodyC) : Dword :=
  match x.b with
  | .v b cie co ci =>
    packWord 0x10 (fnInt x.sc false k) h
      (packV 0 x.d x.a.sel b.sel ((0#2) ++ bit cie ++ co ++ (0#1) ++ ci))
  | .i imm co ci => packWord 0x10 (fnInt x.sc true k) h (packI 0 x.d x.a.sel (ci ++ co ++ imm))

/-- ICMP and FCMP (06 R160). -/
def encCmp (op : BitVec 8) (h : Head) (x : BodyCmp) : Dword :=
  let mod := bit x.wide ++ bit x.uns
  let d := (0#6) ++ x.d
  match x.b with
  | .v b cmb cp => packWord op (bit false ++ x.cond) h (packV mod d x.a.sel b.sel ((0#5) ++ cmb ++ cp))
  | .i imm => packWord op (bit true ++ x.cond) h (packI mod d x.a.sel imm)

/-- A 10-bit field holding a predicate number. -/
def predSel (p : BitVec 3) : BitVec 10 := (0#7) ++ p

/-- PAND, POR, PXOR (06 R161). -/
def encP2 (fn : BitVec 4) (h : Head) (x : BodyP2) : Dword :=
  packWord 0x32 fn h (packV (bit x.nb ++ bit x.na) ((0#6) ++ x.d) (predSel x.a) (predSel x.b) 0)

/-- PNOT, PMOV (06 R161). -/
def encP1 (fn : BitVec 4) (h : Head) (x : BodyP1) : Dword :=
  packWord 0x32 fn h (packV (bit false ++ bit x.na) ((0#6) ++ x.d) (predSel x.a) 0 0)

/-- FADD, FSUB, FMUL (08 R195). -/
def encFI (op : BitVec 8) (h : Head) (x : BodyF2I) : Dword :=
  packWord op (bit false ++ bit x.b.isImm ++ x.rm) h (packVI x.mod x.d x.a x.b)

/-- FP forms with two sources and a rounding mode. -/
def encF2 (op : BitVec 8) (h : Head) (x : BodyF2) : Dword :=
  packWord op ((0#2) ++ x.rm) h (packV x.mod x.d x.a.sel x.b.sel 0)

/-- FP forms with three sources and a rounding mode. -/
def encF3 (op : BitVec 8) (h : Head) (x : BodyF3) : Dword :=
  packWord op ((0#2) ++ x.rm) h (packV x.mod x.d x.a.sel x.b.sel x.c.sel)

/-- Forms D, A only. -/
def encU (op : BitVec 8) (fn : BitVec 4) (h : Head) (d : BitVec 9) (a : Src) : Dword :=
  packWord op fn h (packV 0 d a.sel 0 0)

/-- The C field of a conversion (08 R205). -/
def cvtC (sat : Bool) (dt ty : BitVec 4) : BitVec 10 := bit sat ++ (0#1) ++ dt ++ ty

/-- F2I, I2F, F2F, I2I (08 R206). -/
def encCvt (op : BitVec 8) (h : Head) (x : BodyCvt) : Dword :=
  packWord op ((0#2) ++ x.rm) h (packV x.sel x.d x.a.sel 0 (cvtC x.sat x.dt x.st))

/-- ATOM, ATOMB, RED (09 R237). -/
def encAtom (op : BitVec 8) (h : Head) (x : BodyAtom) : Dword :=
  packWord op x.op h (packM x.d x.addr.sel x.off x.scope (x.ord ++ (0#1) ++ bit x.b64))

/-- The counter instructions (11 R275). -/
def encCtr (op : BitVec 8) (h : Head) (x : BodyCtr) : Dword :=
  packWord op 0 h (packM x.d x.addr.sel x.off x.scope ((0#3) ++ bit x.sreg))

/-- MMA, MMAZ (12 R294). -/
def encMma (op : BitVec 8) (h : Head) (x : BodyMma) : Dword :=
  packWord op (x.g ++ bit x.n128) h (packX x.acc x.ha x.hb x.bus x.msk x.gsel x.ka x.kb)

/-- BAR, BARA, BARW (18 R365). -/
def encBar (op : BitVec 8) (h : Head) (g : Option (BitVec 3)) : Dword :=
  match g with
  | none => packWord op 0 h (packV 0 0 0 0 0)
  | some k => packWord op 1 h (packV 0 0 0 (predSel k) 0)

/-- Format E of the asynchronous engine instructions: CE and SCOPE in IMM21[15:11] (14 R322). -/
def encEng (op : BitVec 8) (fn : BitVec 4) (h : Head) (r : BitVec 10) (lo : BitVec 11) (ctr : Option EngCtr) : Dword :=
  match ctr with
  | none => packWord op fn h (packE r 0 ((0#5) ++ (0#1) ++ (0#4) ++ lo))
  | some c => packWord op fn h (packE r c.c.sel ((0#5) ++ (1#1) ++ c.scope ++ lo))

/-- The word of an instruction; a device event has none. -/
def encode : Instr → List Dword
  | .nop h => [packWord 0x00 0 h 0]
  | .bra h m t => [packWord 0x01 0 h (packC (match m with | .plain => 0 | .any => 1 | .all => 2) t)]
  | .brax h a => [packWord 0x02 0 h (packV 0 0 a.sel 0 0)]
  | .call h t => [packWord 0x03 0 h (packC 0 t)]
  | .callx h a => [packWord 0x04 0 h (packV 0 0 a.sel 0 0)]
  | .ret h => [packWord 0x05 0 h 0]
  | .exit h => [packWord 0x06 0 h 0]
  | .spawn h d pe a ent => [packWord 0x07 0 h (packI 0 ((0#2) ++ d) a.sel ((0#9) ++ pe ++ ent))]
  | .join h a b => [packWord 0x08 0 h (packV 0 0 a.sel b.sel 0)]
  | .yield h => [packWord 0x09 0 h 0]
  | .trap h c => [packWord 0x0A 0 h (packI 0 0 0 ((0#4) ++ c))]
  | .bkpt h c => [packWord 0x0B 0 h (packI 0 0 0 ((0#4) ++ c))]
  | .iadd h x => [enc2 0x10 0 h x]
  | .isub h x => [enc2 0x10 1 h x]
  | .iaddc h x => [encC 2 h x]
  | .isubb h x => [encC 3 h x]
  | .imul h x => [enc2 0x11 0 h x]
  | .imulh h x => [enc2 0x11 1 h x]
  | .imad h x => [enc3 0x12 0 h x]
  | .imadw h x => [enc3 0x12 1 h x]
  | .idiv h x => [enc2 0x13 0 h x]
  | .irem h x => [enc2 0x13 1 h x]
  | .udiv h x => [enc2 0x13 2 h x]
  | .urem h x => [enc2 0x13 3 h x]
  | .imin h x => [enc2 0x14 0 h x]
  | .imax h x => [enc2 0x14 1 h x]
  | .umin h x => [enc2 0x14 2 h x]
  | .umax h x => [enc2 0x14 3 h x]
  | .iabs h x => [enc1 0x15 0 h x]
  | .ineg h x => [enc1 0x15 1 h x]
  | .iadd64 h x => [enc2 0x16 0 h x]
  | .lea h x => [enc2 0x17 0 h x]
  | .and h x => [enc2 0x20 0 h x]
  | .or h x => [enc2 0x20 1 h x]
  | .xor h x => [enc2 0x20 2 h x]
  | .andn h x => [enc2 0x20 3 h x]
  | .not h x => [enc1 0x21 0 h x]
  | .mov h sc (.mov d a) => [packWord 0x21 (fnInt sc a.isImm 1) h
      (match a with | .src x => packV 0 d x.sel 0 0 | .imm i => packI 0 d 0 i)]
  | .mov h sc (.fromLstat d) => [packWord 0x21 (fnInt sc false 1) h (packV 1 d 0 0 0)]
  | .mov h sc (.toLstat a) => [packWord 0x21 (fnInt sc false 1) h (packV 2 0 a.sel 0 0)]
  | .mov h sc (.mov64 d a) => [packWord 0x21 (fnInt sc a.isImm 1) h
      (match a with | .src x => packV 3 d x.sel 0 0 | .imm i => packI 3 d 0 i)]
  | .lut3 h x => [packWord 0x22 (fnInt x.sc true 0) h (packI 0 x.d x.a.sel ((0#3) ++ x.z ++ x.table))]
  | .shl h x => [enc2 0x23 0 h x]
  | .shr h x => [enc2 0x23 1 h x]
  | .sar h x => [enc2 0x23 2 h x]
  | .rotl h x => [enc2 0x23 3 h x]
  | .fshf h x => [enc3 0x24 0 h x]
  | .bfx h x => [enc3 0x25 0 h x]
  | .bfi h x => [enc3 0x25 1 h x]
  | .brev h x => [enc1 0x26 0 h x]
  | .popc h x => [enc1 0x26 1 h x]
  | .clz h x => [enc1 0x26 2 h x]
  | .ctz h x => [enc1 0x26 3 h x]
  | .bperm h x => [enc3 0x27 0 h x]
  | .sel h x => [packWord 0x28 (fnInt x.sc false 0) h (packV 0 x.d x.a.sel x.b.sel (predSel x.p))]
  | .movxRd h d a b => [packWord 0x29 0 h (packV 0 d a.sel b.sel 0)]
  | .movxWr h a b c => [packWord 0x29 1 h (packV 0 0 a.sel b.sel c.sel)]
  | .icmp h x => [encCmp 0x30 h x]
  | .fcmp h x => [encCmp 0x31 h x]
  | .pand h x => [encP2 0 h x]
  | .por h x => [encP2 1 h x]
  | .pxor h x => [encP2 2 h x]
  | .pnot h x => [encP1 3 h x]
  | .pmov h x => [encP1 4 h x]
  | .pcnt h d a => [packWord 0x33 0 h (packV 0 d (predSel a) 0 0)]
  | .pany h d a => [packWord 0x33 1 h (packV 0 ((0#6) ++ d) (predSel a) 0 0)]
  | .pall h d a => [packWord 0x33 2 h (packV 0 ((0#6) ++ d) (predSel a) 0 0)]
  | .lead h d a => [packWord 0x33 3 h (packV 0 ((0#6) ++ d) (predSel a) 0 0)]
  | .fadd h x => [encFI 0x40 h x]
  | .fsub h x => [encFI 0x41 h x]
  | .fmul h x => [encFI 0x42 h x]
  | .ffma h x => [encF3 0x43 h x]
  | .fmin h d a b => [packWord 0x44 (bit false ++ bit b.isImm ++ (0#2)) h (packVI 0 d a b)]
  | .fmax h d a b => [packWord 0x45 (bit false ++ bit b.isImm ++ (0#2)) h (packVI 0 d a b)]
  | .frnd h rm d a => [encU 0x46 ((0#2) ++ rm) h d a]
  | .fclass h d a => [encU 0x47 0 h d a]
  | .fscale h x => [encF2 0x48 h x]
  | .fexp h d a => [encU 0x49 0 h d a]
  | .hadd2 h x => [encF2 0x50 h x]
  | .hmul2 h x => [encF2 0x51 h x]
  | .hfma2 h x => [encF3 0x52 h x]
  | .badd2 h x => [encF2 0x53 h x]
  | .bmul2 h x => [encF2 0x54 h x]
  | .bfma2 h x => [encF3 0x55 h x]
  | .hmnx2 h mx bf d a b => [packWord 0x56 ((0#2) ++ bit bf ++ bit mx) h (packV 0 d a.sel b.sel 0)]
  | .hdot2 h x => [encF3 0x57 h x]
  | .f2i h x => [encCvt 0x60 h x]
  | .i2f h x => [encCvt 0x61 h x]
  | .f2f h x => [encCvt 0x62 h x]
  | .i2i h x => [encCvt 0x63 h x]
  | .pack8 h dt d a b => [packWord 0x64 0 h (packV 0 d a.sel b.sel (cvtC false dt 0))]
  | .unpack8 h ty dt e d a => [packWord 0x65 0 h (packV e d a.sel 0 (cvtC false dt ty))]
  | .pack6 h d a b => [packWord 0x66 0 h (packV 0 d a.sel b.sel (cvtC false 5 0))]
  | .pack4 h e d a b => [packWord 0x67 0 h (packV e d a.sel b.sel (cvtC false 6 0))]
  | .unpack4 h dt e d a => [packWord 0x68 0 h (packV e d a.sel 0 (cvtC false dt 6))]
  | .scaleq h q d a => [packWord 0x69 0 h (packV 0 d a.sel 0 (cvtC false q 0))]
  | .quant h q d a b => [packWord 0x6A 0 h (packV 0 d a.sel b.sel (cvtC false q 0))]
  | .rcp h ap d a => [encU 0x70 ((0#3) ++ bit ap) h d a]
  | .rsq h ap d a => [encU 0x71 ((0#3) ++ bit ap) h d a]
  | .sqrt h ap d a => [encU 0x72 ((0#3) ++ bit ap) h d a]
  | .exp2 h d a => [encU 0x73 0 h d a]
  | .log2 h d a => [encU 0x74 0 h d a]
  | .sinp h d a => [encU 0x75 0 h d a]
  | .cosp h d a => [encU 0x76 0 h d a]
  | .tanh h d a => [encU 0x77 0 h d a]
  | .perm h d a b c => [packWord 0x80 0 h (packV 0 d a.sel b.sel c.sel)]
  | .shfl h m d a b => [packWord 0x81 ((0#2) ++ m) h (packV 0 d a.sel b.sel 0)]
  | .rdstep h op d a k => [packWord 0x82 op h (packV 0 d a.sel (Src.imm (k.setWidth 8)).sel 0)]
  | .rdx h op d a => [encU 0x83 op h d a]
  | .scan h op ex d a => [packWord 0x84 op h (packV ((0#1) ++ bit ex) d a.sel 0 0)]
  | .bcast h d a b => [packWord 0x85 0 h (packV 0 d a.sel b.sel 0)]
  | .ld h sz d a o sc q => [packWord 0x90 sz.fn h (packM d a.sel o sc ((0#2) ++ q))]
  | .ldu h sz d a o sc q => [packWord 0x91 sz.fn h (packM ((0#2) ++ d) a.sel o sc ((0#2) ++ q))]
  | .ldk h sz d a o => [packWord 0x92 sz.fn h (packM d a.sel o 0 0)]
  | .ldb h sz d a o w c => [packWord 0x93 sz.fn h (packM d a.sel o 0 ((0#2) ++ bit c ++ bit w))]
  | .ldl h sz d a o => [packWord 0x97 sz.fn h (packM d a.sel o 0 0)]
  | .st h sz x a o q => [packWord 0x94 sz.fn h (packM x a.sel o 0 ((0#2) ++ q))]
  | .stu h sz x a o q => [packWord 0x95 sz.fn h (packM ((0#2) ++ x) a.sel o 0 ((0#2) ++ q))]
  | .stb h sz x a o f => [packWord 0x96 sz.fn h (packM x a.sel o 0 ((0#3) ++ bit f))]
  | .stl h sz x a o => [packWord 0x98 sz.fn h (packM x a.sel o 0 0)]
  | .pref h l2 a o => [packWord 0x99 0 h (packM 0 a.sel o 0 ((0#3) ++ bit l2))]
  | .fillb h cl n a o => [packWord 0x9A ((0#3) ++ bit cl) h (packM ((0#2) ++ n) a.sel o 0 0)]
  | .atom h x => [encAtom 0xA0 h x]
  | .atomb h x => [encAtom 0xA1 h x]
  | .red h x => [encAtom 0xA2 h x]
  | .ldsub h r d a o => [packWord 0xA3 ((0#3) ++ bit r) h (packM d a.sel o 0 0)]
  | .unsub h a o => [packWord 0xA4 0 h (packM 0 a.sel o 0 0)]
  | .substat h d a o => [packWord 0xA5 0 h (packM d a.sel o 0 0)]
  | .copy h out ob k sc m r c =>
    [packWord 0xB0 0 h (packE r.sel c.sel (bit out ++ bit ob ++ k ++ sc ++ bit m ++ (0#10)))]
  | .copyl h sc r c => [packWord 0xB1 0 h (packE r.sel c.sel ((0#6) ++ sc ++ (0#11)))]
  | .copym h n4 k sc r c => [packWord 0xB2 ((0#3) ++ bit n4) h (packE r.sel c.sel ((0#2) ++ k ++ sc ++ (0#11)))]
  | .ctradd h x => [encCtr 0xB3 h x]
  | .ctrwait h x => [encCtr 0xB4 h x]
  | .ctrrd h x => [encCtr 0xB5 h x]
  | .fork h r n => [packWord 0xB6 0 h (packE r.sel 0 ((0#17) ++ n))]
  | .rdv h r n => [packWord 0xB7 0 h (packE r.sel 0 ((0#17) ++ n))]
  | .objreq h q sc r c => [packWord 0xB8 0 h (packE r.sel c.sel ((0#6) ++ sc ++ (0#9) ++ q))]
  | .gang h k a => [packWord 0xC0 0 h (packV 0 ((0#6) ++ k) a.sel 0 0)]
  | .rsv h k n => [packWord 0xC1 0 h (packM ((0#5) ++ k) (Src.s n).sel 0 0 0)]
  | .rsvrel h k => [packWord 0xC2 0 h (packV 0 ((0#5) ++ k) 0 0 0)]
  | .obld h k x a o sc => [packWord 0xC3 0 h (packM x a.sel o sc k)]
  | .obst h k x a o => [packWord 0xC4 0 h (packM x a.sel o 0 k)]
  | .mma h x => [encMma 0xC5 h x]
  | .mmaz h x => [encMma 0xC6 h x]
  | .accrd h f d r c t => [packWord 0xC7 ((0#2) ++ f) h (packV 0 d r.sel c.sel ((0#6) ++ t))]
  | .accwr h raw t r c x => [packWord 0xC8 0 h (packV ((0#1) ++ bit raw) ((0#5) ++ t) r.sel c.sel x.sel)]
  | .accz h t => [packWord 0xC9 0 h (packV 0 ((0#5) ++ t) 0 0 0)]
  | .buspub h hb kb m n => [packWord 0xCA 0 h (packX 0 0 hb false false 0 ((0#7) ++ bit n ++ m) kb)]
  | .bussub h c n => [packWord 0xCB 0 h (packX 0 0 0 false false 0 ((0#10) ++ c) n)]
  | .bar h g => [encBar 0xD0 h g]
  | .bara h g => [encBar 0xD1 h g]
  | .barw h g => [encBar 0xD2 h g]
  | .fence h u sc => [packWord 0xD3 ((0#3) ++ bit u) h (packM 0 0 0 sc 0)]
  | .pfence h m sc => [packWord 0xD4 0 h (packM ((0#4) ++ m) 0 0 sc 0)]
  | .acq h k sc => [packWord 0xD5 ((0#3) ++ bit k) h (packM 0 0 0 sc 0)]
  | .rel h sc => [packWord 0xD6 0 h (packM 0 0 0 sc 0)]
  | .sleep h a i => [packWord 0xD7 0 h (packI 0 0 a.sel i)]
  | .estream h j r c => [packWord 0xE0 0 h (packE r.sel c.sel ((0#18) ++ j))]
  | .ereduce h ty d m ctr => [encEng 0xE1 ((0#2) ++ ty) h 0 (m ++ d) ctr]
  | .ebcast h q m ctr => [encEng 0xE2 0 h 0 (m ++ q) ctr]
  | .ecopy h d q ctr => [encEng 0xE3 0 h 0 ((0#5) ++ q ++ d) ctr]
  | .egemv h bf r ctr => [encEng 0xE4 ((0#3) ++ bit bf) h r.sel 0 ctr]
  | .routeCnt h r ctr => [encEng 0xE5 0 h r.sel 0 ctr]
  | .routeScan h r ctr => [encEng 0xE5 1 h r.sel 0 ctr]
  | .routePlace h r ctr => [encEng 0xE5 2 h r.sel 0 ctr]
  | .routeComb h r ctr => [encEng 0xE5 3 h r.sel 0 ctr]
  | .esig h c r => [packWord 0xE6 0 h (packE r.sel 0 ((0#5) ++ c))]
  | .csrr h d c => [packWord 0xF0 0 h (packI 0 ((0#2) ++ d) 0 ((0#8) ++ c))]
  | .csrw h c a => [packWord 0xF1 0 h (packI 0 0 a.sel ((0#8) ++ c))]
  | .tlbinv h (.page c a) => [packWord 0xF2 0 h (packM ((0#2) ++ c) (Src.s a).sel 0 0 0)]
  | .tlbinv h (.ctx c) => [packWord 0xF2 0 h (packM ((0#2) ++ c) 0 0 0 1)]
  | .tlbinv h (.gpa c a) => [packWord 0xF2 0 h (packM ((0#2) ++ c) (Src.s a).sel 0 0 2)]
  | .tlbinv h .all => [packWord 0xF2 0 h (packM 0 0 0 0 3)]
  | .rett h => [packWord 0xF3 0 h 0]
  | .presp h a => [packWord 0xF4 0 h (packM 0 a.sel 0 0 0)]
  | .haltc h a => [packWord 0xF5 0 h (packV 0 0 a.sel 0 0)]
  | _ => []

/-! ### Fields of a word -/

/-- The head of a word (04 R83). -/
def headOf (w : Dword) : Head where
  gn := w.getLsbD 51
  gp := w.extractLsb' 48 3
  setf := w.extractLsb' 44 4
  nwb := w.getLsbD 43
  lat := w.extractLsb' 41 2

/-- OP. -/
def fOp (w : Dword) : BitVec 8 := w.extractLsb' 56 8
/-- FN. -/
def fFn (w : Dword) : BitVec 4 := w.extractLsb' 52 4
/-- MOD of formats V and I. -/
def fMod (w : Dword) : BitVec 2 := w.extractLsb' 39 2
/-- D of formats V and I. -/
def fD (w : Dword) : BitVec 9 := w.extractLsb' 30 9
/-- A of formats V and I. -/
def fA (w : Dword) : BitVec 10 := w.extractLsb' 20 10
/-- B of format V. -/
def fB (w : Dword) : BitVec 10 := w.extractLsb' 10 10
/-- C of format V. -/
def fC (w : Dword) : BitVec 10 := w.extractLsb' 0 10
/-- IMM20 of format I. -/
def fImm (w : Dword) : BitVec 20 := w.extractLsb' 0 20
/-- DATA of format M. -/
def fData (w : Dword) : BitVec 9 := w.extractLsb' 32 9
/-- ADDR of format M. -/
def fAddr (w : Dword) : BitVec 10 := w.extractLsb' 22 10
/-- OFF14 of format M. -/
def fOff (w : Dword) : BitVec 14 := w.extractLsb' 8 14
/-- SCOPE of format M. -/
def fScope (w : Dword) : BitVec 4 := w.extractLsb' 4 4
/-- QUAL of format M. -/
def fQual (w : Dword) : BitVec 4 := w.extractLsb' 0 4
/-- RSEL of format E. -/
def fR (w : Dword) : BitVec 10 := w.extractLsb' 31 10
/-- CSEL of format E. -/
def fCs (w : Dword) : BitVec 10 := w.extractLsb' 21 10

/-! ### The decoder -/

/-- A selector field. -/
def srcOf (x : BitVec 10) : Except DecodeError Src :=
  match Src.ofSel x with
  | some a => .ok a
  | none => .error .selector

/-- A field that must be zero. -/
def zero {n : Nat} (x : BitVec n) : Except DecodeError Unit := if x == 0 then .ok () else .error .reserved

/-- A condition on fields that must hold. -/
def need (c : Bool) : Except DecodeError Unit := if c then .ok () else .error .reserved

/-- The whole body must be zero. -/
def bodyZero (w : Dword) : Except DecodeError Unit := zero (w.extractLsb' 0 41)

/-- A predicate source in a 10-bit field (04 R89). -/
def predOf (x : BitVec 10) : Except DecodeError (BitVec 3) := do
  if x.toNat < 8 then .ok (x.setWidth 3) else .error .selector

/-- A predicate destination (04 R89). -/
def predD (w : Dword) : Except DecodeError (BitVec 3) := do
  zero (w.extractLsb' 33 6); .ok (w.extractLsb' 30 3)

/-- FN of families 0x1 and 0x2. -/
def isSc (w : Dword) : Bool := w.getLsbD 55
/-- FN[2]: format I. -/
def isI (w : Dword) : Bool := w.getLsbD 54
/-- FN[1:0]. -/
def fnK (w : Dword) : Nat := (w.extractLsb' 52 2).toNat

/-- Operand B of a form with formats V and I. -/
def srcIOf (w : Dword) : Except DecodeError SrcI := do
  if isI w then .ok (.imm (fImm w))
  else
    let b ← srcOf (fB w); zero (fC w); .ok (.src b)

/-- A two-source body. -/
def dec2 (w : Dword) : Except DecodeError Body2 := do
  let a ← srcOf (fA w); let b ← srcIOf w; .ok ⟨isSc w, fMod w, fD w, a, b⟩

/-- A one-source body. -/
def dec1 (w : Dword) : Except DecodeError Body1 := do
  if isI w then .error .unassigned
  else
    let a ← srcOf (fA w); zero (fB w); zero (fC w); .ok ⟨isSc w, fMod w, fD w, a⟩

/-- A three-source body. -/
def dec3 (w : Dword) : Except DecodeError Body3 := do
  if isI w then .error .unassigned
  else
    let a ← srcOf (fA w); let b ← srcOf (fB w); let c ← srcOf (fC w); .ok ⟨isSc w, fMod w, fD w, a, b, c⟩

/-- IADDC and ISUBB. -/
def decC (w : Dword) : Except DecodeError BodyC := do
  zero (fMod w)
  let a ← srcOf (fA w)
  if isI w then .ok ⟨isSc w, fD w, a, .i (w.extractLsb' 0 14) (w.extractLsb' 14 3) (w.extractLsb' 17 3)⟩
  else
    let b ← srcOf (fB w)
    zero (w.extractLsb' 8 2); zero (w.extractLsb' 3 1)
    .ok ⟨isSc w, fD w, a, .v b (w.getLsbD 7) (w.extractLsb' 4 3) (w.extractLsb' 0 3)⟩

/-- ICMP and FCMP. -/
def decCmp (w : Dword) : Except DecodeError BodyCmp := do
  let d ← predD w
  let a ← srcOf (fA w)
  let cond := w.extractLsb' 52 3
  if w.getLsbD 55 then .ok ⟨cond, w.getLsbD 39, w.getLsbD 40, d, a, .i (fImm w)⟩
  else
    let b ← srcOf (fB w)
    zero (w.extractLsb' 5 5)
    .ok ⟨cond, w.getLsbD 39, w.getLsbD 40, d, a, .v b (w.extractLsb' 3 2) (w.extractLsb' 0 3)⟩

/-- PAND, POR, PXOR. -/
def decP2 (w : Dword) : Except DecodeError BodyP2 := do
  let d ← predD w; let a ← predOf (fA w); let b ← predOf (fB w); zero (fC w)
  .ok ⟨w.getLsbD 39, w.getLsbD 40, d, a, b⟩

/-- PNOT, PMOV. -/
def decP1 (w : Dword) : Except DecodeError BodyP1 := do
  let d ← predD w; let a ← predOf (fA w); zero (fB w); zero (fC w); need (!w.getLsbD 40)
  .ok ⟨w.getLsbD 39, d, a⟩

/-- PCNT, PANY, PALL, LEAD: the predicate source, every other source field zero. -/
def decPs (w : Dword) : Except DecodeError (BitVec 3) := do
  zero (fMod w); let a ← predOf (fA w); zero (fB w); zero (fC w); .ok a

/-- FADD, FSUB, FMUL. -/
def decFI (w : Dword) : Except DecodeError BodyF2I := do
  if w.getLsbD 55 then .error .unassigned
  else
    let a ← srcOf (fA w); let b ← srcIOf w; .ok ⟨w.extractLsb' 52 2, fMod w, fD w, a, b⟩

/-- FP forms with two sources. -/
def decF2 (w : Dword) : Except DecodeError BodyF2 := do
  if w.extractLsb' 54 2 != 0 then .error .unassigned
  else
    let a ← srcOf (fA w); let b ← srcOf (fB w); zero (fC w); .ok ⟨w.extractLsb' 52 2, fMod w, fD w, a, b⟩

/-- FP forms with three sources. -/
def decF3 (w : Dword) : Except DecodeError BodyF3 := do
  if w.extractLsb' 54 2 != 0 then .error .unassigned
  else
    let a ← srcOf (fA w); let b ← srcOf (fB w); let c ← srcOf (fC w)
    .ok ⟨w.extractLsb' 52 2, fMod w, fD w, a, b, c⟩

/-- Forms D, A only. -/
def decU (w : Dword) : Except DecodeError (BitVec 9 × Src) := do
  zero (fMod w); let a ← srcOf (fA w); zero (fB w); zero (fC w); .ok (fD w, a)

/-- F2I, I2F, F2F, I2I. -/
def decCvt (w : Dword) : Except DecodeError BodyCvt := do
  if w.extractLsb' 54 2 != 0 then .error .unassigned
  else
    let a ← srcOf (fA w); zero (fB w); zero (w.extractLsb' 8 1)
    .ok ⟨w.extractLsb' 52 2, w.getLsbD 9, w.extractLsb' 0 4, w.extractLsb' 4 4, fMod w, fD w, a⟩

/-- A conversion's ST field must hold the one type the form accepts; SAT and bit 8 are zero. -/
def needSt (w : Dword) (n : Nat) : Except DecodeError Unit := do
  zero (w.extractLsb' 8 2); need ((w.extractLsb' 0 4).toNat == n)

/-- DT, or Q. -/
def fDt (w : Dword) : BitVec 4 := w.extractLsb' 4 4

/-- ADDR of format M. -/
def addrOf (w : Dword) : Except DecodeError Src := srcOf (fAddr w)

/-- A load size. -/
def ldSizeOf (w : Dword) : Except DecodeError LdSize :=
  match LdSize.ofFn (fFn w) with
  | some s => .ok s
  | none => .error .unassigned

/-- A store size. -/
def stSizeOf (w : Dword) : Except DecodeError StSize :=
  match StSize.ofFn (fFn w) with
  | some s => .ok s
  | none => .error .unassigned

/-- DATA naming an s register. -/
def dataS (w : Dword) : Except DecodeError (BitVec 7) := do
  zero (w.extractLsb' 39 2); .ok (w.extractLsb' 32 7)

/-- The two-bit hint of QUAL. -/
def hintOf (w : Dword) : Except DecodeError (BitVec 2) := do
  zero (w.extractLsb' 2 2); .ok (w.extractLsb' 0 2)

/-- ATOM, ATOMB, RED. -/
def decAtom (w : Dword) : Except DecodeError BodyAtom := do
  let a ← addrOf w
  zero (w.extractLsb' 1 1)
  .ok ⟨fFn w, w.getLsbD 0, w.extractLsb' 2 2, fData w, a, fOff w, fScope w⟩

/-- The counter instructions. -/
def decCtr (w : Dword) : Except DecodeError BodyCtr := do
  let a ← addrOf w; zero (w.extractLsb' 1 3); .ok ⟨w.getLsbD 0, fData w, a, fOff w, fScope w⟩

/-- MMA, MMAZ. -/
def decMma (w : Dword) : BodyMma :=
  ⟨w.extractLsb' 53 3, w.getLsbD 52, w.extractLsb' 37 4, w.extractLsb' 33 4, w.extractLsb' 29 4, w.getLsbD 28,
    w.getLsbD 27, w.extractLsb' 24 3, w.extractLsb' 12 12, w.extractLsb' 0 12⟩

/-- BAR, BARA, BARW. -/
def decBar (w : Dword) : Except DecodeError (Option (BitVec 3)) := do
  zero (fMod w); zero (fD w); zero (fA w); zero (fC w)
  match (fFn w).toNat with
  | 0 => zero (fB w); .ok none
  | 1 => let k ← predOf (fB w); .ok (some k)
  | _ => .error .unassigned

/-- The fields that the fences leave unused. -/
def fenceZero (w : Dword) : Except DecodeError Unit := do zero (fAddr w); zero (fOff w); zero (fQual w)

/-- The counter of an asynchronous engine instruction. -/
def decEngCtr (w : Dword) : Except DecodeError (Option EngCtr) := do
  zero (w.extractLsb' 16 5)
  if w.getLsbD 15 then
    let c ← srcOf (fCs w); .ok (some ⟨c, w.extractLsb' 11 4⟩)
  else
    zero (fCs w); zero (w.extractLsb' 11 4); .ok none

/-- FN must be zero. -/
def fn0 (w : Dword) : Except DecodeError Unit := if fFn w == 0 then .ok () else .error .unassigned

/-- FN must be 0 or 1; its bit 0 is the answer. -/
def fn01 (w : Dword) : Except DecodeError Bool :=
  if w.extractLsb' 53 3 == 0 then .ok (w.getLsbD 52) else .error .unassigned

/-- Family 0x0 (04 R102, 05 R131). -/
def decodeControl (h : Head) (w : Dword) : Except DecodeError Instr := do
  fn0 w
  match (fOp w).toNat with
  | 0x00 => bodyZero w; .ok (.nop h)
  | 0x01 =>
    zero (w.extractLsb' 32 5)
    match (w.extractLsb' 37 4).toNat with
    | 0 => .ok (.bra h .plain (w.extractLsb' 0 32))
    | 1 => .ok (.bra h .any (w.extractLsb' 0 32))
    | 2 => .ok (.bra h .all (w.extractLsb' 0 32))
    | _ => .error .illegal
  | 0x02 => let x ← decU w; zero x.1; .ok (.brax h x.2)
  | 0x03 => zero (w.extractLsb' 32 9); .ok (.call h (w.extractLsb' 0 32))
  | 0x04 => let x ← decU w; zero x.1; .ok (.callx h x.2)
  | 0x05 => bodyZero w; .ok (.ret h)
  | 0x06 => bodyZero w; .ok (.exit h)
  | 0x07 =>
    zero (fMod w); zero (w.extractLsb' 37 2); zero (w.extractLsb' 11 9)
    let a ← srcOf (fA w)
    .ok (.spawn h (w.extractLsb' 30 7) (w.extractLsb' 8 3) a (w.extractLsb' 0 8))
  | 0x08 =>
    zero (fMod w); zero (fD w); zero (fC w)
    let a ← srcOf (fA w); let b ← srcOf (fB w)
    .ok (.join h a b)
  | 0x09 => bodyZero w; .ok (.yield h)
  | 0x0A => zero (w.extractLsb' 16 25); .ok (.trap h (w.extractLsb' 0 16))
  | 0x0B => zero (w.extractLsb' 16 25); .ok (.bkpt h (w.extractLsb' 0 16))
  | _ => .error .unassigned

/-- Families 0x1 and 0x2 (04 R102). -/
def decodeInt (h : Head) (w : Dword) : Except DecodeError Instr := do
  match (fOp w).toNat, fnK w with
  | 0x10, 0 => .ok (.iadd h (← dec2 w))
  | 0x10, 1 => .ok (.isub h (← dec2 w))
  | 0x10, 2 => .ok (.iaddc h (← decC w))
  | 0x10, 3 => .ok (.isubb h (← decC w))
  | 0x11, 0 => .ok (.imul h (← dec2 w))
  | 0x11, 1 => .ok (.imulh h (← dec2 w))
  | 0x12, 0 => .ok (.imad h (← dec3 w))
  | 0x12, 1 => .ok (.imadw h (← dec3 w))
  | 0x13, 0 => .ok (.idiv h (← dec2 w))
  | 0x13, 1 => .ok (.irem h (← dec2 w))
  | 0x13, 2 => .ok (.udiv h (← dec2 w))
  | 0x13, 3 => .ok (.urem h (← dec2 w))
  | 0x14, 0 => .ok (.imin h (← dec2 w))
  | 0x14, 1 => .ok (.imax h (← dec2 w))
  | 0x14, 2 => .ok (.umin h (← dec2 w))
  | 0x14, 3 => .ok (.umax h (← dec2 w))
  | 0x15, 0 => .ok (.iabs h (← dec1 w))
  | 0x15, 1 => .ok (.ineg h (← dec1 w))
  | 0x16, 0 => .ok (.iadd64 h (← dec2 w))
  | 0x17, 0 => .ok (.lea h (← dec2 w))
  | 0x20, 0 => .ok (.and h (← dec2 w))
  | 0x20, 1 => .ok (.or h (← dec2 w))
  | 0x20, 2 => .ok (.xor h (← dec2 w))
  | 0x20, 3 => .ok (.andn h (← dec2 w))
  | 0x21, 0 => .ok (.not h (← dec1 w))
  | 0x21, 1 =>
    match (fMod w).toNat with
    | 0 =>
      if isI w then zero (fA w); .ok (.mov h (isSc w) (.mov (fD w) (.imm (fImm w))))
      else
        let a ← srcOf (fA w); zero (fB w); zero (fC w); .ok (.mov h (isSc w) (.mov (fD w) (.src a)))
    | 1 =>
      if isI w then .error .illegal
      else
        zero (fA w); zero (fB w); zero (fC w); .ok (.mov h (isSc w) (.fromLstat (fD w)))
    | 2 =>
      if isI w then .error .illegal
      else
        let a ← srcOf (fA w); zero (fD w); zero (fB w); zero (fC w); .ok (.mov h (isSc w) (.toLstat a))
    | _ =>
      if isI w then zero (fA w); .ok (.mov h (isSc w) (.mov64 (fD w) (.imm (fImm w))))
      else
        let a ← srcOf (fA w); zero (fB w); zero (fC w); .ok (.mov h (isSc w) (.mov64 (fD w) (.src a)))
  | 0x22, 0 =>
    if isI w then
      zero (fMod w); zero (w.extractLsb' 17 3)
      let a ← srcOf (fA w)
      .ok (.lut3 h ⟨isSc w, fD w, a, w.extractLsb' 0 8, w.extractLsb' 8 9⟩)
    else .error .unassigned
  | 0x23, 0 => .ok (.shl h (← dec2 w))
  | 0x23, 1 => .ok (.shr h (← dec2 w))
  | 0x23, 2 => .ok (.sar h (← dec2 w))
  | 0x23, 3 => .ok (.rotl h (← dec2 w))
  | 0x24, 0 => .ok (.fshf h (← dec3 w))
  | 0x25, 0 => .ok (.bfx h (← dec3 w))
  | 0x25, 1 => .ok (.bfi h (← dec3 w))
  | 0x26, 0 => .ok (.brev h (← dec1 w))
  | 0x26, 1 => .ok (.popc h (← dec1 w))
  | 0x26, 2 => .ok (.clz h (← dec1 w))
  | 0x26, 3 => .ok (.ctz h (← dec1 w))
  | 0x27, 0 => .ok (.bperm h (← dec3 w))
  | 0x28, 0 =>
    if isI w then .error .unassigned
    else
      zero (fMod w)
      let a ← srcOf (fA w); let b ← srcOf (fB w); let p ← predOf (fC w)
      .ok (.sel h ⟨isSc w, fD w, a, b, p⟩)
  | 0x29, 0 =>
    if w.extractLsb' 54 2 != 0 then .error .unassigned
    else
      zero (fMod w); zero (fC w)
      let a ← srcOf (fA w); let b ← srcOf (fB w)
      .ok (.movxRd h (fD w) a b)
  | 0x29, 1 =>
    if w.extractLsb' 54 2 != 0 then .error .unassigned
    else
      zero (fMod w); zero (fD w)
      let a ← srcOf (fA w); let b ← srcOf (fB w); let c ← srcOf (fC w)
      .ok (.movxWr h a b c)
  | _, _ => .error .unassigned

/-- Family 0x3 (04 R102). -/
def decodeCmp (h : Head) (w : Dword) : Except DecodeError Instr := do
  match (fOp w).toNat, (fFn w).toNat with
  | 0x30, _ => if (w.extractLsb' 52 3).toNat ≤ 5 then .ok (.icmp h (← decCmp w)) else .error .unassigned
  | 0x31, _ => .ok (.fcmp h (← decCmp w))
  | 0x32, 0 => .ok (.pand h (← decP2 w))
  | 0x32, 1 => .ok (.por h (← decP2 w))
  | 0x32, 2 => .ok (.pxor h (← decP2 w))
  | 0x32, 3 => .ok (.pnot h (← decP1 w))
  | 0x32, 4 => .ok (.pmov h (← decP1 w))
  | 0x33, 0 => let a ← decPs w; .ok (.pcnt h (fD w) a)
  | 0x33, 1 => let a ← decPs w; let d ← predD w; .ok (.pany h d a)
  | 0x33, 2 => let a ← decPs w; let d ← predD w; .ok (.pall h d a)
  | 0x33, 3 => let a ← decPs w; let d ← predD w; .ok (.lead h d a)
  | _, _ => .error .unassigned

/-- Families 0x4 and 0x5 (04 R102). -/
def decodeFloat (h : Head) (w : Dword) : Except DecodeError Instr := do
  match (fOp w).toNat with
  | 0x40 => .ok (.fadd h (← decFI w))
  | 0x41 => .ok (.fsub h (← decFI w))
  | 0x42 => .ok (.fmul h (← decFI w))
  | 0x43 => .ok (.ffma h (← decF3 w))
  | 0x44 =>
    if w.getLsbD 55 || w.extractLsb' 52 2 != 0 then .error .unassigned
    else
      zero (fMod w); let a ← srcOf (fA w); let b ← srcIOf w; .ok (.fmin h (fD w) a b)
  | 0x45 =>
    if w.getLsbD 55 || w.extractLsb' 52 2 != 0 then .error .unassigned
    else
      zero (fMod w); let a ← srcOf (fA w); let b ← srcIOf w; .ok (.fmax h (fD w) a b)
  | 0x46 =>
    if w.extractLsb' 54 2 != 0 then .error .unassigned
    else
      let x ← decU w; .ok (.frnd h (w.extractLsb' 52 2) x.1 x.2)
  | 0x47 => fn0 w; let x ← decU w; .ok (.fclass h x.1 x.2)
  | 0x48 => .ok (.fscale h (← decF2 w))
  | 0x49 => fn0 w; let x ← decU w; .ok (.fexp h x.1 x.2)
  | 0x50 => .ok (.hadd2 h (← decF2 w))
  | 0x51 => .ok (.hmul2 h (← decF2 w))
  | 0x52 => .ok (.hfma2 h (← decF3 w))
  | 0x53 => .ok (.badd2 h (← decF2 w))
  | 0x54 => .ok (.bmul2 h (← decF2 w))
  | 0x55 => .ok (.bfma2 h (← decF3 w))
  | 0x56 =>
    if w.extractLsb' 54 2 != 0 then .error .unassigned
    else
      zero (fMod w); zero (fC w)
      let a ← srcOf (fA w); let b ← srcOf (fB w)
      .ok (.hmnx2 h (w.getLsbD 52) (w.getLsbD 53) (fD w) a b)
  | 0x57 => .ok (.hdot2 h (← decF3 w))
  | _ => .error .unassigned

/-- Families 0x6 and 0x7 (04 R102, 08 R206). -/
def decodeCvt (h : Head) (w : Dword) : Except DecodeError Instr := do
  match (fOp w).toNat with
  | 0x60 => .ok (.f2i h (← decCvt w))
  | 0x61 => .ok (.i2f h (← decCvt w))
  | 0x62 => .ok (.f2f h (← decCvt w))
  | 0x63 => fn0 w; .ok (.i2i h (← decCvt w))
  | 0x64 =>
    fn0 w; zero (fMod w); needSt w 0
    let a ← srcOf (fA w); let b ← srcOf (fB w)
    .ok (.pack8 h (fDt w) (fD w) a b)
  | 0x65 =>
    fn0 w; zero (fB w); zero (w.extractLsb' 8 2)
    let a ← srcOf (fA w)
    .ok (.unpack8 h (w.extractLsb' 0 4) (fDt w) (fMod w) (fD w) a)
  | 0x66 =>
    fn0 w; zero (fMod w); needSt w 0; need (fDt w == 5)
    let a ← srcOf (fA w); let b ← srcOf (fB w)
    .ok (.pack6 h (fD w) a b)
  | 0x67 =>
    fn0 w; needSt w 0; need (fDt w == 6)
    let a ← srcOf (fA w); let b ← srcOf (fB w)
    .ok (.pack4 h (fMod w) (fD w) a b)
  | 0x68 =>
    fn0 w; zero (fB w); needSt w 6
    let a ← srcOf (fA w)
    .ok (.unpack4 h (fDt w) (fMod w) (fD w) a)
  | 0x69 =>
    fn0 w; zero (fMod w); zero (fB w); needSt w 0
    let a ← srcOf (fA w)
    .ok (.scaleq h (fDt w) (fD w) a)
  | 0x6A =>
    fn0 w; zero (fMod w); needSt w 0
    let a ← srcOf (fA w); let b ← srcOf (fB w)
    .ok (.quant h (fDt w) (fD w) a b)
  | 0x70 => let ap ← fn01 w; let x ← decU w; .ok (.rcp h ap x.1 x.2)
  | 0x71 => let ap ← fn01 w; let x ← decU w; .ok (.rsq h ap x.1 x.2)
  | 0x72 => let ap ← fn01 w; let x ← decU w; .ok (.sqrt h ap x.1 x.2)
  | 0x73 => fn0 w; let x ← decU w; .ok (.exp2 h x.1 x.2)
  | 0x74 => fn0 w; let x ← decU w; .ok (.log2 h x.1 x.2)
  | 0x75 => fn0 w; let x ← decU w; .ok (.sinp h x.1 x.2)
  | 0x76 => fn0 w; let x ← decU w; .ok (.cosp h x.1 x.2)
  | 0x77 => fn0 w; let x ← decU w; .ok (.tanh h x.1 x.2)
  | _ => .error .unassigned

/-- Family 0x8 (04 R102, R103). -/
def decodeCross (h : Head) (w : Dword) : Except DecodeError Instr := do
  match (fOp w).toNat with
  | 0x80 =>
    fn0 w; zero (fMod w)
    let a ← srcOf (fA w); let b ← srcOf (fB w); let c ← srcOf (fC w)
    .ok (.perm h (fD w) a b c)
  | 0x81 =>
    if w.extractLsb' 54 2 != 0 then .error .unassigned
    else
      zero (fMod w); zero (fC w)
      let a ← srcOf (fA w); let b ← srcOf (fB w)
      .ok (.shfl h (w.extractLsb' 52 2) (fD w) a b)
  | 0x82 =>
    if 10 < (fFn w).toNat then .error .unassigned
    else
      zero (fMod w); zero (fC w)
      let a ← srcOf (fA w)
      if 896 ≤ (fB w).toNat ∧ (fB w).toNat ≤ 902 then
        .ok (.rdstep h (fFn w) (fD w) a (BitVec.ofNat 3 ((fB w).toNat - 896)))
      else .error .selector
  | 0x83 =>
    if 10 < (fFn w).toNat then .error .unassigned
    else
      let x ← decU w; .ok (.rdx h (fFn w) x.1 x.2)
  | 0x84 =>
    if 10 < (fFn w).toNat then .error .unassigned
    else
      zero (w.extractLsb' 40 1); zero (fB w); zero (fC w)
      let a ← srcOf (fA w)
      .ok (.scan h (fFn w) (w.getLsbD 39) (fD w) a)
  | 0x85 =>
    fn0 w; zero (fMod w); zero (fC w)
    let a ← srcOf (fA w); let b ← srcOf (fB w)
    .ok (.bcast h (fD w) a b)
  | _ => .error .unassigned

/-- Families 0x9 and 0xA (04 R102, 09 R237). -/
def decodeMem (h : Head) (w : Dword) : Except DecodeError Instr := do
  match (fOp w).toNat with
  | 0x90 =>
    let sz ← ldSizeOf w; let a ← addrOf w; let q ← hintOf w
    .ok (.ld h sz (fData w) a (fOff w) (fScope w) q)
  | 0x91 =>
    let sz ← ldSizeOf w; let a ← addrOf w; let q ← hintOf w; let d ← dataS w
    .ok (.ldu h sz d a (fOff w) (fScope w) q)
  | 0x92 =>
    let sz ← ldSizeOf w; let a ← addrOf w; zero (fScope w); zero (fQual w)
    .ok (.ldk h sz (fData w) a (fOff w))
  | 0x93 =>
    let sz ← ldSizeOf w; let a ← addrOf w; zero (fScope w); zero (w.extractLsb' 2 2)
    .ok (.ldb h sz (fData w) a (fOff w) (w.getLsbD 0) (w.getLsbD 1))
  | 0x97 =>
    let sz ← ldSizeOf w; let a ← addrOf w; zero (fScope w); zero (fQual w)
    .ok (.ldl h sz (fData w) a (fOff w))
  | 0x94 =>
    let sz ← stSizeOf w; let a ← addrOf w; zero (fScope w); let q ← hintOf w
    .ok (.st h sz (fData w) a (fOff w) q)
  | 0x95 =>
    let sz ← stSizeOf w; let a ← addrOf w; zero (fScope w); let q ← hintOf w; let x ← dataS w
    .ok (.stu h sz x a (fOff w) q)
  | 0x96 =>
    let sz ← stSizeOf w; let a ← addrOf w; zero (fScope w); zero (w.extractLsb' 1 3)
    .ok (.stb h sz (fData w) a (fOff w) (w.getLsbD 0))
  | 0x98 =>
    let sz ← stSizeOf w; let a ← addrOf w; zero (fScope w); zero (fQual w)
    .ok (.stl h sz (fData w) a (fOff w))
  | 0x99 =>
    fn0 w; zero (fData w); let a ← addrOf w; zero (fScope w); zero (w.extractLsb' 1 3)
    .ok (.pref h (w.getLsbD 0) a (fOff w))
  | 0x9A =>
    let cl ← fn01 w; let n ← dataS w; let a ← addrOf w; zero (fScope w); zero (fQual w)
    .ok (.fillb h cl n a (fOff w))
  | 0xA0 => if 10 < (fFn w).toNat then .error .unassigned else .ok (.atom h (← decAtom w))
  | 0xA1 => if 10 < (fFn w).toNat then .error .unassigned else .ok (.atomb h (← decAtom w))
  | 0xA2 =>
    if 7 < (fFn w).toNat ∧ (fFn w).toNat ≠ 10 then .error .unassigned else .ok (.red h (← decAtom w))
  | 0xA3 =>
    let r ← fn01 w; let a ← addrOf w; zero (fScope w); zero (fQual w)
    .ok (.ldsub h r (fData w) a (fOff w))
  | 0xA4 =>
    fn0 w; zero (fData w); let a ← addrOf w; zero (fScope w); zero (fQual w)
    .ok (.unsub h a (fOff w))
  | 0xA5 =>
    fn0 w; let a ← addrOf w; zero (fScope w); zero (fQual w)
    .ok (.substat h (fData w) a (fOff w))
  | _ => .error .unassigned

/-- Family 0xB (11 R265, R275, R282; 14 R312, R317). -/
def decodeAsync (h : Head) (w : Dword) : Except DecodeError Instr := do
  match (fOp w).toNat with
  | 0xB0 =>
    fn0 w; let r ← srcOf (fR w); let c ← srcOf (fCs w); zero (w.extractLsb' 0 10)
    .ok (.copy h (w.getLsbD 20) (w.getLsbD 19) (w.extractLsb' 15 4) (w.extractLsb' 11 4) (w.getLsbD 10) r c)
  | 0xB1 =>
    fn0 w; let r ← srcOf (fR w); let c ← srcOf (fCs w); zero (w.extractLsb' 15 6); zero (w.extractLsb' 0 11)
    .ok (.copyl h (w.extractLsb' 11 4) r c)
  | 0xB2 =>
    let n4 ← fn01 w; let r ← srcOf (fR w); let c ← srcOf (fCs w)
    zero (w.extractLsb' 19 2); zero (w.extractLsb' 0 11)
    .ok (.copym h n4 (w.extractLsb' 15 4) (w.extractLsb' 11 4) r c)
  | 0xB3 => fn0 w; .ok (.ctradd h (← decCtr w))
  | 0xB4 => fn0 w; .ok (.ctrwait h (← decCtr w))
  | 0xB5 => fn0 w; .ok (.ctrrd h (← decCtr w))
  | 0xB6 =>
    fn0 w; let r ← srcOf (fR w); zero (fCs w); zero (w.extractLsb' 4 17)
    .ok (.fork h r (w.extractLsb' 0 4))
  | 0xB7 =>
    fn0 w; let r ← srcOf (fR w); zero (fCs w); zero (w.extractLsb' 4 17)
    .ok (.rdv h r (w.extractLsb' 0 4))
  | 0xB8 =>
    fn0 w; let r ← srcOf (fR w); let c ← srcOf (fCs w); zero (w.extractLsb' 15 6); zero (w.extractLsb' 2 9)
    .ok (.objreq h (w.extractLsb' 0 2) (w.extractLsb' 11 4) r c)
  | _ => .error .unassigned

/-- Family 0xC (12). -/
def decodeMatrix (h : Head) (w : Dword) : Except DecodeError Instr := do
  match (fOp w).toNat with
  | 0xC0 =>
    fn0 w; let x ← decU w; zero (w.extractLsb' 33 6)
    .ok (.gang h (w.extractLsb' 30 3) x.2)
  | 0xC1 =>
    fn0 w; zero (w.extractLsb' 36 5); zero (w.extractLsb' 0 22)
    match Src.ofSel (fAddr w) with
    | some (.s n) => .ok (.rsv h (w.extractLsb' 32 4) n)
    | _ => .error .selector
  | 0xC2 =>
    fn0 w; zero (w.extractLsb' 34 7); zero (w.extractLsb' 0 30)
    .ok (.rsvrel h (w.extractLsb' 30 4))
  | 0xC3 =>
    fn0 w; let a ← addrOf w
    .ok (.obld h (fQual w) (fData w) a (fOff w) (fScope w))
  | 0xC4 =>
    fn0 w; let a ← addrOf w; zero (fScope w)
    .ok (.obst h (fQual w) (fData w) a (fOff w))
  | 0xC5 =>
    if (fFn w).toNat < 4 ∨ 13 < (fFn w).toNat then .error .unassigned else .ok (.mma h (decMma w))
  | 0xC6 =>
    if (fFn w).toNat < 4 ∨ 13 < (fFn w).toNat then .error .unassigned else .ok (.mmaz h (decMma w))
  | 0xC7 =>
    if 2 < (fFn w).toNat then .error .unassigned
    else
      zero (fMod w); zero (w.extractLsb' 4 6)
      let r ← srcOf (fA w); let c ← srcOf (fB w)
      .ok (.accrd h (w.extractLsb' 52 2) (fD w) r c (w.extractLsb' 0 4))
  | 0xC8 =>
    fn0 w; zero (w.extractLsb' 40 1); zero (w.extractLsb' 34 5)
    let r ← srcOf (fA w); let c ← srcOf (fB w); let x ← srcOf (fC w)
    .ok (.accwr h (w.getLsbD 39) (w.extractLsb' 30 4) r c x)
  | 0xC9 =>
    fn0 w; zero (w.extractLsb' 34 7); zero (w.extractLsb' 0 30)
    .ok (.accz h (w.extractLsb' 30 4))
  | 0xCA =>
    fn0 w; zero (w.extractLsb' 33 8); zero (w.extractLsb' 24 5); zero (w.extractLsb' 17 7)
    .ok (.buspub h (w.extractLsb' 29 4) (w.extractLsb' 0 12) (w.extractLsb' 12 4) (w.getLsbD 16))
  | 0xCB =>
    fn0 w; zero (w.extractLsb' 14 27)
    .ok (.bussub h (w.extractLsb' 12 2) (w.extractLsb' 0 12))
  | _ => .error .unassigned

/-- Family 0xD (17 R357, 18 R365, R367). -/
def decodeSync (h : Head) (w : Dword) : Except DecodeError Instr := do
  match (fOp w).toNat with
  | 0xD0 => .ok (.bar h (← decBar w))
  | 0xD1 => .ok (.bara h (← decBar w))
  | 0xD2 => .ok (.barw h (← decBar w))
  | 0xD3 => let u ← fn01 w; zero (fData w); fenceZero w; .ok (.fence h u (fScope w))
  | 0xD4 => fn0 w; zero (w.extractLsb' 37 4); fenceZero w; .ok (.pfence h (w.extractLsb' 32 5) (fScope w))
  | 0xD5 => let k ← fn01 w; zero (fData w); fenceZero w; .ok (.acq h k (fScope w))
  | 0xD6 => fn0 w; zero (fData w); fenceZero w; .ok (.rel h (fScope w))
  | 0xD7 => fn0 w; zero (fMod w); zero (fD w); let a ← srcOf (fA w); .ok (.sleep h a (fImm w))
  | _ => .error .unassigned

/-- Family 0xE (14 R322). -/
def decodeEngine (h : Head) (w : Dword) : Except DecodeError Instr := do
  match (fOp w).toNat, (fFn w).toNat with
  | 0xE0, 0 =>
    zero (w.extractLsb' 3 18)
    let r ← srcOf (fR w); let c ← srcOf (fCs w)
    .ok (.estream h (w.extractLsb' 0 3) r c)
  | 0xE1, f =>
    if 2 < f then .error .unassigned
    else
      zero (fR w)
      let c ← decEngCtr w
      .ok (.ereduce h (w.extractLsb' 52 2) (w.extractLsb' 0 3) (w.extractLsb' 3 8) c)
  | 0xE2, 0 => zero (fR w); let c ← decEngCtr w; .ok (.ebcast h (w.extractLsb' 0 3) (w.extractLsb' 3 8) c)
  | 0xE3, 0 =>
    zero (fR w); zero (w.extractLsb' 6 5)
    let c ← decEngCtr w
    .ok (.ecopy h (w.extractLsb' 0 3) (w.extractLsb' 3 3) c)
  | 0xE4, _ =>
    let bf ← fn01 w
    zero (w.extractLsb' 0 11)
    let r ← srcOf (fR w); let c ← decEngCtr w
    .ok (.egemv h bf r c)
  | 0xE5, f =>
    zero (w.extractLsb' 0 11)
    let r ← srcOf (fR w); let c ← decEngCtr w
    match f with
    | 0 => .ok (.routeCnt h r c)
    | 1 => .ok (.routeScan h r c)
    | 2 => .ok (.routePlace h r c)
    | 3 => .ok (.routeComb h r c)
    | _ => .error .unassigned
  | 0xE6, 0 =>
    zero (w.extractLsb' 16 5); zero (fCs w)
    let r ← srcOf (fR w)
    .ok (.esig h (w.extractLsb' 0 16) r)
  | _, _ => .error .unassigned

/-- Family 0xF (21 R403 to R408). -/
def decodePriv (h : Head) (w : Dword) : Except DecodeError Instr := do
  fn0 w
  match (fOp w).toNat with
  | 0xF0 =>
    zero (fMod w); zero (w.extractLsb' 37 2); zero (fA w); zero (w.extractLsb' 12 8)
    .ok (.csrr h (w.extractLsb' 30 7) (w.extractLsb' 0 12))
  | 0xF1 =>
    zero (fMod w); zero (fD w); zero (w.extractLsb' 12 8)
    let a ← srcOf (fA w)
    .ok (.csrw h (w.extractLsb' 0 12) a)
  | 0xF2 =>
    zero (fOff w); zero (fScope w)
    match (fQual w).toNat with
    | 0 =>
      let c ← dataS w
      match Src.ofSel (fAddr w) with
      | some (.s a) => .ok (.tlbinv h (.page c a))
      | _ => .error .selector
    | 1 => let c ← dataS w; zero (fAddr w); .ok (.tlbinv h (.ctx c))
    | 2 =>
      let c ← dataS w
      match Src.ofSel (fAddr w) with
      | some (.s a) => .ok (.tlbinv h (.gpa c a))
      | _ => .error .selector
    | 3 => zero (fData w); zero (fAddr w); .ok (.tlbinv h .all)
    | _ => .error .illegal
  | 0xF3 => bodyZero w; .ok (.rett h)
  | 0xF4 =>
    zero (fData w); zero (fOff w); zero (fScope w); zero (fQual w)
    let a ← addrOf w
    .ok (.presp h a)
  | 0xF5 => let x ← decU w; zero x.1; .ok (.haltc h x.2)
  | _ => .error .unassigned

/-- The form of a word, before the value checks. -/
def parseWord (w : Dword) : Except DecodeError Instr :=
  let h := headOf w
  match (w.extractLsb' 60 4).toNat with
  | 0x0 => decodeControl h w
  | 0x1 | 0x2 => decodeInt h w
  | 0x3 => decodeCmp h w
  | 0x4 | 0x5 => decodeFloat h w
  | 0x6 | 0x7 => decodeCvt h w
  | 0x8 => decodeCross h w
  | 0x9 | 0xA => decodeMem h w
  | 0xB => decodeAsync h w
  | 0xC => decodeMatrix h w
  | 0xD => decodeSync h w
  | 0xE => decodeEngine h w
  | _ => decodePriv h w

/-- Decode one instruction word (04 R97, R102): the instruction, or the reason it is illegal. -/
def decodeWord (w : Dword) : Except DecodeError Instr :=
  match parseWord w with
  | .error e => .error e
  | .ok i => if i.wf then .ok i else .error .illegal

/-- The instruction whose bits are `w` (bit 0 the least significant bit of the 64-bit word), as the host asks for it. -/
def decodeTableWord (_nbits w : Nat) : Option Instr :=
  if w < 2 ^ 64 then
    match decodeWord (BitVec.ofNat 64 w) with
    | .ok i => some i
    | .error _ => none
  else none

/-! ### Clauses -/

/-- CLASS of a clause header (04 R80). -/
def hdrClass (h : Dword) : Nat := (h.extractLsb' 60 4).toNat
/-- COUNT. -/
def hdrCount (h : Dword) : Nat := (h.extractLsb' 56 4).toNat
/-- LIT. -/
def hdrLit (h : Dword) : Nat := (h.extractLsb' 54 2).toNat
/-- REGION. -/
def hdrRegion (h : Dword) : Bool := h.getLsbD 53

/-- Words of a clause from its header: header, instructions, literals (04 R77). -/
def hdrWords (h : Dword) : Nat := 2 + hdrCount h + hdrLit h

/-- Header checks of R97. -/
def hdrOk (engine : Bool) (h : Dword) : Bool :=
  hdrClass h == (if engine then 1 else 0) && !h.getLsbD 52 && h.extractLsb' 32 8 == 0 &&
  (h.setWidth 32 >>> (2 * (hdrCount h + 1)) == (0#32))

/-- What the decode checks of R98 find wrong with a clause: a trap cause and the index of the offending word, 15
standing for the header. -/
structure ClauseError where
  cause : Nat
  idx : Nat
  deriving DecidableEq, Repr

/-- R97 for one instruction at index `i` of `n`. -/
def instrLegal (engine : Bool) (lits i n : Nat) (w : Dword) : Bool :=
  match decodeWord w with
  | .error _ => false
  | .ok ins =>
    (if engine then ins.engineOk else ins.coreOk) && ins.uses.all (Instr.Use.litOk lits) &&
    (!ins.isLast || i + 1 == n)

/-- The first word from index `i` that fails a test. -/
def firstBad (p : Nat → Dword → Bool) : Nat → List Dword → Option Nat
  | _, [] => none
  | i, w :: ws => if p i w then firstBad p (i + 1) ws else some i

/-- A test on the decoded instruction; an undecodable word passes (it is caught before). -/
def onInstr (p : Instr → Bool) (w : Dword) : Bool :=
  match decodeWord w with
  | .ok i => p i
  | .error _ => true

/-- The latches that are valid after an instruction (04 R95, 05 R128, 12 R292). -/
def latchAfter (valid : BitVec 4) (i : Instr) : BitVec 4 :=
  let valid := if i.endsRegion then 0 else match i with
    | .mma .. | .mmaz .. => 0
    | _ => valid
  if i.kind == .fixed then
    match i.head? with
    | some h => valid ||| (1#4 <<< h.lat.toNat)
    | none => valid
  else valid

/-- The first word whose latch selectors are not valid (04 R95, 05 R128). -/
def staleAt : BitVec 4 → Nat → List Dword → Option Nat
  | _, _, [] => none
  | valid, i, w :: ws =>
    match decodeWord w with
    | .error _ => staleAt valid (i + 1) ws
    | .ok ins =>
      if ins.latchReads.all (fun b => valid.getLsbD b.toNat) then staleAt (latchAfter valid ins) (i + 1) ws
      else some i

/-- The checks of R98 after the fetch, in their order: illegal, privileged, register range, stale latch. -/
def clauseError (engine sup : Bool) (vr sr : Nat) (hdr : Dword) (words : List Dword) : Option ClauseError :=
  if !hdrOk engine hdr then some ⟨2, 15⟩
  else
    match firstBad (fun i w => instrLegal engine (hdrLit hdr) i words.length w) 0 words with
    | some i => some ⟨2, i⟩
    | none =>
      match (if sup then none else firstBad (fun _ w => onInstr (fun i => !i.isPriv) w) 0 words) with
      | some i => some ⟨3, i⟩
      | none =>
        match firstBad (fun _ w => onInstr (fun i => i.uses.all (Instr.Use.inRange vr sr)) w) 0 words with
        | some i => some ⟨4, i⟩
        | none =>
          match staleAt 0 0 words with
          | some i => some ⟨5, i⟩
          | none => none

end Sys2Proof
end

