-- ==== Sys2Proof/Machine/Map.lean ====
section
/-! DEFINITION. The package's map: stacks and dies (spec 01 R11 to R18), physical addresses (R19), interleave (R22 to
R25), and the device registers with their reset values (R26). -/

namespace Sys2Proof.Machine

/-! ### Stacks and dies -/

/-- The inverse of the map m of R16. -/
def gfInv (x : Nat) : Nat := [0, 3, 1, 2].getD x 0

/-- The stack that die `d` attaches to in row `r` (01 R16). -/
def attached (d r : Nat) : Nat := 4 * r + (if d < 4 then r ^^^ d else gfInv (r ^^^ (d - 4)))

/-- The four stacks of a die. -/
def attachedAll (d : Nat) : List Nat := (List.range 4).map (attached d)

/-- The dies that attach to a stack: on client port A, then on B. -/
def diesOf (stack : Nat) : List Nat := (List.range 8).filter fun d => (attachedAll d).elem stack

/-- Die, core and slot of an issuer number. -/
def unitDie (u : Nat) : Nat := u / 32 / 48
def unitCore (u : Nat) : Nat := u / 32 % 48
def unitSlot (u : Nat) : Nat := u % 32
/-- Core number 48d + p of an issuer. -/
def coreOf (u : Nat) : Nat := u / 32
/-- The issuer of a core's slot. -/
def unitOf (core slot : Nat) : Nat := core * 32 + slot
/-- Cluster number 12d + k of a core number. -/
def clusterOf (core : Nat) : Nat := core / 48 * 12 + core % 48 / 4
/-- The issuer of a stack's weir engine. -/
def engineUnit (stack : Nat) : Nat := 12288 + stack

/-! ### Physical addresses -/

def hbmEnd : Nat := 0x10000000000
def windowBase (d : Nat) : Nat := 0x10000000000 + d * 0x10000000
def regBase : Nat := 0x18000000000
def regEnd : Nat := 0x20000000000

/-- The die whose backed basin window holds an address, and the offset. -/
def basinOf (pa : Nat) : Option (Nat × Nat) :=
  if hbmEnd ≤ pa ∧ pa < 0x10080000000 ∧ (pa - hbmEnd) % 0x10000000 < Config.basinSize then
    some ((pa - hbmEnd) / 0x10000000, (pa - hbmEnd) % 0x10000000)
  else none

/-- True in HBM. -/
def inHbm (pa : Nat) : Bool := pa < hbmEnd
/-- A whole range in HBM. -/
def rangeInHbm (pa n : Nat) : Bool := pa + n ≤ hbmEnd
/-- True in the device register space. -/
def inRegs (pa : Nat) : Bool := decide (regBase ≤ pa) && decide (pa < regEnd)

/-! ### The device registers -/

/-- The registers of R26. -/
inductive Reg where
  | straps | gident | illock | patrol
  | ilmap (n : Nat)
  | partcfg (p : Nat)
  | bmcmd | bmstat
  | bmbuf (i : Nat)
  | hmap (d : Nat)
  | boost (d : Nat)
  | pool (d : Nat)
  | retctl (d : Nat)
  | lpt (d i : Nat)
  | slope (d k : Nat)
  | cbal (d k : Nat)
  | bsstat (s : Nat)
  | bsc (src : Nat)
  | route (port i : Nat)
  | ctxctl (c : Nat)
  | ttb1 (c : Nat)
  | ttb2 (c : Nat)
  | tvec (c : Nat)
  | savebase (c : Nat)
  | savectl (c : Nat)
  | preempt (c : Nat)
  | bkres (c : Nat)
  | kill (c : Nat)
  | ctxstat (c : Nat)
  | eacct (c : Nat)
  | partid (p : Nat)
  | llcx (p n : Nat)
  | miggo (p : Nat)
  | housee (p : Nat)
  | evqbase (p : Nat)
  | evqctl (p : Nat)
  | evqhead (p : Nat)
  | llbase (p n : Nat)
  | llctl (p n : Nat)
  | llhm (p n : Nat)
  | tierpool (p d : Nat)
  | errcnt (p i : Nat)
  | prqbase (f : Nat)
  | prqctl (f : Nat)
  | prqhead (f : Nat)
  deriving DecidableEq, Repr

/-- The address of a register (01 R26). -/
def Reg.addr : Reg → Nat
  | .straps => regBase
  | .gident => regBase + 0x8
  | .illock => regBase + 0x10
  | .patrol => regBase + 0x18
  | .ilmap n => regBase + 0x20 + 8 * n
  | .partcfg p => regBase + 0x40 + 8 * p
  | .bmcmd => regBase + 0x1000
  | .bmstat => regBase + 0x1008
  | .bmbuf i => regBase + 0x8000 + 8 * i
  | .hmap d => regBase + 0x10000 + 0x1000 * d
  | .boost d => regBase + 0x10008 + 0x1000 * d
  | .pool d => regBase + 0x10010 + 0x1000 * d
  | .retctl d => regBase + 0x10018 + 0x1000 * d
  | .lpt d i => regBase + 0x10040 + 0x1000 * d + 8 * i
  | .slope d k => regBase + 0x10100 + 0x1000 * d + 8 * k
  | .cbal d k => regBase + 0x10200 + 0x1000 * d + 8 * k
  | .bsstat s => regBase + 0x20000 + 0x1000 * s
  | .bsc src => regBase + 0x40000 + 8 * src
  | .route port i => regBase + 0xC0000 + 0x200 * port + 8 * i
  | .ctxctl c => regBase + 0x100000 + 0x100 * c
  | .ttb1 c => regBase + 0x100008 + 0x100 * c
  | .ttb2 c => regBase + 0x100010 + 0x100 * c
  | .tvec c => regBase + 0x100018 + 0x100 * c
  | .savebase c => regBase + 0x100020 + 0x100 * c
  | .savectl c => regBase + 0x100028 + 0x100 * c
  | .preempt c => regBase + 0x100030 + 0x100 * c
  | .bkres c => regBase + 0x100038 + 0x100 * c
  | .kill c => regBase + 0x100040 + 0x100 * c
  | .ctxstat c => regBase + 0x100048 + 0x100 * c
  | .eacct c => regBase + 0x100050 + 0x100 * c
  | .partid p => regBase + 0x200000 + 0x1000 * p
  | .llcx p n => regBase + 0x200020 + 0x1000 * p + 8 * n
  | .miggo p => regBase + 0x200060 + 0x1000 * p
  | .housee p => regBase + 0x200068 + 0x1000 * p
  | .evqbase p => regBase + 0x200070 + 0x1000 * p
  | .evqctl p => regBase + 0x200078 + 0x1000 * p
  | .evqhead p => regBase + 0x200080 + 0x1000 * p
  | .llbase p n => regBase + 0x200100 + 0x1000 * p + 0x20 * n
  | .llctl p n => regBase + 0x200108 + 0x1000 * p + 0x20 * n
  | .llhm p n => regBase + 0x200110 + 0x1000 * p + 0x20 * n
  | .tierpool p d => regBase + 0x200200 + 0x1000 * p + 8 * d
  | .errcnt p i => regBase + 0x200300 + 0x1000 * p + 8 * i
  | .prqbase f => regBase + 0x300000 + 0x1000 * f
  | .prqctl f => regBase + 0x300008 + 0x1000 * f
  | .prqhead f => regBase + 0x300010 + 0x1000 * f

/-- The register of a die block by its offset. -/
def dieReg (d o : Nat) : Option Reg :=
  if o = 0 then some (.hmap d)
  else if o = 0x8 then some (.boost d)
  else if o = 0x10 then some (.pool d)
  else if o = 0x18 then some (.retctl d)
  else if 0x40 ≤ o ∧ o ≤ 0x68 then some (.lpt d ((o - 0x40) / 8))
  else if 0x100 ≤ o ∧ o ≤ 0x158 then some (.slope d ((o - 0x100) / 8))
  else if 0x200 ≤ o ∧ o ≤ 0x228 then some (.cbal d ((o - 0x200) / 8))
  else none

/-- The register of a context block by its offset (21 R374). -/
def ctxReg (c o : Nat) : Option Reg :=
  match o with
  | 0x00 => some (.ctxctl c)
  | 0x08 => some (.ttb1 c)
  | 0x10 => some (.ttb2 c)
  | 0x18 => some (.tvec c)
  | 0x20 => some (.savebase c)
  | 0x28 => some (.savectl c)
  | 0x30 => some (.preempt c)
  | 0x38 => some (.bkres c)
  | 0x40 => some (.kill c)
  | 0x48 => some (.ctxstat c)
  | 0x50 => some (.eacct c)
  | _ => none

/-- The register of a partition control block by its offset. -/
def partReg (p o : Nat) : Option Reg :=
  if o = 0 then some (.partid p)
  else if 0x20 ≤ o ∧ o ≤ 0x38 then some (.llcx p ((o - 0x20) / 8))
  else if o = 0x60 then some (.miggo p)
  else if o = 0x68 then some (.housee p)
  else if o = 0x70 then some (.evqbase p)
  else if o = 0x78 then some (.evqctl p)
  else if o = 0x80 then some (.evqhead p)
  else if 0x100 ≤ o ∧ o < 0x180 then
    match (o - 0x100) % 0x20 with
    | 0 => some (.llbase p ((o - 0x100) / 0x20))
    | 8 => some (.llctl p ((o - 0x100) / 0x20))
    | 16 => some (.llhm p ((o - 0x100) / 0x20))
    | _ => none
  else if 0x200 ≤ o ∧ o ≤ 0x238 then some (.tierpool p ((o - 0x200) / 8))
  else if 0x300 ≤ o ∧ o ≤ 0x338 then some (.errcnt p ((o - 0x300) / 8))
  else none

/-- The register of a function control block by its offset (21 R382). -/
def fnReg (f o : Nat) : Option Reg :=
  match o with
  | 0 => some (.prqbase f)
  | 8 => some (.prqctl f)
  | 16 => some (.prqhead f)
  | _ => none

/-- The register of the package block and the mailbox by its offset. -/
def packageReg (o : Nat) : Option Reg :=
  if o = 0 then some .straps
  else if o = 0x8 then some .gident
  else if o = 0x10 then some .illock
  else if o = 0x18 then some .patrol
  else if o < 0x40 then some (.ilmap ((o - 0x20) / 8))
  else if o < 0x80 then some (.partcfg ((o - 0x40) / 8))
  else if o = 0x1000 then some .bmcmd
  else if o = 0x1008 then some .bmstat
  else if 0x8000 ≤ o ∧ o < 0x10000 then some (.bmbuf ((o - 0x8000) / 8))
  else none

/-- The register at an 8-byte aligned address (01 R26); none where the space is unassigned. -/
def regAt (pa : Nat) : Option Reg :=
  if pa < regBase ∨ pa % 8 ≠ 0 then none
  else
    let o := pa - regBase
    if o < 0x10000 then packageReg o
    else if o < 0x18000 then dieReg ((o - 0x10000) / 0x1000) (o % 0x1000)
    else if o < 0x20000 then none
    else if o < 0x30000 then (if o % 0x1000 = 0 then some (.bsstat ((o - 0x20000) / 0x1000)) else none)
    else if o < 0x40000 then none
    else if o < 0xC0000 then some (.bsc ((o - 0x40000) / 8))
    else if o < 0xC4000 then
      (if (o - 0xC0000) % 0x200 < 0x150 then some (.route ((o - 0xC0000) / 0x200) ((o - 0xC0000) % 0x200 / 8)) else none)
    else if o < 0x100000 then none
    else if o < 0x110000 then ctxReg ((o - 0x100000) / 0x100) (o % 0x100)
    else if o < 0x200000 then none
    else if o < 0x208000 then partReg ((o - 0x200000) / 0x1000) (o % 0x1000)
    else if o < 0x300000 then none
    else if o < 0x321000 then fnReg ((o - 0x300000) / 0x1000) (o % 0x1000)
    else none

/-- Entry `e` of the logical core table that firmware builds when all 48 cores are live (03 R71): pass e / 12, cluster
e mod 12. -/
def lptReset (e : Nat) : Nat := 0x80 + 4 * (e % 12) + e / 12

/-- What a register holds at package reset. DESIGN CHOICE (log entry 5): STRAPS.DIES all ones, HMAP all cores live and
the LPT built from it, BMBUF zero, LLCX zero; the others are the spec's. -/
def Reg.resetVal : Reg → Dword
  | .straps => 0xFF00
  | .patrol => 86400
  | .hmap _ => 0xFFFFFFFFFFFF
  | .lpt _ i => BitVec.ofNat 64 (leNat ((List.range 8).map fun b => BitVec.ofNat 8 (lptReset (8 * i + b))))
  | .pool _ => 64
  | .slope _ _ => 0x803
  | .cbal _ _ => 0x100020
  | .ctxctl _ => 0x20200000
  | .evqctl _ => 0xC
  | .llctl _ _ => 0xC
  | .prqctl _ => 0xC
  | _ => 0

/-- What a register holds. -/
def State.reg (s : State) (r : Reg) : Dword := (aget s.regs r.addr).getD r.resetVal

/-- Stores a register; a register at its reset value is not listed. -/
def State.setReg (s : State) (r : Reg) (x : Dword) : State :=
  { s with regs := asetD r.resetVal s.regs r.addr x }

/-! ### Interleave (01 R22, R25) -/

/-- The class code of a granule of 8 GiB. -/
def State.granuleClass (s : State) (g : Nat) : Nat :=
  bits (s.reg (.ilmap (g / 32))) (2 * (g % 32) + 1) (2 * (g % 32))

/-- The class of a set (01 R25). -/
def State.setClass (s : State) (k : Nat) : Nat :=
  let c := s.granuleClass (16 * k)
  if c ≤ 2 ∧ ((List.range 16).all fun i => s.granuleClass (16 * k + i) == c) = true then c else 0

/-- The stack that homes an HBM address (01 R22). -/
def State.stackOf (s : State) (pa : Nat) : Nat :=
  let f (lo n : Nat) := pa / 2 ^ lo % 2 ^ n
  match s.setClass (pa / 2 ^ 37) with
  | 1 => 4 * f 35 2 + (f 10 2 ^^^ f 18 2 ^^^ f 26 2)
  | 2 => f 33 4
  | _ => f 8 4 ^^^ f 16 4 ^^^ f 24 4 ^^^ f 32 4

/-- The low 33 bits of the stack-local address (01 R22). -/
def State.slaOf (s : State) (pa : Nat) : Nat :=
  match s.setClass (pa / 2 ^ 37) with
  | 1 => pa / 2 ^ 12 % 2 ^ 23 * 2 ^ 10 + pa % 2 ^ 10
  | 2 => pa % 2 ^ 33
  | _ => pa / 2 ^ 12 % 2 ^ 25 * 2 ^ 8 + pa % 2 ^ 8

/-- The channel of an HBM address (01 R22). -/
def State.channelOf (s : State) (pa : Nat) : Nat := s.slaOf pa / 2 ^ 8 % 32

/-- True when the die has power (24 R435). -/
def dieReset : DieSt := ⟨true, 0, 0, 64, 1, 0⟩
def State.die (s : State) (d : Nat) : DieSt := (aget s.dies d).getD dieReset
def State.putDie (s : State) (d : Nat) (x : DieSt) : State := { s with dies := asetD dieReset s.dies d x }

/-- An access of these bytes meets no physical-address fault (01 R20, R26; 24 R435). -/
def State.physOk (s : State) (pa n : Nat) : Bool :=
  if pa + n ≤ hbmEnd then true
  else
    match basinOf pa with
    | some (d, o) => decide (o + n ≤ Config.basinSize) && (s.die d).power
    | none => (regAt pa).isSome

/-! ### Registers that many rules read -/

/-- CTXCTL fields (21 R374). -/
def State.ctxEn (s : State) (c : Nat) : Bool := (s.reg (.ctxctl c)).getLsbD 0
def State.ctxSup (s : State) (c : Nat) : Bool := (s.reg (.ctxctl c)).getLsbD 1
def State.ctxBpen (s : State) (c : Nat) : Bool := (s.reg (.ctxctl c)).getLsbD 2
def State.ctxGuest (s : State) (c : Nat) : Bool := (s.reg (.ctxctl c)).getLsbD 3
def State.ctxHyp (s : State) (c : Nat) : Bool := (s.reg (.ctxctl c)).getLsbD 4
def State.ctxFn (s : State) (c : Nat) : Nat := bits (s.reg (.ctxctl c)) 23 16
def State.ctxHypFn (s : State) (c : Nat) : Nat := bits (s.reg (.ctxctl c)) 31 24

/-- PARTCFG fields (03 R52). -/
def State.partOpen (s : State) (p : Nat) : Bool := (s.reg (.partcfg p)).getLsbD 23
def State.partFn (s : State) (p : Nat) : Nat := bits (s.reg (.partcfg p)) 21 16
def State.partDies (s : State) (p : Nat) : Nat := bits (s.reg (.partcfg p)) 7 0

/-- The open partitions. -/
def State.openParts (s : State) : List Nat := (List.range 8).filter s.partOpen

/-- The open partition that a function owns. -/
def State.partOfFn (s : State) (f : Nat) : Option Nat := s.openParts.find? fun p => s.partFn p == f

/-- The open partition that holds a die. -/
def State.partOfDie (s : State) (d : Nat) : Option Nat := s.openParts.find? fun p => (s.partDies p).testBit d

/-- The partition whose function a context's FN names (03 R69). -/
def State.partOfCtx (s : State) (c : Nat) : Option Nat := s.partOfFn (s.ctxFn c)

/-- Adds to an error counter, saturating (24 R436). -/
def State.countErr (s : State) (p i n : Nat) : State :=
  s.setReg (.errcnt p i) (BitVec.ofNat 64 (min (2 ^ 64 - 1) ((s.reg (.errcnt p i)).toNat + n)))

end Sys2Proof.Machine
end

