-- ==== Sys2Proof/Machine/Groups.lean ====
section
/-! DEFINITION. Groups: lanes, the PC table (spec 05 R112, R113), registers and pending results (06 R142 to R147, 05
R117), guards and latches (04 R92 to R95), and the end of a clause. -/

namespace Sys2Proof.Machine

/-! ### Lanes -/

/-- The lanes of a set, in ascending order. -/
def lanesList (m : Lanes) : List Nat := (List.range 64).filter fun L => m.getLsbD L

/-- The set of some lanes. -/
def maskOf (l : List Nat) : Lanes := l.foldl (fun m L => m ||| (1#64 <<< L)) 0

/-- The lowest lane of a set. -/
def lowest (m : Lanes) : Nat := (lanesList m).headD 0

/-! ### The PC table -/

/-- The smallest address of a PC table. -/
def minAddr : Assoc Dword → Option Dword
  | [] => none
  | (_, a) :: t =>
    match minAddr t with
    | none => some a
    | some b => if b.toNat < a.toNat then some b else some a

namespace Group

/-- The address of the head run (05 R112). -/
def headAddr (g : Group) : Option Dword := minAddr g.pc

/-- The head run: the threads that hold the smallest address (05 R112). -/
def headRun (g : Group) : Lanes :=
  match g.headAddr with
  | none => 0
  | some a => maskOf ((g.pc.filter fun x => x.2 == a).map (·.1))

/-- The present lanes (02 R38). -/
def present (g : Group) : Lanes := maskOf (List.range g.wids.length)

/-! ### Registers -/

/-- A predicate register; p7 reads true in every lane (06 R144). -/
def pred (g : Group) (n : BitVec 3) : Lanes := if n = 7 then BitVec.allOnes 64 else agetD 0 g.preds n.toNat

/-- Writes a predicate register; a write to p7 is discarded (06 R144). -/
def setPred (g : Group) (n : BitVec 3) (m : Lanes) : Group :=
  if n = 7 then g else { g with preds := asetD 0 g.preds n.toNat m }

/-- The value that a result in flight will give a register (05 R117). -/
def inFlight (g : Group) (d : Dst) : Option Word :=
  (g.pend.flatMap (·.writes)).find? (fun w => w.dst == d) |>.map (·.val)

/-- v(n) of a lane as stored. -/
def vreg (g : Group) (n L : Nat) : Word := agetD 0 g.vregs (64 * n + L)

/-- s(n) as stored. -/
def sreg (g : Group) (n : Nat) : Word := agetD 0 g.sregs n

/-- Reads v(n) of a lane. While a kind-A result for it is in flight, either value, whole (05 R117). -/
def vread (g : Group) (draw n L : Nat) : Word :=
  match g.inFlight (.v n L) with
  | none => g.vreg n L
  | some x => if Config.pick draw (64 * n + L) then x else g.vreg n L

/-- Reads s(n), as `vread`. -/
def sread (g : Group) (draw n : Nat) : Word :=
  match g.inFlight (.s n) with
  | none => g.sreg n
  | some x => if Config.pick draw (40000 + n) then x else g.sreg n

/-- Marks the results in flight for a register that is written meanwhile (05 R117). -/
def touch (g : Group) (d : Dst) : Group :=
  { g with pend := g.pend.map fun p => { p with writes := p.writes.map fun w => { w with hit := w.hit || w.dst == d } } }

/-- Writes v(n) of a lane. -/
def setV (g : Group) (n L : Nat) (x : Word) : Group :=
  { g.touch (.v n L) with vregs := asetD 0 g.vregs (64 * n + L) x }

/-- Writes s(n). -/
def setS (g : Group) (n : Nat) (x : Word) : Group := { g.touch (.s n) with sregs := asetD 0 g.sregs n x }

/-- LSTAT of a lane (06 R146). -/
def lstatOf (g : Group) (L : Nat) : Word := agetD 0 g.lstat L

/-- Writes LSTAT of a lane. -/
def setLstat (g : Group) (L : Nat) (x : Word) : Group := { g with lstat := asetD 0 g.lstat L x }

/-- Sets sticky bits of LSTAT (06 R147). -/
def orLstat (g : Group) (L : Nat) (x : Word) : Group := if x = 0 then g else g.setLstat L (g.lstatOf L ||| x)

/-- A latch lane (04 R94). -/
def latchOf (g : Group) (n : BitVec 2) (L : Nat) : Dword := agetD 0 g.latch (64 * n.toNat + L)

/-- The count of a flag (05 R118). -/
def flag (g : Group) (n : Nat) : Nat := agetD 0 g.flags n

/-- Writes a flag count. -/
def setFlag (g : Group) (n c : Nat) : Group := { g with flags := asetD 0 g.flags n c }

/-- The return-stack depth of a lane (05 R129). -/
def depthOf (g : Group) (L : Nat) : Nat := agetD 0 g.depth L

/-- A CSR scratch register (21 R403). -/
def scratch (g : Group) (n : Nat) : Dword := agetD 0 g.tscr n

/-! ### Guards -/

/-- The active lanes of an instruction (04 R92). -/
def active (g : Group) (h : Head) : Lanes :=
  g.headRun &&& (if h.gn then ~~~ g.pred h.gp else g.pred h.gp)

/-! ### Clauses -/

/-- A literal half of the clause in flight (04 R82). -/
def litHalf (g : Group) (n : Nat) : Word :=
  match g.clause with
  | none => 0
  | some c =>
    let w := c.lits.getD (n / 2) 0
    if n % 2 = 0 then lowWord w else highWord w

/-- The address of the clause in flight, or of the head run. -/
def clauseAddr (g : Group) : Dword :=
  match g.clause with
  | some c => c.addr
  | none => g.headAddr.getD 0

/-- The index of the instruction that issues. -/
def clauseIdx (g : Group) : Nat :=
  match g.clause with
  | some c => c.next
  | none => 0

/-- NextClause of the clause in flight (05 R113). -/
def nextClause (g : Group) : Dword :=
  match g.clause with
  | some c => c.addr + BitVec.ofNat 64 (8 * hdrWords c.hdr)
  | none => g.headAddr.getD 0

/-- Ends the clause: each head-run lane takes the address that `t` gives it, and leaves the table where `t` gives none
(05 R113, R135). A latch carries no value into another clause (04 R95). -/
def endClause (g : Group) (t : Nat → Option Dword) : Group :=
  let hr := g.headRun
  { g with
    pc := g.pc.filterMap fun x => if hr.getLsbD x.1 then (t x.1).map fun a => (x.1, a) else some x
    clause := none
    latch := []
    latchOk := 0
    readyAt := none
    urgent := false }

/-- Moves to the next instruction, or ends the clause with every head-run lane at NextClause (05 R113). -/
def advance (g : Group) : Group :=
  match g.clause with
  | none => g
  | some c =>
    if c.next + 1 < c.words.length then { g with clause := some { c with next := c.next + 1, half := false } }
    else g.endClause fun _ => some g.nextClause

/-- True for the program of a weir engine. -/
def isEngine (g : Group) : Bool := g.engine.isSome

/-! ### Results -/

/-- Writes a latch: 0 in inactive lanes, and a whole value for every lane (04 R94). -/
def setLatch (g : Group) (n : BitVec 2) (vals : List (Nat × Dword)) : Group :=
  let b := 64 * n.toNat
  { g with
    latch := vals.foldl (fun t x => asetD 0 t (b + x.1) x.2) (g.latch.filter fun x => x.1 / 64 != n.toNat)
    latchOk := g.latchOk ||| (1#4 <<< n.toNat) }

/-- A latch that an instruction without an effect names: a selector of it is valid from then on (04 R95), and reads what
the latch held or, where the clause has put nothing into it, a free value. DEDUCED (log entry 28). -/
def openLatch (g : Group) (n : BitVec 2) (draw : Nat) : Group :=
  if g.latchOk.getLsbD n.toNat then g
  else g.setLatch n ((List.range 64).map fun L => (L, Config.freeLatch draw (64 * n.toNat + L)))

/-- Writes a v register, or a pair, in one lane. -/
def setVW (g : Group) (wide : Bool) (n L : Nat) (x : Dword) : Group :=
  if wide then (g.setV n L (lowWord x)).setV (n + 1) L (highWord x) else g.setV n L (lowWord x)

/-- Writes an s register, or a pair. -/
def setSW (g : Group) (wide : Bool) (n : Nat) (x : Dword) : Group :=
  if wide then (g.setS n (lowWord x)).setS (n + 1) (highWord x) else g.setS n (lowWord x)

/-- Writes a vector result of kind F: latch, then D unless NWB (04 R94). -/
def writeVec (g : Group) (h : Head) (d : Nat) (wide : Bool) (vals : List (Nat × Dword)) : Group :=
  let g := g.setLatch h.lat vals
  if h.nwb then g else vals.foldl (fun g x => g.setVW wide d x.1 x.2) g

/-- Writes a scalar result of kind F: every latch lane, then s(D) unless NWB (04 R93, R94). -/
def writeSca (g : Group) (h : Head) (d : Nat) (wide : Bool) (x : Dword) : Group :=
  let g := g.setLatch h.lat ((List.range 64).map fun L => (L, x))
  if h.nwb then g else g.setSW wide d x

/-- Writes a predicate result of kind F in the active lanes (04 R92, R94). -/
def writePred (g : Group) (h : Head) (act : Lanes) (d : BitVec 3) (m : Lanes) : Group :=
  let g := g.setLatch h.lat ((lanesList act).map fun L => (L, if m.getLsbD L then 1 else 0))
  if h.nwb then g else g.setPred d ((g.pred d &&& ~~~ act) ||| (m &&& act))

/-- Sets sticky bits in several lanes. -/
def orLstats (g : Group) (l : List (Nat × Word)) : Group := l.foldl (fun g x => g.orLstat x.1 x.2) g

end Group

/-! ### Groups in the state -/

/-- The group of an issuer. -/
def State.group? (s : State) (u : Nat) : Option Group := aget s.groups u

/-- Replaces the group of an issuer. -/
def State.putGroup (s : State) (u : Nat) (g : Group) : State := { s with groups := aput s.groups u g }

/-- Applies a function to the group of an issuer that still is the group with this `uid`. -/
def State.onGroup (s : State) (u uid : Nat) (f : Group → Group) : State :=
  match s.group? u with
  | some g => if g.uid = uid then s.putGroup u (f g) else s
  | none => s

/-- State of a core at reset. -/
def coreReset : CoreSt := ⟨0, 0, [], [], [], [], [], [], [], []⟩
def State.core (s : State) (c : Nat) : CoreSt := (aget s.cores c).getD coreReset
def State.putCore (s : State) (c : Nat) (x : CoreSt) : State := { s with cores := asetD coreReset s.cores c x }

/-- State of a cluster at reset: 3.6 GHz, nothing held (23). -/
def clusterReset : ClusterSt := ⟨0, 18, 0, none, 0, [], 0, [], 0, false, 0, false, 0, false, false, 0⟩
def State.cluster (s : State) (k : Nat) : ClusterSt := (aget s.clusters k).getD clusterReset
def State.putCluster (s : State) (k : Nat) (x : ClusterSt) : State :=
  { s with clusters := asetD clusterReset s.clusters k x }

/-- Core cycles of a core's cluster since reset (00 R4, 23 R416). -/
def State.cycles (s : State) (core : Nat) : Nat := (s.cluster (clusterOf core)).cycle / 5000000

/-- The cell of a group. -/
def State.cell? (s : State) (k : Nat) : Option CellSt := aget s.cells k
def State.putCell (s : State) (k : Nat) (c : CellSt) : State := { s with cells := aput s.cells k c }

/-- Draws a number for free values: the counter moves on. -/
def State.drawn (s : State) : State := { s with draw := s.draw + 1 }

/-- A fresh number. -/
def State.fresh (s : State) : State := { s with uid := s.uid + 1 }

end Sys2Proof.Machine
end

