-- ==== Sys2Proof/Machine/Links.lean ====
section
/-! DEFINITION. The stack links and the routes on them (spec 01 R11, R12, R14, R21; 10 R248, R249). -/

namespace Sys2Proof.Machine

/-! ### Stacks and links (01 R11, R12, R14) -/

/-- Row and column of a stack. -/
def rowOf (s : Nat) : Nat := s / 4
def colOf (s : Nat) : Nat := s % 4

/-- Hops between two stacks: the coordinates in which they differ. -/
def hops (a b : Nat) : Nat := (if rowOf a = rowOf b then 0 else 1) + (if colOf a = colOf b then 0 else 1)

/-- Two stacks have a link. -/
def linked (a b : Nat) : Bool := hops a b == 1

/-- The stack links of the package, each once. -/
def stackLinks : List (Nat × Nat) :=
  (List.range 16).flatMap fun a => ((List.range 16).filter fun b => decide (a < b) && linked a b).map fun b => (a, b)

/-- The stack to which a router port leads: 0 to 2 those of its row, 3 to 5 those of its column, in ascending order. -/
def neighbour (s port : Nat) : Option Nat :=
  if port < 3 then some (4 * rowOf s + (if port < colOf s then port else port + 1))
  else if port < 6 then some (4 * (if port - 3 < rowOf s then port - 3 else port - 2) + colOf s)
  else none

/-- The router port that leads to a linked stack. -/
def portTo (a b : Nat) : Nat := ((List.range 6).find? fun p => neighbour a p == some b).getD 6

/-- The client port by which a die is served: A, port 6, for dies 0 to 3, and B, port 7, for dies 4 to 7. -/
def clientPort (die : Nat) : Nat := if die < 4 then 6 else 7

/-- The client attachments of the package: the stack, its router port, and the die (01 R14, R16). -/
def attachments : List (Nat × Nat × Nat) :=
  (List.range 8).flatMap fun d => (attachedAll d).map fun k => (k, clientPort d, d)

/-- The package-wide number of an Izeus port, by its stack and router port. -/
def izeusOf (stack port : Nat) : Nat := 2 * stack + (port - 8)

/-- The stack of an Izeus port. -/
def izeusStack (p : Nat) : Nat := p / 2

/-! ### Routes (10 R248) -/

/-- The stacks that a packet passes after its entry stack: row-first where the exclusive or is odd. -/
def routeStacks (a b : Nat) : List Nat :=
  let mid := if (a ^^^ b) % 2 = 1 then 4 * rowOf a + colOf b else 4 * rowOf b + colOf a
  if a = b then [] else if mid = a ∨ mid = b then [b] else [mid, b]

/-- The message classes (10 R249). -/
def msgRequest : Nat := 0
def msgResponse : Nat := 1
def msgStream : Nat := 2
def msgPush : Nat := 3

/-- A virtual channel of a link direction, the one that leaves a stack by a router port (10 R249). -/
def channel (stack port msg hop : Nat) : Nat := 8 * (6 * stack + port) + 2 * msg + hop

/-- The channels of a way along some stacks, from its `hop`-th link on. -/
def channelsOn (msg : Nat) : Nat → Nat → List Nat → List Nat
  | _, _, [] => []
  | hop, a, b :: t => channel a (portTo a b) msg hop :: channelsOn msg (hop + 1) b t

/-- The channels that a packet crosses from its entry stack to its target stack. -/
def wayOf (msg a b : Nat) : List Nat := channelsOn msg 0 a (routeStacks a b)

/-! ### Entry and target (01 R21; 10 R248) -/

/-- The attached stack of a die that is fewest hops from a stack; of several the lowest (01 R21). -/
def nearest (die e : Nat) : Nat := (leastBy (hops e) (sortBy id (attachedAll die))).getD 0

/-- The stack through which a request of die `d` to the window of die `e` enters that die: from the entry stack in its own
row. DEDUCED (log entry 81). -/
def basinEntry (d e : Nat) : Nat :=
  (leastBy (fun t => hops (attached d (rowOf t)) t) (sortBy id (attachedAll e))).getD 0

/-- Targets that are no stack: the register space, and the basin of the sender's own die (DESIGN CHOICE, log entry 81). -/
def homeRegs : Nat := 16
def homeOwn : Nat := 17

/-- The target of a request of a compute die. -/
def State.homeFromDie (s : State) (d pa : Nat) : Nat :=
  if inHbm pa then s.stackOf pa
  else
    match basinOf pa with
    | some (e, _) => if e = d then homeOwn else basinEntry d e
    | none => homeRegs

/-- The target of a request that enters the fabric at a stack. -/
def State.homeFromStack (s : State) (e pa : Nat) : Nat :=
  if inHbm pa then s.stackOf pa
  else
    match basinOf pa with
    | some (d, _) => nearest d e
    | none => homeRegs

/-- The target of an issuer's request (10 R248). -/
def State.homeOf (s : State) (u pa : Nat) : Nat :=
  if u < 12288 then s.homeFromDie (unitDie u) pa else s.homeFromStack (u - 12288) pa

/-- The stack at which an issuer's request to a target stack enters the fabric. -/
def entryTo (u home : Nat) : Nat := if u < 12288 then attached (unitDie u) (rowOf home) else u - 12288

/-- The stack at which an issuer's request for a global address enters the fabric. -/
def entryGlobal (u : Nat) (a : Dword) : Nat := if u < 12288 then attached (unitDie u) (bits a 9 8) else u - 12288

/-- The way of an issuer's request to its target, and that of the response. -/
def wayTo (msg u home : Nat) : List Nat := if home < 16 then wayOf msg (entryTo u home) home else []
def wayBack (u home : Nat) : List Nat := if home < 16 then wayOf msgResponse home (entryTo u home) else []

/-- The way of a push from its home to a die: into the basin through the attached stack nearest to the home. -/
def wayPush (home die : Nat) : List Nat := wayOf msgPush home (nearest die home)

end Sys2Proof.Machine
end

