-- ==== Sys2Proof/Machine/Views.lean ====
section
/-! DEFINITION. The memory model (spec 17): agents and scopes (R340, R341), releases and acquires (R344 to R346, R351), and
the writes that a read must count (R343, R349, R350). DESIGN CHOICE (log entry 82): happens-before is kept as what each agent
has of the writes, so that a read may return any value that R349 allows it. -/

namespace Sys2Proof.Machine

/-! ### Sources (03 R69) -/

def srcDispatcher (p : Nat) : Nat := p
def srcCore (c : Nat) : Nat := 0x1000 + c
def srcCopy (stack engine : Nat) : Nat := 0x2000 + 6 * stack + engine
def srcWeir (stack : Nat) : Nat := 0x3000 + stack
def srcRoute (stack : Nat) : Nat := 0x4000 + stack
def srcHome (stack : Nat) : Nat := 0x5000 + stack
def srcBilael : Nat := 0x6000
def srcIzeus (port : Nat) : Nat := 0x7000 + port
def srcMigration (p : Nat) : Nat := 0x8000 + p

/-- The model's own number for the basin controller of a die, an agent (17 R340) that R69 names no source for. -/
def srcBasin (d : Nat) : Nat := 0x9000 + d

/-- The model's own number for the agents of other packages. -/
def srcOther : Nat := 0xF000

/-- The source of an issuer. -/
def srcUnit (u : Nat) : Nat := if u < 12288 then srcCore (coreOf u) else srcWeir (u - 12288)

/-- A device agent, and a group, as parties. -/
def agent (src : Nat) : Party := ⟨src, none, 0⟩
def Group.party (u : Nat) (g : Group) : Party := ⟨srcUnit u, some g.uid, g.cell⟩

/-! ### Scopes (17 R340, R341) -/

/-- A party is a core's, of the numbers that a test picks. -/
def Party.coreIn (b : Party) (p : Nat → Bool) : Bool := b.src / 0x1000 == 1 && p (b.src % 0x1000)

/-- The agents of a die: those of its cores, and its basin controller. -/
def Party.onDie (b : Party) (d : Nat) : Bool := b.coreIn (fun c => c / 48 == d) || b.src == srcBasin d

/-- The stack on which an agent stands. -/
def Party.stack (b : Party) : Option Nat :=
  let i := b.src % 0x1000
  match b.src / 0x1000 with
  | 2 => some (i / 6)
  | 3 | 4 | 5 => some i
  | _ => none

/-- The reach of a die: its agents, with those of its attached stacks (01 R17). -/
def Party.inReach (b : Party) (d : Nat) : Bool :=
  b.onDie d ||
  match b.stack with
  | some k => (attachedAll d).elem k
  | none => false

/-- The scope of an agent includes another (R340, R341): a stack's agent acts at reach at least, a dispatcher, an Izeus port
or the host at package; gang scope is performed as cell. Lane scope takes in the whole group: its threads order one
another's accesses only as R344 says. -/
def inScope (scope : Nat) (a b : Party) : Bool :=
  let i := a.src % 0x1000
  if 8 ≤ scope then true
  else
    match a.src / 0x1000 with
    | 1 =>
      match (if a.uid.isSome then scope else max scope 4) with
      | 0 | 1 => b == a
      | 2 | 3 => b.src == a.src && b.cell == a.cell && b.uid.isSome
      | 4 => b.src == a.src
      | 5 => b.coreIn fun c => clusterOf c == clusterOf i
      | 6 => b.onDie (i / 48)
      | _ => b.inReach (i / 48)
    | 9 => if scope = 7 then b.inReach i else b.onDie i
    | 2 | 3 | 4 | 5 => ((a.stack.map diesOf).getD []).any b.inReach
    | _ => true

/-- Two events are in mutual scope (R341). -/
def inMutual (s1 : Nat) (a : Party) (s2 : Nat) (b : Party) : Bool := inScope s1 a b && inScope s2 b a

/-! ### What happens before -/

/-- The key of a write and one of its 8-byte words. -/
def readKey (stamp word : Nat) : Nat := stamp * 2 ^ 64 + word

/-- The key of the word at an address, as it stood when the write was performed (R356). -/
def OldBytes.key (o : OldBytes) (a : Nat) : Nat := readKey o.stamp (((a : Int) + o.shift).toNat / 8)

def noView : View := ⟨[], []⟩

/-- Two views together. -/
def View.join (a b : View) : View := ⟨b.known.foldl sput a.known, b.read.foldl sput a.read⟩

/-- The writes that a group has made before a place in its program order, those to U pages only for FENCE.u (R344). -/
def State.ownWrites (s : State) (uid : Nat) (u : Bool) (before : Nat) : List Nat :=
  (s.old.filter fun o => o.author.who.uid == some uid && (u || !o.author.u) && decide (o.author.prog < before)).map (·.stamp)

/-- What happens before a release of a group, or a fence: all that it has acquired, its own writes, and what it has read. -/
def State.viewOf (s : State) (g : Group) (u : Bool) (before : Nat) : View :=
  g.view.join ⟨s.ownWrites g.uid u before, (g.reads.filter fun r => u || !r.u).map (·.key)⟩

/-- A release that a group performs now (R345). -/
def State.relOf (s : State) (n : Nat) (g : Group) (scope : Nat) (u : Bool) (before : Nat) : Rel :=
  ⟨g.party n, scope, s.viewOf g u before, 0⟩

/-- The releases in mutual scope with an acquire. -/
def heardBy (me : Party) (scope : Nat) (rs : List Rel) : List Rel := rs.filter fun r => inMutual scope me r.scope r.who

/-- What an acquire takes over from releases (R346, R351). -/
def View.acquire (me : Party) (scope : Nat) (v : View) (rs : List Rel) : View :=
  (heardBy me scope rs).foldl (fun v r => v.join r.view) v

/-- The copies and cards whose additions an acquire takes (R350). -/
def jobsOf (me : Party) (scope : Nat) (l : List Nat) (rs : List Rel) : List Nat :=
  (heardBy me scope rs).foldl (fun l r => if r.job = 0 then l else sput l r.job) l

/-- A group acquires releases (R346). -/
def Group.acquire (n scope : Nat) (rs : List Rel) (g : Group) : Group :=
  { g with view := g.view.acquire (g.party n) scope rs, jobs := jobsOf (g.party n) scope g.jobs rs }

/-- An ACQ or FENCE acquires what the group's reads have read from, those of U pages under FENCE.u alone; the reads
themselves happen before what follows (R344, R346). -/
def Group.acquireHeard (n scope : Nat) (u : Bool) (g : Group) : Group :=
  let mine := (g.heard.filter fun x => u || !x.1).map (·.2)
  let g := g.acquire n scope mine
  { g with
    view := g.view.join ⟨[], (g.reads.filter fun r => u || !r.u).map (·.key)⟩
    heard := g.heard.filter fun x => (x.1 && !u) || !inMutual scope (g.party n) x.2.scope x.2.who }

/-- A REL or FENCE of a group: it releases the writes after it, and what precedes it happens before what follows (R344). -/
def State.fenceOf (s : State) (n : Nat) (g : Group) (scope : Nat) (u : Bool) : Group :=
  let r := s.relOf n g scope u s.uid
  { g with view := r.view, viewU := if u then r.view else g.viewU, fences := g.fences ++ [r] }

/-- The paths in the order of a PFENCE mask (17 R357). -/
def Path.idx : Path → Nat
  | .d => 0
  | .k => 1
  | .t => 2
  | .p => 3
  | .i => 4

/-! ### The writes that a read must count (R343, R349, R350) -/

/-- A read of a group on a path must count a write of a byte: one that its view holds as read (R349 condition 3), one that
happens before it on the same path or on one that a PFENCE or an acquired addition covers (condition 2, R350), its own, or
one that it has returned already (R343); a read from the L1 may go behind values that passed the L1 by (`l1`). An engine
program's reads count every write. -/
def Group.counts (g : Group) (path : Path) (u l1 : Bool) (o : OldBytes) (a : Nat) : Bool :=
  let v := if u then g.viewU else g.view
  let k := o.key a
  g.engine.isSome || v.read.elem k ||
  (o.author.who.uid == some g.uid && o.author.path == path) ||
  (g.reads.any fun r => r.key == k && r.path == path && !(l1 && r.past)) ||
  (v.known.elem o.stamp &&
    (o.author.path == path || g.covers.elem (o.stamp, path) ||
      (path == .d && o.author.job != 0 && g.jobs.elem o.author.job)))

/-- The byte before a write. -/
def OldBytes.at (o : OldBytes) (a : Nat) : Option Byte := (o.data.find? fun x => x.1 == a).map (·.2)

/-- The value of a byte that a read returns, and the write that it reads from: going back from the newest, the first write
that it must count, or one after it; an aligned 8-byte word is whole (09 R225). -/
def seenLoop (draw a : Nat) (must : OldBytes → Bool) : List OldBytes → Byte → Byte × Option OldBytes
  | [], b => (b, none)
  | o :: t, b =>
    match o.at a with
    | none => seenLoop draw a must t b
    | some x =>
      if !must o && Config.pick draw (o.stamp * 2 ^ 48 + a / 8) then seenLoop draw a must t x else (b, some o)

/-- Whether a read may return a value, and the newest write that it then reads from. -/
def mayReturn (a : Nat) (must : OldBytes → Bool) (x : Byte) : List OldBytes → Byte → Bool × Option OldBytes
  | [], b => (b == x, none)
  | o :: t, b =>
    match o.at a with
    | none => mayReturn a must x t b
    | some y => if b == x then (true, some o) else if must o then (false, none) else mayReturn a must x t y

/-- The releases that a read of a byte from a write reads from: the write's own, and from a read-modify-write those of every
write of the byte before it (R346). -/
def State.relsAt (s : State) (o : OldBytes) (a : Nat) : List Rel :=
  if o.author.rmw then
    (((s.old.takeWhile fun w => w.stamp != o.stamp).filter fun w => (w.at a).isSome).flatMap fun w => w.author.rels) ++
      o.author.rels
  else o.author.rels

/-- The newest write of a byte, and the releases that a read of it reads from. -/
def State.newest (s : State) (a : Nat) : Option OldBytes := s.old.reverse.find? fun o => (o.at a).isSome
def State.newestRels (s : State) (a : Nat) : List Rel := ((s.newest a).map fun o => s.relsAt o a).getD []

/-- The releases that a byte is read from as it stood right after a write: of what a push of that write carries. -/
def State.relsSeen (s : State) (wrote a : Nat) : List Rel :=
  if s.old.any fun o => o.stamp == wrote then
    let l := (s.old.takeWhile fun o => o.stamp != wrote) ++ s.old.filter fun o => o.stamp == wrote
    match l.reverse.find? fun o => (o.at a).isSome with
    | some o => s.relsAt o a
    | none => []
  else []

/-- A read of a group has returned a byte from a write (R343, R346). -/
def Group.noteRead (path : Path) (u past : Bool) (a : Nat) (rels : List Rel) (o : OldBytes) (g : Group) : Group :=
  let r : ReadRec := ⟨o.key a, path, u, past⟩
  { g with
    reads := if g.reads.elem r then g.reads else g.reads ++ [r]
    heard := rels.foldl (fun l x => if l.elem (u, x) then l else l ++ [(u, x)]) g.heard }

/-- What happens before the work of a copy or card, or before what a launch or a child that is still to come hands on (R347); by 1
more than their number. -/
def State.jobView (s : State) (job : Nat) : View := agetD noView s.views job
def State.putView (s : State) (job : Nat) (v : View) : State := { s with views := aput s.views job v }

/-- What a group's fences order before the work that it hands to an agent: its RELs and FENCEs whose scope includes the agent
(R347). -/
def handedTo (b : Party) (rels : List Rel) : View :=
  (rels.filter fun r => inScope r.scope r.who b).foldl (fun v r => v.join r.view) noView

/-- The release of a device agent at the end of some work: what happens before the work, by `rels` of the group that asked for
it, and the writes of the work. -/
def State.jobRel (s : State) (src scope job : Nat) (rels : List Rel) : Rel :=
  let own := (s.old.filter fun o => o.author.job == job).map (·.stamp)
  ⟨agent src, scope, ((s.jobView job).join (handedTo (agent src) rels)).join ⟨own, []⟩, job⟩

end Sys2Proof.Machine
end

