-- ==== Sys2Proof/Machine/Fabric.lean ====
section
/-! DEFINITION. The stack fabric (spec 10): channels, ordering classes and sequence numbers (R249 to R251), contracts
(R252), writes performed at their home and the pushes they send (09 R234), and acknowledgments (09 R229). -/

namespace Sys2Proof.Machine

/-! ### Contracts (R252, R253) -/

/-- The ordering class of an access to a page kind (10 R250). -/
def classOf : PageKind → OrdClass
  | .s => .strict
  | .c => .release
  | .u => .bulk

/-- The place of a class in BSC (10 R253). -/
def OrdClass.idx : OrdClass → Nat
  | .strict => 0
  | .release => 1
  | .bulk => 2
  | .push => 3

/-- RATE and the bucket's capacity of a source's contract, in quarters of a byte (10 R252, R253). -/
def State.contract (s : State) (src : Nat) (c : OrdClass) : Nat × Nat :=
  let w := s.reg (.bsc src)
  (bits w (16 * c.idx + 11) (16 * c.idx), (bits w (16 * c.idx + 15) (16 * c.idx + 12) + 1) * 1024)

/-- What the bucket of a source's contract for a class holds. -/
def State.bucket (s : State) (src : Nat) (c : OrdClass) : Int := agetD (s.contract src c).2 s.buckets (4 * src + c.idx)

/-- A packet of `n` bytes may be accepted (R252): its class is open service, or the bucket holds its bytes. -/
def State.affords (s : State) (src : Nat) (c : OrdClass) (n : Nat) : Bool :=
  (s.contract src c).1 == 0 || decide ((4 * n : Int) ≤ s.bucket src c)

/-- Takes the bytes of a packet, or of every packet of a longer transfer, from the bucket of a contract. DESIGN CHOICE (log
entry 83): a transfer that one step performs whole leaves the bucket below 0 until it is paid for. -/
def State.spend (s : State) (src : Nat) (c : OrdClass) (n : Nat) : State :=
  if (s.contract src c).1 = 0 ∨ n = 0 then s
  else { s with buckets := aput s.buckets (4 * src + c.idx) (s.bucket src c - 4 * n) }

/-! ### Writes at their home -/

/-- The distinct granules of some bytes, rising. -/
def dataGranules (data : List (Nat × Byte)) : List Nat := data.foldl (fun l x => sput l (granule x.1)) []

/-- Every byte of a granule is among the written ones. -/
def wholeIn (data : List (Nat × Byte)) (g : Nat) : Bool :=
  (List.range 16).all fun i => data.any fun x => x.1 == 16 * g + i

/-- The addresses of other packages are the global ones (10 R257). -/
def farAddr (a : Nat) : Bool := decide (2 ^ 63 ≤ a)

/-- A byte of another package. -/
def State.farByte (s : State) (a : Nat) : Byte := (aget s.far a).getD (Config.farByte a)

/-- A byte at its home, in this package or another. -/
def State.homeByte (s : State) (a : Nat) : Byte := if farAddr a then s.farByte a else s.byte a

/-- The `n` bytes from an address at their home. -/
def State.homeBytes (s : State) (a n : Nat) : List Byte := (List.range n).map fun i => s.homeByte (a + i)

/-- A granule is poisoned at its home. -/
def State.homePoison (s : State) (g : Nat) : Bool := if farAddr (16 * g) then s.farPoison.elem g else s.poison.elem g

/-- Poisons, or clears the poison of, a granule at its home. -/
def State.markPoison (s : State) (g : Nat) (b : Bool) : State :=
  if farAddr (16 * g) then { s with farPoison := sset s.farPoison g b } else s.setPoison g b

/-- Writes a byte at its home. -/
def State.putByte (s : State) (a : Nat) (b : Byte) : State :=
  if farAddr a then { s with far := aput s.far a b } else s.setByte a b

/-- Writes bytes one by one. -/
def State.putBytes (s : State) (data : List (Nat × Byte)) : State := data.foldl (fun s x => s.putByte x.1 x.2) s

/-- The watchers of a granule: those of its home stack's table, or of another package's. -/
def State.watchers (s : State) (g : Nat) : List Sub :=
  if farAddr (16 * g) then s.farSubs.filter fun x => x.granule == g
  else if inHbm (16 * g) then (agetD [] s.subs (s.stackOf (16 * g))).filter fun x => x.granule == g else []

/-- The source of a granule's pushes: its home, or the port through which they come. DESIGN CHOICE (log entry 80): the port of
a die's entry stack of the address. -/
def State.pushSource (s : State) (g : Nat) : Watcher → Nat
  | .slot die _ =>
    if farAddr (16 * g) then srcIzeus (izeusOf (entryGlobal (die * 1536) (BitVec.ofNat 64 (16 * g))) 8) else srcHome (s.stackOf (16 * g))
  | _ => srcHome (s.stackOf (16 * g))

/-- The way of a push from its source to its subscriber; a dispatcher stands on no stack. -/
def pushWay (src : Nat) : Watcher → List Nat
  | .slot die _ => wayPush (if src / 0x1000 = 7 then izeusStack (src % 0x1000) else src % 0x1000) die
  | _ => []

/-- Sends a granule's value to one watcher (09 R234): `wrote` is the write whose value it is, with its releases. -/
def State.pushTo (s : State) (g wrote : Nat) (rels : List Rel) (w : Watcher) : State :=
  let data := s.homeBytes (16 * g) 16
  match w with
  | .far port slot => { s with outbox := s.outbox ++ [⟨port, slot, false, data⟩] }
  | _ =>
    let src := s.pushSource g w
    let p : Push := ⟨s.uid, src, w, data, s.homePoison g, ⟨pushWay src w, s.uid⟩, wrote, rels⟩
    let s := if src / 0x1000 = 5 then s.spend src .push 16 else s
    { s with uid := s.uid + 1, pushes := s.pushes ++ [p] }

/-- The first push of a subscription: the granule's value, as its newest write left it. -/
def State.pushFirst (s : State) (g : Nat) (w : Watcher) : State :=
  let mine (o : OldBytes) : Option (Nat × Byte) := o.data.find? fun x => granule x.1 == g
  match s.old.reverse.find? fun o => (mine o).isSome with
  | some o => s.pushTo g o.stamp (s.relsAt o (((mine o).map (·.1)).getD 0)) w
  | none => s.pushTo g s.uid [] w

/-- Sends a granule's value to its watchers (09 R234). -/
def State.pushGranule (s : State) (wrote : Nat) (rels : List Rel) (g : Nat) : State :=
  (s.watchers g).foldl (fun s w => s.pushTo g wrote rels w.who) s

/-- A write performed at its home, under its stamp: the bytes, the poison of the granules it covers (21 R400), full bits with
their bytes (09 R230), the values that readers may still see (17 R349), and the pushes of each watched granule in home order
(09 R234). -/
def State.writeAs (s : State) (stamp : Nat) (by_ : Author) (data : List (Nat × Byte)) (full poison : List Nat) : State :=
  let gs := dataGranules data
  let o : OldBytes := ⟨stamp, by_, data.map fun x => (x.1, s.homeByte x.1), full.map fun g => (g, 1), 0⟩
  let s := { s with old := s.old ++ [o] }
  let s := s.putBytes data
  let s := gs.foldl (fun s g =>
    if poison.elem g then s.markPoison g true else if wholeIn data g then s.markPoison g false else s) s
  let s := full.foldl (fun s g => s.setFull g true) s
  gs.foldl (State.pushGranule · stamp (s.newestRels ((data.headD (0, 0)).1))) s

/-- The author of a device agent's write: a card's or copy's where `job` is not 0; `rels` where it is a release. -/
def deviceAuthor (path : Path) (src job : Nat) (rels : List Rel) : Author := ⟨agent src, path, job, 0, false, false, rels⟩

/-- A write of a device agent, with the releases that it carries (17 R345). -/
def State.releaseWrite (s : State) (path : Path) (src job : Nat) (rels : List Rel) (data : List (Nat × Byte))
    (full poison : List Nat) : State :=
  State.writeAs { s with uid := s.uid + 1 } s.uid (deviceAuthor path src job rels) data full poison

/-- A write of a device agent, which is no release. -/
def State.performWrite (s : State) (path : Path) (src job : Nat) (data : List (Nat × Byte)) (full poison : List Nat) :
    State := s.releaseWrite path src job [] data full poison

/-- A run of bytes from an address as data of a write. -/
def dataOf (a : Nat) (bs : List Byte) : List (Nat × Byte) := (List.range bs.length).zip bs |>.map fun x => (a + x.1, x.2)

/-- A little-endian write of `n` bytes by a device agent. -/
def State.devWrite (s : State) (path : Path) (src pa x n : Nat) : State :=
  s.performWrite path src 0 (dataOf pa (natLE x n)) [] []

/-- The full bits that an engine write sets: those of the basin granules it touches (09 R230). -/
def basinGranules (data : List (Nat × Byte)) : List Nat :=
  (dataGranules data).filter fun g => (basinOf (16 * g)).isSome

/-! ### Packets -/

/-- Payload bytes of a packet. -/
def PBody.size : PBody → Nat
  | .write data _ _ => data.length
  | .fill _ _ _ => 16
  | .rmw _ wide _ _ => if wide then 8 else 4
  | .marker => 0

/-- A packet touches a byte; a fill touches the granules whose full bits it changes. -/
def Packet.touches (p : Packet) (a : Nat) : Bool :=
  match p.body with
  | .write data _ _ => data.any fun x => x.1 == a
  | .fill start n _ => decide (start ≤ granule a) && decide (granule a < start + n)
  | .rmw _ wide _ _ => decide (p.pa ≤ a) && decide (a < p.pa + (if wide then 8 else 4))
  | .marker => false

/-- The key of a source's numbers toward a target, and its counters, modulo 2^16 (R250). -/
def orderKey (src home : Nat) : Nat := src * 32 + home
def State.seqOf (s : State) (src home : Nat) : Nat := agetD 0 s.seqs (orderKey src home)
def State.doneOf (s : State) (src home : Nat) : Nat := agetD 0 s.done (orderKey src home)

/-- The target may be sent the next number: it has performed the number 256 before it (R251). -/
def State.inWindow (s : State) (src home : Nat) : Bool :=
  decide ((s.seqOf src home + 65536 - s.doneOf src home) % 65536 < Config.window)

/-- The target has performed every number that the source has sent it. -/
def State.upToDate (s : State) (src home : Nat) : Bool := s.seqOf src home == s.doneOf src home

/-- A source takes its next number toward a target, and the target performs one. -/
def State.takeSeq (s : State) (src home : Nat) : State :=
  { s with seqs := aput s.seqs (orderKey src home) ((s.seqOf src home + 1) % 65536) }
def State.doneSeq (s : State) (src home : Nat) : State :=
  { s with done := aput s.done (orderKey src home) ((s.doneOf src home + 1) % 65536) }

/-- A packet is numbered: its class is, and it travels on the fabric (R250). -/
def Packet.sequenced (p : Packet) : Bool := p.cls != .bulk && p.home != homeOwn

/-- The packets of groups that have not been performed, those to other packages among them. -/
def GlobPacket.packet (q : GlobPacket) : Option Packet :=
  match q.what with
  | .store p => some p
  | _ => none
def State.sent (s : State) : List Packet := s.packets ++ s.globals.filterMap GlobPacket.packet

/-- No packet of a set is unperformed or unacknowledged (17 R357). -/
def State.acked (s : State) (after : List Nat) : Bool :=
  after.all fun k => !(s.sent.any fun q => q.stamp == k) && !(s.acks.any fun q => q.stamp == k)

/-- A packet may be accepted: the next number of its source toward its target lies in the window (R251), no store before its
marker is unacknowledged (17 R357), and its contract bears it (R252). -/
def State.acceptable (s : State) (p : Packet) : Bool :=
  (!p.sequenced || s.inWindow p.src p.home) && s.acked p.after &&
  (p.home == homeOwn || s.affords p.src p.cls p.body.size)

/-- The message class of a packet: markers travel in the stream channel (R249; "Routes in practice"). -/
def PBody.msg : PBody → Nat
  | .marker => msgStream
  | _ => msgRequest

/-- Accepts a packet: a sequenced class takes the next number toward its target (R250), and it sets out. -/
def State.accept (s : State) (p : Packet) : State :=
  let n := s.seqOf p.src p.home
  let s := if p.home = homeOwn then s else s.spend p.src p.cls p.body.size
  let s := if p.sequenced then s.takeSeq p.src p.home else s
  let trip : Trip := ⟨wayTo p.body.msg p.unit p.home, s.uid⟩
  let f (q : Packet) : Packet := { q with accepted := true, seq := if p.sequenced then some n else none, trip := trip }
  { s with uid := s.uid + 1, packets := modifyFirst (fun q => q.stamp == p.stamp) f s.packets }

/-- Hands a packet to its source, where it waits to be accepted. -/
def State.send (s : State) (p : Packet) : State := { s with packets := s.packets ++ [p] }

/-- A packet that its target may perform now: arrived, and next in its source's order, or without a number and the first of
those that have arrived (R251). -/
def State.performable (s : State) (p : Packet) : Bool :=
  p.accepted && p.trip.way.isEmpty &&
  match p.seq with
  | some n => n == s.doneOf p.src p.home
  | none =>
    p.home == homeOwn ||
      s.packets.all fun q =>
        !(q.accepted && q.trip.way.isEmpty && q.seq.isNone && q.home == p.home) || decide (p.trip.entered ≤ q.trip.entered)

/-! ### Channels (R249) -/

/-- What waits in the fabric, with the key of its place in a channel. -/
def State.trips (s : State) : List Trip :=
  ((s.packets.filter (·.accepted)).map (·.trip)) ++ s.acks.map (·.trip) ++ s.pushes.map (·.trip) ++ s.globals.map (·.trip)

/-- The first of a channel, by when it entered: each channel is FIFO. -/
def State.firstIn (s : State) (chan : Nat) : Option Trip :=
  leastBy (·.entered) (s.trips.filter fun t => t.way.head? == some chan)

/-- A trip whose first channel has been crossed. -/
def Trip.on (t : Trip) (now : Nat) (x : Trip) : Trip := if x = t then ⟨x.way.tail, now⟩ else x

/-- The first packet of a channel crosses its link (R249). -/
def State.turnCross (s : State) (chan : Nat) : State :=
  match s.firstIn chan with
  | none => s
  | some t =>
    let f := t.on s.uid
    { s with
      uid := s.uid + 1
      packets := s.packets.map fun x => { x with trip := f x.trip }
      acks := s.acks.map fun x => { x with trip := f x.trip }
      pushes := s.pushes.map fun x => { x with trip := f x.trip }
      globals := s.globals.map fun x => { x with trip := f x.trip } }

/-! ### Acknowledgments -/

/-- One part of an instruction's last effect has been performed. -/
def State.partDone (s : State) (u uid : Nat) (tok : Option Nat) : State :=
  match tok with
  | none => s
  | some t =>
    s.onGroup u uid fun g => { g with pend := modifyFirst (fun p => p.tok == t) (fun p => { p with left := p.left - 1 }) g.pend }

/-- An acknowledgment reaches its group (09 R229). -/
def State.ackNow (s : State) (a : Ack) : State :=
  (s.onGroup a.unit a.uid fun g => { g with unacked := g.unacked - 1 }).partDone a.unit a.uid a.tok

/-! ### Atomic operations (09 R243) -/

/-- The new value of an atomic: `old`, the operand v and, for .cas, the swap value. -/
def atomicOp (op : BitVec 4) (wide : Bool) (old v w : Dword) : Dword :=
  let n := if wide then 64 else 32
  let sx (x : Dword) : Int := if wide then x.toInt else (lowWord x).toInt
  let ux (x : Dword) : Nat := x.toNat % 2 ^ n
  match op.toNat with
  | 0 => BitVec.ofNat 64 ((ux old + ux v) % 2 ^ n)
  | 1 => if sx v < sx old then v else old
  | 2 => if sx old < sx v then v else old
  | 3 => if ux v < ux old then v else old
  | 4 => if ux old < ux v then v else old
  | 5 => old &&& v
  | 6 => old ||| v
  | 7 => old ^^^ v
  | 8 => v
  | 9 => if ux old = ux v then w else old
  | _ => (addF32 (lowWord old) (lowWord v)).setWidth 64

end Sys2Proof.Machine
end

