-- ==== Sys2Proof/Machine/Events.lean ====
section
/-! DEFINITION. Event records (spec 03 R69, 24 R426, R427). -/

namespace Sys2Proof.Machine

/-- Writes an event record to a partition's queue, or discards it when the queue is full or disabled (24 R426). DESIGN
CHOICE (log entry 75): SEQ starts at 0 for each source and queue, and SEQ and LOST outlast a partition's closing. -/
def State.logTo (s : State) (p src type data : Nat) : State :=
  let k := src * 8 + p
  let seq := agetD 0 s.evSeq k
  let s := { s with evSeq := asetD 0 s.evSeq k ((seq + 1) % 65536) }
  let ctl := s.reg (.evqctl p)
  let n := 2 ^ bits ctl 5 1
  let tail := bits ctl 63 32
  let head := bits (s.reg (.evqhead p)) 31 0
  if ctl.getLsbD 0 = false ∨ (tail + 2 ^ 32 - head) % 2 ^ 32 = n then
    ({ s with evLost := asetD 0 s.evLost k 1 }).countErr p 4 1
  else
    let record := s.now % 2 ^ 64 + 2 ^ 64 * src + 2 ^ 80 * seq + 2 ^ 96 * agetD 0 s.evLost k + 2 ^ 112 * type + 2 ^ 128 * data
    let s := s.devWrite .d src ((s.reg (.evqbase p)).toNat + 32 * (tail % n)) record 32
    let s := s.setReg (.evqctl p) (setBits ctl 63 32 ((tail + 1) % 2 ^ 32))
    { s with evLost := asetD 0 s.evLost k 0 }

/-- A record that concerns a partition (03 R69); a partition that is not open has no queue. -/
def State.logPart (s : State) (p src type data : Nat) : State := if s.partOpen p then s.logTo p src type data else s

/-- A record that concerns a context: to the partition whose function its CTXCTL.FN names (03 R69). -/
def State.logCtx (s : State) (c src type data : Nat) : State :=
  match s.partOfCtx c with
  | some p => s.logTo p src type data
  | none => s

/-- A record that concerns neither: to every open partition (03 R69). -/
def State.logAll (s : State) (src type data : Nat) : State := s.openParts.foldl (fun s p => s.logTo p src type data) s

/-- Counts an error in every open partition (24 R436). -/
def State.countAll (s : State) (i n : Nat) : State := s.openParts.foldl (fun s p => s.countErr p i n) s

end Sys2Proof.Machine
end

