-- ==== Sys2Proof/Machine/Regions.lean ====
section
/-! DEFINITION. Regions (spec 05 R123 to R128): the store buffer, its drain, commit, and the restart from the region
start. -/

namespace Sys2Proof.Machine

/-! ### The region store buffer -/

/-- Entries in use (05 R124): a fence's marker takes none. -/
def bufUsed (b : List BufItem) : Nat := (b.filter fun x => x != .marker).length

/-- The group's buffered byte at an address, the latest store's (05 R124). -/
def bufByte (b : List BufItem) (glob : Bool) (a : Nat) : Option Byte :=
  b.foldl (fun r x =>
    match x with
    | .bytes gl _ data _ _ => if gl == glob then ((data.find? fun y => y.1 == a).map (·.2)).or r else r
    | _ => r) none

/-- The group's buffered bytes among some addresses. -/
def bufBytes (b : List BufItem) (glob : Bool) (as_ : List Nat) : List (Nat × Byte) :=
  if b.isEmpty then [] else as_.filterMap fun a => (bufByte b glob a).map fun x => (a, x)

/-- Splits bytes into aligned 64-byte blocks, rising (05 R124). -/
def blocksOf (data : List (Nat × Byte)) : List (List (Nat × Byte)) :=
  let ks := data.foldl (fun l x => sput l (x.1 / 64)) []
  ks.map fun k => data.filter fun x => x.1 / 64 == k

/-- Enters an instruction's bytes, merged, into the buffer: one entry for each block; none where an entry is missing
(05 R124). -/
def bufEnter (b : List BufItem) (glob : Bool) (kind : PageKind) (data : List (Nat × Byte)) (full poison : List Nat) :
    Option (List BufItem) :=
  let items := (blocksOf data).map fun d =>
    let gs := dataGranules d
    BufItem.bytes glob kind d (full.filter gs.elem) (poison.filter gs.elem)
  if items ≠ [] ∧ Config.bufferEntries < bufUsed b + items.length then none else some (b ++ items)

/-! ### Draining -/

/-- Drops the flag and the pending entry of an instruction that will never be performed: a FILLB whose region is
discarded. -/
def Group.dropTok (g : Group) (t : Nat) : Group :=
  match g.pend.find? fun p => p.tok == t with
  | none => g
  | some p =>
    let g := { g with pend := g.pend.filter fun q => q.tok != t }
    match p.flag with
    | some f => g.setFlag f (g.flag f - 1)
    | none => g

/-- Empties the buffer without effect (05 R123). -/
def Group.discardBuf (g : Group) : Group :=
  let g := g.buf.foldl (fun g x =>
    match x with
    | .fill _ _ _ (some t) => g.dropTok t
    | _ => g) g
  { g with buf := [], ldbc := false }

/-- Updates the bytes of a core's L1 lines that hold them (09 R226). -/
def l1Update (l1 : Assoc (List Byte)) (data : List (Nat × Byte)) : Assoc (List Byte) :=
  l1.map fun x => (x.1, (List.range x.2.length).zip x.2 |>.map fun y =>
    match data.find? fun z => z.1 == x.1 + y.1 with
    | some z => z.2
    | none => y.2)

/-- The packets of a group that have not been performed. -/
def State.sentBy (s : State) (u uid : Nat) : List Packet := s.sent.filter fun p => p.unit == u && p.uid == uid

/-- Stamps of a group's stores that are still in flight or unacknowledged. -/
def State.unackedStamps (s : State) (u uid : Nat) : List Nat :=
  (((s.sentBy u uid).filter fun p => p.body != .marker).map (·.stamp)) ++
  ((s.acks.filter fun a => a.unit == u && a.uid == uid).map (·.stamp))

/-- A packet of a group; `later` is the number of its fences that follow the instruction in program order. -/
def State.packetOf (s : State) (u : Nat) (g : Group) (glob : Option Dword) (cls : OrdClass) (home pa : Nat) (body : PBody)
    (tok : Option Nat) (rel : Option Nat) (later : Nat) : Packet :=
  let after := if rel.isSome then g.fenceSet ++ s.unackedStamps u g.uid else g.fenceSet
  { stamp := s.uid
    src := srcUnit u
    unit := u
    uid := g.uid
    home := home
    cls := cls
    seq := none
    accepted := false
    trip := ⟨[], 0⟩
    glob := glob
    pa := pa
    body := body
    tok := tok
    ctx := some g.ctx
    after := if body = .marker then [] else after
    rel := rel
    rels := g.fences.take (g.fences.length - later) }

/-- Sends one store-like packet of a group and counts it as unacknowledged (09 R229); a release waits for every earlier
one. A packet for another package goes to the port at its entry stack (10 R248, R259). -/
def State.sendStore (s : State) (u : Nat) (glob : Option Dword) (kind : PageKind) (pa : Nat) (body : PBody)
    (tok : Option Nat) (rel : Option Nat) (later : Nat) : State :=
  match s.group? u with
  | none => s
  | some g =>
    let p := s.packetOf u g glob (classOf kind) (s.homeOf u pa) pa body tok rel later
    let s := (s.putGroup u { g with unacked := g.unacked + 1 }).fresh
    match glob with
    | none => s.send p
    | some a =>
      let q : GlobPacket :=
        ⟨p.stamp, a, izeusOf (entryGlobal u a) 8, 0, srcUnit u, some g.ctx, none, 0, ⟨[], 0⟩, false, .store p⟩
      { s with globals := s.globals ++ [q] }

/-- The target stacks toward which the newest packet of a group is a store. -/
def State.markerHomes (s : State) (u uid : Nat) : List Nat :=
  (List.range 16).filter fun h =>
    match (s.packets.filter fun p => p.unit == u && p.uid == uid && p.home == h).getLast? with
    | none => false
    | some p => p.body != .marker

/-- Sends the marker of a fence or release behind a group's stores (10 R250; 17 R357): one to each target. DESIGN CHOICE (log
entry 81): it has no other effect there, and no acknowledgment. -/
def State.sendMarkers (s : State) (u : Nat) : State :=
  match s.group? u with
  | none => s
  | some g => (s.markerHomes u g.uid).foldl (fun s h =>
      (s.fresh).send (s.packetOf u g none .strict h 0 .marker none none 0)) s

/-- Drains one entry of the buffer (05 R125); `later` fences follow it in the buffer. -/
def State.drainItem (s : State) (u later : Nat) (x : BufItem) : State :=
  match x with
  | .bytes glob kind data full poison =>
    let a := ((data.head?).map (·.1)).getD 0
    let s := s.sendStore u (if glob then some (BitVec.ofNat 64 a) else none) kind a (.write data full poison) none none later
    let c := s.core (coreOf u)
    if c.l1.isEmpty ∨ glob = true then s else s.putCore (coreOf u) { c with l1 := l1Update c.l1 data }
  | .fill start n set tok => s.sendStore u none .c (16 * start) (.fill start n set) tok none later
  | .marker =>
    match s.group? u with
    | none => s
    | some g => (s.putGroup u { g with fenceSet := s.unackedStamps u g.uid }).sendMarkers u

/-- Drains some entries of the buffer in program order. -/
def State.drainItems (u : Nat) : List BufItem → State → State
  | [], s => s
  | x :: t, s => State.drainItems u t (s.drainItem u ((t.filter fun y => y == .marker).length) x)

/-- Drains a group's buffer in program order (05 R125). -/
def State.drain (s : State) (u : Nat) : State :=
  match s.group? u with
  | none => s
  | some g =>
    if g.buf.isEmpty then s.putGroup u { g with ldbc := false }
    else State.drainItems u g.buf (s.putGroup u { g with buf := [], ldbc := false })

/-! ### Opening a region and restarting it -/

/-- Opens a region that begins at an instruction of the head run's clause (05 R126). -/
def Group.openRegion (g : Group) (index : Nat) (half : Bool) : Group :=
  { g with region := ⟨g.pc, index, half⟩ }

/-- Commits the open region: drains its stores and opens a new one (05 R125, R126). -/
def State.commit (s : State) (u index : Nat) (half : Bool) : State :=
  let s := s.drain u
  match s.group? u with
  | none => s
  | some g => s.putGroup u (g.openRegion index half)

/-- Opens the region that follows an E-marked instruction: at the next instruction of its clause, or at instruction 0 of
the clause that follows (05 R126). -/
def Group.reopen (g : Group) : Group :=
  match g.clause with
  | some c => g.openRegion c.next c.half
  | none => g.openRegion 0 false

/-- A restart from the region start (05 R123): registers, predicates and flags stay; results in flight still land. -/
def Group.restart (g : Group) : Group :=
  let g := g.discardBuf
  { g with
    pc := g.region.pcs
    clause := none
    latch := []
    latchOk := 0
    readyAt := none
    urgent := false
    resume := if g.region.index = 0 ∧ g.region.half = false then none else some (g.region.index, g.region.half) }

end Sys2Proof.Machine
end

