-- ==== Sys2Proof/Machine/Leaving.lean ====
section
/-! DEFINITION. Barriers (spec 18 R358 to R362) and how a group leaves its slot (05 R135, 21 R395, 24 R424). -/

namespace Sys2Proof.Machine

/-! ### Barriers -/

def barrierReset : Barrier := ⟨0, 0, 0, []⟩

/-- A barrier of a cell: 0 to 7 the gang barriers, 8 the cell barrier (18 R358). -/
def CellSt.barrier (c : CellSt) (b : Nat) : Barrier := agetD barrierReset c.barriers b
def CellSt.setBarrier (c : CellSt) (b : Nat) (x : Barrier) : CellSt :=
  { c with barriers := asetD barrierReset c.barriers b x }

/-- A gang register of a cell (12 R283). -/
def CellSt.gang (c : CellSt) (k : Nat) : BitVec 32 := agetD 0 c.gangs k

/-- The groups of the cell as a mask over GROUP. -/
def CellSt.all (c : CellSt) : BitVec 32 := BitVec.ofNat 32 (2 ^ c.ngroup - 1)

/-- Participants of a phase (18 R359). -/
def CellSt.participants (c : CellSt) (b : Nat) : BitVec 32 := if b = 8 then c.all else (c.barrier b).captured

/-- Every participant has arrived; a group that has exited counts as arrived (18 R359). -/
def CellSt.complete (c : CellSt) (b : Nat) : Bool :=
  let x := c.barrier b
  x.arrived != 0 && (c.participants b &&& ~~~(x.arrived ||| c.exited)) == 0

/-- The issuers of a cell's resident groups, in ascending GROUP order. -/
def State.cellUnits (s : State) (k : Nat) : List Nat :=
  (sortBy (fun (x : Nat × Group) => x.2.index) (s.groups.filter fun x => x.2.cell == k)).map (·.1)

/-- SLOPE of a core's cluster: SPACING and the wave size (18 R361). -/
def State.slope (s : State) (core : Nat) : Nat × Nat :=
  let w := s.reg (.slope (core / 48) (core % 48 / 4))
  (bits w 15 8, bits w 4 0 + 1)

/-- The scope of a barrier's arrivals and resumptions (17 R345). -/
def barScope (b : Nat) : Nat := if b = 8 then 3 else 2

/-- A group leaves a phase that has opened: its pending bit clears, and it acquires the phase's arrivals (18 R362, R366; 17
R345). -/
def Group.pastBarrier (u b : Nat) (g : Group) : Group :=
  let rels := ((aget g.bars b).map (·.rels)).getD []
  { g.acquire u (barScope b) rels with bars := adel g.bars b }

/-- A waiting group resumes: its BAR or BARW completes (18 R362, R366). -/
def Group.resumeBarrier (g : Group) (u b : Nat) : Group :=
  { (g.pastBarrier u b).advance with wait := .no }

/-- Gives the i-th waiting group its wave: wave 0 resumes at once (18 R362). -/
def State.giveWave (s : State) (u b t i spacing wave : Nat) : State :=
  match s.group? u with
  | none => s
  | some g =>
    if i / wave = 0 then s.putGroup u (g.resumeBarrier u b)
    else s.putGroup u { g with wait := .barrier b (some (t + i / wave * spacing)) }

/-- The arrivals of a phase that opens reach a group that has arrived in it. -/
def Group.phaseOpens (cell b : Nat) (x : Barrier) (g : Group) : Group :=
  if g.cell = cell then
    { g with bars := g.bars.map fun y => if y.1 = b ∧ y.2.phase = x.phase then (y.1, { y.2 with rels := x.rels }) else y }
  else g

/-- The same for every group of the cell, resident or saved. -/
def State.phaseOpens (s : State) (cell b : Nat) (x : Barrier) : State :=
  { s with
    groups := s.groups.map fun y => (y.1, y.2.phaseOpens cell b x)
    saved := s.saved.map fun i => { i with groups := i.groups.map fun y => ⟨y.g.phaseOpens cell b x, y.slot⟩ } }

/-- Opens a phase when its last participant has arrived (18 R362). -/
def State.openPhase (s : State) (k b : Nat) : State :=
  match s.cell? k with
  | none => s
  | some c =>
    if c.complete b then
      let x := c.barrier b
      let s := (s.putCell k (c.setBarrier b { x with phase := x.phase + 1, arrived := 0, rels := [] })).phaseOpens k b x
      let core := c.core.getD 0
      let t := s.cycles core
      let (spacing, wave) := s.slope core
      let ws := (s.cellUnits k).eraseDups.filter fun u =>
        match s.group? u with
        | some g => g.wait == .barrier b none && (aget g.bars b).map (·.phase) == some x.phase
        | none => false
      (List.range ws.length).zip ws |>.foldl (fun s y => s.giveWave y.2 b t y.1 spacing wave) s
    else s

/-! ### Leaving a slot -/

/-- The bit of a group in a mask over GROUP. -/
def groupBit (i : Nat) : BitVec 32 := BitVec.ofNat 32 (2 ^ i)

/-- Removes a group from the children of its parent (05 R138), which a JOIN may acquire from its exit (17 R345). -/
def Group.dropKid (g : Group) (kid : Nat) (exit : Option (Nat × Rel)) : Group :=
  { g with kids := g.kids.filter fun x => x.uid != kid, ended := g.ended ++ exit.toList }

/-- Removes a child from one group's children where that group is its parent. -/
def Group.dropKidOf (parent kid : Nat) (exit : Option (Nat × Rel)) (g : Group) : Group :=
  if g.uid = parent then g.dropKid kid exit else g

/-- The same in a save image. -/
def SaveImg.dropKidOf (parent kid : Nat) (exit : Option (Nat × Rel)) (i : SaveImg) : SaveImg :=
  { i with groups := i.groups.map fun y => ⟨y.g.dropKidOf parent kid exit, y.slot⟩ }

/-- A child has come to an end (05 R138). -/
def State.dropKid (s : State) (parent : Option Nat) (kid : Nat) (exit : Option (Nat × Rel)) : State :=
  match parent with
  | none => s
  | some p =>
    { s with
      groups := s.groups.map fun x => (x.1, x.2.dropKidOf p kid exit)
      saved := s.saved.map (SaveImg.dropKidOf p kid exit) }

/-- One live part of a launch comes to an end (24 R424). -/
def State.launchEnd (s : State) (l : Option Nat) (ended : Bool) : State :=
  match l with
  | none => s
  | some k =>
    match aget s.launches k with
    | none => s
    | some x =>
      let x := { x with live := x.live - 1, ended := if ended then x.ended + 1 else x.ended }
      { s with launches := aput s.launches k x }

/-- What happens before a group's exit happens before its launch's retirement. DEDUCED (log entry 82). -/
def State.launchHears (s : State) (l : Option Nat) (v : View) : State :=
  match l with
  | none => s
  | some k => s.putView (k + 1) ((s.jobView (k + 1)).join v)

/-- Withdraws a group's arrival from the rendezvous latches of its cell (12 R293). -/
def CellSt.withdraw (c : CellSt) (uid : Nat) : CellSt :=
  { c with rdv := c.rdv.filterMap fun x =>
      let ms := x.2.members.filter fun m => m.uid != uid
      if ms.isEmpty then none else some (x.1, { x.2 with members := ms }) }

/-- A group's arrival in an open rendezvous is withdrawn: its flag falls (12 R293). -/
def State.withdrawArrival (s : State) (u : Nat) (g : Group) : State :=
  match s.cell? g.cell with
  | none => s
  | some c =>
    match c.rdv.findSome? fun x => x.2.members.find? fun m => m.uid == g.uid with
    | none => s
    | some m =>
      let s := s.putCell g.cell (c.withdraw g.uid)
      match m.tok with
      | some t => s.onGroup u g.uid fun g => g.dropTok t
      | none => s

/-- A group leaves the cell for good: it counts as arrived in every phase (18 R359), and the cell ends with its last
group. -/
def State.leaveCell (s : State) (k i uid : Nat) : State :=
  match s.cell? k with
  | none => s
  | some c =>
    let c := (c.withdraw uid)
    let c := { c with exited := c.exited ||| groupBit i }
    if c.exited = c.all then { s with cells := adel s.cells k }
    else (List.range 9).foldl (fun s b => s.openPhase k b) (s.putCell k c)

/-- The refused saves of the joiners that pass a test are to be tried again (03 R68). -/
def State.retryJoins (s : State) (p : Nat → Group → Bool) : State :=
  { s with joinTries := s.joinTries.map fun t => (t.1, t.2 || s.groups.any fun x => x.2.uid == t.1 && p x.1 x.2) }

/-- A save slot of a context has become free. -/
def State.saveFreed (s : State) (c : Nat) : State := s.retryJoins fun _ g => g.ctx == c

/-- A group frees its slot and counts as exited (05 R135, 21 R395): an exit is a release at core scope (17 R345). -/
def State.leave (s : State) (u : Nat) (ended : Bool) : State :=
  match s.group? u with
  | none => s
  | some g =>
    let exit := if ended then none else some (g.seqNo, s.relOf u g 4 false s.uid)
    let s := if ended then s else s.launchHears g.launch (s.viewOf g false s.uid)
    let s := { s with groups := adel s.groups u, joinTries := adel s.joinTries g.uid }
    let s := s.retryJoins fun v _ => coreOf v == coreOf u
    ((s.dropKid g.parent g.uid exit).launchEnd g.launch ended).leaveCell g.cell g.index g.uid

end Sys2Proof.Machine
end

