-- ==== Sys2Proof/Machine/Operands.lean ====
section
/-! DEFINITION. Operands: every source form of spec 04 R86 to R90 and 06 R145, read in a lane, with the two readings of
an immediate (integer and floating-point, R88) and the bit strings of the conversions (08 R205). -/

namespace Sys2Proof.Machine

/-- Thread-local base of a lane (02 R40). -/
def tlBase (u : Nat) (g : Group) (L : Nat) : Dword :=
  g.tlsBase + BitVec.ofNat 64 ((u * 64 + L) * g.tlsb)

/-- The global timer as an issuer reads it: a core through its cluster, which may lie up to 2 ns behind another (23 R422,
R423); a weir engine as the state counts it. -/
def State.timeOf (s : State) (u : Nat) : Nat :=
  if 12288 ≤ u then s.now else s.now - (s.cluster (clusterOf (coreOf u))).lag

/-- A special source as 64 bits (04 R87). -/
def special (s : State) (u : Nat) (g : Group) (L : Nat) : Special → Dword
  | .lane => BitVec.ofNat 64 L
  | .width => 64
  | .logw => 6
  | .widlo => (lowWord (g.wids.getD L 0)).setWidth 64
  | .widhi => (highWord (g.wids.getD L 0)).setWidth 64
  | .cell => g.cellNo
  | .core => BitVec.ofNat 64 (unitCore u)
  | .cluster => BitVec.ofNat 64 (unitCore u / 4)
  | .die => BitVec.ofNat 64 (unitDie u)
  | .time => BitVec.ofNat 64 (s.timeOf u)
  | .group => BitVec.ofNat 64 g.index
  | .slot => BitVec.ofNat 64 (unitSlot u)
  | .lcore => BitVec.ofNat 64 g.lcore
  | .prio => BitVec.ofNat 64 g.prio
  | .tlbase => tlBase u g L
  | .ngroup => BitVec.ofNat 64 g.ngroup

/-- A 32-bit operand of a lane (04 R87, R88, R90). -/
def src32 (s : State) (u : Nat) (g : Group) (L : Nat) : Src → Word
  | .v n => g.vread s.draw n.toNat L
  | .s n => g.sread s.draw n.toNat
  | .b n => lowWord (g.latchOf n L)
  | .lit n => g.litHalf n.toNat
  | .sp k => lowWord (special s u g L k)
  | .imm i => i.signExtend 32

/-- A 64-bit operand of a lane (04 R87, R88, R90). -/
def src64 (s : State) (u : Nat) (g : Group) (L : Nat) : Src → Dword
  | .v n => pairOf (g.vread s.draw n.toNat L) (g.vread s.draw (n.toNat + 1) L)
  | .s n => pairOf (g.sread s.draw n.toNat) (g.sread s.draw (n.toNat + 1))
  | .b n => g.latchOf n L
  | .lit n => pairOf (g.litHalf n.toNat) (g.litHalf (n.toNat + 1))
  | .sp k => special s u g L k
  | .imm i => i.signExtend 64

/-- Operand B in format V or I, sign-extended to 32 bits (06 R148). -/
def srcI32 (s : State) (u : Nat) (g : Group) (L : Nat) : SrcI → Word
  | .src x => src32 s u g L x
  | .imm i => i.signExtend 32

/-- Operand B in format V or I, sign-extended to 64 bits. -/
def srcI64 (s : State) (u : Nat) (g : Group) (L : Nat) : SrcI → Dword
  | .src x => src64 s u g L x
  | .imm i => i.signExtend 64

/-- An integer as an FP32 code: the exact value that an immediate selector gives (04 R88). -/
def immF32 (i : BitVec 8) : Word := (toF32 .rne (ofInt i.toInt)).1

/-- An integer as a 16-bit code in both elements (04 R88, 08 R202). -/
def immHalf (F : Fmt) (i : BitVec 8) : Word :=
  let c := (roundTo F .rne (ofInt i.toInt)).1
  BitVec.ofNat 32 (c + 65536 * c)

/-- An FP32 operand of a lane (08 R193). -/
def srcF32 (s : State) (u : Nat) (g : Group) (L : Nat) : Src → Word
  | .imm i => immF32 i
  | x => src32 s u g L x

/-- An FP32 operand B in format V or I: IMM20 gives bits [31:12] (08 R193). -/
def srcIF32 (s : State) (u : Nat) (g : Group) (L : Nat) : SrcI → Word
  | .src x => srcF32 s u g L x
  | .imm i => i ++ (0#12)

/-- A packed-half operand of a lane (08 R202). -/
def srcHalf (F : Fmt) (s : State) (u : Nat) (g : Group) (L : Nat) : Src → Word
  | .imm i => immHalf F i
  | x => src32 s u g L x

/-- A scalar operand: the value in the lowest active lane where it differs by lane (06 R145). -/
def scalar32 (s : State) (u : Nat) (g : Group) (act : Lanes) (x : Src) : Word := src32 s u g (lowest act) x

/-- A 64-bit scalar operand. -/
def scalar64 (s : State) (u : Nat) (g : Group) (act : Lanes) (x : Src) : Dword := src64 s u g (lowest act) x

end Sys2Proof.Machine
end

