-- ==== Sys2Proof/Machine/Ops.lean ====
section
/-! DEFINITION. Taking a trap, its delivery and the return from it (spec 21 R388 to R395, R406), one operation each,
and the issue of an instruction (05 R116, R118; 04 R92 to R94), which every meaning goes through. -/

namespace Sys2Proof.Machine

/-! ### Causes (21 R388) -/

def causeFetch : Nat := 1
def causeIllegal : Nat := 2
def causePrivileged : Nat := 3
def causeRange : Nat := 4
def causeStale : Nat := 5
def causeTarget : Nat := 6
def causeDepth : Nat := 7
def causeUnderflow : Nat := 8
def causeSoftware : Nat := 9
def causeArith : Nat := 10
def causeForm : Nat := 11
def causeAlign : Nat := 12
def causeBasin : Nat := 13
def causeTls : Nat := 14
def causeCancel : Nat := 15
def causePhys : Nat := 16
def causePoison : Nat := 17
def causeOverflow : Nat := 18
def causeGang : Nat := 19
def causeBus : Nat := 20
def causeHandle : Nat := 21
def causeTile : Nat := 22
def causeOperand : Nat := 23
def causeRecord : Nat := 24
def causeAccIndex : Nat := 25
def causeObRange : Nat := 26
def causeRetention : Nat := 27
def causeState : Nat := 28
def causeDouble : Nat := 29
def causeHalt : Nat := 30

/-- Fatal causes (21 R388). -/
def fatalCause (c : Nat) : Bool := c == 15 || decide (27 ≤ c)

/-- A lane that stays pending when a trap is delivered, and in a save: parked, or an LDB.w wait (21 R389, R396). -/
def LaneSt.stays : LaneSt → Bool
  | .parked _ | .full _ => true
  | _ => false

/-- A pending instruction whose result must land first: one of kind A that is not waiting on parked lanes or LDB.w
waits alone (21 R389). -/
def Pend.blocks (p : Pend) : Bool :=
  p.ins.kind == .async && (p.lanes.isEmpty || p.lanes.any fun l => !l.st.stays)

/-- Every in-flight result has landed, parked lanes and LDB.w waits apart (21 R389). -/
def Group.settled (g : Group) : Bool := g.pend.all fun p => !p.blocks

/-- DATA of a trap event record (24 R427). -/
def trapData (u : Nat) (ctx : Nat) (r : TrapRec) : Nat :=
  r.addr.toNat + 2 ^ 64 * r.cause + 2 ^ 72 * r.idx + 2 ^ 76 * unitSlot u + 2 ^ 88 * ctx + 2 ^ 96 * (r.info.toNat % 2 ^ 32)

/-- A fatal trap, or one that is not delivered, ends the group (21 R395). -/
def State.endGroup (s : State) (u : Nat) (r : TrapRec) : State :=
  match s.group? u with
  | none => s
  | some g => (s.leave u true).logCtx g.ctx (srcUnit u) 0x06 (trapData u g.ctx r)

/-- The handler's entry (21 R394). -/
def Group.enter (g : Group) (base : Dword) (r : TrapRec) : Group :=
  let a := base + BitVec.ofNat 64 (0x40 * r.cause)
  let idx := (g.resume.map (·.1)).getD 0
  let half := (g.resume.map (·.2)).getD false
  let pcs := g.pc.map fun x => (x.1, a)
  { g with
    shadow := some (⟨g.pc, idx, half⟩, r)
    taddr := r.addr
    intrap := true
    pc := pcs
    region := ⟨pcs, 0, false⟩
    resume := none
    taking := none }

/-- Delivers the trap that a group has taken (21 R394, R395): to TVEC base + 0x40 × cause, or the group ends. -/
def State.deliver (s : State) (u : Nat) (r : TrapRec) : State :=
  match s.group? u with
  | none => s
  | some g =>
    let tvec := s.reg (.tvec g.ctx)
    if fatalCause r.cause then s.endGroup u r
    else if g.intrap then s.endGroup u { r with cause := causeDouble, info := BitVec.ofNat 64 r.cause }
    else if tvec.getLsbD 0 = false then s.endGroup u r
    else s.putGroup u (g.enter (BitVec.ofNat 64 (bits tvec 55 12 * 4096)) r)

/-- Takes a trap (21 R389): the open region is discarded, the PC table restored, the record kept, and an arrival in a
rendezvous withdrawn; delivered at once if nothing is in flight. A trap of an engine program waits for the engine (14
R321). -/
def State.takeTrap (s : State) (u : Nat) (r : TrapRec) : State :=
  match s.group? u with
  | none => s
  | some g =>
    if g.isEngine then s.putGroup u { g with clause := none, taking := some r }
    else
      let s := s.withdrawArrival u g
      match s.group? u with
      | none => s
      | some g =>
        let g := { g.restart with taking := some r, wait := .no }
        let s := s.putGroup u g
        if g.settled || fatalCause r.cause then s.deliver u r else s

/-- The record of a trap at the instruction that issues (21 R389). -/
def Group.trapRec (g : Group) (cause : Nat) (info : Dword) (act : Lanes) : TrapRec :=
  ⟨cause, g.clauseAddr, g.clauseIdx, info, act⟩

/-- Takes a trap at the instruction that issues. -/
def State.trapAt (s : State) (u cause : Nat) (info : Dword) (act : Lanes) : State :=
  match s.group? u with
  | none => s
  | some g => s.takeTrap u (g.trapRec cause info act)

/-- The shadow with TADDR moved: every lane that it held at TADDR resumes at the new address, index 0 (21 R403). -/
def Group.moveTaddr (g : Group) (a : Dword) : Group :=
  match g.intrap, g.shadow with
  | true, some (rg, r) =>
    if rg.pcs.any fun x => x.2 == r.addr then
      let pcs := rg.pcs.map fun x => if x.2 = r.addr then (x.1, a) else x
      { g with taddr := a, shadow := some (⟨pcs, 0, false⟩, { r with addr := a }) }
    else { g with taddr := a, shadow := some (rg, { r with addr := a }) }
  | _, _ => { g with taddr := a }

/-- The return of RETT (21 R406), after the handler's region has committed. -/
def Group.returnTrap (g : Group) : Group :=
  match g.shadow with
  | none => g
  | some (rg, _) =>
    { g with
      pc := rg.pcs
      region := rg
      resume := if rg.index = 0 ∧ rg.half = false then none else some (rg.index, rg.half)
      intrap := false
      clause := none
      latch := []
      latchOk := 0
      readyAt := none
      urgent := false }

/-! ### The issue of an instruction -/

/-- Issues an instruction of the issuer `cur`. An instruction whose flag stands at 63 waits (05 R118). -/
def issue (h : Head) (s : State) (f : Nat → Group → Lanes → State) : Host.Outcome State Fault Refusal :=
  match s.group? s.cur with
  | none => .fault .noIssuer
  | some g =>
    if g.clause.isNone then .fault .noIssuer
    else if h.setf.toNat ≤ 11 ∧ g.flag h.setf.toNat = 63 ∧ g.active h ≠ 0 then .next s
    else .next (f s.cur g (g.active h))

/-- Stores a group that has executed its instruction, moved to the next one. -/
def State.finish (s : State) (u : Nat) (g : Group) : State := (s.putGroup u g.advance).drawn

/-- A vector result of kind F: `f` gives a lane's result and the LSTAT bits it sets (04 R92, R94; 06 R147). -/
def vecF (h : Head) (d : Nat) (wide : Bool) (s : State) (f : Nat → Group → Nat → Dword × Word) :
    Host.Outcome State Fault Refusal :=
  issue h s fun u g act =>
    let r := (lanesList act).map fun L => (L, f u g L)
    s.finish u ((g.writeVec h d wide (r.map fun x => (x.1, x.2.1))).orLstats (r.map fun x => (x.1, x.2.2)))

/-- A scalar result of kind F, computed in the lowest active lane; LSTAT bits go to every active lane (04 R93, R94; 06
R145, R147). With no lane active it has no effect, but its latch is no longer stale (R95; log entry 28). -/
def scaF (h : Head) (d : Nat) (wide : Bool) (s : State) (f : Nat → Group → Nat → Dword × Word) :
    Host.Outcome State Fault Refusal :=
  issue h s fun u g act =>
    if act = 0 then s.finish u (g.openLatch h.lat s.draw)
    else
      let r := f u g (lowest act)
      s.finish u ((g.writeSca h d wide r.1).orLstats ((lanesList act).map fun L => (L, r.2)))

/-- A form that is vector or scalar by FN[3] (06 R145). -/
def formF (h : Head) (sc : Bool) (d : BitVec 9) (wide : Bool) (s : State) (f : Nat → Group → Nat → Dword × Word) :
    Host.Outcome State Fault Refusal :=
  if sc then scaF h d.toNat wide s f else vecF h d.toNat wide s f

/-- A 32-bit result without LSTAT bits. -/
def plain (x : Word) : Dword × Word := (x.setWidth 64, 0)

/-- A 32-bit result with LSTAT bits. -/
def withBits (x : Word × Word) : Dword × Word := (x.1.setWidth 64, x.2)

/-- A predicate result of kind F: `f` gives the lanes in which it is true (04 R92, R94). -/
def predF (h : Head) (d : BitVec 3) (s : State) (f : Nat → Group → Lanes → Lanes) : Host.Outcome State Fault Refusal :=
  issue h s fun u g act => s.finish u (g.writePred h act d (f u g act))

/-- An instruction without a register result that acts when a lane is active. -/
def effect (h : Head) (s : State) (f : Nat → Group → Lanes → State) : Host.Outcome State Fault Refusal :=
  issue h s fun u g act => if act = 0 then s.finish u g else f u g act

end Sys2Proof.Machine
end

