-- ==== Sys2Proof/Machine/Translate.lean ====
section
/-! DEFINITION. Translation: the two-stage walk (spec 21 R376 to R380), the TLBs (R381), and page requests (R382 to
R385). -/

namespace Sys2Proof.Machine

/-! ### Kinds of access (21 R382) -/

def accLoad : Nat := 0
def accStore : Nat := 1
def accAtomic : Nat := 2
def accFetch : Nat := 3
def accEngRead : Nat := 4
def accEngWrite : Nat := 5

/-- The permissions that an access needs (21 R378). -/
structure Perm where
  r : Bool
  w : Bool
  x : Bool
  deriving DecidableEq, Repr

/-- What each kind of access needs. -/
def accPerm (acc : Nat) : Perm :=
  match acc with
  | 0 | 4 => ⟨true, false, false⟩
  | 1 | 5 => ⟨false, true, false⟩
  | 2 => ⟨true, true, false⟩
  | _ => ⟨false, false, true⟩

/-! ### Table entries (21 R376, R377) -/

/-- The lowest bit and the number of bits of a level's index. -/
def levelShift (l : Nat) : Nat := [45, 33, 25, 16].getD l 16
def levelBits (l : Nat) : Nat := [11, 12, 8, 9].getD l 9
/-- The index into a level's table. -/
def levelIndex (l a : Nat) : Nat := a / 2 ^ levelShift l % 2 ^ levelBits l
/-- The alignment of a level's table: its size, or 4 KiB. -/
def tableAlign (l : Nat) : Nat := max 4096 (8 * 2 ^ levelBits l)

def pteValid (w : Dword) : Bool := w.getLsbD 63
def pteLeaf (w : Dword) : Bool := w.getLsbD 62
def pteOrd (w : Dword) : Nat := bits w 61 60
def pteSup (w : Dword) : Bool := w.getLsbD 56
def pteAddr (w : Dword) : Nat := bits w 44 12 * 4096
def ptePerm (w : Dword) : Perm := ⟨w.getLsbD 59, w.getLsbD 58, w.getLsbD 57⟩

/-- An entry is malformed, the place of its table apart (21 R377). -/
def pteMalformed (stage l : Nat) (w : Dword) : Bool :=
  bits w 55 45 != 0 || (stage == 2 && pteSup w) ||
  (if pteLeaf w then l == 0 || pteAddr w % 2 ^ levelShift l != 0
    else l == 3 || bits w 61 56 != 0 || pteAddr w % tableAlign (l + 1) != 0)

/-- The first permission that an access needs and an entry withholds (21 R378). -/
def permFail (need has : Perm) : Option Nat :=
  if need.r && !has.r then some 1
  else if need.w && !has.w then some 2
  else if need.x && !has.x then some 3
  else none

/-- The first test of R378 that an entry fails. -/
def pteFail (stage l : Nat) (priv : Bool) (need : Perm) (w : Dword) : Option Nat :=
  if !pteValid w then some 0
  else if pteMalformed stage l w then some 5
  else if !pteLeaf w then none
  else if pteOrd w = 3 then some 6
  else if pteSup w && !priv then some 4
  else permFail need (ptePerm w)

/-! ### Walks -/

/-- The page kind of an ORD code (09 R223). -/
def kindOf (ord : Nat) : PageKind :=
  match ord with
  | 0 => .c
  | 1 => .s
  | _ => .u

/-- The effective kind of two stages (21 R379). -/
def kindMeet (a b : PageKind) : PageKind :=
  if a = .s ∨ b = .s then .s else if a = .c ∨ b = .c then .c else .u

/-- Outcome of a walk: the physical base of the 64 KiB region, or a translation fault with STAGE, LEVEL, REASON and
ADDR (21 R378, R379, R382). -/
inductive Walk where
  | ok (base : Nat) (kind : PageKind) (perm : Perm) (sup : Bool) (leaves gpas : List Nat)
  | fault (stage level reason addr : Nat)
  deriving DecidableEq, Repr

/-- The bits of an address within a 64 KiB region cleared. -/
def region64 (a : Nat) : Nat := a / 65536 * 65536

/-- The base of the 64 KiB region that a leaf maps an address to. -/
def leafBase (l a : Nat) (w : Dword) : Nat := pteAddr w + region64 (a % 2 ^ levelShift l)

/-- The stage-2 walk of a guest-physical address from a table at the level that heads the list (21 R376 to R379). -/
def State.walk2 (s : State) (gpa : Nat) (need : Perm) : List Nat → Nat → Walk
  | [], _ => .fault 2 3 5 (region64 gpa)
  | l :: ls, table =>
    let ea := table + 8 * levelIndex l gpa
    let w := s.word64 ea
    match pteFail 2 l true need w with
    | some r => .fault 2 l r (region64 gpa)
    | none =>
      if pteLeaf w then .ok (leafBase l gpa w) (kindOf (pteOrd w)) (ptePerm w) false [ea] [gpa / 65536]
      else if !inHbm (pteAddr w) then .fault 2 l 5 (region64 gpa)
      else s.walk2 gpa need ls (pteAddr w)

/-- Stage 2 of a context, whose input is a guest-physical address of 45 bits (21 R376): the identity where GUEST = 0 (R379,
R380). -/
def State.stage2 (s : State) (ctx gpa : Nat) (need : Perm) : Walk :=
  if s.ctxGuest ctx then
    let gpa := gpa % 2 ^ 45
    let root := bits (s.reg (.ttb2 ctx)) 55 14 * 16384
    if !inHbm root then .fault 2 0 5 (region64 gpa) else s.walk2 gpa need [0, 1, 2, 3] root
  else .ok (region64 gpa) .u ⟨true, true, true⟩ false [] []

/-- The stage-1 walk from a table whose guest-physical address is `table`; `from_` is the level of the entry that named
it, 0 for the root (21 R376 to R380). -/
def State.walk1 (s : State) (ctx va : Nat) (need : Perm) (priv : Bool) (leaves gpas : List Nat) :
    List Nat → Nat → Nat → Walk
  | [], _, from_ => .fault 1 from_ 5 (region64 va)
  | l :: ls, from_, table =>
    match s.stage2 ctx table ⟨true, false, false⟩ with
    | .fault st lv r a => .fault st lv r a
    | .ok base _ _ _ lv2 gp2 =>
      let tpa := base + table % 65536
      if !inHbm tpa then .fault 1 from_ 5 (region64 va)
      else
        let ea := tpa + 8 * levelIndex l va
        let w := s.word64 ea
        match pteFail 1 l priv need w with
        | some r => .fault 1 l r (region64 va)
        | none =>
          if pteLeaf w then
            match s.stage2 ctx (leafBase l va w) need with
            | .fault st lv r a => .fault st lv r a
            | .ok base2 k2 p2 _ lv3 gp3 =>
              let p := ptePerm w
              .ok base2 (kindMeet (kindOf (pteOrd w)) k2) ⟨p.r && p2.r, p.w && p2.w, p.x && p2.x⟩ (pteSup w)
                (ea :: lv3 ++ lv2 ++ leaves) (gp3 ++ gp2 ++ gpas)
          else s.walk1 ctx va need priv (lv2 ++ leaves) (gp2 ++ gpas) ls l (pteAddr w)

/-- A complete walk of a virtual address (21 R376 to R380). -/
def State.walk (s : State) (ctx va : Nat) (acc : Nat) (priv : Bool) : Walk :=
  s.walk1 ctx va (accPerm acc) priv [] [] [0, 1, 2, 3] 0 (bits (s.reg (.ttb1 ctx)) 55 14 * 16384)

/-! ### TLBs (21 R381) -/

/-- A held translation permits an access. -/
def TlbEntry.permits (e : TlbEntry) (ctx region acc : Nat) (priv : Bool) : Bool :=
  let need := accPerm acc
  e.ctx == ctx && e.region == region && (priv || !e.sup) && (permFail need ⟨e.r, e.w, e.x⟩).isNone

/-- Where a frame's bytes are: in a basin while the frame belongs to an object that its tier agent holds there (11 R279,
R281): DEDUCED (log entry 21). -/
def State.tierMap (s : State) (pa : Nat) : Nat :=
  match s.objects.find? fun o =>
      (o.st == .basin || o.st == .demoting) && decide (o.hpa ≤ pa) && decide (pa < o.hpa + o.size) with
  | some o => windowBase o.die + o.off + (pa - o.hpa)
  | none => pa

/-- A walk's outcome with the frame where its bytes are. -/
def State.placed (s : State) : Walk → Walk
  | .ok base kind p sup leaves gpas => .ok (s.tierMap base) kind p sup leaves gpas
  | w => w

/-- Translates the region of an address: by a translation that a TLB may hold, or by a walk; which of them, while
both exist, is left open until TLBINV (21 R381). -/
def State.translate (s : State) (ctx va acc : Nat) (priv : Bool) : Walk :=
  let region := va / 65536
  let held := s.tlb.filter fun e => e.permits ctx region acc priv
  let ns := (List.range held.length).zip held
  match ns.find? fun x => Config.pick s.draw (region * 8 + x.1) with
  | some (_, e) => s.placed (.ok e.base e.kind ⟨e.r, e.w, e.x⟩ e.sup e.leaves e.gpas)
  | none => s.placed (s.walk ctx va acc priv)

/-- The first access to an object in BASIN in a 1 µs interval sets its age (11 R278). -/
def Object.touched (now pa : Nat) (o : Object) : Object :=
  let b := windowBase o.die + o.off
  if o.st = .basin ∧ b ≤ pa ∧ pa < b + o.size ∧ o.sampled ≠ now / 1000 + 1 then
    { o with age := now, sampled := now / 1000 + 1, due := true }
  else o

/-- An access through a translation reaches a physical address. -/
def State.touch (s : State) (pa : Nat) : State := { s with objects := s.objects.map (Object.touched s.now pa) }

/-- An agent's access reaches some pieces. -/
def State.touchAll (s : State) (ps : List Piece) : State := ps.foldl (fun s p => if p.glob then s else s.touch p.pa) s

/-- A TLB takes a translation that a walk made, for an access that uses it. -/
def State.tlbFill (s : State) (ctx va : Nat) : Walk → State
  | .fault .. => s
  | .ok base kind p sup leaves gpas =>
    let e : TlbEntry := ⟨ctx, va / 65536, base, kind, p.r, p.w, p.x, sup, leaves, gpas⟩
    let s := s.touch base
    if s.tlb.elem e then s else { s with tlb := s.tlb ++ [e] }

/-- The physical address of a translated address. -/
def physOf (base va : Nat) : Nat := base + va % 65536

/-! ### Page requests (21 R383) -/

/-- A function's tags in use. -/
def State.tagsOf (s : State) (f : Nat) : List Nat := (s.requests.filter fun q => q.fn == f).filterMap (·.tag)

/-- The lowest number below a bound that is not in a list. -/
def lowestFree (used : List Nat) (bound : Nat) : Option Nat :=
  let n := min bound (used.length + 1)
  (List.range n).find? fun t => !used.elem t

/-- Gives a function's oldest request without a tag the lowest free one (21 R383). -/
def State.assignTag (s : State) (f : Nat) : State :=
  match lowestFree (s.tagsOf f) Config.requestTags with
  | none => s
  | some t =>
    { s with requests := modifyFirst (fun q => q.fn == f && q.tag.isNone) (fun q => { q with tag := some t }) s.requests }

/-- Raises a page request for a translation fault, or joins the outstanding one (21 R383); answers its number. -/
def State.raiseRequest (s : State) (ctx stage level reason addr acc : Nat) : State × Nat :=
  let fn := if stage = 2 then s.ctxHypFn ctx else s.ctxFn ctx
  let region := addr / 65536
  match s.requests.find? fun q => q.ctx == ctx && q.stage == stage && q.fn == fn && q.region == region with
  | some q => (s, q.id)
  | none =>
    let q : PageReq := ⟨s.uid, ctx, stage, fn, s.ctxFn ctx, region, level, reason, acc, none, false⟩
    (State.assignTag { s with uid := s.uid + 1, requests := s.requests ++ [q] } fn, q.id)

/-- Raises or joins a request for each of some faults, (stage, level, reason, address), in their order. -/
def State.raiseIn (s : State) (ctx acc : Nat) : List (Nat × Nat × Nat × Nat) → State × List Nat
  | [] => (s, [])
  | (st, l, r, a) :: t =>
    let x := s.raiseRequest ctx st l r a acc
    let y := State.raiseIn x.1 ctx acc t
    (y.1, sput y.2 x.2)

/-- The same in the order in which their walks end, which is open (21 R383). -/
def State.raiseAll (s : State) (ctx acc : Nat) (l : List (Nat × Nat × Nat × Nat)) : State × List Nat :=
  s.raiseIn ctx acc (sortBy (fun f => Config.walkEnd s.draw (f.2.2.2 / 65536)) l)

/-- A request is outstanding. -/
def State.outstanding (s : State) (id : Nat) : Bool := s.requests.any fun q => q.id == id

/-- Supervisor privilege of a group (21 R375). -/
def State.groupPriv (s : State) (g : Group) : Bool := s.ctxSup g.ctx || g.intrap

end Sys2Proof.Machine
end

