-- ==== Sys2Proof/Machine/Killing.lean ====
section
/-! DEFINITION. What a kill discards (spec 21 R399 steps 1 to 5). -/

namespace Sys2Proof.Machine

/-- A key's value passes a test. -/
def afilter {α : Type} (t : Assoc α) (p : α → Bool) : Assoc α := t.filter fun x => p x.2

/-- The launches of a context. -/
def State.launchesOf (s : State) (c : Nat) : List Nat := (s.launches.filter fun x => x.2.ctx == c).map (·.1)

/-- The stacks whose weir engine runs a program of a context. -/
def State.enginesOf (s : State) (c : Nat) : List Nat :=
  (List.range 16).filter fun k =>
    match s.group? (engineUnit k) with
    | some g => g.ctx == c
    | none => false

/-- A core without the work of a context and of some launches: bus subscriptions, bus steps and started operations are
abandoned, those too whose cell has ended or been saved (12 R308), and overflow lists go with their launch. -/
def CoreSt.abandon (x : CoreSt) (ctx : Nat) (launches : List Nat) : CoreSt :=
  { x with
    rings := x.rings.filter fun r => !launches.elem r.1
    bus := x.bus.filter fun b => b.ctx != ctx
    steps := x.steps.filter fun b => b.ctx != ctx
    ops := x.ops.filter fun o => o.ctx != ctx }

/-- The watcher is a slot of the context, or a launch of it. -/
def State.slotOf (s : State) (c : Nat) : Watcher → Bool
  | .slot d o =>
    match aget s.slots (d * 2 ^ 28 + o) with
    | some r => r.ctx == c
    | none => false
  | .dep l _ =>
    match aget s.launches l with
    | some x => x.ctx == c
    | none => false
  | .publish _ _ | .far _ _ => false

/-- Groups, saved cells and launches of a context are discarded (21 R399 steps 1 and 2). -/
def State.killGroups (s : State) (c : Nat) : State :=
  let ls := s.launchesOf c
  { s with
    cores := s.cores.map fun x => (x.1, x.2.abandon c ls)
    groups := afilter s.groups fun g => g.ctx != c
    cells := afilter s.cells fun k => k.ctx != c
    saved := s.saved.filter fun i => i.ctx != c
    launches := afilter s.launches fun l => l.ctx != c }

/-- Engine programs, route jobs, copies and cards of a context stop (21 R399 step 3). -/
def State.killWork (s : State) (c : Nat) : State :=
  let es := s.enginesOf c
  { s with
    engines := s.engines.filter fun x => !es.elem x.1
    routeJobs := s.routeJobs.filter fun j => j.ctx != c
    copies := s.copies.filter fun x => x.ctx != c
    copyms := s.copyms.filter fun x => x.ctx != c
    copymOps := s.copymOps.filter fun x => x.members.all fun m => m.ctx != c
    tierReqs := s.tierReqs.filter fun x => x.ctx != c
    cards := s.cards.filter fun x => x.ctx != c
    owed := s.owed.filter fun x => x.ctx != c }

/-- Subscriptions of a context, and pushes toward its slots, are removed, and those of its launches' dependences (21 R399
steps 1 and 4, 09 R236). -/
def State.killSubs (s : State) (c : Nat) : State :=
  { s with
    pushes := s.pushes.filter fun p => !s.slotOf c p.who
    subs := s.subs.filterMap fun x =>
      let l := x.2.filter fun b => !(s.slotOf c b.who)
      if l.isEmpty then none else some (x.1, l)
    farSubs := s.farSubs.filter fun b => b.ctx != c
    subReqs := s.subReqs.filter fun r => r.ctx != c
    slots := afilter s.slots fun r => r.ctx != c }

/-- The outstanding requests of a context are freed, and their tags go to requests that wait for one (21 R399 step 5). -/
def State.killRequests (s : State) (c : Nat) : State :=
  let gone := s.requests.filter fun q => q.ctx == c && q.tag.isSome
  gone.foldl (fun s q => s.assignTag q.fn) { s with requests := s.requests.filter fun q => q.ctx != c }

/-- Steps 1 to 5 of a kill (21 R399). -/
def State.killContext (s : State) (c : Nat) : State :=
  (((s.killWork c).killSubs c).killGroups c).killRequests c

/-- Every write of the context already sent has been acknowledged (21 R399 step 6). -/
def State.quiet (s : State) (c : Nat) : Bool :=
  (s.packets.all fun p => p.ctx != some c) && (s.acks.all fun a => a.ctx != some c) &&
  (s.globals.all fun g => g.ctx != some c)

end Sys2Proof.Machine
end

