-- ==== Sys2Proof/Machine/Registers.lean ====
section
/-! DEFINITION. Writes and reads of the device registers (spec 01 R24 to R27; 03 R51 to R54; 10 R253 to R258; 11 R277;
18 R361; 21 R374, R382, R386, R390, R396, R399; 23 R414 to R420; 24 R426, R432, R436): who may write each, which bits
it keeps, and what the write does. -/

namespace Sys2Proof.Machine

/-! ### Who may write (01 R27) -/

/-- Firmware runs: its image was verified, and the package is not in safe mode (24 R428, R430). -/
def State.fwRuns (s : State) : Bool := s.fwUp && !s.safeMode

/-- Firmware or Bilael. Firmware writes only while it runs. -/
def State.isFw (s : State) : Agent → Bool
  | .fw => s.fwRuns
  | .bilael => true
  | _ => false

/-- The physical function, or a device access that counts as it. -/
def isPf : Agent → Bool
  | .pf => true
  | .dev fn => fn == 32
  | _ => false

/-- An agent reaches a register at all: a virtual function sees its own blocks alone (01 R27). -/
def State.reaches (s : State) : Agent → Reg → Bool
  | .vf f, .ctxctl c | .vf f, .ttb1 c | .vf f, .ttb2 c | .vf f, .tvec c | .vf f, .savebase c | .vf f, .savectl c
  | .vf f, .preempt c | .vf f, .bkres c | .vf f, .kill c | .vf f, .ctxstat c | .vf f, .eacct c => s.ctxFn c == f
  | .vf f, .partid p | .vf f, .llcx p _ | .vf f, .miggo p | .vf f, .housee p | .vf f, .evqbase p | .vf f, .evqctl p
  | .vf f, .evqhead p | .vf f, .llbase p _ | .vf f, .llctl p _ | .vf f, .llhm p _ | .vf f, .tierpool p _
  | .vf f, .errcnt p _ => s.partOfFn f == some p
  | .vf f, .prqbase g | .vf f, .prqctl g | .vf f, .prqhead g => f == g
  | .vf _, _ => false
  | .fw, _ => s.fwRuns
  | _, _ => true

/-- An agent may write a register. -/
def State.mayWrite (s : State) (a : Agent) (r : Reg) : Bool :=
  s.reaches a r &&
  match r with
  | .gident | .illock | .ilmap _ | .hmap _ | .boost _ | .retctl _ | .lpt _ _ | .slope _ _ | .cbal _ _ | .bsc _
  | .route _ _ => s.isFw a
  | .partcfg _ => (a == .fw && s.isFw a) || isPf a
  | .bmcmd | .bmbuf _ => s.isFw a || isPf a
  | .straps | .patrol | .bmstat | .pool _ | .ctxstat _ | .eacct _ | .partid _ | .housee _ | .errcnt _ _ => false
  | _ => true

/-! ### Interleave (01 R24, R25) -/

/-- The contents of the sets whose class a write changed become undefined. -/
def State.blankSets (old s : State) : State :=
  let ks := (List.range 8).filter fun k => old.setClass k != s.setClass k
  { s with
    mem := s.mem.filter fun c => !(c.1 < hbmEnd && ks.elem (c.1 / 2 ^ 37))
    blankEpoch := ks.foldl (fun t k => aput t k s.uid) s.blankEpoch
    uid := s.uid + 1 }

def State.writeIlmap (s : State) (n : Nat) (x : Dword) : State :=
  if (s.reg .illock).getLsbD 0 then s else s.blankSets (s.setReg (.ilmap n) x)

/-- The bytes that firmware measures of some registers (24 R431): each as eight little-endian bytes. DESIGN CHOICE (log
entry 7): the spec does not give their layout. -/
def State.regBytes (s : State) (l : List Reg) : List Byte := l.flatMap fun r => natLE (s.reg r).toNat 8

/-- Extends a measurement register (24 R431). -/
def State.extendMr (s : State) (i : Nat) (d : BitVec 384) : State :=
  { s with mr := asetD 0 s.mr i (sha384 (natLE (agetD 0 s.mr i).toNat 48 ++ natLE d.toNat 48)) }

/-- ILLOCK (01 R24, R25); firmware extends MR2 when it sets LOCK (24 R431). -/
def State.writeIllock (s : State) (a : Agent) (x : Dword) : State :=
  if (s.reg .illock).getLsbD 0 = true ∨ x.getLsbD 0 = false then s
  else
    let s := s.setReg .illock 1
    if a = .fw then s.extendMr 2 (sha384 (s.regBytes ((List.range 4).map Reg.ilmap))) else s

/-! ### Partitions (03 R51, R52) -/

/-- The fields of PARTCFG that exist. -/
def partMask : Dword := 0xBF00FF

/-- An opening is accepted (03 R52); none happens in safe mode (24 R428). -/
def State.mayOpen (s : State) (p : Nat) (x : Dword) : Bool :=
  let dies := bits x 7 0
  let fn := bits x 21 16
  !s.safeMode && (s.reg .illock).getLsbD 0 && dies != 0 && decide (fn ≤ 32) &&
  (s.openParts.all fun q => q == p || (s.partDies q &&& dies == 0 && s.partFn q != fn)) &&
  ((List.range 8).all fun d => !dies.testBit d || (s.die d).power)

/-- The registers of a partition control block. -/
def partBlock (p : Nat) : List Reg :=
  ((List.range 4).flatMap fun n => [Reg.llcx p n, .llbase p n, .llctl p n, .llhm p n]) ++
  [.miggo p, .housee p, .evqbase p, .evqctl p, .evqhead p] ++
  ((List.range 8).flatMap fun d => [Reg.tierpool p d, .errcnt p d])

/-- Whether a watcher belongs to a partition's dispatcher. -/
def State.watcherOf (s : State) (p : Nat) : Watcher → Bool
  | .publish q _ => q == p
  | .dep l _ =>
    match aget s.launches l with
    | some x => x.part == p
    | none => false
  | _ => false

/-- Removes dispatcher subscriptions that a test picks, with their pushes. -/
def State.dropWatch (s : State) (f : Watcher → Bool) : State :=
  { s with
    subs := s.subs.filterMap fun x =>
      let l := x.2.filter fun b => !f b.who
      if l.isEmpty then none else some (x.1, l)
    pushes := s.pushes.filter fun q => !f q.who }

def State.openPart (s : State) (p : Nat) (x : Dword) : State :=
  let s := (partBlock p).foldl (fun s r => s.setReg r r.resetVal) (s.setReg (.partcfg p) (x &&& partMask))
  { s with
    lists := s.lists.filter fun y => y.1 / 4 != p
    energy := adel s.energy (1000 + p)
    timerSet := true }

def State.closePart (s : State) (p : Nat) : State :=
  let s := s.dropWatch (s.watcherOf p)
  let s := s.setReg (.partcfg p) (s.reg (.partcfg p) &&& 0x3F00FF)
  { s with
    launches := afilter s.launches fun l => l.part != p
    moves := s.moves.filter fun m => m.part != p
    tierReqs := s.tierReqs.filter fun r => r.part != p
    objects := s.objects.filter fun o => o.part != p }

/-- PARTCFG (03 R52). -/
def State.writePartcfg (s : State) (p : Nat) (x : Dword) : State :=
  if s.partOpen p then
    if x.getLsbD 23 then s
    else if (List.range 256).any fun c => s.ctxFn c == s.partFn p && s.ctxEn c then s
    else s.closePart p
  else if x.getLsbD 23 then (if s.mayOpen p x then s.openPart p x else s)
  else s.setReg (.partcfg p) (x &&& partMask)

/-! ### Launch lists (03 R54) -/

/-- A LOGN field taken as 6 outside its range. -/
def logn (x hi : Nat) : Nat := if 6 ≤ x ∧ x ≤ hi then x else 6

def State.writeLlctl (s : State) (p n : Nat) (x : Dword) : State :=
  let old := s.reg (.llctl p n)
  let drop := s.dropWatch fun w => w == .publish p n
  if old.getLsbD 0 then
    if x.getLsbD 0 then s else drop.setReg (.llctl p n) (setBits old 0 0 0)
  else
    let s := s.setReg (.llctl p n) (BitVec.ofNat 64 (2 * logn (bits x 5 1) 16 + bits x 0 0 +
      (if x.getLsbD 0 then 0 else bits old 63 32 * 2 ^ 32)))
    if x.getLsbD 0 then { s with lists := adel s.lists (4 * p + n) } else s

/-- LLBASE or LLHM: ignored while EN is 1 (03 R54). -/
def State.writeLl (s : State) (p n : Nat) (r : Reg) (x : Dword) : State :=
  if (s.reg (.llctl p n)).getLsbD 0 then s else s.setReg r x

/-! ### Queues (21 R382, 24 R426) -/

/-- A ring lies wholly in HBM. -/
def ringOk (base n : Nat) : Bool := base + 32 * 2 ^ n ≤ hbmEnd

/-- A queue's control register, with its base. -/
def State.writeQueue (s : State) (ctl base : Reg) (hi hibit : Nat) (x : Dword) : State :=
  let old := s.reg ctl
  let tail := bits old 63 32 * 2 ^ 32
  if old.getLsbD 0 then s.setReg ctl (setBits old 0 0 (bits x 0 0))
  else
    let n := logn (bits x hibit 1) hi
    let en := x.getLsbD 0 && ringOk (s.reg base).toNat n
    s.setReg ctl (BitVec.ofNat 64 (tail + 2 * n + (if en then 1 else 0)))

/-- A queue's base: ignored while EN is 1. -/
def State.writeQbase (s : State) (ctl base : Reg) (x : Dword) : State :=
  if (s.reg ctl).getLsbD 0 then s else s.setReg base (x &&& 0x1FFFFFFFFFE0)

/-! ### Contracts (10 R253, R254) -/

/-- The sum of the four rates of a contract. -/
def rateSum (x : Dword) : Nat := bits x 11 0 + bits x 27 16 + bits x 43 32 + bits x 59 48

/-- The stacks that a source's contract is charged to (10 R254). -/
def chargedTo (src : Nat) : List Nat :=
  let i := src % 0x1000
  match src / 0x1000 with
  | 0 | 8 => if i < 8 then List.range 16 else []
  | 1 => if i < 384 then attachedAll (i / 48) else []
  | 2 => if i < 96 then [i / 6] else []
  | 3 | 4 | 5 => if i < 16 then [i] else []
  | 6 => if i = 0 then [0] else []
  | 7 => if i < 32 then [i / 2] else []
  | _ => []

/-- The contract registers that are written, as (source, value). -/
def State.contracts (s : State) : List (Nat × Dword) :=
  s.regs.filterMap fun x =>
    if regBase + 0x40000 ≤ x.1 ∧ x.1 < regBase + 0xC0000 then some ((x.1 - regBase - 0x40000) / 8, x.2) else none

/-- ADMITTED of a stack (10 R254). -/
def State.admitted (s : State) (stack : Nat) : Nat :=
  (s.contracts.filter fun x => (chargedTo x.1).elem stack).foldl (fun n x => n + rateSum x.2) 0

/-- BSC: refused where it would raise a stack's sum above 1,024 (10 R254). -/
def State.writeBsc (s : State) (src : Nat) (x : Dword) : State :=
  let old := s.reg (.bsc src)
  let over_ := (chargedTo src).filter fun k =>
    decide (1024 < s.admitted k - rateSum old + rateSum x) && decide (rateSum old < rateSum x)
  if over_.isEmpty then
    let s := s.setReg (.bsc src) x
    { s with buckets := s.buckets.filter fun b => b.1 / 4 != src }
  else over_.foldl (fun s k => s.setReg (.bsstat k) 1) s

/-! ### Contexts (21 R374, R396, R399; 24 R425) -/

/-- Something of the context exists that keeps EN set (24 R425). -/
def State.ctxBusy (s : State) (c : Nat) : Bool :=
  (s.groups.any fun x => x.2.ctx == c) || (s.saved.any fun i => i.ctx == c) || (s.cards.any fun x => x.ctx == c) ||
  (s.slots.any fun x => x.2.ctx == c)

/-- The new CTXCTL (21 R374); a virtual function changes EN and BPEN alone (01 R27). -/
def ctxctlNew (old x : Dword) (vf : Bool) : Dword :=
  let y := setBits (setBits old 0 0 (bits x 0 0)) 2 2 (bits x 2 2)
  if vf then y
  else
    let y := setBits (setBits y 1 1 (bits x 1 1)) 4 4 (bits x 4 4)
    if old.getLsbD 0 then y
    else
      let y := setBits y 3 3 (bits x 3 3)
      let y := if bits x 23 16 ≤ 32 then setBits y 23 16 (bits x 23 16) else y
      if bits x 31 24 ≤ 32 then setBits y 31 24 (bits x 31 24) else y

/-- CTXCTL. DESIGN CHOICE (log entry 8): setting EN clears what an earlier kill or pre-emption left in CTXSTAT. -/
def State.writeCtxctl (s : State) (a : Agent) (c : Nat) (x : Dword) : State :=
  let old := s.reg (.ctxctl c)
  let vf := match a with
    | .vf _ => true
    | _ => false
  if old.getLsbD 0 = true ∧ x.getLsbD 0 = false ∧ s.ctxBusy c = true then s
  else
    let s := s.setReg (.ctxctl c) (ctxctlNew old x vf)
    if old.getLsbD 0 = false ∧ x.getLsbD 0 = true then
      { (s.setReg (.ctxstat c) 0).setReg (.preempt c) 0 with energy := adel s.energy c }
    else s

/-- TTB1 and TTB2: ignored while EN is 1 (21 R374). -/
def State.writeTtb (s : State) (c : Nat) (r : Reg) (x : Dword) : State :=
  if s.ctxEn c then s else s.setReg r (x &&& 0xFFFFFFFFFFC000)

/-- PREEMPT (21 R396): bit 0 asks every resident cell to be saved, bit 1 returns the saved cells. -/
def State.writePreempt (s : State) (c : Nat) (x : Dword) : State :=
  let s :=
    if x.getLsbD 0 then
      { s.setReg (.preempt c) 1 with
        cells := s.cells.map fun k => (k.1, { k.2 with wantSave := k.2.wantSave || k.2.ctx == c }) }
    else s
  if x.getLsbD 1 then
    { s.setReg (.preempt c) 0 with
      saved := s.saved.map fun i =>
        if i.ctx == c && i.joiner.isNone && i.go.isNone then { i with go := some s.now } else i }
  else s

/-- BKRES (21 R390): resumes the group halted at a breakpoint in the named slot. -/
def State.writeBkres (s : State) (c : Nat) (x : Dword) : State :=
  let u := unitOf (bits x 13 11 * 48 + bits x 10 5) (bits x 4 0)
  match s.group? u with
  | none => s
  | some g =>
    if 48 ≤ bits x 10 5 then s
    else if g.ctx = c ∧ g.wait = .halted then s.putGroup u { g.advance with wait := .no }
    else s

/-- KILL (21 R399): sets KILLING and performs steps 1 to 5. -/
def State.writeKill (s : State) (c : Nat) (x : Dword) : State :=
  if x.getLsbD 0 = true ∧ (s.reg (.ctxstat c)).getLsbD 0 = false then
    (s.setReg (.ctxstat c) (setBits (s.reg (.ctxstat c)) 0 0 1)).killContext c
  else s

/-- The cells of a context saved, and whether every cell is (21 R374). -/
def State.ctxstat (s : State) (c : Nat) : Dword :=
  let n := (s.saved.filter fun i => i.ctx == c && i.cell.isSome).length
  let all := (s.reg (.preempt c)).getLsbD 0 && (s.cells.all fun k => k.2.ctx != c || k.2.core.isNone)
  (s.reg (.ctxstat c) &&& 3) ||| BitVec.ofNat 64 (n % 65536 * 65536 + (if all then 4 else 0))

/-! ### Migration (21 R386) -/

/-- Adds to a 64-bit counter at a physical address, for a device agent; an address that faults discards the addition. -/
def State.addPhys (s : State) (src pa n : Nat) : State :=
  if pa % 8 = 0 ∧ s.physOk pa 8 = true ∧ inRegs pa = false then
    s.devWrite .d src pa (((s.word64 pa).toNat + n) % 2 ^ 64) 8
  else s

/-- The reason for which a migration command is refused (24 R427), 0 for none. DEDUCED (log entry 9): where several
hold, SZ and the reserved field come first, then alignment, then HBM. -/
def migReason (sz resv old new : Nat) : Nat :=
  let n := if sz = 0 then 0x10000 else 0x2000000
  if 1 < sz ∨ resv ≠ 0 then 3
  else if old % n ≠ 0 ∨ new % n ≠ 0 then 1
  else if hbmEnd < old + n ∨ hbmEnd < new + n then 2
  else 0

/-- MIGGO: the migration unit reads the command once and starts the move, or refuses it (21 R386). -/
def State.writeMiggo (s : State) (p : Nat) (x : Dword) : State :=
  let s := s.setReg (.miggo p) x
  let pa := x.toNat
  if s.partOpen p = false ∨ pa % 8 ≠ 0 ∨ rangeInHbm pa 32 = false then s
  else
    let ws := s.words64 pa 4
    let old := field ws 31 0 * 8192
    let new := field ws 63 32 * 8192
    let sz := field ws 83 64
    let r := migReason sz (field ws 127 84) old new
    let ctr := field ws 255 192
    if r = 0 then
      let m : Move := ⟨s.uid, p, old, new, if sz = 0 then 0x10000 else 0x2000000, field ws 191 128, ctr, none⟩
      { s with uid := s.uid + 1, moves := s.moves ++ [m] }
    else
      (s.addPhys (srcMigration p) ctr (2 ^ 63)).logPart p (srcMigration p) 0x0C (pa + 2 ^ 64 * r)

/-! ### Tier pools (11 R277) -/

/-- Pool units held by the objects of a die (11 R277). -/
def State.poolUsed (s : State) (p d : Nat) : Nat :=
  (s.objects.filter fun o => o.part == p && o.die == d && o.st != .hbm).foldl (fun n o => n + o.size / 65536) 0

def State.writeTierpool (s : State) (p d : Nat) (x : Dword) : State :=
  if s.objects.any fun o => o.part == p && (o.st == .promoting || o.st == .demoting) then s
  else
    let base := bits x 15 0
    let limit := if 2560 < base + bits x 31 16 then 0 else bits x 31 16
    s.setReg (.tierpool p d) (BitVec.ofNat 64 (limit * 65536 + base))

/-! ### The mailbox (24 R432, R433) -/

/-- BMCMD: a write starts a command, unless one runs; unknown codes, and those that safe mode or a failed boot does not
accept, end at once (24 R428, R430). -/
def State.writeBmcmd (s : State) (x : Dword) : State :=
  if (s.reg .bmstat).getLsbD 0 then s
  else
    let code := bits x 7 0
    let accepted :=
      if s.safeMode then [1, 4, 6].elem code
      else if !s.fwUp then [2, 6].elem code
      else true
    if code = 0 ∨ 6 < code then s.setReg .bmstat 0x200
    else if !accepted then s.setReg .bmstat 0x100
    else (s.setReg .bmcmd x).setReg .bmstat 1

/-- A running command of a code, with its argument. -/
def State.command (s : State) (code : Nat) : Option Nat :=
  if (s.reg .bmstat).getLsbD 0 = true ∧ bits (s.reg .bmcmd) 7 0 = code then some (bits (s.reg .bmcmd) 63 16) else none

/-- Ends a command with a result. -/
def State.endCommand (s : State) (result : Nat) : State :=
  (s.setReg .bmstat (BitVec.ofNat 64 (256 * result))).setReg .bmcmd 0

/-! ### The write -/

/-- Writes a register: the fields that exist, under the register's own rule. -/
def State.writeReg (s : State) (a : Agent) (r : Reg) (x : Dword) : State :=
  match r with
  | .straps | .patrol | .bmstat | .pool _ | .ctxstat _ | .eacct _ | .partid _ | .housee _ | .errcnt _ _ => s
  | .gident => if s.openParts.isEmpty then s.setReg r (x &&& 0x3FFFF0) else s
  | .illock => s.writeIllock a x
  | .ilmap n => s.writeIlmap n x
  | .partcfg p => s.writePartcfg p x
  | .bmcmd => s.writeBmcmd x
  | .bmbuf _ => s.setReg r x
  | .hmap _ => if s.openParts.isEmpty then s.setReg r (x &&& 0xFFFFFFFFFFFF) else s
  | .boost _ => s.setReg r (x &&& 0xFFF)
  | .retctl _ => s.setReg r (x &&& 0xFFFFFFFF00000FFF)
  | .lpt _ _ => s.setReg r (x &&& 0xBFBFBFBFBFBFBFBF)
  | .slope _ _ => s.setReg r (x &&& 0xFF1F)
  | .cbal d k => s.setReg r ((x &&& 0xFF00FF) ||| (s.reg (.cbal d k) &&& 0xFFFF000000))
  | .bsstat _ => if x.getLsbD 0 then s.setReg r 0 else s
  | .bsc src => s.writeBsc src x
  | .route _ _ => s.setReg r (x &&& 0x9F9F9F9F9F9F9F9F)
  | .ctxctl c => s.writeCtxctl a c x
  | .ttb1 c | .ttb2 c => s.writeTtb c r x
  | .tvec _ => s.setReg r (x &&& 0xFFFFFFFFFFF001)
  | .savebase _ => s.setReg r (x &&& 0x1FFFFFFFF000)
  | .savectl _ => s.setReg r (x &&& 0xFFFFFFFFFFFF)
  | .preempt c => s.writePreempt c x
  | .bkres c => s.writeBkres c x
  | .kill c => s.writeKill c x
  | .llcx _ _ => s.setReg r (x &&& 0xFF)
  | .miggo p => s.writeMiggo p x
  | .evqbase p => s.writeQbase (.evqctl p) r x
  | .evqctl p => s.writeQueue r (.evqbase p) 16 5 x
  | .evqhead _ | .prqhead _ => s.setReg r (x &&& 0xFFFFFFFF)
  | .llbase p n => s.writeLl p n r (x &&& 0xFFFFFFFFFFFFC0)
  | .llctl p n => s.writeLlctl p n x
  | .llhm p n => s.writeLl p n r (x &&& 0xFFFFFFFFFFFFFF)
  | .tierpool p d => s.writeTierpool p d x
  | .prqbase f => s.writeQbase (.prqctl f) r x
  | .prqctl f => s.writeQueue r (.prqbase f) 14 4 x

/-- A write by an agent; one that may not write it is ignored (01 R27). -/
def State.regWrite (s : State) (a : Agent) (r : Reg) (x : Dword) : State :=
  if s.mayWrite a r then s.writeReg a r x else s

/-- Permits and the grant pointer live with the die (23 R417 to R419). -/
def State.readReg (s : State) : Reg → Dword
  | .bmcmd | .preempt _ | .bkres _ | .kill _ => 0
  | .partid p =>
    let c := s.reg (.partcfg p)
    BitVec.ofNat 64 (p + (if s.partOpen p then bits c 7 0 * 256 + bits c 21 16 * 65536 else 0))
  | .boost d => s.reg (.boost d) ||| BitVec.ofNat 64 ((s.die d).ptr * 2 ^ 24)
  | .pool d => BitVec.ofNat 64 (s.die d).permits
  | .bsstat k => s.reg (.bsstat k) ||| BitVec.ofNat 64 (s.admitted k * 65536)
  | .ctxstat c => s.ctxstat c
  | .eacct c => BitVec.ofNat 64 (agetD 0 s.energy c / 1024)
  | .housee p => BitVec.ofNat 64 (agetD 0 s.energy (1000 + p) / 1024)
  | .tierpool p d => s.reg (.tierpool p d) ||| BitVec.ofNat 64 (s.poolUsed p d * 2 ^ 48)
  | r => s.reg r

end Sys2Proof.Machine
end

