-- ==== Sys2Proof/Machine/Perform.lean ====
section
/-! DEFINITION. What the home performs (spec 10 R251; 17 R342 to R350): which accesses of one group must come first, the
bytes that a read may see, and the packets of stores, atomics without a result and counter additions. -/

namespace Sys2Proof.Machine

/-! ### The order within a group (17 R343, R344) -/

/-- The bytes that a lane still has to read or write at the home: those that its group had not buffered. -/
def LaneReq.bytes (l : LaneReq) : List (Bool × Nat) :=
  (l.pieces.flatMap fun p => (List.range p.len).map fun i => (p.glob, p.pa + i)).filter fun x =>
    !(l.own.any fun y => y.1 == x.2)

/-- Accesses of a U page take no part in acquire and release, but for the order qualifier of an atomic there, which orders
the group's other accesses (17 R344, R345). -/
def LaneReq.unordered (l : LaneReq) : Bool := !l.pieces.isEmpty && l.pieces.all fun p => p.kind == .u

/-- A lane overlaps a packet. -/
def LaneReq.overlapsPacket (l : LaneReq) (p : Packet) : Bool :=
  l.bytes.any fun x => x.1 == p.glob.isSome && p.touches x.2

/-- A lane overlaps another. -/
def LaneReq.overlaps (l m : LaneReq) : Bool := let b := m.bytes; l.bytes.any fun x => b.elem x

/-- The lane can still be performed without another event. -/
def LaneSt.live : LaneSt → Bool
  | .ready | .away => true
  | _ => false

/-- An access with acquire semantics: later accesses of the group wait for it (17 R344, R345). -/
def isAcquire : Instr → Bool
  | .atom _ x | .atomb _ x => x.ord.getLsbD 0
  | .ldb _ _ _ _ _ w _ => w
  | .ctrrd .. => true
  | _ => false

/-- An access with release semantics: it waits for every earlier access of the group. -/
def isRelease : Instr → Bool
  | .atom _ x | .atomb _ x => x.ord.getLsbD 1
  | _ => false

/-- Atomics perform lanes that name one address in ascending order (09 R243). -/
def isAtomic : Instr → Bool
  | .atom .. | .atomb .. => true
  | _ => false

/-- A lane of an earlier instruction that must be performed before an access of the group: one that overlaps it, any
lane of an acquire unless the access is to a U page, and any lane but those of U pages where the access is a release. -/
def earlierLane (p : Pend) (l : LaneReq) (ov : LaneReq → Bool) (rel unordered : Bool) : Bool :=
  (l.st.live && ov l) || (rel && !l.unordered) || (!unordered && isAcquire p.ins)

/-- No access that must come before the lane is outstanding. -/
def State.laneClear (s : State) (u : Nat) (g : Group) (p : Pend) (l : LaneReq) : Bool :=
  let rel := isRelease p.ins
  (g.pend.all fun q => !(decide (q.tok < p.tok)) || q.lanes.all fun m => !earlierLane q m l.overlaps rel l.unordered) &&
  (!isAtomic p.ins || p.lanes.all fun m => !(decide (m.lane < l.lane) && m.st.live && l.overlaps m)) &&
  (s.sent.all fun k =>
    !(k.unit == u && k.uid == g.uid && decide (k.stamp < p.tok)) ||
      (!l.overlapsPacket k && !(rel && k.cls != OrdClass.bulk))) &&
  (!rel || s.acks.all fun k => !(k.unit == u && k.uid == g.uid && decide (k.stamp < p.tok)))

/-- Two packets of one group that must be performed in their order: they touch a byte in common, or one changes full bits
(09 R242). -/
def Packet.inOrder (p k : Packet) : Bool :=
  match p.body, k.body with
  | .marker, _ | _, .marker => false
  | .write data _ _, _ => k.glob == p.glob && data.any fun x => k.touches x.1
  | .rmw .., .write data _ _ => k.glob == p.glob && data.any fun x => p.touches x.1
  | .rmw .., .rmw .. => k.glob == p.glob && k.touches p.pa
  | _, _ => k.home == p.home

/-- No access of its own group that must come before a packet is outstanding. -/
def State.packetClear (s : State) (p : Packet) : Bool :=
  (match s.group? p.unit with
    | none => true
    | some g =>
      g.uid != p.uid ||
      g.pend.all fun q => !(decide (q.tok < p.stamp)) ||
        q.lanes.all fun m => !earlierLane q m (fun m => m.overlapsPacket p) p.rel.isSome (p.cls == .bulk)) &&
  s.sent.all fun k => !(k.unit == p.unit && k.uid == p.uid && decide (k.stamp < p.stamp)) || !p.inOrder k

/-! ### Packets -/

/-- The byte of a device register as a read sees it. -/
def State.regByte (s : State) (a : Nat) : Byte :=
  match regAt (a / 8 * 8) with
  | some r => BitVec.ofNat 8 ((s.readReg r).toNat / 2 ^ (8 * (a % 8)))
  | none => 0

/-- Changes the full bits of a run of granules (09 R242). -/
def State.fillRange (s : State) (start n : Nat) (b : Bool) : State :=
  (List.range n).foldl (fun s i => s.setFull (start + i) b) s

/-- The agent that a packet's write of a register counts as (01 R27). -/
def State.packetAgent (s : State) (p : Packet) : Agent := .dev (s.ctxFn (p.ctx.getD 0))

/-- Updates the L1 lines of the core that sent a write. -/
def State.l1Write (s : State) (src : Nat) (data : List (Nat × Byte)) : State :=
  if src / 0x1000 = 1 then
    let c := s.core (src % 0x1000)
    if c.l1.isEmpty then s else s.putCore (src % 0x1000) { c with l1 := l1Update c.l1 data }
  else s

/-- A read-modify-write at a home (09 R243), in this package or another: the old value. -/
def State.rmwAs (s : State) (stamp : Nat) (by_ : Author) (a : Agent) (pa : Nat) (op : BitVec 4) (wide : Bool) (v w : Dword) :
    State × Dword :=
  if inRegs pa then
    match regAt pa with
    | some r =>
      let old := s.readReg r
      (s.regWrite a r (atomicOp op wide old v w), old)
    | none => (s, 0)
  else
    let n := if wide then 8 else 4
    let old : Dword := BitVec.ofNat 64 (leNat (s.homeBytes pa n))
    let data := dataOf pa (natLE (atomicOp op wide old v w).toNat n)
    ((s.writeAs stamp { by_ with rmw := true } data [] []).l1Write by_.who.src data, old)

/-- Writes the device registers that some bytes cover, in address order: a register is written whole (01 R26), and bytes
that a device's range does not cover are written as they read. DEDUCED (log entry 67). -/
def State.writeRegs (s : State) (a : Agent) (data : List (Nat × Byte)) : State :=
  (data.foldl (fun l x => sput l (x.1 / 8 * 8)) []).foldl (fun s k =>
    match regAt k with
    | some r => s.regWrite a r (BitVec.ofNat 64 (leNat ((List.range 8).map fun i =>
        ((data.find? fun x => x.1 == k + i).map (·.2)).getD (s.regByte (k + i)))))
    | none => s) s

/-- The path of a source's packets, and the card that they belong to: a weir engine writes on the T path (17). -/
def State.packetPath (s : State) (src : Nat) : Path × Nat :=
  if src / 0x1000 = 3 then (.t, ((aget s.engines (src % 0x1000)).map fun e => e.card + 1).getD 0) else (.d, 0)

/-- The releases that a packet's write carries (17 R345, R346): the fences before it, with the stores that their markers order
before it, and its own where it is a release access. -/
def State.packetRels (s : State) (p : Packet) : List Rel :=
  let fs := p.rels.map fun (r : Rel) => { r with view := r.view.join ⟨p.after, []⟩ }
  match p.rel, s.group? p.unit with
  | some scope, some g => fs ++ [s.relOf p.unit g scope false p.stamp]
  | _, _ => fs

/-- The author of a packet's write. -/
def State.packetAuthor (s : State) (p : Packet) : Author :=
  let (path, job) := s.packetPath p.src
  let cell := ((s.group? p.unit).map (·.cell)).getD 0
  ⟨⟨p.src, some p.uid, cell⟩, path, job, p.stamp, p.cls == .bulk, false, s.packetRels p⟩

/-- The effect of a packet at its target; none in a basin that has lost its power (01 R20; 24 R435). -/
def State.performBody (s : State) (p : Packet) : State :=
  if inRegs p.pa = false ∧ p.glob = none ∧ s.physOk p.pa 1 = false then s else
  match p.body with
  | .write data full poison =>
    if inRegs p.pa then s.writeRegs (s.packetAgent p) data
    else (s.writeAs p.stamp (s.packetAuthor p) data full poison).l1Write p.src data
  | .fill start n set =>
    let o : OldBytes := ⟨p.stamp, s.packetAuthor p, [], if set then [(start, n)] else [], 0⟩
    State.fillRange { s with old := s.old ++ [o] } start n set
  | .rmw op wide v w => (s.rmwAs p.stamp (s.packetAuthor p) (s.packetAgent p) p.pa op wide v w).1
  | .marker => s

/-- The acknowledgment of a packet sets out; a marker has none. -/
def State.acknowledge (s : State) (p : Packet) (way : List Nat) : State :=
  if p.body = .marker then s
  else { s with uid := s.uid + 1, acks := s.acks ++ [⟨p.stamp, p.unit, p.uid, p.tok, p.ctx, ⟨way, s.uid⟩⟩] }

/-- Performs a packet: its effect, its place in the source's order, and an acknowledgment on its way (10 R251, 09
R229). -/
def State.performPacket (s : State) (p : Packet) : State :=
  let s := { s with packets := s.packets.filter fun q => q.stamp != p.stamp }
  let s := if p.seq.isSome then s.doneSeq p.src p.home else s
  (s.performBody p).acknowledge p (wayBack p.unit p.home)

/-- The packets that a target may perform now, of one source. -/
def State.performables (s : State) (home src : Nat) : List Packet :=
  s.packets.filter fun p => p.home == home && p.src == src && s.performable p

/-- PACKET_PERFORM: the k-th performable packet of a source at a target is performed (10 R250, R251). -/
def execPacketPerform (home src k : Nat) (s : State) : Host.Outcome State Fault Refusal :=
  match (s.performables home src)[k]? with
  | some p => .next (s.performPacket p)
  | none => .next s

/-- PACKET_ACCEPT: the oldest packet of a source and class that may be accepted is: every access of its group that must
come before it has been performed, and its window, marker and contract allow it (10 R251, R252). -/
def execPacketAccept (src cls : Nat) (s : State) : Host.Outcome State Fault Refusal :=
  match s.packets.find? fun p =>
    p.src == src && p.cls.idx == cls && !p.accepted && s.acceptable p && s.packetClear p with
  | none => .next s
  | some p => .next (s.accept p)

/-- STORE_ACK: the oldest acknowledgment that has come to an issuer's entry stack reaches it (09 R229; 10 R248). -/
def execStoreAck (u : Nat) (s : State) : Host.Outcome State Fault Refusal :=
  match takeFirst (fun a : Ack => a.unit == u && a.trip.way.isEmpty) s.acks with
  | some (a, rest) => .next (State.ackNow { s with acks := rest } a)
  | none => .next s

end Sys2Proof.Machine
end

