-- ==== Sys2Proof/Machine/Access.lean ====
section
/-! DEFINITION. Accesses of a core's lanes (spec 09 R219 to R225, R238, R239; 21 R384, R385): addresses and their
checks, what a lane reads, and how results land (05 R117, R118). -/

namespace Sys2Proof.Machine

/-! ### Checks (09 R238) -/

/-- The outcome of a lane's checks: the aligned pieces of its access, a trap, or a translation fault. -/
inductive LaneChk where
  | ok (pieces : List Piece)
  | trap (cause : Nat) (info : Dword)
  | fault (stage level reason addr : Nat)
  deriving DecidableEq, Repr

/-- A lane of an access with its address, its captured operand, the outcome of its checks, and whether the address is a
64-bit one. -/
structure Lane where
  lane : Nat
  addr : Dword
  aux : BitVec 128
  chk : LaneChk
  va : Bool
  deriving DecidableEq, Repr

/-- The global fields of this package (10 R257). -/
def State.isHere (s : State) (a : Dword) : Bool :=
  let id := s.reg .gident
  bits a 62 55 == bits id 21 14 && bits a 54 49 == bits id 13 8 && bits a 48 45 == bits id 7 4

/-- Every register that a range touches is assigned (01 R26). -/
def regsThere (pa len : Nat) : Bool :=
  (List.range ((pa % 8 + len + 7) / 8)).all fun i => (regAt (pa / 8 * 8 + 8 * i)).isSome

/-- The physical checks of one part (01 R19, R20, R26). Only supervisor translations map the register space; a lane's
access to it is an aligned 8-byte one, and an engine's or a copy's fails at an unassigned address alone. DEDUCED (log
entry 67): a supervisor translation is one whose leaf has SUP = 1. -/
def State.physChk (s : State) (dev sup : Bool) (pa len : Nat) (a : Dword) (kind : PageKind) : LaneChk :=
  if inRegs pa then
    if !sup || !regsThere pa (if dev then len else 1) then .trap causePhys a
    else if dev = true ∨ (len = 8 ∧ pa % 8 = 0) then .ok [⟨pa, len, false, kind⟩]
    else .trap causeAlign a
  else if s.physOk pa len then .ok [⟨pa, len, false, kind⟩]
  else .trap causePhys a

/-- The parts of an access, split at the 64 KiB boundary (09 R225). -/
def partsOf (a len : Nat) : List (Nat × Nat) :=
  if a % 65536 + len ≤ 65536 then [(a, len)]
  else let n := 65536 - a % 65536; [(a, n), (a + n, len - n)]

/-- Joins the outcomes of the parts: a translation fault comes before a physical-address fault (09 R238). -/
def joinChk : LaneChk → LaneChk → LaneChk
  | .fault a b c d, _ => .fault a b c d
  | _, .fault a b c d => .fault a b c d
  | .trap c i, _ => .trap c i
  | _, .trap c i => .trap c i
  | .ok p, .ok q => .ok (p ++ q)

/-- Translates and checks the parts of a virtual access. -/
def State.chkParts (s : State) (dev : Bool) (ctx acc : Nat) (priv : Bool) (a : Dword) : List (Nat × Nat) → LaneChk
  | [] => .ok []
  | (va, n) :: t =>
    let x := match s.translate ctx va acc priv with
      | .fault st lv r ad => LaneChk.fault st lv r ad
      | .ok base kind _ sup _ _ => s.physChk dev sup (physOf base va) n a kind
    joinChk x (s.chkParts dev ctx acc priv a t)

/-- Checks of a 64-bit address (09 R220, R225): `align` 1 where any alignment is accepted; `early` is the range fault
that comes between alignment and translation. -/
def State.chkVa (s : State) (ctx acc : Nat) (priv : Bool) (a : Dword) (len align : Nat) (early : Option (Nat × Dword)) :
    LaneChk :=
  if a.getLsbD 63 = false ∧ (bits a 62 56 ≠ 0 ∨ 2 ^ 56 < a.toNat + len) then .trap causeForm a
  else if a.toNat % align ≠ 0 then .trap causeAlign a
  else
    match early with
    | some (c, i) => .trap c i
    | none =>
      if a.getLsbD 63 then
        if s.isHere a then s.physChk false false (a.toNat % 2 ^ 45) len a .c else .ok [⟨a.toNat, len, true, .c⟩]
      else s.chkParts false ctx acc priv a (partsOf a.toNat len)

/-- Checks of a basin offset (09 R221, R225). -/
def chkBasin (u bo len align : Nat) : LaneChk :=
  if bo % align ≠ 0 then .trap causeAlign (BitVec.ofNat 64 bo)
  else if Config.basinSize < bo + len then .trap causeBasin (BitVec.ofNat 64 bo)
  else .ok [⟨windowBase (unitDie u) + bo, len, false, .c⟩]

/-- The trap of the lowest lane that raises one (09 R238). -/
def firstTrap (ls : List Lane) : Option (Nat × Dword) :=
  ls.findSome? fun l =>
    match l.chk with
    | .trap c i => some (c, i)
    | _ => none

/-- The translation faults of an access. -/
def faultsOf (ls : List Lane) : List (Nat × Nat × Nat × Nat) :=
  ls.filterMap fun l =>
    match l.chk with
    | .fault a b c d => some (a, b, c, d)
    | _ => none

/-- The pieces of a lane. -/
def Lane.pieces (l : Lane) : List Piece :=
  match l.chk with
  | .ok p => p
  | _ => []

/-- Some lane reaches an S page (09 R224). -/
def anyS (ls : List Lane) : Bool := ls.any fun l => l.pieces.any fun p => p.kind == .s

/-! ### Addresses (09 R219) -/

/-- ADDR + Sext(OFF14) in a lane. -/
def vaAddr (s : State) (u : Nat) (g : Group) (a : Src) (off : BitVec 14) (L : Nat) : Dword :=
  src64 s u g L a + off.signExtend 64

/-- A basin offset in a lane. -/
def basinAddr (s : State) (u : Nat) (g : Group) (a : Src) (off : BitVec 14) (L : Nat) : Word :=
  src32 s u g L a + off.signExtend 32

/-- A virtual access of a lane. -/
def vaLane (s : State) (u : Nat) (g : Group) (acc len align : Nat) (a : Src) (off : BitVec 14) (aux : BitVec 128)
    (L : Nat) : Lane :=
  let ea := vaAddr s u g a off L
  ⟨L, ea, aux, s.chkVa g.ctx acc (s.groupPriv g) ea len align none, true⟩

/-- A basin access of a lane. -/
def basinLane (s : State) (u : Nat) (g : Group) (len align : Nat) (a : Src) (off : BitVec 14) (aux : BitVec 128)
    (L : Nat) : Lane :=
  let bo := basinAddr s u g a off L
  ⟨L, bo.setWidth 64, aux, chkBasin u bo.toNat len align, false⟩

/-- A thread-local access of a lane (09 R219, R222). -/
def localLane (s : State) (u : Nat) (g : Group) (acc len : Nat) (a : Src) (off : BitVec 14) (L : Nat) : Lane :=
  let o : Int := ((src32 s u g L a).toNat : Int) + off.toInt
  let ea := tlBase u g L + BitVec.ofInt 64 o
  let early := if o < 0 ∨ (g.tlsb : Int) < o + len then some (causeTls, BitVec.ofInt 64 o) else none
  ⟨L, ea, 0, s.chkVa g.ctx acc (s.groupPriv g) ea len 1 early, true⟩

/-! ### Starting an asynchronous access -/

/-- The flag that a head names. -/
def flagOf (h : Head) : Option Nat := if h.setf.toNat ≤ 11 then some h.setf.toNat else none

/-- Raises a flag (05 R118). -/
def Group.raise (g : Group) (f : Option Nat) : Group :=
  match f with
  | none => g
  | some n => g.setFlag n (g.flag n + 1)

/-- Lowers a flag. -/
def Group.lower (g : Group) (f : Option Nat) : Group :=
  match f with
  | none => g
  | some n => g.setFlag n (g.flag n - 1)

/-- Enters an instruction whose last effect is to come, under the number `tok`. -/
def Group.addPend (g : Group) (h : Head) (ins : Instr) (act : Lanes) (tok : Nat) (lanes : List LaneReq)
    (writes : List PWrite) (left : Nat) : Group :=
  { g.raise (flagOf h) with
    pend := g.pend ++ [⟨tok, flagOf h, ins, g.clauseAddr, g.clauseIdx, act, h.nwb, lanes, writes, left, none⟩] }

/-- Fills the TLBs with the translations that an access used. -/
def State.tlbFillLanes (s : State) (ctx acc : Nat) (priv : Bool) (ls : List Lane) : State :=
  ls.foldl (fun t l =>
    if !l.va || l.addr.getLsbD 63 then t
    else t.tlbFill ctx l.addr.toNat (s.translate ctx l.addr.toNat acc priv)) s

/-- Every byte that a group has buffered for this package. -/
def bufAll (b : List BufItem) : List (Nat × Byte) :=
  bufBytes b false (b.flatMap fun i =>
    match i with
    | .bytes false _ data _ _ => data.map (·.1)
    | _ => [])

/-- A lane of the instruction for another package leaves as it stands; that of LDSUB acts at its own die first (09 R245). -/
def leavesAtOnce : Instr → Bool
  | .ldsub .. => false
  | _ => true

/-- The lanes of an access that becomes pending. The walk of a faulted lane has still to end: then it is parked under its
request (21 R384; TRANSLATION_WALK). `own` takes the bytes that the group has buffered; a faulted lane, whose bytes are not
known, keeps all of them. `leaves` says that a lane for another package sets out as it stands. -/
def parkLanes (g : Group) (own leaves : Bool) (st : Nat → LaneSt) (ls : List Lane) : List LaneReq :=
  ls.map fun l =>
    match l.chk with
    | .fault _ _ _ _ => ⟨l.lane, l.addr, l.aux, [], if own then bufAll g.buf else [], .walking⟩
    | _ =>
      let ps := l.pieces
      let mine := if !own then [] else bufBytes g.buf (ps.any (·.glob)) (ps.flatMap fun p => (List.range p.len).map (p.pa + ·))
      ⟨l.lane, l.addr, l.aux, ps, mine, if leaves && ps.any (·.glob) then .away else st l.lane⟩

/-- Replaces a lane of a pending instruction, or takes it out. -/
def Group.putLane (g : Group) (tok : Nat) (l : LaneReq) : Group :=
  let f (p : Pend) : Pend := { p with lanes := p.lanes.map fun m => if m.lane = l.lane then l else m }
  { g with pend := modifyFirst (fun p => p.tok == tok) f g.pend }
def Group.dropLane (g : Group) (tok lane : Nat) : Group :=
  let f (p : Pend) : Pend := { p with lanes := p.lanes.filter fun m => m.lane != lane }
  { g with pend := modifyFirst (fun p => p.tok == tok) f g.pend }

/-- The bytes that a lane of an instruction accesses. -/
def accessBytes : Instr → Nat
  | .ld _ sz _ _ _ _ _ | .ldu _ sz _ _ _ _ _ | .ldk _ sz _ _ _ | .ldl _ sz _ _ _ | .ldb _ sz _ _ _ _ _ => sz.bytes
  | .obld .. => 16
  | _ => 8

/-- A trap of a pending instruction, unless its group has taken one or is leaving. -/
def State.trapPend (s : State) (u cause : Nat) (p : Pend) (info : Dword) : State :=
  match s.group? u with
  | none => s
  | some g => if g.taking.isSome ∨ g.wait = .exit then s else s.takeTrap u ⟨cause, p.addr, p.idx, info, p.act⟩

/-- A lane of a pending instruction meets a physical-address fault after its issue: it is not performed, and the other
lanes are as they were (01 R20; 10 R259; 21 R384, R389; 24 R435). -/
def State.failLane (s : State) (u uid tok lane : Nat) : State :=
  match s.group? u with
  | none => s
  | some g =>
    if g.uid ≠ uid then s
    else
      match g.pend.find? fun p => p.tok == tok with
      | none => s
      | some p =>
        let a := ((p.lanes.find? fun l => l.lane == lane).map (·.addr)).getD 0
        (s.putGroup u (g.dropLane tok lane)).trapPend u causePhys p a

/-- The region reopened behind an instruction that commits. -/
def Group.next (g : Group) (reopen : Bool) : Group := if reopen then g.advance.reopen else g.advance

/-- The commit of an instruction marked E that has no other effect (05 R125). -/
def State.commitOnly (s : State) (u : Nat) (g : Group) : State :=
  let s := s.commit u g.clauseIdx false
  match s.group? u with
  | none => s
  | some g => (s.putGroup u (g.next true)).drawn

/-- A trap that an active lane of an instruction marked E raises: the region has been committed before (05 R125, 09 R245,
11 R267), and the saved point is the instruction (21 R389). -/
def State.trapE (s : State) (u : Nat) (g : Group) (c : Nat) (i : Dword) (act : Lanes) : State :=
  (s.commit u g.clauseIdx false).trapAt u c i act

/-- An instruction marked E that acts when a lane is active; without one it still commits its region (05 R125). -/
def effectE (h : Head) (s : State) (f : Nat → Group → Lanes → State) : Host.Outcome State Fault Refusal :=
  issue h s fun u g act => if act = 0 then s.commitOnly u g else f u g act

/-- The S accesses of an instruction have been performed: the group goes on (09 R224). -/
def Group.syncDone (g : Group) : Group :=
  match g.wait with
  | .drain tok =>
    let done := match g.pend.find? fun p => p.tok == tok with
      | none => true
      | some p => p.left == 0 && p.lanes.all fun l => l.st.stays
    if done then { g.advance.reopen with wait := .no } else g
  | _ => g

/-- Sends a global lane's request toward an Izeus port (10 R248, R259). -/
def State.sendGlobalLoad (s : State) (u uid ctx tok : Nat) (l : LaneReq) : State :=
  let p : GlobPacket :=
    ⟨s.uid, l.addr, izeusOf (entryGlobal u l.addr) 8, 0, srcUnit u, some ctx, none, 0, ⟨[], 0⟩, false, .lane u uid tok l.lane⟩
  { s with uid := s.uid + 1, globals := s.globals ++ [p] }

/-- An access of an engine program that met translation faults waits for the requests and issues again (14 R321). -/
def State.waitFaults (s : State) (u : Nat) (g : Group) (acc : Nat) (ls : List Lane) : State :=
  let (s, reqs) := s.raiseAll g.ctx acc (faultsOf ls)
  (s.putGroup u { g with wait := .fault reqs }).drawn

/-- Starts a load or an atomic with a result (09 R239, R243; 21 R384): traps first, then the lanes that fault are parked
and the rest become pending. `ends` commits the region first (E); an S page commits it too and makes the group wait, as does every access of an engine
program (14 R319). -/
def State.startAsync (s : State) (u : Nat) (g : Group) (h : Head) (ins : Instr) (act : Lanes) (acc : Nat) (ends : Bool)
    (st : Nat → LaneSt) (ls : List Lane) : State :=
  match firstTrap ls with
  | some (c, i) => if ends then s.trapE u g c i act else s.trapAt u c i act
  | none =>
    if g.isEngine = true ∧ faultsOf ls ≠ [] then s.waitFaults u g acc ls else
    let sync := anyS ls || g.isEngine
    let tok := s.uid
    let s := (s.tlbFillLanes g.ctx acc (s.groupPriv g) ls).fresh
    let lanes := parkLanes g (acc == accLoad) (leavesAtOnce ins) st ls
    let s := if ends || sync then s.commit u g.clauseIdx false else s
    match s.group? u with
    | none => s
    | some g =>
      let g := g.addPend h ins act tok lanes [] 0
      let g := if sync then { g with wait := .drain tok } else g.next ends
      let s := (s.putGroup u g.syncDone).drawn
      (lanes.filter fun l => l.st == .away).foldl (fun s l => s.sendGlobalLoad u g.uid g.ctx tok l) s

/-- Aborts the open region of a group whose store-class access faulted, and makes it wait for the requests
(21 R385): a committed instruction restarts at itself. -/
def State.abortStore (s : State) (u : Nat) (g : Group) (acc : Nat) (ends : Bool) (ls : List Lane) : State :=
  let s := if ends || anyS ls then s.commit u g.clauseIdx false else s
  let (s, reqs) := s.raiseAll g.ctx acc (faultsOf ls)
  match s.group? u with
  | none => s
  | some g => (s.putGroup u { g.restart with wait := .fault reqs }).drawn

/-! ### What a load reads -/

/-- Lines of 128 bytes. -/
def lineOf (a : Nat) : Nat := a / 128 * 128

/-- The lines that some pieces touch. -/
def linesOf (ps : List Piece) : List Nat :=
  ps.foldl (fun l p => (List.range p.len).foldl (fun l i => sput l (lineOf (p.pa + i))) l) []

/-- How an access uses a cache: `serve` may be served from it, `fill` fills it, `past` passes the L1 by without filling it (17
R343). -/
structure CacheUse where
  serve : Bool
  fill : Bool
  past : Bool
  deriving DecidableEq, Repr

/-- Which writes a read must count: by whether the page is a U page and whether a cache serves the byte (17 R343, R349). -/
abbrev Must := Bool → Bool → OldBytes → Nat → Bool

/-- The writes that a read of a group on a path must count. -/
def Group.must (g : Group) (path : Path) : Must := fun u l1 o a => g.counts path u l1 o a

/-- A read that counts every write: of an engine, or of a full/empty wait (17 R350). -/
def mustAll : Must := fun _ _ _ _ => true

/-- A byte as a read past the caches sees it, and the write that it reads from. -/
def State.seen (s : State) (must : Must) (u : Bool) (a : Nat) : Byte × Option OldBytes :=
  seenLoop s.draw a (must u false · a) s.old.reverse (s.homeByte a)

/-- The bytes of a whole line as a read sees them; none where a granule of it is poisoned. -/
def State.lineBytes (s : State) (must : Must) (line : Nat) : Option (List Byte) :=
  if (List.range 8).any fun i => s.poisoned (line + 16 * i) then none
  else some ((List.range 128).map fun i => (s.seen must false (line + i)).1)

/-- A cached byte. -/
def cacheByte (t : Assoc (List Byte)) (a : Nat) : Option Byte :=
  (aget t (lineOf a)).bind fun l => l[a % 128]?

/-- The write that a cached value of a byte is read from, where a read may return it: one that the read need not go behind
(17 R349). A value of a store still in flight is not served: DESIGN CHOICE (log entry 82). -/
def State.cached (s : State) (must : Must) (u : Bool) (a : Nat) (x : Byte) : Bool × Option OldBytes :=
  mayReturn a (must u true · a) x s.old.reverse (s.byte a)

/-- The word of a byte is served from a cache (09 R226): it is there, and each of its bytes may be returned (17 R349). -/
def State.cacheHit (s : State) (must : Must) (u : Bool) (t : Assoc (List Byte)) (a : Nat) : Bool :=
  (aget t (lineOf a)).isSome && Config.pick s.draw (2 ^ 50 + lineOf a) &&
  (List.range 8).all fun i =>
    match cacheByte t (a / 8 * 8 + i) with
    | some x => (s.cached must u (a / 8 * 8 + i) x).1
    | none => false

/-- Replaces a line, or drops it where it is poisoned. -/
def State.refill (s : State) (must : Must) (t : Assoc (List Byte)) (line : Nat) : Assoc (List Byte) :=
  match s.lineBytes must line with
  | some l => aput t line l
  | none => adel t line

/-- A byte that a read returned, and the write that it was read from. -/
structure ByteRead where
  addr : Nat
  u : Bool
  hit : Bool
  val : Byte
  src : Option OldBytes
  deriving DecidableEq, Repr

/-- What a read came to: its bytes, the first poisoned granule that the home supplied, and the cache after it. -/
structure ReadOut where
  bytes : List ByteRead
  bad : Option Nat
  cache : Assoc (List Byte)
  deriving DecidableEq, Repr

/-- The values of a read's bytes. -/
def ReadOut.vals (r : ReadOut) : List Byte := r.bytes.map (·.val)

/-- A read of some pieces through a cache; bytes of other packages are read past it (log entry 80). -/
def State.readThrough (s : State) (must : Must) (t : Assoc (List Byte)) (use : CacheUse) (own : List (Nat × Byte))
    (ps : List Piece) : ReadOut :=
  let cached := ps.all fun p => p.kind != .s && !inRegs p.pa && !p.glob
  let addrs := ps.flatMap fun p => (List.range p.len).map fun i => (p.kind == .u, p.pa + i)
  let own? (a : Nat) := (own.find? fun x => x.1 == a).map (·.2)
  let hit (u : Bool) (a : Nat) : Bool := cached && use.serve && s.cacheHit must u t a
  let byte (x : Bool × Nat) : ByteRead :=
    let (u, a) := x
    match own? a with
    | some b => ⟨a, u, true, b, none⟩
    | none =>
      if inRegs a then ⟨a, u, false, s.regByte a, none⟩
      else if hit u a then
        let v := (cacheByte t a).getD 0
        ⟨a, u, true, v, (s.cached must u a v).2⟩
      else
        let r := s.seen must u a
        ⟨a, u, false, r.1, r.2⟩
  let bs := addrs.map byte
  let bad := bs.find? fun b => !b.hit && !inRegs b.addr && s.homePoison (granule b.addr)
  let missed := (bs.filter fun b => !b.hit).foldl (fun l b => sput l (lineOf b.addr)) []
  let t := if cached && use.fill then missed.foldl (fun t l => s.refill must t l) t else t
  ⟨bs, bad.map fun b => b.addr / 16 * 16, t⟩

/-- A group has read some bytes (17 R343, R346). -/
def State.noteReads (s : State) (u uid : Nat) (path : Path) (past : Bool) (bs : List ByteRead) : State :=
  bs.foldl (fun s b =>
    match b.src with
    | none => s
    | some o => s.onGroup u uid (Group.noteRead path b.u (past && !b.hit) b.addr (s.relsAt o b.addr) o)) s

/-- The releases that a read of some bytes reads from. -/
def State.relsOf (s : State) (bs : List ByteRead) : List Rel :=
  bs.flatMap fun b => (b.src.map fun o => s.relsAt o b.addr).getD []

/-- The words of a load's destination (09 R239). -/
def loadWords (sz : LdSize) (bs : List Byte) : List Word :=
  let n := leNat bs
  match sz with
  | .n8 | .n16 | .b32 => [BitVec.ofNat 32 n]
  | .i8 => [(BitVec.ofNat 8 n).signExtend 32]
  | .i16 => [(BitVec.ofNat 16 n).signExtend 32]
  | .b64 => [BitVec.ofNat 32 n, BitVec.ofNat 32 (n / 2 ^ 32)]
  | .b128 => (List.range 4).map fun i => BitVec.ofNat 32 (n / 2 ^ (32 * i))

/-- The register writes of some words from a register on. -/
def regWrites (dst : Nat → Dst) (d : Nat) (ws : List Word) : List PWrite :=
  (List.range ws.length).zip ws |>.map fun x => ⟨dst (d + x.1), x.2, false⟩

/-- Invalidates a core's L1 (17 R352). -/
def State.flushL1 (s : State) (core : Nat) : State := s.putCore core { s.core core with l1 := [] }

/-- An acquire of a group at core scope or wider invalidates the L1, and ends what its loads past the L1 left open (17 R343,
R352). -/
def State.acquireL1 (s : State) (u : Nat) (scope : Nat) : State :=
  if 4 ≤ scope then
    let s := s.flushL1 (coreOf u)
    match s.group? u with
    | none => s
    | some g => s.putGroup u { g with reads := g.reads.map fun r => { r with past := false } }
  else s

/-- An acquire access of a group: it takes over the releases that it reads from (17 R345, R346). -/
def State.acquire (s : State) (u uid scope : Nat) (rels : List Rel) : State :=
  (s.onGroup u uid (Group.acquire u scope rels)).acquireL1 u scope

/-- The path and the cache of each load. -/
def loadUse : Instr → Path × CacheUse
  | .ld _ _ _ _ _ scope hint | .ldu _ _ _ _ _ scope hint => (.d, ⟨decide (scope.toNat ≤ 4), hint == 0, hint != 0⟩)
  | .ldl .. => (.d, ⟨true, true, false⟩)
  | .ldk .. => (.k, ⟨true, true, false⟩)
  | _ => (.d, ⟨false, false, false⟩)

/-- A lane has been performed: it leaves the pending entry, with its register writes and what it met of poison. -/
def Group.laneDone (g : Group) (tok lane : Nat) (ws : List PWrite) (bad : Option Nat) : Group :=
  let f (p : Pend) : Pend :=
    { p with
      lanes := p.lanes.filter fun l => l.lane != lane
      writes := if p.nwb || bad.isSome then p.writes else p.writes ++ ws
      poison := p.poison.or bad }
  { g with pend := modifyFirst (fun p => p.tok == tok) f g.pend }.syncDone

/-- Puts the outcome of a lane into its group. -/
def State.laneDone (s : State) (u uid tok lane : Nat) (ws : List PWrite) (bad : Option Nat) : State :=
  (s.onGroup u uid fun g => g.laneDone tok lane ws bad).drawn

/-- Reads a load lane's bytes (09 R239): `all` where the read counts every write. -/
def State.readLane (s : State) (u : Nat) (g : Group) (p : Pend) (l : LaneReq) (all : Bool) : State × ReadOut :=
  let (path, use) := loadUse p.ins
  let use := if g.isEngine then ⟨false, false, false⟩ else use
  let c := s.core (coreOf u)
  let r := s.readThrough (if all then mustAll else g.must path) (if path = .k then c.kcache else c.l1) use l.own l.pieces
  let s := s.putCore (coreOf u) (if path = .k then { c with kcache := r.cache } else { c with l1 := r.cache })
  (s.noteReads u g.uid path use.past r.bytes, r)

/-- Performs a load lane (09 R239). -/
def State.performLoad (s : State) (u : Nat) (g : Group) (p : Pend) (l : LaneReq) (sz : LdSize) (dst : Nat → Dst)
    (d : Nat) : State :=
  let (s, r) := s.readLane u g p l false
  s.laneDone u g.uid p.tok l.lane (regWrites dst d (loadWords sz r.vals)) r.bad

/-- The words of an atomic's result. -/
def atomWrites (x : BodyAtom) (lane : Nat) (old : Dword) : List PWrite :=
  regWrites (fun n => .v n lane) x.d.toNat (if x.b64 then [lowWord old, highWord old] else [lowWord old])

/-- The author of an atomic lane's write: the fences before it release it, and its own order qualifier does (17 R345). -/
def State.atomAuthor (s : State) (u : Nat) (g : Group) (p : Pend) (l : LaneReq) (rel : Option Nat) : Author :=
  let own := match rel with
    | some scope => [s.relOf u g scope false p.tok]
    | none => []
  ⟨g.party u, .d, 0, p.tok, l.unordered, true, g.fences ++ own⟩

/-- The scope of an atomic's release, where it is one. -/
def atomRel (x : BodyAtom) : Option Nat := if x.ord.getLsbD 1 then some x.scope.toNat else none

/-- The atomic operation of a lane at an address, with what it acquires (09 R243, R244): the old value. -/
def State.atomAt (s : State) (u : Nat) (g : Group) (p : Pend) (l : LaneReq) (x : BodyAtom) (pa : Nat) : State × Dword :=
  let heard := s.newestRels pa
  let src := s.newest pa
  let (s, old) := State.rmwAs { s with uid := s.uid + 1 } s.uid (s.atomAuthor u g p l (atomRel x)) (.dev (s.ctxFn g.ctx)) pa x.op x.b64
    (l.aux.setWidth 64) ((l.aux >>> 64).setWidth 64)
  let s := match src with
    | some o => s.onGroup u g.uid (Group.noteRead .d l.unordered false pa heard o)
    | none => s
  (if x.ord.getLsbD 0 then s.acquire u g.uid x.scope.toNat heard else s, old)

/-- Performs a lane of ATOM or ATOMB (09 R243). A poisoned operand: DESIGN CHOICE (log entry 10). -/
def State.performAtom (s : State) (u : Nat) (g : Group) (p : Pend) (l : LaneReq) (x : BodyAtom) : State :=
  let pa := ((l.pieces.head?).map (·.pa)).getD 0
  let bad := if !inRegs pa && s.homePoison (granule pa) then some (pa / 16 * 16) else none
  let (s, old) := s.atomAt u g p l x pa
  s.laneDone u g.uid p.tok l.lane (atomWrites x l.lane old) bad

/-- The 8-byte word at an address at its home: a register, this package's memory or another's. -/
def State.homeWord (s : State) (pa : Nat) : Dword :=
  if inRegs pa then BitVec.ofNat 64 (leNat ((List.range 8).map fun i => s.regByte (pa + i)))
  else BitVec.ofNat 64 (leNat (s.homeBytes pa 8))

/-- A counter read: acquires the additions that it observes (11 R275, 17 R353). -/
def State.counterRead (s : State) (u uid pa scope : Nat) : State :=
  let heard := s.newestRels pa
  let s := match s.newest pa with
    | some o => s.onGroup u uid (Group.noteRead .d false false pa heard o)
    | none => s
  s.acquire u uid scope heard

/-- The granule that an LDB reads. -/
def LaneReq.gran (l : LaneReq) : Nat := granule (((l.pieces.head?).map (·.pa)).getD 0)

end Sys2Proof.Machine
end

