-- ==== Sys2Proof/Machine/Tiles.lean ====
section
/-! DEFINITION. The matrix state of a cell (spec 12 R283 to R289): handles, the operand-buffer share, mask slots and
accumulator cells. -/

namespace Sys2Proof.Machine

/-! ### Reservation records (12 R285) -/

/-- A field of a reservation record. -/
def rf (r : BitVec 128) (hi lo : Nat) : Nat := r.toNat / 2 ^ lo % 2 ^ (hi + 1 - lo)

def resTscale (r : BitVec 128) : Nat := rf r 127 120
def resMslot (r : BitVec 128) : Nat := rf r 119 116
def resE2off (r : BitVec 128) : Nat := rf r 111 96
def resScoff (r : BitVec 128) : Nat := rf r 95 80
def resFmt (r : BitVec 128) : Nat := rf r 79 75
def resRows (r : BitVec 128) : Nat := rf r 71 64 + 1
def resKrow (r : BitVec 128) : Nat := rf r 63 48
def resLen (r : BitVec 128) : Nat := rf r 47 32
def resOff (r : BitVec 128) : Nat := rf r 31 16

/-- Bits of an element of a format code (02 R44). -/
def fmtBits (f : Nat) : Nat := [32, 16, 16, 8, 8, 8, 6, 4, 8, 4, 6, 8, 16, 32, 8].getD f 8
/-- Scale bytes of a block; 0 for a format without blocks (02 R44). -/
def fmtScale (f : Nat) : Nat := [0, 0, 0, 0, 0, 1, 1, 1, 1, 2, 2].getD f 0

/-- The record bound to a handle of a cell. -/
def State.handle (s : State) (cell k : Nat) : Option (BitVec 128) := (s.cell? cell).bind fun c => aget c.handles k

/-! ### The share (12 R283) -/

/-- A byte of a cell's share. -/
def CellSt.byte (c : CellSt) (a : Nat) : Byte := agetD 0 c.share a

/-- Bytes of a cell's share. -/
def CellSt.bytes (c : CellSt) (a n : Nat) : List Byte := (List.range n).map fun i => c.byte (a + i)

/-- Writes bytes of a share; a 16-byte granule written whole takes the poison given (12 R299). -/
def CellSt.setBytes (c : CellSt) (data : List (Nat × Byte)) (poison : List Nat) : CellSt :=
  let gs := dataGranules data
  { c with
    share := data.foldl (fun t x => asetD 0 t x.1 x.2) c.share
    sharePoison := gs.foldl (fun l g =>
      if poison.elem g then sput l g else if wholeIn data g then sdel l g else l) c.sharePoison }

/-- A byte of the share is poisoned. -/
def CellSt.poisoned (c : CellSt) (a : Nat) : Bool := c.sharePoison.elem (granule a)

/-! ### Accumulator cells (12 R284) -/

/-- The key of cell (row, column) of a tile. -/
def accKey (tile row col : Nat) : Nat := tile * 4096 + row * 128 + col

/-- The value of an accumulator cell, and its poison. -/
def Group.accCell (g : Group) (k : Nat) : Acc56 := agetD 0 g.acc k
def Group.accBad (g : Group) (k : Nat) : Bool := g.accPoison.elem k

/-- Writes an accumulator cell. -/
def Group.setAcc (g : Group) (k : Nat) (x : Acc56) (bad : Bool) : Group :=
  { g with acc := asetD 0 g.acc k x, accPoison := sset g.accPoison k bad }

/-- A started operation on a tile of a group that came before a number (12 R298). -/
def State.tileBusy (s : State) (u uid tile before : Nat) : Bool :=
  (s.core (coreOf u)).ops.any fun o =>
    decide (o.id < before) && o.members.any fun m => m.uid == uid && m.x.acc.toNat == tile

/-- ACCRD's conversion (12 R305, 07 R190). -/
def accOut (form : BitVec 2) (x : Acc56) : List Word :=
  let v := acc56.decode x.toNat
  match form.toNat with
  | 0 => [(toF32 .rne v).1]
  | 1 => [BitVec.ofNat 32 (roundTo bf16 .rne v).1]
  | _ => [x.setWidth 32, (x >>> 32).setWidth 32]

end Sys2Proof.Machine
end

