-- ==== Sys2Proof/Machine/Landing.lean ====
section
/-! DEFINITION. Performing the lanes of an instruction and landing its result (spec 05 R117, R118; 09 R230 to R233, R239,
R243, R245, R247; 11 R275; 12 R305, R306). -/

namespace Sys2Proof.Machine

/-! ### Slots (09 R233) -/

/-- The key of a slot: its die and its offset. -/
def slotKey (die off : Nat) : Nat := die * 2 ^ 28 + off

/-- Granules of a slot. -/
def slotGranules (ring : Bool) : Nat := if ring then 4 else 1

/-- Two slots share a granule (09 R245). -/
def slotsMeet (o1 : Nat) (r1 : Bool) (o2 : Nat) (r2 : Bool) : Bool :=
  decide (o1 / 16 < o2 / 16 + slotGranules r2) && decide (o2 / 16 < o1 / 16 + slotGranules r1)

/-- The slot records of a die, as (offset, record). -/
def State.dieSlots (s : State) (die : Nat) : List (Nat × SlotRec) :=
  (s.slots.filter fun x => x.1 / 2 ^ 28 == die).map fun x => (x.1 % 2 ^ 28, x.2)

/-- The basin granules of a slot. -/
def slotRange (die off : Nat) (ring : Bool) : List Nat :=
  (List.range (slotGranules ring)).map fun i => (windowBase die + off) / 16 + i

/-- A lane that waits for an answer from elsewhere. -/
def Group.laneAway (tok lane : Nat) (g : Group) : Group :=
  let away (m : LaneReq) : LaneReq := if m.lane = lane then { m with st := .away } else m
  let f (q : Pend) : Pend := { q with lanes := q.lanes.map away }
  { g with pend := modifyFirst (fun q => q.tok == tok) f g.pend }

/-- An address lies in the HBM of its package (09 R245). -/
def inAnyHbm (a : Nat) : Bool := inHbm (if farAddr a then a % 2 ^ 45 else a)

/-- Performs a lane of LDSUB: the die's part (09 R245 steps 4 and 5). `aux` holds the slot offset, and in bit 32 whether
a lower lane's slot shares a granule. A request for a granule of another package goes to its home through a port. -/
def State.performLdsub (s : State) (u : Nat) (g : Group) (p : Pend) (l : LaneReq) (ring : Bool) (d : BitVec 9) : State :=
  let off := l.aux.toNat % 2 ^ 32
  let die := unitDie u
  let pa := ((l.pieces.head?).map (·.pa)).getD hbmEnd
  let done (st : Nat) : State := s.laneDone u g.uid p.tok l.lane [⟨.v d.toNat l.lane, BitVec.ofNat 32 st, false⟩] none
  if !inAnyHbm pa then done 4
  else if l.aux.getLsbD 32 || (s.dieSlots die).any fun x => slotsMeet off ring x.1 x.2.ring then done 3
  else if Config.slotRecords ≤ (s.dieSlots die).length then done 2
  else
    let prev := (slotRange die off ring).filter s.isFull
    let r : SlotRec := ⟨ring, pa / 16, g.ctx, .awaiting, 0, 0, []⟩
    let s := prev.foldl (fun s k => s.setFull k false) s
    let q : SubReq := ⟨die, off, pa / 16, prev, g.ctx, u, g.uid, p.tok, l.lane⟩
    let s := { s with slots := aput s.slots (slotKey die off) r }
    let s :=
      if farAddr pa then
        let x : GlobPacket :=
          ⟨s.uid, BitVec.ofNat 64 pa, izeusOf (entryGlobal u l.addr) 8, 0, srcUnit u, some g.ctx, none, 0, ⟨[], 0⟩, false, .sub q⟩
        { s with uid := s.uid + 1, globals := s.globals ++ [x] }
      else { s with subReqs := s.subReqs ++ [q] }
    s.onGroup u g.uid (Group.laneAway p.tok l.lane)

/-- The word of SUBSTAT (09 R247). -/
def State.substat (s : State) (die off : Nat) : Word :=
  match aget s.slots (slotKey die off) with
  | none => 0
  | some r =>
    let st := match r.st with
      | .awaiting => 1
      | .active => 2
      | .removing => 3
    let full := (slotRange die off r.ring).zip [2 ^ 23, 2 ^ 24, 2 ^ 25, 2 ^ 26] |>.foldl
      (fun n x => if s.isFull x.1 then n + x.2 else n) 0
    BitVec.ofNat 32 (st * 2 ^ 30 + (if r.ring then 2 ^ 29 + r.widx * 2 ^ 27 else 0) + full + r.ovr)

/-! ### Performing a lane -/

/-- The releases that the last setting of a granule's full bit carries (17 R355). -/
def State.setterRels (s : State) (g : Nat) : List Rel :=
  match s.old.reverse.find? fun o => o.full.any fun r => decide (r.1 ≤ g) && decide (g < r.1 + r.2) with
  | some o => o.author.rels
  | none => []

/-- Performs a lane of LDB (09 R231, R239): under .w the lane reads the bytes whose bit it observed, an acquire at die
scope; under .c it clears the bit with the read. -/
def State.performLdb (s : State) (u : Nat) (g : Group) (p : Pend) (l : LaneReq) (sz : LdSize) (d : BitVec 9) (w c : Bool) :
    State :=
  let s := if c then (s.setFull l.gran false).onGroup u g.uid fun g => { g with ldbc := true } else s
  match s.group? u with
  | none => s
  | some g =>
    let (s, r) := s.readLane u g p l w
    let s := if w then s.acquire u g.uid 6 (s.setterRels l.gran ++ s.relsOf r.bytes) else s
    s.laneDone u g.uid p.tok l.lane (regWrites (fun n => .v n l.lane) d.toNat (loadWords sz r.vals)) r.bad

/-- Performs a lane of OBLD: 16 bytes into the cell's share at the offset captured at issue (12 R306). -/
def State.performObld (s : State) (u : Nat) (g : Group) (p : Pend) (l : LaneReq) (scope : BitVec 4) : State :=
  let c := s.core (coreOf u)
  let r := s.readThrough (g.must .d) c.l1 ⟨decide (scope.toNat ≤ 4), true, false⟩ l.own l.pieces
  let s := (s.putCore (coreOf u) { c with l1 := r.cache }).noteReads u g.uid .d false r.bytes
  let o := l.aux.toNat
  let s := match s.cell? g.cell with
    | some k => s.putCell g.cell (k.setBytes (dataOf o r.vals) (if r.bad.isSome then [o / 16] else []))
    | none => s
  s.laneDone u g.uid p.tok l.lane [] none

/-- Performs a lane of ACCRD (12 R305). -/
def State.performAccrd (s : State) (u : Nat) (g : Group) (p : Pend) (l : LaneReq) (form : BitVec 2) (d : BitVec 9) :
    State :=
  let k := l.aux.toNat
  s.laneDone u g.uid p.tok l.lane (regWrites (fun n => .v n l.lane) d.toNat (accOut form (g.accCell k)))
    (if g.accBad k then some 0 else none)

/-- Performs a lane of CTRRD (11 R275). -/
def State.performCtrrd (s : State) (u : Nat) (g : Group) (p : Pend) (l : LaneReq) (x : BodyCtr) : State :=
  let pa := ((l.pieces.head?).map (·.pa)).getD 0
  let v := s.homeWord pa
  let s := s.counterRead u g.uid pa x.scope.toNat
  let dst (n : Nat) : Dst := if x.sreg then .s n else .v n l.lane
  let bad := if !inRegs pa && s.homePoison (granule pa) then some (pa / 16 * 16) else none
  s.laneDone u g.uid p.tok l.lane (regWrites dst x.d.toNat [lowWord v, highWord v]) bad

/-- The lanes of an instruction may be performed now, the order within its group apart. -/
def State.laneReady (s : State) (u : Nat) (g : Group) (p : Pend) : Bool :=
  match p.ins with
  | .accrd _ _ _ _ _ t => !s.tileBusy u g.uid t.toNat p.tok
  | _ => true

/-- The targets to which a lane's request travels as a numbered packet (10 R250): those of its pieces on S and C pages; a load
of a C page may be served on its die. DESIGN CHOICE (log entry 81): the request and its performance are one step. -/
def State.laneTargets (s : State) (u : Nat) (g : Group) (p : Pend) (l : LaneReq) : List Nat :=
  let goes (x : Piece) : Bool :=
    !x.glob && x.kind != .u &&
      (x.kind == .s || isAtomic p.ins || isAcquire p.ins || g.isEngine || Config.pick s.draw (2 ^ 52 + l.lane))
  ((l.pieces.filter goes).foldl (fun t x => sput t (s.homeOf u x.pa)) []).filter (· != homeOwn)

/-- A lane is next in its source's order at its targets, and its contract bears its operand (10 R251, R252). -/
def State.laneInOrder (s : State) (u : Nat) (g : Group) (p : Pend) (l : LaneReq) : Bool :=
  let ts := s.laneTargets u g p l
  (ts.all fun h => s.upToDate (srcUnit u) h) &&
  (ts.isEmpty || l.pieces.all fun x => s.affords (srcUnit u) (classOf x.kind) (if isAtomic p.ins then x.len else 0))

/-- A lane's request takes its numbers and its bytes, and its answer those of its home (10 R250 to R252). -/
def State.laneNumbers (s : State) (u : Nat) (g : Group) (p : Pend) (l : LaneReq) : State :=
  let ts := s.laneTargets u g p l
  let s := ts.foldl (fun s h => (s.takeSeq (srcUnit u) h).doneSeq (srcUnit u) h) s
  if ts.isEmpty then s
  else l.pieces.foldl (fun s x =>
    let s := s.spend (srcUnit u) (classOf x.kind) (if isAtomic p.ins then x.len else 0)
    let h := s.homeOf u x.pa
    if h < 16 then s.spend (srcHome h) (classOf x.kind) x.len else s) s

/-- Performs a lane at its home. -/
def State.performLane (s : State) (u : Nat) (g : Group) (p : Pend) (l : LaneReq) : State :=
  let v (n : Nat) : Dst := .v n l.lane
  match p.ins with
  | .ld _ sz d _ _ _ _ => s.performLoad u g p l sz v d.toNat
  | .ldk _ sz d _ _ => s.performLoad u g p l sz v d.toNat
  | .ldl _ sz d _ _ => s.performLoad u g p l sz v d.toNat
  | .ldu _ sz d _ _ _ _ => s.performLoad u g p l sz Dst.s d.toNat
  | .ldb _ sz d _ _ w c => s.performLdb u g p l sz d w c
  | .atom _ x => s.performAtom u g p l x
  | .atomb _ x => s.performAtom u g p l x
  | .ctrrd _ x => s.performCtrrd u g p l x
  | .obld _ _ _ _ _ scope => s.performObld u g p l scope
  | .accrd _ form d _ _ _ => s.performAccrd u g p l form d
  | .ldsub _ ring d _ _ => s.performLdsub u g p l ring d
  | .substat _ d _ _ =>
    s.laneDone u g.uid p.tok l.lane [⟨.v d.toNat l.lane, s.substat (unitDie u) l.addr.toNat, false⟩] none
  | _ => s.laneDone u g.uid p.tok l.lane [] none

/-- Nothing of some pieces lies in a basin that has lost its power since they were checked (24 R435). -/
def State.piecesOk (s : State) (ps : List Piece) : Bool :=
  ps.all fun p => p.glob || inRegs p.pa || s.physOk p.pa p.len

/-- Performs one lane of a pending instruction if it may be performed now; one whose basin is off meets the
physical-address fault (24 R435). -/
def State.tryLane (s : State) (u tok lane : Nat) : State :=
  match s.group? u with
  | none => s
  | some g =>
    match g.pend.find? fun p => p.tok == tok with
    | none => s
    | some p =>
      match p.lanes.find? fun l => l.lane == lane with
      | none => s
      | some l =>
        if l.st = .ready ∧ s.laneReady u g p = true ∧ s.laneClear u g p l = true ∧ s.laneInOrder u g p l = true then
          if s.piecesOk l.pieces then (s.laneNumbers u g p l).performLane u g p l else s.failLane u g.uid tok lane
        else s

/-- Performs every lane of a pending instruction that may be performed now, in ascending order. -/
def State.tryLanes (s : State) (u tok : Nat) (lanes : List Nat) : State := lanes.foldl (fun s L => s.tryLane u tok L) s

/-! ### Landing -/

/-- Writes a result into its register. A register written meanwhile keeps either value, whole (05 R117). -/
def Group.landWrite (draw : Nat) (g : Group) (w : PWrite) : Group :=
  match w.dst with
  | .v n L => if w.hit && Config.pick draw (64 * n + L) then g else g.setV n L w.val
  | .s n => if w.hit && Config.pick draw (40000 + n) then g else g.setS n w.val
  | .p n => g.setPred (BitVec.ofNat 3 n) (if w.val = 0 then 0 else BitVec.allOnes 64)

/-- The flag of an instruction falls and its result is in its registers (05 R117, R118). -/
def Group.land (draw : Nat) (g : Group) (p : Pend) : Group :=
  let g := { g with pend := g.pend.filter fun q => q.tok != p.tok }
  (p.writes.foldl (Group.landWrite draw) (g.lower p.flag)).syncDone

/-- Lands a pending instruction whose last effect has been performed; poison that a lane met is a trap, after the other
lanes (09 R239). A trap already taken stands: DEDUCED (log entry 11). -/
def State.landNow (s : State) (u : Nat) (g : Group) (p : Pend) : State :=
  let s' := (s.putGroup u (g.land s.draw p)).drawn
  match p.poison with
  | none => s'
  | some a =>
    if g.taking.isSome ∨ g.wait = .exit then s'
    else s'.takeTrap u ⟨causePoison, p.addr, p.idx, BitVec.ofNat 64 a, p.act⟩

/-- RESULT_LANDS: an instruction's lanes are performed where they can be, and when its last effect has been performed its
flag falls (05 R117, R118). -/
def execResultLands (u tok : Nat) (s : State) : Host.Outcome State Fault Refusal :=
  match s.group? u with
  | none => .next s
  | some g =>
    match g.pend.find? fun p => p.tok == tok with
    | none => .next s
    | some p =>
      let s := s.tryLanes u tok (p.lanes.map (·.lane))
      match s.group? u with
      | none => .next s
      | some g =>
        match g.pend.find? fun p => p.tok == tok with
        | none => .next s
        | some p => if p.lanes.isEmpty && p.left == 0 then .next (s.landNow u g p) else .next s

end Sys2Proof.Machine
end

