-- ==== Sys2Proof/Machine/Loads.lean ====
section
/-! DEFINITION. The loads and PREF (spec 09 R237 to R241). -/

namespace Sys2Proof.Machine

/-- The lanes of a virtual access. -/
def vaLanes (s : State) (u : Nat) (g : Group) (acc len align : Nat) (a : Src) (off : BitVec 14) (act : Lanes) : List Lane :=
  (lanesList act).map (vaLane s u g acc len align a off 0)

/-- The kind of access of a load: a core's, or an engine's (21 R382). -/
def Group.loadAcc (g : Group) : Nat := if g.isEngine then accEngRead else accLoad

/-- LD (R239). -/
def execLd (h : Head) (sz : LdSize) (d : BitVec 9) (addr : Src) (off : BitVec 14) (scope : BitVec 4) (hint : BitVec 2)
    (s : State) : Host.Outcome State Fault Refusal :=
  effect h s fun u g act =>
    s.startAsync u g h (.ld h sz d addr off scope hint) act accLoad false (fun _ => .ready)
      (vaLanes s u g accLoad sz.bytes 1 addr off act)

/-- LDU: once for the group (R239); in an engine program performed before the next instruction (14 R319). -/
def execLdu (h : Head) (sz : LdSize) (d : BitVec 7) (addr : Src) (off : BitVec 14) (scope : BitVec 4) (hint : BitVec 2)
    (s : State) : Host.Outcome State Fault Refusal :=
  effect h s fun u g act =>
    s.startAsync u g h (.ldu h sz d addr off scope hint) act g.loadAcc false (fun _ => .ready)
      [vaLane s u g g.loadAcc sz.bytes 1 addr off 0 (lowest act)]

/-- LDK (R239). -/
def execLdk (h : Head) (sz : LdSize) (d : BitVec 9) (addr : Src) (off : BitVec 14) (s : State) :
    Host.Outcome State Fault Refusal :=
  effect h s fun u g act =>
    s.startAsync u g h (.ldk h sz d addr off) act accLoad false (fun _ => .ready)
      (vaLanes s u g accLoad sz.bytes 1 addr off act)

/-- LDL (R219, R222, R239). -/
def execLdl (h : Head) (sz : LdSize) (d : BitVec 9) (addr : Src) (off : BitVec 14) (s : State) :
    Host.Outcome State Fault Refusal :=
  effect h s fun u g act =>
    s.startAsync u g h (.ldl h sz d addr off) act accLoad false (fun _ => .ready)
      ((lanesList act).map (localLane s u g accLoad sz.bytes addr off))

/-- Sixty-four places in the order of a basin controller (R231). -/
def State.takeTickets (s : State) (die : Nat) : State :=
  let d := s.die die
  s.putDie die { d with ticket := d.ticket + 64 }

/-- LDB (R231, R239): lanes of .w take their places in the controller's order. -/
def execLdb (h : Head) (sz : LdSize) (d : BitVec 9) (addr : Src) (off : BitVec 14) (w c : Bool) (s : State) :
    Host.Outcome State Fault Refusal :=
  effect h s fun u g act =>
    let t := (s.die (unitDie u)).ticket
    let st (L : Nat) : LaneSt := if w then .full (t + L) else .ready
    let ls := (lanesList act).map (basinLane s u g sz.bytes sz.bytes addr off 0)
    (if w ∧ firstTrap ls = none then s.takeTickets (unitDie u) else s).startAsync u g h (.ldb h sz d addr off w c) act
      accLoad false st ls

/-- PREF: the lines of the lanes that meet no fault may be filled into the L1; no other effect (R241). -/
def execPref (h : Head) (l2 : Bool) (addr : Src) (off : BitVec 14) (s : State) : Host.Outcome State Fault Refusal :=
  effect h s fun u g act =>
    if l2 then s.finish u g
    else
      let ps := (vaLanes s u g accLoad 1 1 addr off act).flatMap (·.pieces)
      let c := s.core (coreOf u)
      let t := (linesOf (ps.filter fun p => !p.glob && !inRegs p.pa && p.kind != .s)).foldl
        (fun t l => s.refill (g.must .d) t l) c.l1
      (s.putCore (coreOf u) { c with l1 := t }).finish u g

end Sys2Proof.Machine
end

