-- ==== Sys2Proof/Machine/Stores.lean ====
section
/-! DEFINITION. The stores and FILLB (spec 09 R240, R242; 05 R124; 21 R385). -/

namespace Sys2Proof.Machine

/-- A byte that a store writes: beyond the package or not, its kind, its address and its value. -/
structure SByte where
  glob : Bool
  kind : PageKind
  addr : Nat
  val : Byte
  deriving DecidableEq, Repr

/-- The byte addresses of a lane's pieces. -/
def pieceBytes (ps : List Piece) : List (Bool × PageKind × Nat) :=
  ps.flatMap fun p => (List.range p.len).map fun i => (p.glob, p.kind, p.pa + i)

/-- The bytes of one lane. -/
def laneBytes (ps : List Piece) (bs : List Byte) : List SByte :=
  ((pieceBytes ps).zip bs).map fun x => ⟨x.1.1, x.1.2.1, x.1.2.2, x.2⟩

/-- The bytes of a store's lanes in ascending order: of two for one byte, the later lane's stays (R240). -/
def storeBytes (val : Nat → List Byte) (ls : List Lane) : List SByte :=
  ls.foldl (fun t l =>
    let new := laneBytes l.pieces (val l.lane)
    (t.filter fun x => !(new.any fun y => y.glob == x.glob && y.addr == x.addr)) ++ new) []

/-- The bytes of one kind, as data of a write. -/
def ofKind (t : List SByte) (glob : Bool) (kind : PageKind) : List (Nat × Byte) :=
  (t.filter fun x => x.glob == glob && x.kind == kind).map fun x => (x.addr, x.val)

/-- The kinds that a store's bytes are divided into. -/
def storeKinds : List (Bool × PageKind) := [(false, .s), (false, .c), (false, .u), (true, .c)]

/-- Enters a store's bytes in the buffer; none where it overflows (05 R124). -/
def bufStore (b : List BufItem) (t : List SByte) (full poison : List Nat) : Option (List BufItem) :=
  storeKinds.foldl (fun b k => b.bind fun b => bufEnter b k.1 k.2 (ofKind t k.1 k.2) full poison) (some b)

/-- The aligned 64-byte blocks of a store, with their kinds. -/
def storeBlocks (t : List SByte) : List (Bool × PageKind × List (Nat × Byte)) :=
  storeKinds.flatMap fun k => (blocksOf (ofKind t k.1 k.2)).map fun d => (k.1, k.2, d)

/-- Sends a store's blocks without buffering them (R224). -/
def State.sendBlocks (s : State) (u tok : Nat) (poison : List Nat) (l : List (Bool × PageKind × List (Nat × Byte))) :
    State :=
  l.foldl (fun s x =>
    let a := ((x.2.2.head?).map (·.1)).getD 0
    s.sendStore u (if x.1 then some (BitVec.ofNat 64 a) else none) x.2.1 a (.write x.2.2 [] (poison.filter (dataGranules x.2.2).elem)) (some tok) none 0) s

/-- A store whose checks have passed: into the buffer, or, on an S page or in an engine program, straight to the memory
system, the group waiting (R224, R240; 14 R319). -/
def State.storeChecked (s : State) (u : Nat) (g : Group) (h : Head) (ins : Instr) (act : Lanes) (sync : Bool)
    (t : List SByte) (full poison : List Nat) : State :=
  if sync then
    let s := s.commit u g.clauseIdx false
    let tok := s.uid
    let blocks := storeBlocks t
    match s.group? u with
    | none => s
    | some g =>
      let g := { g.addPend h ins act tok [] [] blocks.length with wait := .drain tok }
      ((s.fresh.putGroup u g.syncDone).drawn).sendBlocks u tok poison blocks
  else
    match bufStore g.buf t full poison with
    | none => s.trapAt u causeOverflow 0 act
    | some b => s.finish u { g with buf := b }

/-- The granules that a store leaves poisoned: those of its poisoned lanes, unless a later lane writes them. -/
def storePoison (bad : Nat → Bool) (ls : List Lane) : List Nat :=
  ls.foldl (fun t l => (l.pieces.map fun p => granule p.pa).foldl (fun t k => sset t k (bad l.lane)) t) []

/-- The shared store: traps, then translation faults, then the bytes (R238, R240). `bad` names the lanes whose data is
poisoned. -/
def State.store (s : State) (u : Nat) (g : Group) (h : Head) (ins : Instr) (act : Lanes) (val : Nat → List Byte)
    (setFull : Bool) (bad : Nat → Bool) (ls : List Lane) : State :=
  let acc := if g.isEngine then accEngWrite else accStore
  match firstTrap ls with
  | some (c, i) => s.trapAt u c i act
  | none =>
    if faultsOf ls ≠ [] then (if g.isEngine then s.waitFaults u g acc ls else s.abortStore u g acc false ls)
    else
      let t := storeBytes val ls
      let full := if setFull then dataGranules (t.map fun x => (x.addr, x.val)) else []
      (s.tlbFillLanes g.ctx acc (s.groupPriv g) ls).storeChecked u g h ins act (anyS ls || g.isEngine) t full
        (storePoison bad ls)

/-- Data in registers is never poisoned. -/
def noPoison (_ : Nat) : Bool := false

/-- The bytes of a store's source, from a reader of its registers. -/
def storeData (sz : StSize) (r : Nat → Word) (x : Nat) : List Byte :=
  natLE ((List.range sz.regs).foldr (fun i n => (r (x + i)).toNat + 2 ^ 32 * n) 0) sz.bytes

/-- ST (R240). -/
def execSt (h : Head) (sz : StSize) (x : BitVec 9) (addr : Src) (off : BitVec 14) (hint : BitVec 2) (s : State) :
    Host.Outcome State Fault Refusal :=
  effect h s fun u g act =>
    s.store u g h (.st h sz x addr off hint) act (fun L => storeData sz (fun n => g.vread s.draw n L) x.toNat) false noPoison
      (vaLanes s u g accStore sz.bytes 1 addr off act)

/-- STU: once for the group (R240); in an engine program performed before the next instruction (14 R319). -/
def execStu (h : Head) (sz : StSize) (x : BitVec 7) (addr : Src) (off : BitVec 14) (hint : BitVec 2) (s : State) :
    Host.Outcome State Fault Refusal :=
  effect h s fun u g act =>
    s.store u g h (.stu h sz x addr off hint) act (fun _ => storeData sz (g.sread s.draw) x.toNat) false noPoison
      [vaLane s u g (if g.isEngine then accEngWrite else accStore) sz.bytes 1 addr off 0 (lowest act)]

/-- STL (R219, R222, R240). -/
def execStl (h : Head) (sz : StSize) (x : BitVec 9) (addr : Src) (off : BitVec 14) (s : State) :
    Host.Outcome State Fault Refusal :=
  effect h s fun u g act =>
    s.store u g h (.stl h sz x addr off) act (fun L => storeData sz (fun n => g.vread s.draw n L) x.toNat) false noPoison
      ((lanesList act).map (localLane s u g accStore sz.bytes addr off))

/-- STB: .f sets, at drain, the full bit of each granule it touches (R240). -/
def execStb (h : Head) (sz : StSize) (x : BitVec 9) (addr : Src) (off : BitVec 14) (f : Bool) (s : State) :
    Host.Outcome State Fault Refusal :=
  effect h s fun u g act =>
    s.store u g h (.stb h sz x addr off f) act (fun L => storeData sz (fun n => g.vread s.draw n L) x.toNat) f noPoison
      ((lanesList act).map (basinLane s u g sz.bytes sz.bytes addr off 0))

/-- FILLB: one buffer entry that changes the full bits of a run of granules (R242). -/
def execFillb (h : Head) (clear : Bool) (n : BitVec 7) (addr : Src) (off : BitVec 14) (s : State) :
    Host.Outcome State Fault Refusal :=
  effect h s fun u g act =>
    let bo := (basinAddr s u g addr off (lowest act)).toNat
    let k := (g.sread s.draw n.toNat).toNat
    if bo % 16 ≠ 0 then s.trapAt u causeAlign (BitVec.ofNat 64 bo) act
    else if Config.basinSize < bo + 16 * k then s.trapAt u causeBasin (BitVec.ofNat 64 bo) act
    else if Config.bufferEntries < bufUsed g.buf + 1 then s.trapAt u causeOverflow 0 act
    else
      let start := (windowBase (unitDie u) + bo) / 16
      let tok := (flagOf h).map fun _ => s.uid
      let g' := { g with buf := g.buf ++ [.fill start k (!clear) tok] }
      let g' := if tok.isSome then g'.addPend h (.fillb h clear n addr off) act s.uid [] [] 1 else g'
      (s.fresh).finish u g'

end Sys2Proof.Machine
end

