-- ==== Sys2Proof/Machine/Device.lean ====
section
/-! DEFINITION. Accesses of the device's own agents (spec 02 R30; 11 R261; 14 R319): ranges of any length translated
and checked, their bytes with their poison, and the route of a global address (10 R259). -/

namespace Sys2Proof.Machine

/-! ### Ranges -/

/-- The parts of a range, one for each 64 KiB region that it touches. -/
def regionParts (a len : Nat) : List (Nat × Nat) :=
  if len = 0 then []
  else (List.range ((a + len - 1) / 65536 - a / 65536 + 1)).map fun i =>
    let lo := max a ((a / 65536 + i) * 65536)
    let hi := min (a + len) ((a / 65536 + i + 1) * 65536)
    (lo, hi - lo)

/-- The checks of a range at a virtual, basin-window or global address (09 R220, 10 R257). -/
def State.devRange (s : State) (ctx acc : Nat) (priv : Bool) (a : Dword) (len : Nat) : LaneChk :=
  if a.getLsbD 63 then
    if s.isHere a then s.physChk true false (a.toNat % 2 ^ 45) len a .c else .ok [⟨a.toNat, len, true, .c⟩]
  else if bits a 62 56 ≠ 0 ∨ 2 ^ 56 < a.toNat + len then .trap causeForm a
  else s.chkParts true ctx acc priv a (regionParts a.toNat len)

/-! ### Routes (10 R257 to R259) -/

/-- An entry of a port's route tables: pod 0 to 255, board 256 to 319, device 320 to 335. -/
def State.routeEntry (s : State) (port i : Nat) : Nat := bits (s.reg (.route port (i / 8))) (8 * (i % 8) + 7) (8 * (i % 8))

/-- Where the lookup at a port sends a global address of another package: the port to leave by, or the tier that fails
(0 pod, 1 board, 2 device). -/
def State.routeOf (s : State) (port crossings : Nat) (a : Dword) : Except Nat Nat :=
  let id := s.reg .gident
  let (tier, e) :=
    if bits a 62 55 ≠ bits id 21 14 then (0, s.routeEntry port (bits a 62 55))
    else if bits a 54 49 ≠ bits id 13 8 then (1, s.routeEntry port (256 + bits a 54 49))
    else (2, s.routeEntry port (320 + bits a 48 45))
  if e < 128 ∨ s.links.elem (e % 32) = true ∨ crossings = 15 then .error tier else .ok (e % 32)

/-- Every global piece of a range has a route from a stack, and meets no RouteFail farther on. -/
def State.routed (s : State) (stack : Nat) (ps : List Piece) : Bool :=
  ps.all fun p => !p.glob ||
    match s.routeOf (izeusOf stack 8) 0 (BitVec.ofNat 64 p.pa) with
    | .ok _ => !Config.strand s.draw p.pa
    | .error _ => false

/-! ### Bytes -/

/-- The byte addresses of some pieces, in order, with whether they lie in another package. -/
def devAddrs (ps : List Piece) : List (Bool × Nat) := ps.flatMap fun p => (List.range p.len).map fun i => (p.glob, p.pa + i)

/-- A byte that a device agent reads, and whether it is poisoned. -/
def State.devByte (s : State) (x : Bool × Nat) : Byte × Bool :=
  if inRegs x.2 then (s.regByte x.2, false) else (s.homeByte x.2, s.homePoison (granule x.2))

/-- The bytes of a range, with their poison. -/
def State.devRead (s : State) (ps : List Piece) : List (Byte × Bool) := (devAddrs ps).map s.devByte

/-- The ordering class of a device agent's bytes: those of copies and engines are bulk data (10 R250). -/
def devClass (path : Path) (kind : PageKind) : OrdClass := if path = .t then .bulk else classOf kind

/-- Writes the bytes of a range for a device agent: registers under the agent's rights, memory here or in another package
with poison carried to every granule that a poisoned byte falls in, and the full bits of the basin granules set where `full`
says so; the write carries some releases. -/
def State.devRelease (s : State) (path : Path) (src job fn : Nat) (rels : List Rel) (full : Bool) (ps : List Piece)
    (bs : List (Byte × Bool)) : State :=
  let all := (devAddrs ps).zip bs
  let regs := (all.filter fun x => inRegs x.1.2).map fun x => (x.1.2, x.2.1)
  let mem := (all.filter fun x => !inRegs x.1.2).map fun x => (x.1.2, x.2)
  let data := mem.map fun x => (x.1, x.2.1)
  let bad := (mem.filter fun x => x.2.2).map fun x => granule x.1
  let s := ps.foldl (fun s p => s.spend src (devClass path p.kind) p.len) s
  let s := if regs.isEmpty then s else s.writeRegs (.dev fn) regs
  if data.isEmpty then s else s.releaseWrite path src job rels data (if full then basinGranules data else []) bad

/-- The same for a write that is no release. -/
def State.devPut (s : State) (path : Path) (src job fn : Nat) (full : Bool) (ps : List Piece) (bs : List (Byte × Bool)) :
    State := s.devRelease path src job fn [] full ps bs

/-- Reads `n` 8-byte words of a record; none where an access faults (02 R30). No request is raised. DESIGN CHOICE (log entry
69): poison of the bytes read is dropped. -/
def State.readWords (s : State) (ctx : Nat) (priv : Bool) (a : Dword) (n : Nat) : Option (List Dword) :=
  match s.devRange ctx accLoad priv a (8 * n) with
  | .ok ps =>
    let bs := (s.devRead ps).map (·.1)
    some ((List.range n).map fun i => BitVec.ofNat 64 (leNat ((bs.drop (8 * i)).take 8)))
  | _ => none

/-- A device agent's read reaches a range (11 R278). -/
def State.touchVa (s : State) (ctx : Nat) (priv : Bool) (a : Dword) (len : Nat) : State :=
  match s.devRange ctx accLoad priv a len with
  | .ok ps => s.touchAll ps
  | _ => s

/-- Adds to a 64-bit counter at an address, for a device agent: the state, or why the addition was not made. -/
inductive CtrAdd where
  | done (s : State)
  | fault (stage level reason addr : Nat)
  | bad (err : Nat)

/-- The addition of a device agent to a counter, a release (11 R261, R271; 17 R345, R353). -/
def State.addCounter (s : State) (ctx : Nat) (priv : Bool) (path : Path) (stack : Nat) (rel : Rel) (a : Dword) (n : Nat) :
    CtrAdd :=
  if a.toNat % 8 ≠ 0 then .bad 11
  else
    match s.devRange ctx accEngWrite priv a 8 with
    | .fault st l r ad => .fault st l r ad
    | .trap _ _ => .bad 11
    | .ok ps =>
      if !s.routed stack ps then .bad 11
      else
        match ps.head? with
        | none => .bad 11
        | some p =>
          let s := ((s.touch p.pa).spend rel.who.src (classOf p.kind) 8).fresh
          let by_ : Author := ⟨rel.who, path, rel.job, 0, false, true, [rel]⟩
          .done (s.rmwAs (s.uid - 1) by_ (.dev (s.ctxFn ctx)) p.pa 0 true (BitVec.ofNat 64 n) 0).1

/-- A release of a device agent that no copy or card is behind. -/
def agentRel (src scope : Nat) (v : View) : Rel := ⟨agent src, scope, v, 0⟩

end Sys2Proof.Machine
end

