-- ==== Sys2Proof/Machine/Shape.lean ====
section
/-! DEFINITION. The shape of a launch (spec 02 R35 to R41), from the words of its record, and the order of a partition's cores
(03 R70 to R72). -/

namespace Sys2Proof.Machine

/-! ### The shape of a launch (02 R35 to R38, R41) -/

def recWidth (ws : List Dword) (i : Nat) : Nat := field ws (133 + 6 * i) (128 + 6 * i)
def recBase (ws : List Dword) (i : Nat) : Nat := (List.range i).foldl (fun n k => n + recWidth ws k) 0
/-- The value of Fi in WIDLIM, plus one: the extent of field i. -/
def recExtent (ws : List Dword) (i : Nat) : Nat := field ws 127 64 / 2 ^ recBase ws i % 2 ^ recWidth ws i + 1
def recCell (ws : List Dword) : Nat := field ws 166 164
def recClus (ws : List Dword) : Nat := field ws 169 167
def recNdep (ws : List Dword) : Nat := field ws 172 170
def recCond (ws : List Dword) : Bool := field ws 173 173 == 1
def recAff (ws : List Dword) : Bool := field ws 174 174 == 1
def recOvf (ws : List Dword) : Bool := field ws 175 175 == 1
def recKimg (ws : List Dword) : Dword := BitVec.ofNat 64 (field ws 55 0)
def recEntry (ws : List Dword) : Nat := field ws 63 56
def recXaddr (ws : List Dword) : Nat := field ws 319 256
def recCompctr (ws : List Dword) : Dword := BitVec.ofNat 64 (field ws 375 320)
def recCscope (ws : List Dword) : Nat := field ws 383 380

/-- The product of the extents of fields lo to hi − 1. -/
def extentsOf (ws : List Dword) (lo hi : Nat) : Nat :=
  (List.range (hi - lo)).foldl (fun n i => n * recExtent ws (lo + i)) 1

/-- Threads of a cell, groups of a cell, and cells (R37, R38). -/
def cellThreads (ws : List Dword) : Nat := extentsOf ws 0 (recCell ws)
def cellGroups (ws : List Dword) : Nat := (cellThreads ws + Config.lanes - 1) / Config.lanes
def cellCount (ws : List Dword) : Nat := extentsOf ws (recCell ws) 6
/-- Cells of a batch, and batches (03 R75). -/
def batchCells (ws : List Dword) : Nat := extentsOf ws (recCell ws) (recClus ws)
def batchCount (ws : List Dword) : Nat := extentsOf ws (recClus ws) 6

/-- The fields lo to hi − 1 of a WID whose mixed-radix number is `n`, the lowest varying fastest. -/
def widFields (ws : List Dword) (hi : Nat) : List Nat → Nat → Nat
  | [], _ => 0
  | i :: t, n =>
    if hi ≤ i then 0
    else n % recExtent ws i * 2 ^ recBase ws i + widFields ws hi t (n / recExtent ws i)

/-- The WID of thread `t` of cell `n` (R35, R38; 03 R74). -/
def recWid (ws : List Dword) (n t : Nat) : Dword :=
  BitVec.ofNat 64 (widFields ws (recCell ws) [0, 1, 2, 3, 4, 5] t +
    widFields ws 6 (([0, 1, 2, 3, 4, 5] : List Nat).drop (recCell ws)) n)

/-! ### Cores in the partition's order (R70 to R72) -/

/-- Entry `i` of a die's logical core table. -/
def State.lptEntry (s : State) (d i : Nat) : Nat := bits (s.reg (.lpt d (i / 8))) (8 * (i % 8) + 7) (8 * (i % 8))

/-- The core is live in HMAP. -/
def State.live (s : State) (d p : Nat) : Bool := decide (p < 48) && (s.reg (.hmap d)).getLsbD p

/-- The core numbers of a die's valid entries, in LPT order. -/
def State.dieCores (s : State) (d : Nat) : List Nat :=
  (List.range 48).filterMap fun i =>
    let e := s.lptEntry d i
    if 128 ≤ e ∧ s.live d (e % 64) = true then some (48 * d + e % 64) else none

/-- Valid entries whose core is not live, as (logical index, physical core). -/
def State.deadEntries (s : State) (d : Nat) : List (Nat × Nat) :=
  (List.range 48).filterMap fun i =>
    let e := s.lptEntry d i
    if 128 ≤ e ∧ s.live d (e % 64) = false then some (i, e % 64) else none

/-- The dies of a partition. -/
def State.diesOfPart (s : State) (p : Nat) : List Nat := (List.range 8).filter fun d => (s.partDies p).testBit d

/-- Takes the elements of some lists in turn, round by round. -/
def interleave (n : Nat) (ls : List (List Nat)) : List Nat :=
  (List.range n).flatMap fun i => ls.filterMap fun l => l[i]?

/-- The partition's core order (R72). -/
def State.positions (s : State) (p : Nat) : List Nat := interleave 48 ((s.diesOfPart p).map s.dieCores)

/-- The partition position of a core: what LCORE reads (R72). -/
def State.positionOf (s : State) (p core : Nat) : Nat := (s.positions p).findIdx fun c => c == core

end Sys2Proof.Machine
end

