-- ==== Sys2Proof/Machine/Placing.lean ====
section
/-! DEFINITION. How a group comes to stand in a slot (spec 02 R33, R38, R39; 03 R65 to R67, R73; 05 R110, R136, R137):
entry records, a core's room, and the creation of a group. -/

namespace Sys2Proof.Machine

/-! ### Entry records (02 R33, R34) -/

/-- The demands of an entry record, and its code offset. -/
structure Demand where
  vr : Nat
  sr : Nat
  acct : Nat
  obuf : Nat
  code : Nat
  deriving DecidableEq, Repr

/-- The demands that an entry record states. -/
def demandOf (ws : List Dword) : Demand := ⟨field ws 40 32, field ws 47 41, field ws 52 48, field ws 79 64, field ws 31 0⟩

/-- An entry record that R33 accepts. -/
def entryOk (ws : List Dword) (codeSz : Nat) : Bool :=
  let d := demandOf ws
  field ws 255 80 == 0 && field ws 63 53 == 0 && decide (d.obuf ≤ 512) && decide (d.acct ≤ 16) && d.code % 8 == 0 &&
  decide (d.code < codeSz)

/-- Entry record `ent` of a kernel image, read by a unit of a context. -/
def State.readEntry (s : State) (ctx : Nat) (priv : Bool) (kimg : Dword) (ent : Nat) : Option (List Dword) :=
  s.readWords ctx priv (kimg + BitVec.ofNat 64 (64 + 32 * ent)) 4

/-! ### A core's room (03 R65, R73; 01 R28) -/

/-- The resident groups of a core. -/
def State.coreGroups (s : State) (core : Nat) : List (Nat × Group) := s.groups.filter fun x => x.1 / 32 == core

/-- The lowest free slot of a core. -/
def State.freeSlot (s : State) (core : Nat) : Option Nat :=
  let used := (s.coreGroups core).map fun x => unitSlot x.1
  (List.range 32).find? fun k => !used.elem k

/-- Free slots, register bytes, accumulator tiles and operand-buffer KiB of a core. -/
def State.freeSlots (s : State) (core : Nat) : Nat := 32 - (s.coreGroups core).length
def State.freeRegs (s : State) (core : Nat) : Nat :=
  0x200000 - (s.coreGroups core).foldl (fun n x => n + 256 * (x.2.vr + 1)) 0
def State.freeTiles (s : State) (core : Nat) : Nat := 16 - (s.coreGroups core).foldl (fun n x => n + x.2.acct) 0
def State.freeObuf (s : State) (core : Nat) : Nat :=
  512 - (s.cells.filter fun x => x.2.core == some core).foldl (fun n x => n + x.2.obuf * x.2.ngroup) 0

/-- The core has room for `n` groups of these demands; `obuf` are the KiB of their share. -/
def State.fits (s : State) (core n vr acct obuf : Nat) : Bool :=
  decide (n ≤ s.freeSlots core) && decide (256 * (vr + 1) * n ≤ s.freeRegs core) && decide (acct * n ≤ s.freeTiles core) &&
  decide (obuf ≤ s.freeObuf core)

/-- The core may be given groups: its die has power, and its cluster is awake and not offline (21 R401; 24 R435). -/
def State.coreUp (s : State) (core : Nat) : Bool :=
  (s.die (core / 48)).power && !(s.cluster (clusterOf core)).offline && !(s.cluster (clusterOf core)).asleep

/-! ### Creation -/

/-- A group without anything: every sparse table empty. -/
def blankGroup : Group where
  uid := 0
  launch := none
  ctx := 0
  cell := 0
  cellNo := 0
  index := 0
  ngroup := 1
  lcore := 0
  kimg := 0
  nent := 0
  args := 0
  ent := 0
  vr := 0
  sr := 0
  acct := 0
  obuf := 0
  tlsb := 0
  tlsBase := 0
  prio := 0
  wids := []
  stamp := 0
  vregs := []
  sregs := []
  preds := []
  lstat := []
  pc := []
  depth := []
  rstack := []
  flags := []
  latch := []
  latchOk := 0
  unacked := 0
  region := ⟨[], 0, false⟩
  resume := none
  buf := []
  fenceSet := []
  fences := []
  ldbc := false
  clause := none
  pend := []
  wait := .no
  readyAt := none
  urgent := false
  view := noView
  viewU := noView
  reads := []
  heard := []
  covers := []
  coversK := []
  jobs := []
  intrap := false
  shadow := none
  taddr := 0
  tscr := []
  taking := none
  late := none
  bars := []
  parent := none
  seqNo := 0
  kids := []
  ended := []
  acc := []
  accPoison := []
  engine := none

/-- The initial values of R39: arguments and image base in s0 to s3, every present thread at the first clause. -/
def Group.init (g : Group) (start : Dword) : Group :=
  let pcs := (List.range g.wids.length).map fun L => (L, start)
  let g := { g with pc := pcs, region := ⟨pcs, 0, false⟩ }
  (((g.setS 0 (lowWord g.args)).setS 1 (highWord g.args)).setS 2 (lowWord g.kimg)).setS 3 (highWord g.kimg)

/-- The group of index `i` of cell `n`. -/
def Launch.group (l : Launch) (k id cell n i lcore : Nat) : Group :=
  let lo := Config.lanes * i
  let hi := min (cellThreads l.words) (lo + Config.lanes)
  let g : Group :=
    { blankGroup with
      uid := id
      launch := some k
      ctx := l.ctx
      cell := cell
      cellNo := BitVec.ofNat 64 n
      index := i
      ngroup := cellGroups l.words
      lcore := lcore
      kimg := recKimg l.words
      nent := l.nent
      args := BitVec.ofNat 64 (field l.words 247 192)
      ent := recEntry l.words
      vr := l.vr
      sr := l.sr
      acct := l.acct
      obuf := l.obuf
      tlsb := l.tlsb
      tlsBase := BitVec.ofNat 64 (field l.side 831 768)
      prio := l.list
      view := l.view
      viewU := l.view
      wids := (List.range (hi - lo)).map fun t => recWid l.words n (lo + t) }
  g.init l.start

/-- A core's caches before a launch's first clause on it (17 R352). -/
def CoreSt.seeLaunch (c : CoreSt) (l : Option Nat) : CoreSt :=
  match l with
  | none => c
  | some k => if c.launches.elem k then c else { c with launches := sput c.launches k, l1 := [], kcache := [] }

/-- Puts a group into a slot with the core's next stamp (05 R111). -/
def State.enterSlot (s : State) (core slot : Nat) (g : Group) : State :=
  let c := (s.core core).seeLaunch g.launch
  (s.putCore core { c with stamp := c.stamp + 1 }).putGroup (unitOf core slot) { g with stamp := c.stamp }

/-- A cell that holds no matrix state (12 R283). -/
def newCell (uid core ctx : Nat) (launch : Option Nat) (ngroup obuf : Nat) : CellSt :=
  ⟨uid, some core, ctx, launch, ngroup, obuf, [], [], [], [], [], [], [], 0, false⟩

/-- What happens before a child: all that its spawner has acquired, and the stores that it has committed, those in flight among
them (R137; 17 R347). -/
def State.spawnView (s : State) (g : Group) (stores : List Nat) : View :=
  g.view.join ⟨s.ownWrites g.uid true s.uid ++ stores, []⟩

/-- The child of a group (R137), numbered `id`, in the cell `cell`; `v` is what happens before it. -/
def Group.child (p : Group) (id cell : Nat) (base : Dword) (ent q : Nat) (d : Demand) (codeBase : Dword)
    (stores : List Nat) (v : View) : Group :=
  let g : Group :=
    { blankGroup with
      uid := id
      launch := p.launch
      ctx := p.ctx
      cell := cell
      cellNo := p.cellNo
      lcore := p.lcore
      kimg := p.kimg
      nent := p.nent
      args := p.args
      ent := ent
      vr := d.vr
      sr := d.sr
      acct := d.acct
      obuf := d.obuf
      tlsb := p.tlsb
      tlsBase := p.tlsBase
      prio := p.prio
      wids := (List.range Config.lanes).map fun L => base + BitVec.ofNat 64 L
      wait := if stores.isEmpty then .no else .stores stores
      view := v
      viewU := v
      parent := some p.uid
      seqNo := q }
  g.init (codeBase + BitVec.ofNat 64 d.code)

/-- Places a child in a free slot of a core, in a cell of its own. -/
def State.placeChild (s : State) (core slot : Nat) (p : Group) (id : Nat) (base : Dword) (ent q : Nat) (d : Demand)
    (codeBase : Dword) (stores : List Nat) : State :=
  let cell := s.uid
  let s := (s.fresh).putCell cell (newCell cell core p.ctx p.launch 1 d.obuf)
  s.enterSlot core slot (p.child id cell base ent q d codeBase stores (s.jobView (id + 1)))

/-! ### The overflow list (03 R65) -/

/-- OVFADDR and OVFCAP of a launch, 0 entries where it gives none. -/
def Launch.overflow (l : Launch) : Nat × Nat :=
  if field l.words 175 175 = 1 then (field l.side 703 640, field l.side 735 704) else (0, 0)

/-- The code section of a group's launch: its base and size (02 R32). -/
def State.codeSection (s : State) (g : Group) : Dword × Nat :=
  match g.launch.bind (aget s.launches) with
  | some l => (l.codeBase, l.codeSz)
  | none => (0, 0)

/-- The overflow list of a group's launch. -/
def State.overflow (s : State) (g : Group) : Nat × Nat :=
  match g.launch.bind (aget s.launches) with
  | some l => l.overflow
  | none => (0, 0)

/-- The address of an entry of a core's ring. -/
def ringAddr (ovf : Nat × Nat) (core entry : Nat) : Dword :=
  BitVec.ofNat 64 (ovf.1 + core * ovf.2 * 64 + entry % ovf.2 * 64)

/-- The ring of a launch on a core: the next entry number, and the children it holds in order. -/
def CoreSt.ring (c : CoreSt) (l : Option Nat) : Nat × List RingChild :=
  match l with
  | none => (0, [])
  | some k => (aget c.rings k).getD (0, [])
def CoreSt.setRing (c : CoreSt) (l : Option Nat) (r : Nat × List RingChild) : CoreSt :=
  match l with
  | none => c
  | some k => { c with rings := aput c.rings k r }

/-- DATA of a spawn-error record (24 R427). -/
def spawnData (wid : Dword) (ent q reason slot : Nat) : Nat :=
  wid.toNat + 2 ^ 64 * ent + 2 ^ 72 * q + 2 ^ 88 * reason + 2 ^ 92 * slot

/-- Reports a spawn error and counts it (24 R436). -/
def State.spawnError (s : State) (u ctx : Nat) (wid : Dword) (ent q reason slot : Nat) : State :=
  let s := s.logCtx ctx (srcUnit u) 0x03 (spawnData wid ent q reason slot)
  match s.partOfCtx ctx with
  | some p => s.countErr p 5 1
  | none => s

/-- The 64 bytes of a ring entry (03 R65). -/
def ringBytes (base : Dword) (q ent prio pslot : Nat) : List Byte :=
  natLE (1 + 2 ^ 32 * pslot + 2 ^ 38 * prio + 2 ^ 40 * ent + 2 ^ 48 * q + 2 ^ 64 * base.toNat) 64

/-- What a SPAWN came to. -/
inductive Spawned where
  | failed (s : State)
  | placed (s : State)
  | queued (s : State)

/-- The entry number that a ring of `cap` entries takes next: the first from its tail on whose place holds no child.
DEDUCED (log entry 77): a child that left out of order leaves its place to a later one. -/
def nextEntry (cap : Nat) (r : Nat × List RingChild) : Nat :=
  (((List.range (r.2.length + 1)).map fun i => r.1 + i).find? fun n => !r.2.any fun c => c.entry % cap == n % cap).getD r.1

/-- Appends a child to its core's overflow list (05 R136 step 3). -/
def State.queueChild (s : State) (u : Nat) (g : Group) (id : Nat) (base : Dword) (ent q : Nat) (stores : List Nat) :
    Spawned :=
  let core := coreOf u
  let ovf := s.overflow g
  let c := s.core core
  let r := c.ring g.launch
  if ovf.2 ≤ r.2.length then .failed s
  else
    let n := nextEntry ovf.2 r
    match s.devRange g.ctx accStore (s.groupPriv g) (ringAddr ovf core n) 64 with
    | .ok ps =>
      let bs := (ringBytes base q ent g.prio (unitSlot u)).map fun b => (b, false)
      let s := (s.touchAll ps).devPut .d (srcUnit u) 0 (s.ctxFn g.ctx) false ps bs
      let k : RingChild := ⟨n, id, g.uid, unitSlot u, q, stores, g.cellNo, base, ent⟩
      .queued (s.putCore core ((s.core core).setRing g.launch (n + 1, r.2 ++ [k])))
    | _ => .failed (s.spawnError u g.ctx base ent 0xFFFF 4 (unitSlot u))

/-- SPAWN's steps 2 and 3 (05 R136). `id` numbers the child, `q` is its sequence number. -/
def State.spawn (s : State) (u : Nat) (g : Group) (base : Dword) (ent id q : Nat) (stores : List Nat) : Spawned :=
  let core := coreOf u
  let fail (r : Nat) : Spawned := .failed (s.spawnError u g.ctx base ent 0xFFFF r (unitSlot u))
  if g.nent ≤ ent then fail 1
  else
    match s.readEntry g.ctx (s.groupPriv g) g.kimg ent with
    | none => fail 4
    | some ws =>
      let s := s.putView (id + 1) (s.spawnView g stores)
      let s := s.touchVa g.ctx (s.groupPriv g) (g.kimg + BitVec.ofNat 64 (64 + 32 * ent)) 32
      let (codeBase, codeSz) := s.codeSection g
      if !entryOk ws codeSz then fail 1
      else
        let d := demandOf ws
        match s.freeSlot core with
        | some slot =>
          if s.fits core 1 d.vr d.acct d.obuf then .placed (s.placeChild core slot g id base ent q d codeBase stores)
          else s.queueChild u g id base ent q stores
        | none => s.queueChild u g id base ent q stores

end Sys2Proof.Machine
end

