-- ==== Sys2Proof/Machine/Saving.lean ====
section
/-! DEFINITION. Save images (spec 21 R396 to R398; 03 R68): when a group may be saved, what is saved, the save area, and
how a group becomes resident again. -/

namespace Sys2Proof.Machine

/-! ### When (21 R396) -/

/-- What is pending is a bus step or subscription: no result, and it goes on without its group (12 R308). -/
def onBus (p : Instr) : Bool :=
  match p with
  | .buspub .. | .bussub .. => true
  | _ => false

/-- A group may leave its slot for a save: no clause under way, nothing in flight but parked lanes and LDB.w waits, its
stores acknowledged, and no LDB.c in its open region (09 R232). -/
def Group.mayLeave (g : Group) : Bool :=
  ((g.clause.all fun c => !c.started) || g.wait != .no) &&
  (match g.wait with
    | .drain _ | .exit => false
    | _ => true) &&
  g.taking.isNone && g.late.isNone && !g.ldbc && g.unacked == 0 &&
  g.pend.all fun p => onBus p.ins || (p.left == 0 && !p.lanes.isEmpty && p.lanes.all fun l => l.st.stays)

/-- No operation on the group's tiles, and no copy into its cell's reservations, is under way (12 R308, 11 R270). -/
def State.engineIdle (s : State) (u : Nat) (g : Group) : Bool :=
  let c := s.core (coreOf u)
  (c.ops.all fun o => o.members.all fun m => m.uid != g.uid) &&
  (s.copies.all fun k =>
    match k.img with
    | .ob cell _ _ => cell != g.cell
    | _ => true) &&
  (s.copyms.all fun k => k.cell != g.cell) && (s.copymOps.all fun o => o.members.all fun k => k.cell != g.cell)

/-! ### The save area (21 R374, R398) -/

def State.nslot (s : State) (c : Nat) : Nat := bits (s.reg (.savectl c)) 47 32
def State.slotsz (s : State) (c : Nat) : Nat := bits (s.reg (.savectl c)) 31 0

/-- The lowest save slot of a context that holds no image. -/
def State.freeSave (s : State) (c : Nat) : Option Nat :=
  let used := (s.saved.filter fun i => i.ctx == c).map (·.slot)
  let n := min (s.nslot c) (used.length + 1)
  (List.range n).find? fun k => !used.elem k

/-- Bytes of a group in an image. -/
def Group.imageBytes (g : Group) : Nat := 256 + 16 * 64 + 64 * 64 + (4 * (g.sr + 1) + 63) / 64 * 64 + 256 * (g.vr + 1) + 2048

/-- Where the vector registers of a group begin, from the start of the group's sections. -/
def Group.imageVregs (g : Group) : Nat := 256 + 16 * 64 + 64 * 64 + (4 * (g.sr + 1) + 63) / 64 * 64

/-- Bytes of the sections before the groups'. -/
def imageHead (gs : List Group) : Nat :=
  match gs.head? with
  | none => 1024
  | some g => 1024 + 1024 * g.obuf * gs.length + 28672 * g.acct * gs.length

/-- The KiB that an image needs (R398). -/
def imageKiB (gs : List Group) : Nat := (imageHead gs + gs.foldl (fun n g => n + g.imageBytes) 0 + 4095) / 4096 * 4

/-- Where the sections of each group begin: they follow one another in GROUP order. -/
def imageStarts (gs : List Group) : List Nat :=
  (List.range gs.length).map fun i => imageHead gs + (gs.take i).foldl (fun n g => n + g.imageBytes) 0

/-- The 16 bytes of a lane in an image: its PC, all ones once it has left the table; its predicates; LSTAT; its depth. -/
def Group.imageLane (g : Group) (L : Nat) : List Byte :=
  natLE (((aget g.pc L).map (·.toNat)).getD (2 ^ 56 - 1)) 7 ++
  [BitVec.ofNat 8 ((List.range 7).foldl (fun n k => if (g.pred (BitVec.ofNat 3 k)).getLsbD L then n + 2 ^ k else n) 0)] ++
  natLE (g.lstatOf L).toNat 4 ++ natLE (g.depthOf L) 4

/-- The sections of a group that hold registers, from byte 256 on: the lanes, the return frames, the scalar registers, and
the vector registers where R398 puts them. The layout within the others is a DESIGN CHOICE (log entry 12). -/
def Group.imageRegs (g : Group) : List Byte :=
  ((List.range 64).flatMap g.imageLane) ++
  ((List.range 64).flatMap fun L => (List.range 8).flatMap fun e => natLE (agetD 0 g.rstack (64 * e + L)).toNat 8) ++
  ((List.range ((4 * (g.sr + 1) + 63) / 64 * 16)).flatMap fun n => natLE (g.sreg n).toNat 4) ++
  ((List.range (64 * (g.vr + 1))).flatMap fun k => natLE (agetD 0 g.vregs k).toNat 4)

/-- The bytes of the sections before the groups' that hold the share and the accumulator tiles; nothing for a joiner, whose
cell stays where it is. -/
def imageCell (c : Option CellSt) (gs : List Group) : List Byte :=
  match c with
  | none => []
  | some c =>
    ((List.range (1024 * c.obuf * gs.length)).map fun o => agetD 0 c.share o) ++
    gs.flatMap fun g => (List.range (4096 * g.acct)).flatMap fun k => natLE (g.accCell k).toNat 7

/-- Everything that an image holds in known places, as (offset, byte). -/
def imageData (c : Option CellSt) (gs : List Group) : List (Nat × Byte) :=
  dataOf 1024 (imageCell c gs) ++ ((imageStarts gs).zip gs).flatMap fun x => dataOf (x.1 + 256) x.2.imageRegs

/-- A slot lies in memory. -/
def State.slotThere (s : State) (base : Nat) (gs : List Group) : Bool :=
  s.physOk base (imageKiB gs * 1024) && !inRegs base

/-- Writes an image into its slot: free bytes, and in their places those that it holds in known ones. -/
def State.writeImage (s : State) (id c slot core : Nat) (cell : Option CellSt) (gs : List Group) : State :=
  let base := (s.reg (.savebase c)).toNat + slot * s.slotsz c * 1024
  let n := imageKiB gs * 1024
  if s.slotThere base gs then
    let rest := (List.range n).map fun i => (base + i, Config.freeImage id i)
    let s := s.performWrite .d (srcCore core) 0 rest [] []
    s.performWrite .d (srcCore core) 0 ((imageData cell gs).map fun x => (base + x.1, x.2)) [] []
  else s

/-- The little-endian number of `n` bytes in the slot of an image. -/
def State.imageNat (s : State) (base o n : Nat) : Nat := leNat (s.bytes (base + o) n)

/-- Some of `n` bytes of an image that the save left free no longer is what it was: software has written the slot. -/
def State.imageHit (s : State) (id base o n : Nat) : Bool :=
  (List.range n).any fun i => s.byte (base + o + i) != Config.freeImage id (o + i)

/-- A group as the bytes of its sections give it; what the changed bytes of the header and of the replay entries say is
free (R398). -/
def State.readGroup (s : State) (id base o : Nat) (g : Group) : Group :=
  let lane (L : Nat) : Nat := o + 256 + 16 * L
  let frames := o + 256 + 1024
  let sregs := frames + 4096
  let vregs := o + g.imageVregs
  let pcs := (List.range 64).filterMap fun L =>
    let a := s.imageNat base (lane L) 7
    if a = 2 ^ 56 - 1 then none else some (L, (BitVec.ofNat 64 a : Dword))
  let pred (k : Nat) : Lanes := (List.range 64).foldl (fun m L =>
    if (s.imageNat base (lane L + 7) 1).testBit k then m ||| (1#64 <<< L) else m) 0
  let words (w : Nat) (l : List (Nat × Nat)) : Assoc (BitVec w) :=
    l.foldl (fun t x => asetD 0 t x.1 (BitVec.ofNat w x.2)) []
  let g' : Group :=
    { g with
      pc := pcs
      region := ⟨pcs, g.region.index, g.region.half⟩
      preds := (List.range 7).foldl (fun t k => asetD 0 t k (pred k)) []
      lstat := words 32 ((List.range 64).map fun L => (L, s.imageNat base (lane L + 8) 4))
      depth := (List.range 64).foldl (fun t L => asetD 0 t L (s.imageNat base (lane L + 12) 4)) []
      rstack := words 64 ((List.range 64).flatMap fun L =>
        (List.range 8).map fun e => (64 * e + L, s.imageNat base (frames + 64 * L + 8 * e) 8))
      sregs := words 32 ((List.range (g.sr + 1)).map fun n => (n, s.imageNat base (sregs + 4 * n) 4))
      vregs := words 32 ((List.range (64 * (g.vr + 1))).map fun k => (k, s.imageNat base (vregs + 4 * k) 4)) }
  let g' :=
    if s.imageHit id base o 256 then
      { g' with
        flags := (List.range 12).foldl (fun t n => asetD 0 t n ((Config.freeField id (o + n)).toNat % 64)) []
        resume := some ((Config.freeField id (o + 12)).toNat % 16, false) }
    else g'
  if s.imageHit id base (o + g.imageBytes - 2048) 2048 then
    { g' with
      pend := g'.pend.map fun p =>
        { p with lanes := p.lanes.map fun l => { l with addr := Config.freeField id (o + 64 + l.lane) } } }
  else g'

/-- The first byte of the slot that holds an image. -/
def State.imageBase (s : State) (i : SaveImg) : Nat := (s.reg (.savebase i.ctx)).toNat + i.slot * s.slotsz i.ctx * 1024

/-- The accumulator cells of a group in its image: group `j` of those saved. -/
def State.readTiles (s : State) (base : Nat) (c : CellSt) (gs : List Group) (j : Nat) (g : Group) : Group :=
  let o := 1024 + 1024 * c.obuf * gs.length + ((gs.take j).foldl (fun n x => n + 28672 * x.acct) 0)
  { g with
    acc := (List.range (4096 * g.acct)).foldl (fun t k =>
      asetD 0 t k (BitVec.ofNat 56 (s.imageNat base (o + 7 * k) 7))) [] }

/-- The groups of an image as the bytes that its slot holds now give them. -/
def State.readImage (s : State) (i : SaveImg) : List Group :=
  let base := s.imageBase i
  let gs := i.groups.map (·.g)
  let rs := if s.slotThere base gs then ((imageStarts gs).zip gs).map fun x => s.readGroup i.id base x.1 x.2 else gs
  match (if s.slotThere base gs then i.cell else none) with
  | none => rs
  | some c => ((List.range rs.length).zip rs).map fun x => s.readTiles base c gs x.1 x.2

/-- The cell of an image: its share from the bytes of the slot; the gang registers, mask slots and barriers are free where
software has changed the cell's header (R398). -/
def State.readCell (s : State) (i : SaveImg) (c : CellSt) : CellSt :=
  let base := s.imageBase i
  if !s.slotThere base (i.groups.map (·.g)) then c else
  let c := { c with
    share := (List.range (1024 * c.obuf * i.groups.length)).foldl (fun t o => asetD 0 t o (s.byte (base + 1024 + o))) [] }
  if s.imageHit i.id base 0 1024 then
    { c with
      gangs := c.gangs.map fun x => (x.1, BitVec.ofNat 32 (Config.freeField i.id x.1).toNat)
      masks := c.masks.map fun x =>
        let f (k : Nat) := Config.freeField i.id (100 + 4 * x.1 + k)
        (x.1, f 0 ++ f 1 ++ f 2 ++ f 3)
      barriers := c.barriers.map fun x =>
        (x.1, { x.2 with phase := BitVec.ofNat 32 (Config.freeField i.id (400 + x.1)).toNat }) }
  else c

/-! ### Saving and restoring a group -/

/-- A group as its image holds it: at its region start, its parked lanes and LDB.w waits kept (R396, R397). -/
def Group.saved (g : Group) : Group :=
  let g := g.restart
  { g with
    wait := match g.wait with
      | .fault reqs => .fault reqs
      | .stores l => .stores l
      | _ => .no }

/-- An LDB.w wait is issued again, in the basin of the die on which its group now stands, and takes a new place (R397). -/
def LaneReq.again (u len t : Nat) (l : LaneReq) : LaneReq :=
  match l.st with
  | .full k =>
    match chkBasin u l.addr.toNat len 1 with
    | .ok ps => { l with st := .full (t + k % 64), pieces := ps }
    | _ => l
  | _ => l

/-- A group as it becomes resident again at an issuer's place: a wait whose requests have been resolved is over (R397). -/
def State.revive (s : State) (u t : Nat) (g : Group) : Group :=
  { g with
    pend := g.pend.map fun p => { p with lanes := p.lanes.map (LaneReq.again u (accessBytes p.ins) t) }
    wait := match g.wait with
      | .fault reqs => if reqs.any s.outstanding then .fault reqs else .no
      | w => w }

/-- Puts a saved group into a slot: its core's caches start empty (R397). -/
def State.restoreGroup (s : State) (core slot lcore : Nat) (g : Group) : State :=
  let die := core / 48
  let s := s.takeTickets die
  let g := s.revive (unitOf core slot) ((s.die die).ticket - 64) { g with lcore := lcore }
  let s := s.putCore core { s.core core with l1 := [], kcache := [] }
  s.enterSlot core slot g

/-- Withdraws the arrival of a waiting group: it goes back to its MMA, where it will arrive again (12 R293). -/
def State.withdrawGroup (s : State) (u : Nat) : State :=
  match s.group? u with
  | none => s
  | some g =>
    match g.wait with
    | .rendezvous _ =>
      let s := s.withdrawArrival u g
      s.onGroup u g.uid fun g => { g.restart with wait := .no }
    | _ => s

/-- A record of a refused save (24 R427). -/
def refusedData (c reason kib die core slot : Nat) : Nat :=
  c + 2 ^ 8 * reason + 2 ^ 16 * kib + 2 ^ 48 * die + 2 ^ 51 * core + 2 ^ 57 * slot

/-! ### Saved joiners (03 R68) -/

/-- A sequence number lies in q, q + 1, … q + n − 1 modulo 2^16; n = 0 takes every one (05 R138). -/
def namesSeq (q n x : Nat) : Bool := n == 0 || decide ((x + 65536 - q) % 65536 < n)

/-- The live children that a JOIN names. -/
def Group.named (g : Group) (q n : Nat) : List Kid := g.kids.filter fun k => namesSeq q n k.seqNo

/-- Takes a cell off its core when none of its groups is left there. -/
def State.vacate (s : State) (cell : Nat) : State :=
  match s.cell? cell with
  | none => s
  | some c => if s.groups.any fun x => x.2.cell == cell then s else s.putCell cell { c with core := none }

/-- What an attempt to save a joiner came to: nothing, while the group may not leave. -/
inductive JoinSave where
  | no
  | refused
  | saved (s : State)

/-- Saves a group that waits in JOIN, for the queued children that it names, unless the save is refused (21 R398). -/
def State.saveJoiner (s : State) (u : Nat) : JoinSave :=
  match s.group? u with
  | none => .no
  | some g =>
    match g.wait with
    | .join q n =>
      if (g.named q n).any (·.queued) && g.mayLeave && s.engineIdle u g then
        let sv := { g.saved with wait := .join q n }
        match s.freeSave g.ctx with
        | none => .refused
        | some k =>
          if s.slotsz g.ctx < imageKiB [g] then .refused
          else
            let img : SaveImg := ⟨s.uid, g.ctx, k, coreOf u, none, [⟨sv, unitSlot u⟩], some s.now, none, (s.core (coreOf u)).spawn⟩
            let s := s.fresh.writeImage img.id g.ctx k (coreOf u) none [sv]
            .saved (State.vacate { s with groups := adel s.groups u, saved := s.saved ++ [img] } g.cell)
      else .no
    | _ => .no

/-- A record of a joiner's refused save. -/
def State.joinerRefused (s : State) (u : Nat) : State :=
  match s.group? u with
  | none => s
  | some g => s.logCtx g.ctx (srcUnit u) 0x0D (refusedData g.ctx 3 (imageKiB [g]) (unitDie u) (unitCore u) (unitSlot u))

end Sys2Proof.Machine
end

