-- ==== Sys2Proof/Machine/Slots.lean ====
section
/-! DEFINITION. Freed slots (spec 03 R66 to R68): saved joiners, overflowed children, and the save of a waiting joiner. -/

namespace Sys2Proof.Machine

/-! ### Saved joiners (03 R67) -/

/-- The core on which a saved joiner resumes: its cell's. -/
def State.joinerCore (s : State) (i : SaveImg) : Option Nat :=
  match i.groups.head? with
  | none => none
  | some y =>
    match s.cell? y.g.cell with
    | none => none
    | some c => some (c.core.getD i.core)

/-- Operand-buffer KiB that a joiner's return takes: its cell's share, unless the cell still stands there. -/
def State.joinerObuf (s : State) (g : Group) : Nat :=
  match s.cell? g.cell with
  | some c => if c.core.isSome then 0 else c.obuf * c.ngroup
  | none => 0

/-- A saved joiner may take a slot of a core: none of its named children is queued, and it fits. -/
def State.joinerFits (s : State) (core : Nat) (i : SaveImg) : Bool :=
  i.joiner.isSome && s.joinerCore i == some core &&
  match i.groups.head? with
  | none => false
  | some y =>
    (match y.g.wait with
      | .join q n => (y.g.named q n).all fun k => !k.queued
      | _ => true) &&
    s.fits core 1 y.g.vr y.g.acct (s.joinerObuf y.g)

/-- The joiner that comes first: the earliest save, then the slot that it left. -/
def State.nextJoiner (s : State) (core : Nat) : Option SaveImg :=
  leastBy (fun i => i.joiner.getD 0 * 32 + ((i.groups.head?).map (·.slot)).getD 0) (s.saved.filter (s.joinerFits core))

/-- A joiner resumes at its JOIN in a slot of a core. -/
def State.fillJoiner (s : State) (core slot : Nat) (i : SaveImg) : State :=
  match s.readImage i with
  | [] => s
  | g :: _ =>
    let s := State.saveFreed { s with saved := s.saved.filter fun x => x.id != i.id } i.ctx
    let s := match s.cell? g.cell with
      | some c => s.putCell g.cell { c with core := some core }
      | none => s
    let lcore := match s.partOfCtx g.ctx with
      | some p => s.positionOf p core
      | none => g.lcore
    s.restoreGroup core slot lcore { g with wait := .no }

/-! ### Overflowed children (03 R66) -/

/-- A child leaves the overflow list, in one group's record of its children. -/
def Group.unqueue (kid : Nat) (g : Group) : Group :=
  { g with kids := g.kids.map fun k => if k.uid = kid then { k with queued := false } else k }

/-- A child leaves the overflow list. -/
def State.unqueue (s : State) (kid : Nat) : State :=
  let f (y : SavedGroup) : SavedGroup := ⟨y.g.unqueue kid, y.slot⟩
  let saved := s.saved.map fun (i : SaveImg) => { i with groups := i.groups.map f }
  { s with groups := s.groups.map fun x => (x.1, x.2.unqueue kid), saved := saved }

/-- Takes a child out of its ring; its entry no longer holds a child. -/
def State.takeRing (s : State) (core k : Nat) (l : Launch) (c : RingChild) : State :=
  let x := s.core core
  let r := x.ring (some k)
  let s := s.putCore core (x.setRing (some k) (r.1, r.2.filter fun y => y.uid != c.uid))
  match s.devRange l.ctx accStore (s.ctxSup l.ctx) (ringAddr l.overflow core c.entry) 8 with
  | .ok ps =>
    let w := natLE ((s.devRead ps).map (·.1) |> leNat |> (· / 2 * 2)) 8
    (s.touchAll ps).devPut .d (srcCore core) 0 (s.ctxFn l.ctx) false ps (w.map fun b => (b, false))
  | _ => s

/-- Drops a child: it counts as exited, and a spawn-error record is written (03 R66). -/
def State.dropChild (s : State) (core k : Nat) (l : Launch) (c : RingChild) (wid : Dword) (ent q reason : Nat) : State :=
  let s := s.takeRing core k l c
  let s := s.spawnError (unitOf core 0) l.ctx wid ent q reason c.parentSlot
  (s.dropKid (some c.parent) c.uid none).launchEnd (some k) false

/-- Places a child that fits, with the values read. -/
def State.fillChild (s : State) (core slot k : Nat) (l : Launch) (c : RingChild) (ws : List Dword) (d : Demand) : State :=
  let lcore := s.positionOf l.part core
  let p := { l.group k c.parent 0 0 0 lcore with cellNo := c.cellNo, prio := field ws 39 38 }
  let s := (s.takeRing core k l c).unqueue c.uid
  s.placeChild core slot p c.uid (BitVec.ofNat 64 (field ws 127 64)) (field ws 47 40) (field ws 63 48) d l.codeBase c.stores

/-- What considering a child of a ring came to. -/
inductive Considered where
  | placed (s : State)
  | dropped (s : State)
  | stays

/-- Considers a child for a slot (03 R66). -/
def State.consider (s : State) (core slot k : Nat) (l : Launch) (c : RingChild) : Considered :=
  let drop (wid : Dword) (ent q r : Nat) : Considered := .dropped (s.dropChild core k l c wid ent q r)
  match s.readWords l.ctx (s.ctxSup l.ctx) (ringAddr l.overflow core c.entry) 8 with
  | none => drop c.base c.ent c.seqNo 5
  | some ws =>
    let wid : Dword := BitVec.ofNat 64 (field ws 127 64)
    let ent := field ws 47 40
    let q := field ws 63 48
    if field ws 0 0 = 0 then drop wid ent q 2
    else if l.nent ≤ ent then drop wid ent q 3
    else
      match s.readEntry l.ctx (s.ctxSup l.ctx) (recKimg l.words) ent with
      | none => drop wid ent q 5
      | some en =>
        if !entryOk en l.codeSz then drop wid ent q 3
        else
          let d := demandOf en
          let s := s.touchVa l.ctx (s.ctxSup l.ctx) (recKimg l.words + BitVec.ofNat 64 (64 + 32 * ent)) 32
          if s.fits core 1 d.vr d.acct d.obuf then .placed (s.fillChild core slot k l c ws d) else .stays

/-- Considers the children of a ring in order, until one is placed: the state, and whether one was. -/
def State.fillRing (s : State) (core slot k : Nat) (l : Launch) : List RingChild → State × Bool
  | [] => (s, false)
  | c :: t =>
    match s.consider core slot k l c with
    | .placed s' => (s', true)
    | .dropped s' => s'.fillRing core slot k l t
    | .stays => s.fillRing core slot k l t

/-- Considers the rings of a core's launches: the state, and whether a child was placed. -/
def State.fillRings (s : State) (core slot : Nat) : List Nat → State × Bool
  | [] => (s, false)
  | k :: t =>
    match aget s.launches k with
    | none => s.fillRings core slot t
    | some l =>
      let r := s.fillRing core slot k l ((s.core core).ring (some k)).2
      if r.2 then r else r.1.fillRings core slot t

/-- The launches whose children a core's overflow lists hold. -/
def State.ringKeys (s : State) (core : Nat) : List Nat := (s.core core).rings.map (·.1)

/-! ### Freed slots (03 R67) -/

/-- A free slot of a core takes what the first source can supply: the state, and whether one could. -/
def State.fillOne (s : State) (core : Nat) : State × Bool :=
  if !s.coreUp core then (s, false)
  else
    match s.freeSlot core with
    | none => (s, false)
    | some slot =>
      match s.nextJoiner core with
      | some i => (s.fillJoiner core slot i, true)
      | none => s.fillRings core slot (s.ringKeys core)

/-- Fills at most `n` free slots of a core. -/
def State.fillSlots (s : State) (core : Nat) : Nat → State
  | 0 => s
  | n + 1 =>
    let r := s.fillOne core
    if r.2 then r.1.fillSlots core n else r.1

/-- Before a core's slots are given to anything else, its sources have filled every one that they can (R67). -/
def State.settle (s : State) (core : Nat) : State := s.fillSlots core 32

/-- SLOT_FILL: a free slot of a core is filled from its saved joiners, then from its overflow lists (R67). -/
def execSlotFill (core : Nat) (s : State) : Host.Outcome State Fault Refusal := .next (s.fillOne core).1.drawn

/-! ### The save of a waiting joiner (03 R68) -/

/-- The save of a waiting joiner is tried: its slot goes to the first overflowed child that fits. A refusal is reported the
first time (log entry 54), and the save is tried again when a save slot frees or a group of the core exits. -/
def State.tryJoiner (s : State) (u : Nat) : State :=
  match s.group? u with
  | none => s
  | some g =>
    match s.saveJoiner u with
    | .no => s
    | .refused =>
      let s := if (aget s.joinTries g.uid).isSome then s else s.joinerRefused u
      { s with joinTries := aput s.joinTries g.uid false }
    | .saved s' =>
      let core := coreOf u
      let s' := { s' with joinTries := adel s'.joinTries g.uid }
      (s'.fillRings core (unitSlot u) (s'.ringKeys core)).1

/-- JOINER_SAVE_RETRY: the save of a waiting joiner is tried again (R68). -/
def execJoinerSaveRetry (u : Nat) (s : State) : Host.Outcome State Fault Refusal :=
  match s.group? u with
  | none => .next s
  | some g => .next (if (aget s.joinTries g.uid).getD true then s.tryJoiner u else s)

end Sys2Proof.Machine
end

