-- ==== Sys2Proof/Machine/Control.lean ====
section
/-! DEFINITION. The control family, 0x0 (spec 05 R129 to R141). -/

namespace Sys2Proof.Machine

/-! ### Targets (R132) -/

/-- A valid control target. -/
def targetOk (t : Dword) : Bool := bits t 63 56 == 0 && bits t 2 0 == 0

/-- The target of the lowest lane of a set that would take an invalid one. -/
def badTarget (t : Nat → Dword) (m : Lanes) : Option Dword :=
  ((lanesList m).find? fun L => !targetOk (t L)).map t

/-- Ends the clause: the lanes of `m` go to their targets, the other head-run lanes to NextClause (R113, R134). -/
def Group.branch (g : Group) (t : Nat → Dword) (m : Lanes) : Group :=
  let n := g.nextClause
  g.endClause fun L => some (if m.getLsbD L then t L else n)

/-- Takes the branch, or the control-target trap (R132). -/
def State.branchTo (s : State) (u : Nat) (g : Group) (t : Nat → Dword) (m act : Lanes) : State :=
  match badTarget t m with
  | some a => s.trapAt u causeTarget a act
  | none => (s.putGroup u (g.branch t m)).drawn

/-- The target of BRA and CALL: the clause address + 8 × TGT (R132). -/
def Group.target (g : Group) (tgt : BitVec 32) : Dword := g.clauseAddr + 8 * tgt.signExtend 64

/-! ### NOP, BRA, BRAX -/

/-- NOP (R133). -/
def execNop (h : Head) (s : State) : Host.Outcome State Fault Refusal := issue h s fun u g _ => s.finish u g

/-- The lanes that BRA takes to its target (R134). -/
def braTaken (mode : BraMode) (head act : Lanes) : Lanes :=
  match mode with
  | .plain => act
  | .any => if act = 0 then 0 else head
  | .all => if act = head then head else 0

/-- BRA (R134). -/
def execBra (h : Head) (mode : BraMode) (tgt : BitVec 32) (s : State) : Host.Outcome State Fault Refusal :=
  issue h s fun u g act => s.branchTo u g (fun _ => g.target tgt) (braTaken mode g.headRun act) act

/-- BRAX (R134). -/
def execBrax (h : Head) (a : Src) (s : State) : Host.Outcome State Fault Refusal :=
  issue h s fun u g act => s.branchTo u g (src64 s u g · a) act act

/-! ### The return stack (R129, R130) -/

/-- The key of entry `e` of a lane. -/
def stackKey (L e : Nat) : Nat := 64 * e + L

/-- Entry `e` of a lane, as the core holds it. -/
def Group.stackAt (g : Group) (L e : Nat) : Dword := agetD 0 g.rstack (stackKey L e)

/-- Writes entry `e` of a lane in the core; 0 leaves the table. -/
def Group.setStack (g : Group) (L e : Nat) (x : Dword) : Group := { g with rstack := asetD 0 g.rstack (stackKey L e) x }

/-- Writes a lane's depth. -/
def Group.setDepth (g : Group) (L d : Nat) : Group := { g with depth := asetD 0 g.depth L d }

/-- The access of a lane to entry `e` in thread-local memory. -/
def stackLane (s : State) (u : Nat) (g : Group) (acc e L : Nat) : Lane :=
  let ea := tlBase u g L + BitVec.ofNat 64 (8 * e)
  ⟨L, ea, 0, s.chkVa g.ctx acc (s.groupPriv g) ea 8 1 none, true⟩

/-- A push beyond the thread-local allocation (R130). -/
def Group.pushOk (g : Group) (L : Nat) : Bool :=
  let d := g.depthOf L
  decide (d < 8) || decide (8 * (d - 7) ≤ g.tlsb)

/-- Pushes an address in a lane; an entry that leaves the core is taken out of it. -/
def Group.push (g : Group) (a : Dword) (L : Nat) : Group :=
  let d := g.depthOf L
  let g := (g.setStack L d a).setDepth L (d + 1)
  if 8 ≤ d then g.setStack L (d - 8) 0 else g

/-- The pushes and the transfer of a call, after its spills. -/
def Group.called (g : Group) (t : Nat → Dword) (act : Lanes) : Group :=
  ((lanesList act).foldl (fun x L => x.push g.nextClause L) g).branch t act

/-- A call whose spills reach an S page: the region commits, the spills go straight to the memory system, and the group,
transferred, waits until they have been performed (09 R224). DEDUCED (log entry 13). -/
def State.callSync (s : State) (u : Nat) (g : Group) (ins : Instr) (t : Nat → Dword) (act : Lanes) (bytes : List SByte) :
    State :=
  let s := s.commit u g.clauseIdx false
  let tok := s.uid
  let blocks := storeBlocks bytes
  match s.group? u with
  | none => s
  | some g =>
    let p : Pend := ⟨tok, none, ins, g.clauseAddr, g.clauseIdx, act, true, [], [], blocks.length, none⟩
    let g' := (g.called t act)
    let s := s.fresh.putGroup u { g' with pend := g'.pend ++ [p], wait := .drain tok }
    ((s.commit u 0 false).drawn).sendBlocks u tok [] blocks

/-- CALL and CALLX (R130, R134): traps, the spills as one store, the pushes and the transfer, then the commit (R125). -/
def State.call (s : State) (u : Nat) (g : Group) (ins : Instr) (t : Nat → Dword) (act : Lanes) : State :=
  if (lanesList act).any fun L => !g.pushOk L then s.trapAt u causeDepth 0 act
  else
    match badTarget t act with
    | some a => s.trapAt u causeTarget a act
    | none =>
      let deep := (lanesList act).filter fun L => decide (8 ≤ g.depthOf L)
      let ls := deep.map fun L => stackLane s u g accStore (g.depthOf L - 8) L
      match firstTrap ls with
      | some (c, i) => s.trapAt u c i act
      | none =>
        if faultsOf ls ≠ [] then s.abortStore u g accStore false ls
        else
          let bytes := storeBytes (fun L => natLE (g.stackAt L (g.depthOf L - 8)).toNat 8) ls
          let s := s.tlbFillLanes g.ctx accStore (s.groupPriv g) ls
          if anyS ls then s.callSync u g ins t act bytes
          else
            match bufStore g.buf bytes [] [] with
            | none => s.trapAt u causeOverflow 0 act
            | some b => ((s.putGroup u (Group.called { g with buf := b } t act)).commit u 0 false).drawn

/-- CALL (R134). -/
def execCall (h : Head) (tgt : BitVec 32) (s : State) : Host.Outcome State Fault Refusal :=
  issue h s fun u g act => s.call u g (.call h tgt) (fun _ => g.target tgt) act

/-- CALLX (R134). -/
def execCallx (h : Head) (a : Src) (s : State) : Host.Outcome State Fault Refusal :=
  issue h s fun u g act => s.call u g (.callx h a) (src64 s u g · a) act

/-- Pops a lane's stack; `refill` is the entry that comes back from memory. -/
def Group.pop (g : Group) (refill : Dword) (L : Nat) : Group :=
  let d := g.depthOf L - 1
  let g := (g.setStack L d 0).setDepth L d
  if 8 ≤ d then g.setStack L (d - 8) refill else g

/-- The refill of a lane: the entry that memory holds, or the poisoned granule that it met. -/
def State.refillOf (s : State) (u : Nat) (g : Group) (own : List (Nat × Byte)) (l : Lane) : Dword × Option Nat :=
  let c := s.core (coreOf u)
  let r := s.readThrough (g.must .d) c.l1 ⟨true, false, false⟩ own l.pieces
  (BitVec.ofNat 64 (leNat r.vals), r.bad)

/-- RET (R129, R130, R134). It waits while a store of the group to a refilled entry is on its way. Poison in a refilled
entry is trap 17: DEDUCED (log entry 13). -/
def State.ret (s : State) (u : Nat) (g : Group) (act : Lanes) : State :=
  if (lanesList act).any fun L => g.depthOf L == 0 then s.trapAt u causeUnderflow 0 act
  else
    let t (L : Nat) : Dword := g.stackAt L (g.depthOf L - 1)
    match badTarget t act with
    | some a => s.trapAt u causeTarget a act
    | none =>
      let deep := (lanesList act).filter fun L => decide (9 ≤ g.depthOf L)
      let ls := deep.map fun L => stackLane s u g accLoad (g.depthOf L - 9) L
      match firstTrap ls with
      | some (c, i) => s.trapAt u c i act
      | none =>
        if faultsOf ls ≠ [] then s.abortStore u g accLoad false ls
        else
          let own := bufBytes g.buf false ((pieceBytes (ls.flatMap (·.pieces))).map (·.2.2))
          if s.sent.any fun k => k.unit == u && k.uid == g.uid && ls.any fun l =>
              l.pieces.any fun p => (List.range p.len).any fun i =>
                k.touches (p.pa + i) && !(own.any fun x => x.1 == p.pa + i) then s
          else
            let rs := ls.map fun l => (l.lane, s.refillOf u g own l)
            match rs.findSome? (·.2.2) with
            | some a => s.trapAt u causePoison (BitVec.ofNat 64 a) act
            | none =>
              let g' := (lanesList act).foldl (fun x L =>
                x.pop (((rs.find? fun r => r.1 == L).map (·.2.1)).getD 0) L) g
              let s := s.tlbFillLanes g.ctx accLoad (s.groupPriv g) ls
              ((s.putGroup u (g'.branch t act)).commit u 0 false).drawn

/-- RET. -/
def execRet (h : Head) (s : State) : Host.Outcome State Fault Refusal := issue h s fun u g act => s.ret u g act

/-! ### EXIT and YIELD -/

/-- EXIT (R135): the active lanes leave the table; with an empty table the group waits to leave its slot. -/
def execExit (h : Head) (s : State) : Host.Outcome State Fault Refusal :=
  issue h s fun u g act =>
    let s := s.commit u g.clauseIdx false
    match s.group? u with
    | none => s
    | some g =>
      let n := g.nextClause
      let g := g.endClause fun L => if act.getLsbD L then none else some n
      let g := g.reopen
      (s.putGroup u (if g.pc.isEmpty then { g with wait := .exit } else g)).drawn

/-- The atomics of a group that have not been performed. -/
def Group.atomicsOut (g : Group) : Bool := g.pend.any fun p => isAtomic p.ins && p.lanes.any fun l => l.st == .ready

/-- GROUP_EXIT: a group whose threads have all exited leaves its slot once its stores have been acknowledged (R135). -/
def execGroupExit (u : Nat) (s : State) : Host.Outcome State Fault Refusal :=
  match s.group? u with
  | none => .next s
  | some g =>
    if g.wait = .exit ∧ g.unacked = 0 ∧ g.isEngine = false ∧ g.atomicsOut = false then .next (s.leave u false)
    else .next s

/-- YIELD (R139): the youngest of its priority. -/
def execYield (h : Head) (s : State) : Host.Outcome State Fault Refusal :=
  issue h s fun u g act =>
    let g' := g.branch (fun _ => 0) 0
    if act = 0 then (s.putGroup u g').drawn
    else
      let c := s.core (coreOf u)
      (((s.putCore (coreOf u) { c with stamp := c.stamp + 1 }).putGroup u { g' with stamp := c.stamp })).drawn

/-! ### TRAP and BKPT -/

/-- TRAP (R140): commits, moves to NextClause, and takes the software trap. -/
def execTrap (h : Head) (code : BitVec 16) (s : State) : Host.Outcome State Fault Refusal :=
  issue h s fun u g act =>
    let r := g.trapRec causeSoftware (code.setWidth 64) act
    let s := s.commit u g.clauseIdx false
    match s.group? u with
    | none => s
    | some g =>
      let s := (s.putGroup u (g.branch (fun _ => 0) 0).reopen).drawn
      if act = 0 then s else s.takeTrap u r

/-- BKPT (R141): halts the group before it issues, when breakpoints are enabled. -/
def execBkpt (h : Head) (code : BitVec 16) (s : State) : Host.Outcome State Fault Refusal :=
  issue h s fun u g act =>
    if act ≠ 0 ∧ s.ctxBpen g.ctx = true then
      if g.wait = .halted then s
      else
        (s.putGroup u { g with wait := .halted }).logCtx g.ctx (srcUnit u) 0x05
          (g.clauseAddr.toNat + 2 ^ 64 * code.toNat + 2 ^ 80 * unitSlot u)
    else s.finish u g

/-! ### SPAWN and JOIN -/

/-- What SPAWN leaves in its registers when its flag falls (R136). -/
def spawnWrites (d : BitVec 7) (pe : BitVec 3) (q : Option Nat) : List PWrite :=
  match q with
  | some q => [⟨.s d.toNat, BitVec.ofNat 32 q, false⟩, ⟨.p pe.toNat, 1, false⟩]
  | none => [⟨.s d.toNat, 0xFFFFFFFF, false⟩, ⟨.p pe.toNat, 0, false⟩]

/-- Enters SPAWN's result, and the child under its parent. -/
def State.spawned (s : State) (u : Nat) (h : Head) (ins : Instr) (act : Lanes) (d : BitVec 7) (pe : BitVec 3)
    (kid : Option Kid) : State :=
  match s.group? u with
  | none => s
  | some g =>
    let ws := if h.nwb then [] else spawnWrites d pe (kid.map (·.seqNo))
    let g := { g with kids := g.kids ++ kid.toList }
    ((s.fresh.putGroup u ((g.addPend h ins act s.uid [] ws 0).next true))).drawn

/-- A child counts toward its launch's retirement (24 R424). -/
def State.launchMore (s : State) (l : Option Nat) : State :=
  match l with
  | none => s
  | some k =>
    match aget s.launches k with
    | none => s
    | some x => { s with launches := aput s.launches k { x with live := x.live + 1 } }

/-- The stores of a group that have not been performed, those to global addresses among them (R137). -/
def State.storesOf (s : State) (u uid : Nat) : List Nat := (s.sentBy u uid).map (·.stamp)

/-- SPAWN (R136). -/
def execSpawn (h : Head) (d : BitVec 7) (pe : BitVec 3) (a : Src) (ent : BitVec 8) (s : State) :
    Host.Outcome State Fault Refusal :=
  effectE h s fun u g act =>
    let base := scalar64 s u g act a
    let core := coreOf u
    let s := (s.commit u g.clauseIdx false).settle core
    let q := (s.core core).spawn
    let id := s.uid
    let stores := s.storesOf u g.uid
    let ins := Instr.spawn h d pe a ent
    let count (s : State) : State :=
      (s.putCore core { s.core core with spawn := (q + 1) % 65536 }).launchMore g.launch
    match s.fresh.spawn u g base ent.toNat id q stores with
    | .failed s => s.spawned u h ins act d pe none
    | .placed s => (count s).spawned u h ins act d pe (some ⟨q, id, false⟩)
    | .queued s => (count s).spawned u h ins act d pe (some ⟨q, id, true⟩)

/-- JOIN completes: an acquire at core scope of the exits of the children that it names, and the region that follows (R126, R138). -/
def State.joinDone (s : State) (u : Nat) (g : Group) (q n : Nat) : State :=
  let exits := (g.ended.filter fun x => namesSeq q n x.1).map (·.2)
  let g := { g.next true with wait := .no, ended := g.ended.filter fun x => !namesSeq q n x.1 }
  (s.putGroup u (g.acquire u 4 exits)).acquireL1 u 4

/-- JOIN (R138). -/
def execJoin (h : Head) (a b : Src) (s : State) : Host.Outcome State Fault Refusal :=
  effectE h s fun u g act =>
    let q := (scalar32 s u g act a).toNat % 65536
    let n := (scalar32 s u g act b).toNat % 65536
    let s := s.commit u g.clauseIdx false
    match s.group? u with
    | none => s
    | some g =>
      if (g.named q n).isEmpty then (s.joinDone u g q n).drawn
      else
        ((s.putGroup u { g with wait := .join q n }).drawn).tryJoiner u

/-- JOIN_COMPLETE: no named child of a waiting group is live any more (R138). -/
def execJoinComplete (u : Nat) (s : State) : Host.Outcome State Fault Refusal :=
  match s.group? u with
  | none => .next s
  | some g =>
    match g.wait with
    | .join q n =>
      .next (if (g.named q n).isEmpty then ({ s with joinTries := adel s.joinTries g.uid } : State).joinDone u g q n else s)
    | _ => .next s

end Sys2Proof.Machine
end

