-- ==== Sys2Proof/Machine/Counters.lean ====
section
/-! DEFINITION. The counter instructions (spec 11 R274, R275; 17 R353). -/

namespace Sys2Proof.Machine

/-- The value of the lowest of some lanes that is not a multiple of `n`. -/
def misaligned (n : Nat) (f : Nat → Dword) (lanes : List Nat) : Option Dword :=
  (lanes.find? fun L => (f L).toNat % n != 0).map f

/-- The lanes that a counter instruction acts for: each active lane, or once with an s pair (R275). -/
def ctrActs (once : Bool) (act : Lanes) : List Nat := if act = 0 then [] else if once then [lowest act] else lanesList act

/-- The checks of a counter access in a lane. -/
def ctrLane (s : State) (u : Nat) (g : Group) (acc : Nat) (x : BodyCtr) (L : Nat) : Lane :=
  vaLane s u g acc 8 8 x.addr x.off 0 L

/-- The alignment check of a counter instruction, whatever the guard (R275). -/
def ctrMisaligned (s : State) (u : Nat) (g : Group) (x : BodyCtr) : Option Dword :=
  misaligned 8 (vaAddr s u g x.addr x.off) (lanesList g.present)

/-- The register pair of a counter instruction in a lane. -/
def ctrData (s : State) (g : Group) (x : BodyCtr) (L : Nat) : Dword :=
  let d := x.d.toNat
  if x.sreg then pairOf (g.sread s.draw d) (g.sread s.draw (d + 1)) else pairOf (g.vread s.draw d L) (g.vread s.draw (d + 1) L)

/-- The accesses that return a value: loads, atomics, counter reads and full/empty waits (17 R357). -/
def isRead : Instr → Bool
  | .ld .. | .ldu .. | .ldk .. | .ldb .. | .ldl .. | .obld .. | .atom .. | .atomb .. | .ctrrd .. => true
  | _ => false

/-- An earlier access that returns a value has not landed. -/
def Group.readsOut (g : Group) : Bool := g.pend.any fun p => isRead p.ins

/-- What a release or fence waits for: earlier accesses that return a value landed, stores acknowledged (17 R344, R357). -/
def Group.released (g : Group) : Bool := !g.readsOut && g.unacked == 0

/-- Sends the additions of CTRADD. -/
def State.sendAdds (s : State) (u scope : Nat) (tok : Option Nat) (inc : Nat → Dword) (ls : List Lane) : State :=
  ls.foldl (fun s l =>
    match l.pieces.head? with
    | none => s
    | some p => s.sendStore u (if p.glob then some (BitVec.ofNat 64 p.pa) else none) p.kind p.pa
        (.rmw 0 true (inc l.lane) 0) tok (some scope) 0) s

/-- CTRADD (R275): commits, acts as REL, then adds at the counter's home. While the release waits, it issues again. -/
def execCtradd (h : Head) (x : BodyCtr) (s : State) : Host.Outcome State Fault Refusal :=
  issue h s fun u g act =>
    match ctrMisaligned s u g x with
    | some a => s.trapAt u causeAlign a act
    | none =>
      if act = 0 then s.commitOnly u g
      else
        let ls := (ctrActs x.sreg act).map (ctrLane s u g accAtomic x)
        match firstTrap ls with
        | some (c, i) => s.trapE u g c i act
        | none =>
          if faultsOf ls ≠ [] then
            (if g.isEngine then s.waitFaults u g accAtomic ls else s.abortStore u g accAtomic true ls)
          else
            let inc := ctrData s g x
            let s := s.commit u g.clauseIdx false
            match s.group? u with
            | none => s
            | some g =>
              if !g.released then s.sendMarkers u
              else
                let tok := s.uid
                let sync := anyS ls || g.isEngine
                let flagged := sync || (flagOf h).isSome
                let s := s.tlbFillLanes g.ctx accAtomic (s.groupPriv g) ls
                let g := s.fenceOf u g x.scope.toNat false
                let g := if flagged then g.addPend h (.ctradd h x) act tok [] [] ls.length else g
                let g := if sync then { g with wait := .drain tok } else g.next true
                ((s.fresh.putGroup u g).drawn).sendAdds u x.scope.toNat (if flagged then some tok else none) inc ls

/-- No packet of the group that has not been performed touches the word at an address. -/
def State.ownClear (s : State) (u uid pa n : Nat) : Bool :=
  s.sent.all fun k => !(k.unit == u && k.uid == uid) || (List.range n).all fun i => !k.touches (pa + i)

/-- The value that CTRWAIT reads in a lane. -/
def State.waitRead (s : State) (l : Lane) : Dword :=
  match l.pieces.head? with
  | none => 0
  | some p => s.homeWord p.pa

/-- The lane's counter meets no route (10 R259). -/
def State.unrouted (s : State) (u : Nat) (l : Lane) : Bool :=
  l.pieces.any fun p => p.glob &&
    !s.routed (entryGlobal u l.addr) [p]

/-- A lane of a counter wait meets poison: trap 17, DESIGN CHOICE (log entry 10). -/
def State.ctrPoison (s : State) (ls : List Lane) : Option Nat :=
  ls.findSome? fun l => (l.pieces.find? fun p => !inRegs p.pa && s.homePoison (granule p.pa)).map fun p => p.pa / 16 * 16

/-- The acquire of the counters that CTRWAIT read (R275). -/
def State.waitAcquire (s : State) (u uid scope : Nat) (ls : List Lane) : State :=
  ls.foldl (fun s l => s.counterRead u uid (((l.pieces.head?).map (·.pa)).getD 0) scope) s

/-- CTRWAIT (R275): the group is not ready until every lane's counter has reached its target; each later turn of the
group reads again. -/
def execCtrwait (h : Head) (x : BodyCtr) (s : State) : Host.Outcome State Fault Refusal :=
  issue h s fun u g act =>
    let acc := if g.isEngine then accEngRead else accLoad
    match ctrMisaligned s u g x with
    | some a => s.trapAt u causeAlign a act
    | none =>
      if act = 0 then s.finish u g
      else
        let ls := (ctrActs x.sreg act).map (ctrLane s u g acc x)
        match firstTrap ls with
        | some (c, i) => s.trapAt u c i act
        | none =>
          if faultsOf ls ≠ [] then s.waitFaults u g acc ls
          else
            match ls.find? (s.unrouted u) with
            | some l => s.trapAt u causePhys l.addr act
            | none =>
              match s.ctrPoison ls with
              | some a => s.trapAt u causePoison (BitVec.ofNat 64 a) act
              | none =>
                let s := s.tlbFillLanes g.ctx acc (s.groupPriv g) ls
                if (ls.all fun l => decide ((ctrData s g x l.lane).toNat ≤ (s.waitRead l).toNat)) &&
                    ls.all fun l => l.pieces.all fun p => s.ownClear u g.uid p.pa 8 then
                  (s.finish u { g with wait := .no }).waitAcquire u g.uid x.scope.toNat ls
                else (s.putGroup u { g with wait := .counter (.ctrwait h x) }).drawn

/-- CTRRD (R275). -/
def execCtrrd (h : Head) (x : BodyCtr) (s : State) : Host.Outcome State Fault Refusal :=
  issue h s fun u g act =>
    let acc := g.loadAcc
    match ctrMisaligned s u g x with
    | some a => s.trapAt u causeAlign a act
    | none =>
      if act = 0 then s.finish u g
      else
        s.startAsync u g h (.ctrrd h x) act acc false (fun _ => .ready) ((ctrActs x.sreg act).map (ctrLane s u g acc x))

end Sys2Proof.Machine
end

