-- ==== Sys2Proof/Machine/Async.lean ====
section
/-! DEFINITION. Starting asynchronous work: COPY, COPYL, COPYM, OBJREQ (spec 11 R265 to R269, R282), FORK and RDV
(14 R312, R313, R317; 02 R47 to R49). -/

namespace Sys2Proof.Machine

/-- Waiting for no request. -/
def noWait : Await := ⟨[], false⟩

/-! ### Register blocks (11 R265, R266) -/

/-- Register `i` of a block, in a lane. -/
def blockReg (s : State) (g : Group) (r : Src) (L i : Nat) : Word :=
  match r with
  | .v n => g.vread s.draw (n.toNat + i) L
  | .s n => g.sread s.draw (n.toNat + i)
  | _ => 0

/-- A pair of a block. -/
def blockPair (s : State) (g : Group) (r : Src) (L i : Nat) : Dword := pairOf (blockReg s g r L i) (blockReg s g r L (i + 1))

/-- The operand names s registers: the instruction acts once for the group. -/
def isSReg : Src → Bool
  | .s _ => true
  | _ => false

/-- The lanes that a form with such an operand acts for. -/
def actsFor (r : Src) (act : Lanes) : List Nat := ctrActs (isSReg r) act

/-- The checks made at the issue of a request: the record as a read, where there is one, and the counter as a write
(R267). A physical-address fault on either is met later by the engine. -/
def reqLane (s : State) (g : Group) (acc : Nat) (a : Dword) (L : Nat) : Lane :=
  let chk := match s.chkVa g.ctx acc (s.groupPriv g) a 8 1 none with
    | .trap c i => if c = causeForm then LaneChk.trap c i else .ok []
    | k => k
  ⟨L, a, 0, chk, true⟩

/-- The G checks of COPY, COPYL and COPYM (R267): the handle, then the counters' alignment. -/
def copyG (s : State) (g : Group) (handle : Option Nat) (c : Nat → Dword) : Option (Nat × Dword) :=
  match handle with
  | some k => if (s.handle g.cell k).isNone then some (causeHandle, 0)
    else (misaligned 8 c (lanesList g.present)).map fun a => (causeAlign, a)
  | none => (misaligned 8 c (lanesList g.present)).map fun a => (causeAlign, a)

/-- The shared course of COPY, COPYL and COPYM: G checks, the commit, the checks of the active lanes, and the requests
sent, at which the flag falls. `mk` enters the request of a lane. -/
def State.copyIssue (s : State) (u : Nat) (g : Group) (act : Lanes) (gchk : Option (Nat × Dword)) (lanes : List Nat)
    (chks : List (Nat × Lane)) (mk : State → Nat → State) : State :=
  match gchk with
  | some (c, i) => s.trapAt u c i act
  | none =>
    if act = 0 then s.commitOnly u g
    else
      match firstTrap (sortBy (·.lane) (chks.map (·.2))) with
      | some (c, i) => s.trapE u g c i act
      | none =>
        let rd := (chks.filter fun x => x.1 == accLoad).map (·.2)
        let wr := (chks.filter fun x => x.1 != accLoad).map (·.2)
        if faultsOf (rd ++ wr) ≠ [] then
          let s := s.commit u g.clauseIdx false
          let (s, r1) := s.raiseAll g.ctx accLoad (faultsOf rd)
          let (s, r2) := s.raiseAll g.ctx accStore (faultsOf wr)
          match s.group? u with
          | none => s
          | some g => (s.putGroup u { g.restart with wait := .fault (r2.foldl sput r1) }).drawn
        else
          let s := s.tlbFillLanes g.ctx accLoad (s.groupPriv g) rd
          let s := s.tlbFillLanes g.ctx accStore (s.groupPriv g) wr
          let s := s.commit u g.clauseIdx false
          match s.group? u with
          | none => s
          | some g' => (lanes.foldl mk (s.putGroup u (g'.next true))).drawn

/-- Enters a copy request. -/
def State.addCopy (s : State) (k : CopyReq) : State := { s.fresh with copies := s.copies ++ [{ k with id := s.uid }] }

/-- The origins of a block (R266). -/
def blockOrigin (s : State) (g : Group) (r : Src) (L : Nat) : List (BitVec 32) :=
  (List.range 5).map fun i => blockReg s g r L (2 + i)

/-- The check of a basin offset for one byte (R267). -/
def offsetLane (u : Nat) (off : Word) (L : Nat) : Lane := ⟨L, off.setWidth 64, 0, chkBasin u off.toNat 1 1, false⟩

/-- COPY (R265 to R267). -/
def execCopy (h : Head) (out ob : Bool) (k : BitVec 4) (scope : BitVec 4) (mask : Bool) (r c : Src) (s : State) :
    Host.Outcome State Fault Refusal :=
  issue h s fun u g act =>
    let lanes := actsFor r act
    let ctr (L : Nat) : Dword := src64 s u g L c
    let chks := lanes.flatMap fun L =>
      (if ob then [] else [(accLoad, offsetLane u (blockReg s g r L 7) L)]) ++
      [(accLoad, reqLane s g accLoad (blockPair s g r L 0) L), (accStore, reqLane s g accStore (ctr L) L)]
    let mk (t : State) (L : Nat) : State :=
      let off := (blockReg s g r L 7).toNat
      let img : CopyEnd := if ob then .ob g.cell k.toNat off else .basin (unitDie u) off
      t.addCopy ⟨0, g.ctx, coreOf u, some (blockPair s g r L 0), out, blockOrigin s g r L, img, 0, 0, mask,
        if ob then s.handle g.cell k.toNat else none, some (ctr L), scope, none, s.groupPriv g, g.fences, [], none, none, noWait⟩
    s.copyIssue u g act (copyG s g (if ob then some k.toNat else none) ctr) lanes chks mk

/-- COPYL (R266 to R268). -/
def execCopyl (h : Head) (scope : BitVec 4) (r c : Src) (s : State) : Host.Outcome State Fault Refusal :=
  issue h s fun u g act =>
    let lanes := actsFor r act
    let ctr (L : Nat) : Dword := src64 s u g L c
    let chks := lanes.map fun L => (accStore, reqLane s g accStore (ctr L) L)
    let mk (t : State) (L : Nat) : State :=
      t.addCopy ⟨0, g.ctx, coreOf u, none, false, [], .va (blockPair s g r L 2), blockPair s g r L 0, blockPair s g r L 4,
        false, none, some (ctr L), scope, none, s.groupPriv g, g.fences, [], none, none, noWait⟩
    s.copyIssue u g act (copyG s g none ctr) lanes chks mk

/-- Enters a COPYM request behind its core's earlier ones (R269). -/
def State.addCopym (s : State) (k : CopymReq) : State := { s.fresh with copyms := s.copyms ++ [{ k with id := s.uid }] }

/-- COPYM (R265 to R269). -/
def execCopym (h : Head) (n4 : Bool) (k : BitVec 4) (scope : BitVec 4) (r c : Src) (s : State) :
    Host.Outcome State Fault Refusal :=
  issue h s fun u g act =>
    let lanes := actsFor r act
    let ctr (L : Nat) : Dword := src64 s u g L c
    let chks := lanes.flatMap fun L =>
      [(accLoad, reqLane s g accLoad (blockPair s g r L 0) L), (accStore, reqLane s g accStore (ctr L) L)]
    let mk (t : State) (L : Nat) : State :=
      t.addCopym ⟨0, g.ctx, coreOf u, n4, k, blockPair s g r L 0, blockOrigin s g r L, (blockReg s g r L 7).toNat, g.cell,
        (s.handle g.cell k.toNat).getD 0, ctr L, scope, s.groupPriv g, g.fences, 0, noWait, noWait, []⟩
    s.copyIssue u g act (copyG s g (some k.toNat) ctr) lanes chks mk

/-! ### OBJREQ (11 R282) -/

/-- The request codes (11 R282). -/
def tierKindOf (req : Nat) : TierKind := [TierKind.promote, .demote].getD req .touch

/-- Enters a request of the tier agent of the context's partition, from a group with some fences (17 R347). -/
def State.addTier (s : State) (rels : List Rel) (k : TierReq) : State :=
  State.putView { s.fresh with tierReqs := s.tierReqs ++ [{ k with id := s.uid }] } (s.uid + 1)
    (handedTo (agent (srcMigration k.part)) rels)

/-- OBJREQ: does not end its region; the flag falls at issue: DEDUCED (log entry 14). -/
def execObjreq (h : Head) (req : BitVec 2) (scope : BitVec 4) (r c : Src) (s : State) : Host.Outcome State Fault Refusal :=
  issue h s fun u g act =>
    let ctr (L : Nat) : Dword := src64 s u g L c
    match misaligned 8 ctr (lanesList g.present) with
    | some a => s.trapAt u causeAlign a act
    | none =>
      if act = 0 then s.finish u g
      else
        let mk (t : State) (L : Nat) : State :=
          t.addTier g.fences ⟨0, (s.partOfCtx g.ctx).getD 8, g.ctx, blockPair s g r L 0, tierKindOf req.toNat, some (ctr L), scope, none,
            s.groupPriv g, none, 0, none, noWait⟩
        (lanesList act).foldl mk (s.finish u g)

/-! ### Job cards (02 R47 to R49; 14 R313) -/

def cardKind (ws : List Dword) : Nat := field ws 3 0
def cardStack (ws : List Dword) : Nat := field ws 19 16
def cardScope (ws : List Dword) : Nat := field ws 11 8
def cardProg (ws : List Dword) : Dword := ws.getD 1 0
def cardCtr (ws : List Dword) : Dword := ws.getD 2 0
def cardInc (ws : List Dword) : Dword := ws.getD 3 0
def cardArg0 (ws : List Dword) : Nat := field ws 63 32
def cardArg1 (ws : List Dword) : Dword := ws.getD 4 0
def cardArg2 (ws : List Dword) : Dword := ws.getD 5 0

/-- Region n of a card: first byte and one past the last; none when unused (R48). -/
def cardRegion (ws : List Dword) (n : Nat) : Option (Nat × Nat) :=
  let w := ws.getD (8 + n) 0
  let cnt := bits w 59 48
  if cnt = 0 then none else some (bits w 47 0 * 256, bits w 47 0 * 256 + cnt * 2 ^ (8 + bits w 63 60))

/-- The used regions of a card: 0 to 3 are read, 4 to 7 written. -/
def cardReads (ws : List Dword) : List (Nat × Nat) := (List.range 4).filterMap (cardRegion ws)
def cardWrites (ws : List Dword) : List (Nat × Nat) := (List.range 4).filterMap fun i => cardRegion ws (4 + i)

/-- Two lists of ranges share a byte. -/
def rangesMeet (a b : List (Nat × Nat)) : Bool := a.any fun x => b.any fun y => decide (x.1 < y.2) && decide (y.1 < x.2)

/-- Card `b` depends on an earlier card `a` (R49). -/
def cardDepends (a b : List Dword) : Bool :=
  rangesMeet (cardWrites a) (cardReads b) || rangesMeet (cardReads a) (cardWrites b) ||
  rangesMeet (cardWrites a) (cardWrites b)

/-- What R47, R48, R272, R313 and R334 ask of one card. -/
def cardOk (ws : List Dword) : Bool :=
  let k := cardKind ws
  let arg0 := cardArg0 ws
  decide (1 ≤ k) && decide (k ≤ 4) && field ws 7 4 == 0 && field ws 15 12 == 0 && field ws 31 20 == 0 &&
  field ws 431 424 == 0 && decide (cardScope ws ≤ 11) && (cardCtr ws).toNat % 8 == 0 &&
  ((cardReads ws ++ cardWrites ws).all fun r => decide (r.2 ≤ 2 ^ 56)) &&
  match k with
  | 1 => (cardProg ws).toNat % 8 == 0
  | 2 => cardStack ws == 0 && cardInc ws == 0 &&
    (match arg0 / 2 ^ 28 with
      | 0 => arg0 == 0
      | 1 => (cardArg2 ws).toNat % 16 == 0
      | 2 => true
      | _ => false)
  | 3 => decide (arg0 ≤ 1) && cardArg1 ws == 0 && cardArg2 ws == 0
  | _ => cardStack ws == 0 && decide (arg0 ≤ 2) && cardArg1 ws == 0 && cardArg2 ws == 0

/-- A card of a list that breaks a check, alone or with another card of the list (R313). -/
def cardBreaks (l : List (List Dword)) (i : Nat) : Bool :=
  let ws := l.getD i []
  !cardOk ws ||
  (List.range l.length).any fun j => j != i &&
    (let vs := l.getD j []
     (cardKind ws == 1 && cardKind vs == 1 && cardStack ws == cardStack vs) ||
     (if i < j then cardDepends ws vs else cardDepends vs ws))

/-- Writes the word of a card that holds POFF, ERR and STATE (R47), for the device, with the releases of a final STATE (R320).
A write that faults is discarded (log entry 15). DESIGN CHOICE (log entry 71): the writes at acceptance and at start leave 0 in
ERR and POFF. -/
def State.cardState (s : State) (ctx core : Nat) (rels : List Rel) (va : Dword) (state err poff : Nat) : State :=
  match s.devRange ctx accEngWrite (s.ctxSup ctx) (va + 48) 8 with
  | .ok ps =>
    let w := poff % 2 ^ 40 + 2 ^ 48 * err + 2 ^ 56 * state
    (s.touchAll ps).devRelease .d (srcCore core) 0 (s.ctxFn ctx) rels false ps ((natLE w 8).map fun b => (b, false))
  | _ => s

/-- The record of a rejected card (24 R427). -/
def State.cardRecord (s : State) (core ctx : Nat) (va : Dword) (err : Nat) : State :=
  s.logCtx ctx (srcCore core) 0x13 (va.toNat % 2 ^ 56 + 2 ^ 56 * err)

/-- Adds 2^63 to a rejected card's counter (R313): it waits for the page request that it raises; where it cannot be made, the
card is reported as one whose counter is misaligned. DESIGN CHOICE (log entry 79). -/
def State.payOwed (s : State) (x : Owed) : State :=
  if x.aw.dead then s.cardRecord x.core x.ctx x.va x.err
  else
    match s.addCounter x.ctx (s.ctxSup x.ctx) .d (attached (x.core / 48) 0) (agentRel (srcCore x.core) x.scope noView) x.ctr
        (2 ^ 63) with
    | .done s => s
    | .bad _ => s.cardRecord x.core x.ctx x.va x.err
    | .fault st l r a =>
      let r := s.raiseAll x.ctx accEngWrite [(st, l, r, a)]
      { r.1 with owed := r.1.owed ++ [{ x with aw := ⟨r.2, false⟩ }] }

/-- Rejects a card (R313). -/
def State.rejectCard (s : State) (core ctx : Nat) (va : Dword) (ws : List Dword) (err : Nat) : State :=
  let s := s.cardState ctx core [agentRel (srcCore core) (cardScope ws) noView] va 5 err 0
  let c := cardCtr ws
  if c.toNat % 8 = 0 then s.fresh.payOwed ⟨s.uid, ctx, core, va, err, c, cardScope ws, noWait⟩ else s.cardRecord core ctx va err

/-- Accepts a card: the edges to earlier cards of the core, and its STATE (R49, R313). -/
def State.acceptCard (s : State) (core ctx list : Nat) (rels : List Rel) (va : Dword) (ws : List Dword) : State :=
  let deps := (s.cards.filter fun c => c.core == core && c.list != list && cardDepends c.words ws).map (·.id)
  let s := s.cardState ctx core [] va (if deps.isEmpty then 0 else 1) 0 0
  let c : Card := ⟨s.uid, va, ws, ctx, core, list, rels, deps, false, false, 0, none, 0, cardInc ws, 0, none, noWait⟩
  { s.fresh with cards := s.cards ++ [c] }

/-- The addresses of the cards of a list. -/
def cardAddrs (a : Dword) (n : Nat) : List Dword := (List.range n).map fun i => a + BitVec.ofNat 64 (128 * i)

/-- The job sequencer judges a list whole (R313); `rels` are the fences of the group that submits it. -/
def State.submit (s : State) (core ctx : Nat) (rels : List Rel) (l : List (Dword × List Dword)) : State :=
  let ws := l.map (·.2)
  let n := List.range l.length
  if n.any (cardBreaks ws) then
    (n.zip l).foldl (fun s x => s.rejectCard core ctx x.2.1 x.2.2 (if cardBreaks ws x.1 then 9 else 10)) s
  else
    let list := s.uid
    l.foldl (fun s x => s.acceptCard core ctx list rels x.1 x.2) s.fresh

/-- The checks of the cards of every active lane's list. -/
def cardLanes (s : State) (g : Group) (acc : Nat) (r : Src) (n : Nat) (lanes : List Nat) : List Lane :=
  lanes.flatMap fun L => (cardAddrs (blockPair s g r L 0) n).map fun a =>
    ⟨L, a, 0, s.chkVa g.ctx acc (s.groupPriv g) a 128 1 none, true⟩

/-- The words of a card that a checked lane names. -/
def State.laneWords (s : State) (l : Lane) (n : Nat) : List Dword :=
  let bs := (s.devRead l.pieces).map (·.1)
  (List.range n).map fun i => BitVec.ofNat 64 (leNat ((bs.drop (8 * i)).take 8))

/-- The lists of the lanes, each card with its address and words. -/
def State.cardLists (s : State) (ls : List Lane) (lanes : List Nat) : List (List (Dword × List Dword)) :=
  lanes.map fun L => (ls.filter fun l => l.lane == L).map fun l => (l.addr, s.laneWords l 16)

/-- FORK (R312). The cards are translated as reads and as writes, since the device writes their DW fields: DEDUCED (log
entry 15). -/
def execFork (h : Head) (r : Src) (n1 : BitVec 4) (s : State) : Host.Outcome State Fault Refusal :=
  issue h s fun u g act =>
    match misaligned 128 (blockPair s g r · 0) (lanesList g.present) with
    | some a => s.trapAt u causeAlign a act
    | none =>
      if act = 0 then s.commitOnly u g
      else
        let lanes := actsFor r act
        let ls := cardLanes s g accLoad r (n1.toNat + 1) lanes
        match firstTrap ls with
        | some (c, i) => s.trapE u g c i act
        | none =>
          let lw := cardLanes s g accStore r (n1.toNat + 1) lanes
          if faultsOf ls ≠ [] then s.abortStore u g accLoad true ls
          else if faultsOf lw ≠ [] then s.abortStore u g accStore true lw
          else
            let s := s.tlbFillLanes g.ctx accLoad (s.groupPriv g) ls
            let s := s.commit u g.clauseIdx false
            let lists := s.cardLists ls lanes
            match s.group? u with
            | none => s
            | some g' => (lists.foldl (fun s l => s.submit (coreOf u) g.ctx g'.fences l) (s.putGroup u (g'.next true))).drawn

/-- A card has reached a final STATE. -/
def cardFinal (ws : List Dword) : Bool := decide (3 ≤ field ws 447 440) && decide (field ws 447 440 ≤ 5)

/-- The observation of a card's final STATE: an acquire at the card's SCOPE (R317). -/
def State.rdvAcquire (s : State) (u uid : Nat) (l : Lane) : State :=
  s.acquire u uid (cardScope (s.laneWords l 16)) (s.newestRels ((((l.pieces.head?).map (·.pa)).getD 0) + 48))

/-- RDV (R317): each later turn of the group reads the cards again. -/
def execRdv (h : Head) (r : Src) (n1 : BitVec 4) (s : State) : Host.Outcome State Fault Refusal :=
  issue h s fun u g act =>
    match misaligned 128 (blockPair s g r · 0) (lanesList g.present) with
    | some a => s.trapAt u causeAlign a act
    | none =>
      if act = 0 then s.finish u g
      else
        let ls := cardLanes s g accLoad r (n1.toNat + 1) (actsFor r act)
        match firstTrap ls with
        | some (c, i) => s.trapAt u c i act
        | none =>
          if faultsOf ls ≠ [] then s.waitFaults u g accLoad ls
          else
            let s := s.tlbFillLanes g.ctx accLoad (s.groupPriv g) ls
            if ls.all fun l => cardFinal (s.laneWords l 16) then
              ls.foldl (fun s l => s.rdvAcquire u g.uid l) (s.finish u { g with wait := .no })
            else (s.putGroup u { g with wait := .cards (.rdv h r n1) }).drawn

end Sys2Proof.Machine
end

