-- ==== Sys2Proof/Machine/Matrix.lean ====
section
/-! DEFINITION. The matrix family, 0xC (spec 12): reservations, gangs and the rendezvous, MMA and MMAZ, accumulators, the
cluster bus at issue, OBLD and OBST. -/

namespace Sys2Proof.Machine

/-! ### Formats (R285, R295) -/

/-- The class of an element format: 0 the 16-bit formats, 1 the 8-bit ones, 2 the narrow ones. -/
def fmtClass (f : Nat) : Nat := [3, 0, 0, 1, 1, 1, 2, 2, 1, 2, 2].getD f 3

/-- K of an operation of a class. -/
def classK (c : Nat) : Nat := [32, 64, 128].getD c 32

/-- SD formats. -/
def fmtSd (f : Nat) : Bool := f == 9 || f == 10

/-! ### RSV, RSVREL, GANG -/

/-- The checks of a reservation record (R287); `share` is the share in 16-byte units. -/
def resOk (r : BitVec 128) (share : Nat) : Bool :=
  let f := resFmt r
  let b := fmtBits f
  let e := fmtScale f
  let rows := resRows r
  let krow := resKrow r
  let block := decide (e ≠ 0)
  rf r 115 112 == 0 && rf r 74 72 == 0 && rf r 15 0 == 0 && decide (1 ≤ f) && decide (f ≤ 10) && krow != 0 &&
  resLen r != 0 && decide (resLen r ≤ 32768) && decide (resOff r + resLen r ≤ share) &&
  decide (rows * krow * 4 * b ≤ (if block then 16 * resScoff r else 16 * resLen r)) &&
  (!(block && resE2off r == 0) || decide (16 * resScoff r + rows * krow * e ≤ 16 * resLen r)) &&
  (!(fmtSd f && resE2off r != 0) ||
    (decide (16 * resScoff r + rows * krow ≤ 16 * resE2off r) && decide (16 * resE2off r + rows * krow ≤ 16 * resLen r))) &&
  (block || resScoff r == 0) && (fmtSd f || resE2off r == 0) && (f == 3 || f == 4 || resTscale r == 0)

/-- Units of 16 bytes in a cell's share (R283). -/
def CellSt.units (c : CellSt) : Nat := 64 * c.obuf * c.ngroup

/-- The four scalar registers of a record (R285). -/
def recordAt (s : State) (g : Group) (n : Nat) : BitVec 128 :=
  let r (i : Nat) : Word := g.sread s.draw (n + i)
  r 3 ++ r 2 ++ r 1 ++ r 0

/-- A pending OBLD of a group names the handle. -/
def Group.obldUses (g : Group) (k : Nat) : Bool :=
  g.pend.any fun p =>
    match p.ins with
    | .obld _ h _ _ _ _ => h.toNat == k
    | _ => false

/-- An operand pair of MMA names the handle. -/
def mmaUses (x : BodyMma) (k : Nat) : Bool := x.ha.toNat == k || (!x.bus && x.hb.toNat == k)

/-- A handle of a cell is in use (R289): by a started operation or an undelivered bus step of any core, for a restored cell
may have left its step in the channel of the core that it was saved from. -/
def State.inUse (s : State) (cell k : Nat) : Bool :=
  (s.cores.any fun c => c.2.ops.any fun o => o.cell == cell && ((o.members.any fun m => m.x.ha.toNat == k) || (!o.x.bus && o.x.hb.toNat == k))) ||
  (match s.cell? cell with
    | none => false
    | some x => x.rdv.any fun l => l.2.members.any fun m => mmaUses m.x k) ||
  (s.cores.any fun c => c.2.steps.any fun b => b.cell == cell && b.hb.toNat == k) ||
  (s.copies.any fun q =>
    match q.img with
    | .ob cl h _ => cl == cell && h == k
    | _ => false) ||
  (s.copyms.any fun q => q.cell == cell && q.k.toNat == k) ||
  (s.copymOps.any fun o => o.members.any fun q => q.cell == cell && q.k.toNat == k) ||
  (s.groups.any fun x => x.2.cell == cell && x.2.obldUses k)

/-- Changes the cell of a group. -/
def State.onCell (s : State) (k : Nat) (f : CellSt → CellSt) : State :=
  match s.cell? k with
  | some c => s.putCell k (f c)
  | none => s

/-- RSV (R287, R289): while the handle is in use, the group stalls. -/
def execRsv (h : Head) (k : BitVec 4) (n : BitVec 7) (s : State) : Host.Outcome State Fault Refusal :=
  issue h s fun u g act =>
    let r := recordAt s g n.toNat
    let share := ((s.cell? g.cell).map (·.units)).getD 0
    if !resOk r share then s.trapAt u causeRecord 0 act
    else if act = 0 then s.finish u g
    else if s.inUse g.cell k.toNat then s
    else (s.finish u g).onCell g.cell fun c => { c with handles := aput c.handles k.toNat r }

/-- RSVREL (R288). -/
def execRsvrel (h : Head) (k : BitVec 4) (s : State) : Host.Outcome State Fault Refusal :=
  effect h s fun u g _ =>
    if s.inUse g.cell k.toNat then s
    else (s.finish u g).onCell g.cell fun c => { c with handles := adel c.handles k.toNat }

/-- GANG (R290). -/
def execGang (h : Head) (k : BitVec 3) (a : Src) (s : State) : Host.Outcome State Fault Refusal :=
  effect h s fun u g act =>
    let x := scalar32 s u g act a
    (s.finish u g).onCell g.cell fun c => { c with gangs := asetD 0 c.gangs k.toNat x }

/-! ### MMA and MMAZ (R291 to R296) -/

/-- An operand of an operation fits its reservation: `rows` per block, block and step of a KA or KB field. -/
def operandFits (r : BitVec 128) (rows : Nat) (kf : BitVec 12) : Bool :=
  let j := kf.toNat / 512
  let st := kf.toNat % 512
  decide (rows * (j + 1) ≤ resRows r) && decide ((st + 1) * classK (fmtClass (resFmt r)) ≤ 32 * resKrow r)

/-- N of an operation. -/
def mmaN (n128 : Bool) : Nat := if n128 then 128 else 64

/-- The checks of R296, whatever the guard: the trap that they raise. -/
def mmaChecks (s : State) (g : Group) (x : BodyMma) : Option Nat :=
  match s.handle g.cell x.ha.toNat, (if x.bus then some 0 else s.handle g.cell x.hb.toNat) with
  | some a, some b =>
    if g.acct ≤ x.acc.toNat then some causeTile
    else if !operandFits a 32 x.ka then some causeOperand
    else if !x.bus && (!operandFits b (mmaN x.n128) x.kb || fmtClass (resFmt a) != fmtClass (resFmt b)) then some causeOperand
    else none
  | _, _ => some causeHandle

/-- The number of groups that a register value names. -/
def popcount32 (m : BitVec 32) : Nat := ((List.range 32).filter fun i => m.getLsbD i).length

/-- An open latch agrees with an arriving instruction (R291). -/
def Latch.agrees (l : Latch) (value : BitVec 32) (zero : Bool) (x : BodyMma) : Bool :=
  l.value == value && l.zero == zero && l.x.g == x.g && l.x.n128 == x.n128 && l.x.bus == x.bus && l.x.hb == x.hb &&
  l.x.kb == x.kb

/-- A group of an operation's gang that waits takes a trap: its flag falls, and the group takes the trap at the MMA. -/
def State.rendezvousTrap (s : State) (m : Member) (value : BitVec 32) : State :=
  let s := s.onGroup m.unit m.uid fun g =>
    match m.tok with
    | some t => g.dropTok t
    | none => g
  match s.group? m.unit with
  | some g => if g.uid = m.uid then s.takeTrap m.unit ⟨causeGang, m.addr, m.idx, value.setWidth 64, m.act⟩ else s
  | none => s

/-- A member is ready again behind its MMA (R292). -/
def Group.mmaStarted (g : Group) : Group := { g.next true with wait := .no }

/-- Starts an operation whose last member has arrived (R292). -/
def State.startOp (s : State) (core cell : Nat) (l : Latch) (hb : Option (BitVec 128)) : State :=
  let op : MatOp := ⟨s.uid, cell, l.value, l.zero, l.x, sortBy (·.gi) l.members, hb, none,
    ((s.cell? cell).map (·.ctx)).getD 0, [], []⟩
  let c := s.core core
  let s := s.fresh.putCore core { c with ops := c.ops ++ [op] }
  l.members.foldl (fun s m => s.onGroup m.unit m.uid Group.mmaStarted) s

/-- The arrival of a group (R291). -/
def State.arriveMma (s : State) (u : Nat) (g : Group) (h : Head) (ins : Instr) (act : Lanes) (zero : Bool) (x : BodyMma) :
    State :=
  match s.cell? g.cell with
  | none => s
  | some c =>
    let value := c.gang x.gsel.toNat
    let info : Dword := value.setWidth 64
    if value.getLsbD g.index = false ∨ popcount32 value ≠ x.g.toNat then s.trapAt u causeGang info act
    else
      let tok := (flagOf h).map fun _ => s.uid
      let me : Member := ⟨u, g.uid, g.index, x, (aget c.handles x.ha.toNat).getD 0, tok, g.clauseAddr, g.clauseIdx, act⟩
      let l := (aget c.rdv x.gsel.toNat).getD ⟨value, zero, x, []⟩
      if !l.agrees value zero x then
        let s := s.putCell g.cell { c with rdv := adel c.rdv x.gsel.toNat }
        (l.members.foldl (fun s m => s.rendezvousTrap m value) s).trapAt u causeGang info act
      else
        let l := { l with members := l.members ++ [me] }
        let g := if tok.isSome then g.addPend h ins act s.uid [] [] 1 else g
        let s := s.fresh.putGroup u { g with wait := .rendezvous x.gsel.toNat }
        if l.members.length = popcount32 value then
          (s.putCell g.cell { c with rdv := adel c.rdv x.gsel.toNat }).startOp (coreOf u) g.cell l
            (if x.bus then none else some ((aget c.handles x.hb.toNat).getD 0))
        else s.putCell g.cell { c with rdv := aput c.rdv x.gsel.toNat l }

/-- MMA and MMAZ. -/
def State.mmaIssue (s : State) (u : Nat) (g : Group) (h : Head) (ins : Instr) (act : Lanes) (zero : Bool) (x : BodyMma) :
    State :=
  match mmaChecks s g x with
  | some c => s.trapAt u c 0 act
  | none =>
    if act = 0 then s.finish u g
    else
      let s := s.commit u g.clauseIdx false
      match s.group? u with
      | none => s
      | some g => (s.arriveMma u g h ins act zero x).drawn

def execMma (h : Head) (x : BodyMma) (s : State) : Host.Outcome State Fault Refusal :=
  issue h s fun u g act => s.mmaIssue u g h (.mma h x) act false x

def execMmaz (h : Head) (x : BodyMma) (s : State) : Host.Outcome State Fault Refusal :=
  issue h s fun u g act => s.mmaIssue u g h (.mmaz h x) act true x

/-! ### The bus at issue (R300, R301) -/

/-- BUSPUB: with four undelivered steps in the channel, the group stalls. -/
def execBuspub (h : Head) (hb : BitVec 4) (kb : BitVec 12) (mask : BitVec 4) (n128 : Bool) (s : State) :
    Host.Outcome State Fault Refusal :=
  issue h s fun u g act =>
    match s.handle g.cell hb.toNat with
    | none => s.trapAt u causeHandle 0 act
    | some r =>
      if !operandFits r (mmaN n128) kb then s.trapAt u causeOperand 0 act
      else if act = 0 then s.finish u g
      else if 4 ≤ (s.core (coreOf u)).steps.length then s
      else
        let s := s.commit u g.clauseIdx false
        match s.group? u with
        | none => s
        | some g =>
          let tok := (flagOf h).map fun _ => s.uid
          let b : BusStep := ⟨s.uid, g.cell, g.uid, tok, r, hb, kb, mask, n128, g.ctx⟩
          let g := if tok.isSome then g.addPend h (.buspub h hb kb mask n128) act s.uid [] [] 1 else g
          let c := s.core (coreOf u)
          ((s.fresh.putCore (coreOf u) { c with steps := c.steps ++ [b] }).putGroup u (g.next true)).drawn

/-- BUSSUB: with four entries in the queue, the group stalls. -/
def execBussub (h : Head) (ch : BitVec 2) (n : BitVec 12) (s : State) : Host.Outcome State Fault Refusal :=
  effect h s fun u g act =>
    if 4 ≤ (s.core (coreOf u)).bus.length then s
    else
      let s := s.commit u g.clauseIdx false
      match s.group? u with
      | none => s
      | some g =>
        let tok := (flagOf h).map fun _ => s.uid
        let b : BusSub := ⟨ch.toNat, n.toNat, g.uid, tok, g.ctx⟩
        let g := if tok.isSome then g.addPend h (.bussub h ch n) act s.uid [] [] 1 else g
        let c := s.core (coreOf u)
        ((s.fresh.putCore (coreOf u) { c with bus := c.bus ++ [b] }).putGroup u (g.next true)).drawn

/-! ### Accumulators (R304, R305) -/

/-- The accumulator cell that a lane names: row and column, or none out of range. -/
def accIndex (s : State) (u : Nat) (g : Group) (t : Nat) (r c : Src) (L : Nat) : Option Nat :=
  let i := (src32 s u g L r).toNat
  let j := (src32 s u g L c).toNat
  if i ≤ 31 ∧ j ≤ 127 then some (accKey t i j) else none

/-- ACCRD. -/
def execAccrd (h : Head) (form : BitVec 2) (d : BitVec 9) (r c : Src) (t : BitVec 4) (s : State) :
    Host.Outcome State Fault Refusal :=
  issue h s fun u g act =>
    if g.acct ≤ t.toNat then s.trapAt u causeTile 0 act
    else if act = 0 then s.finish u g
    else
      let lane (L : Nat) : Lane :=
        match accIndex s u g t.toNat r c L with
        | some k => ⟨L, 0, BitVec.ofNat 128 k, .ok [], false⟩
        | none => ⟨L, 0, 0, .trap causeAccIndex 0, false⟩
      s.startAsync u g h (.accrd h form d r c t) act accLoad false (fun _ => .ready) ((lanesList act).map lane)

/-- A pending ACCRD of the group reads a tile. -/
def Group.reading (g : Group) (t : Nat) : Bool :=
  g.pend.any fun p =>
    match p.ins with
    | .accrd _ _ _ _ _ k => k.toNat == t && !p.lanes.isEmpty
    | _ => false

/-- The tile still has earlier work to do (R298). -/
def State.tileOut (s : State) (u : Nat) (g : Group) (t : Nat) : Bool := s.tileBusy u g.uid t s.uid || g.reading t

/-- The FP32 value of a lane as a cell holds it: exact, a NaN canonical (R305). -/
def accOfF32 (x : Word) : Acc56 := BitVec.ofNat 56 (roundTo acc56 .rne (f32 x)).1

/-- An instruction that writes a tile: it waits for earlier work on it, commits, and writes (R298, R304). -/
def State.accWrite (s : State) (u : Nat) (g : Group) (t : Nat) (f : Group → Group) : State :=
  if s.tileOut u g t then s
  else
    let s := s.commit u g.clauseIdx false
    match s.group? u with
    | none => s
    | some g => (s.putGroup u ((f g).next true)).drawn

/-- ACCWR. -/
def execAccwr (h : Head) (raw : Bool) (t : BitVec 4) (r c x : Src) (s : State) : Host.Outcome State Fault Refusal :=
  issue h s fun u g act =>
    if g.acct ≤ t.toNat then s.trapAt u causeTile 0 act
    else if act = 0 then s.finish u g
    else if (lanesList act).any fun L => (accIndex s u g t.toNat r c L).isNone then s.trapAt u causeAccIndex 0 act
    else
      let vals := (lanesList act).map fun L =>
        ((accIndex s u g t.toNat r c L).getD 0, if raw then (src64 s u g L x).setWidth 56 else accOfF32 (src32 s u g L x))
      s.accWrite u g t.toNat fun g => vals.foldl (fun g v => g.setAcc v.1 v.2 false) g

/-- Every cell of a tile +0, its poison cleared. -/
def Group.clearTile (g : Group) (t : Nat) : Group :=
  { g with
    acc := g.acc.filter fun x => x.1 / 4096 != t
    accPoison := g.accPoison.filter fun k => k / 4096 != t }

/-- ACCZ. -/
def execAccz (h : Head) (t : BitVec 4) (s : State) : Host.Outcome State Fault Refusal :=
  issue h s fun u g act =>
    if g.acct ≤ t.toNat then s.trapAt u causeTile 0 act
    else if act = 0 then s.finish u g
    else s.accWrite u g t.toNat fun g => g.clearTile t.toNat

/-! ### OBLD and OBST (R306) -/

/-- A lane of OBLD or OBST: the memory address, the offset within the range `r`, and the share offset in `aux`. -/
def obLane (s : State) (u : Nat) (g : Group) (acc : Nat) (r : BitVec 128) (x : BitVec 9) (a : Src) (off : BitVec 14)
    (L : Nat) : Lane :=
  let ea := vaAddr s u g a off L
  let o := (g.vread s.draw x.toNat L).toNat
  let early :=
    if o % 16 ≠ 0 then some (causeAlign, BitVec.ofNat 64 o)
    else if 16 * resLen r < o + 16 then some (causeObRange, 0)
    else none
  ⟨L, ea, BitVec.ofNat 128 (16 * resOff r + o), s.chkVa g.ctx acc (s.groupPriv g) ea 16 16 early, true⟩

/-- OBLD. -/
def execObld (h : Head) (k : BitVec 4) (x : BitVec 9) (addr : Src) (off : BitVec 14) (scope : BitVec 4) (s : State) :
    Host.Outcome State Fault Refusal :=
  issue h s fun u g act =>
    match s.handle g.cell k.toNat with
    | none => s.trapAt u causeHandle 0 act
    | some r =>
      if act = 0 then s.finish u g
      else
        s.startAsync u g h (.obld h k x addr off scope) act accLoad false (fun _ => .ready)
          ((lanesList act).map (obLane s u g accLoad r x addr off))

/-- OBST. -/
def execObst (h : Head) (k : BitVec 4) (x : BitVec 9) (addr : Src) (off : BitVec 14) (s : State) :
    Host.Outcome State Fault Refusal :=
  issue h s fun u g act =>
    match s.cell? g.cell with
    | none => s.trapAt u causeHandle 0 act
    | some c =>
      match aget c.handles k.toNat with
      | none => s.trapAt u causeHandle 0 act
      | some r =>
        if act = 0 then s.finish u g
        else
          let o (L : Nat) : Nat := 16 * resOff r + (g.vread s.draw x.toNat L).toNat
          s.store u g h (.obst h k x addr off) act (fun L => c.bytes (o L) 16) false (fun L => c.poisoned (o L))
            ((lanesList act).map (obLane s u g accStore r x addr off))

end Sys2Proof.Machine
end

