-- ==== Sys2Proof/Machine/Sync.lean ====
section
/-! DEFINITION. The synchronisation family, 0xD: barriers (spec 18 R358 to R366), fences (17 R357) and SLEEP (18 R367). -/

namespace Sys2Proof.Machine

/-! ### Barriers -/

/-- The barrier that a form names: a gang barrier, or 8 for the cell's. -/
def barIndex (gang : Option (BitVec 3)) : Nat :=
  match gang with
  | some k => k.toNat
  | none => 8

/-- A group that has arrived in the open phase takes the gang trap later: its pending bit clears and a wait on the barrier ends; the trap
stands until its clause has issued (R360, 12 R303). -/
def Group.gangLate (g : Group) (b phase : Nat) (value : BitVec 32) : Group :=
  match (aget g.bars b).filter fun r => r.phase.toNat == phase with
  | none => g
  | some r =>
    let g := match g.wait with
      | .barrier k _ => if k = b then { g.advance with wait := .no } else g
      | _ => g
    { g with
      bars := adel g.bars b
      late := g.late.or (some ⟨causeGang, r.addr, r.idx, value.setWidth 64, r.act⟩) }

/-- The same for a group of one cell, resident or saved. -/
def Group.gangLateIn (g : Group) (cell b phase : Nat) (value : BitVec 32) : Group :=
  if g.cell = cell then g.gangLate b phase value else g

/-- Every group that has arrived in the phase takes the gang trap, and the mask empties (R360). -/
def State.gangFail (s : State) (cell b : Nat) (value : BitVec 32) : State :=
  let phase := ((s.cell? cell).map fun c => (c.barrier b).phase.toNat).getD 0
  let s := s.onCell cell fun c => c.setBarrier b { c.barrier b with arrived := 0, rels := [] }
  { s with
    groups := s.groups.map fun x => (x.1, x.2.gangLateIn cell b phase value)
    saved := s.saved.map fun i => { i with groups := i.groups.map fun y => ⟨y.g.gangLateIn cell b phase value, y.slot⟩ } }

/-- What the check of a gang barrier finds (R360): nothing, a trap of the arriving group alone, or of all. -/
inductive GangChk where
  | ok | own | all
  deriving DecidableEq, Repr

/-- The check of an arrival at gang barrier `b` with register value `v` by group `i`. -/
def CellSt.gangCheck (c : CellSt) (b i : Nat) (v : BitVec 32) : GangChk :=
  let x := c.barrier b
  if v.getLsbD i = false then .own
  else if (x.arrived ≠ 0 ∧ v ≠ x.captured) ∨ popcount32 v < 2 ∨ v &&& ~~~c.all ≠ 0 then .all
  else .ok

/-- The arrival counts (R366): the mask, the captured value, and the release that it is (17 R345). -/
def CellSt.arrive (c : CellSt) (b i : Nat) (v : BitVec 32) (r : Rel) : CellSt :=
  let x := c.barrier b
  c.setBarrier b { x with arrived := x.arrived ||| groupBit i, captured := v, rels := x.rels ++ [r] }

/-- The group's own phase of the barrier is still open. -/
def CellSt.stillOpen (c : CellSt) (g : Group) (b : Nat) : Bool :=
  match aget g.bars b with
  | some r => r.phase == (c.barrier b).phase
  | none => false

/-- Wait(b) (R366). -/
def State.barWait (s : State) (u b : Nat) (c : CellSt) (g : Group) : State :=
  if c.stillOpen g b then s.putGroup u { g with wait := .barrier b none }
  else s.putGroup u (g.resumeBarrier u b)

/-- An arrival waits: it is a release (17 R345), so that every earlier access of the group comes before it; and while an
earlier phase is open. -/
def CellSt.arriveWaits (c : CellSt) (g : Group) (b : Nat) : Bool := !g.released || c.stillOpen g b

/-- Arrive(b) (R366), followed by Wait(b) for BAR. While it waits, the instruction issues again. -/
def State.barArrive (s : State) (u : Nat) (act : Lanes) (gang : Option (BitVec 3)) (wait : Bool) : State :=
  match s.group? u with
  | none => s
  | some g =>
    match s.cell? g.cell with
    | none => s
    | some c =>
      let b := barIndex gang
      if c.arriveWaits g b then s
      else
        let v : BitVec 32 := match gang with
          | some k => c.gang k.toNat
          | none => c.all
        let chk := if gang.isSome then c.gangCheck b g.index v else .ok
        match chk with
        | .own => (s.putGroup u { g with bars := adel g.bars b }).trapAt u causeGang (v.setWidth 64) act
        | .all =>
          ((s.putGroup u { g with bars := adel g.bars b }).gangFail g.cell b v).trapAt u causeGang (v.setWidth 64) act
        | .ok =>
          let g := { g with bars := aput g.bars b ⟨(c.barrier b).phase, g.clauseAddr, g.clauseIdx, act, []⟩ }
          let s := s.putCell g.cell (c.arrive b g.index v (s.relOf u g (barScope b) false s.uid))
          let g :=
            if wait then
              { (g.openRegion g.clauseIdx true) with
                wait := .barrier b none
                clause := g.clause.map fun k => { k with half := true } }
            else g.next true
          (s.putGroup u g).openPhase g.cell b

/-- BAR: an arrival, then a wait in the region that begins at its Wait half (R126, R366). -/
def execBar (h : Head) (gang : Option (BitVec 3)) (s : State) : Host.Outcome State Fault Refusal :=
  issue h s fun u g act =>
    if (g.clause.map (·.half)).getD false then
      match s.cell? g.cell with
      | none => s
      | some c => if act = 0 then s.finish u g else (s.barWait u (barIndex gang) c g).drawn
    else if act = 0 then s.commitOnly u g
    else ((s.commit u g.clauseIdx false).barArrive u act gang true).drawn

/-- BARA (R366). -/
def execBara (h : Head) (gang : Option (BitVec 3)) (s : State) : Host.Outcome State Fault Refusal :=
  effectE h s fun u g act => ((s.commit u g.clauseIdx false).barArrive u act gang false).drawn

/-- BARW (R366). -/
def execBarw (h : Head) (gang : Option (BitVec 3)) (s : State) : Host.Outcome State Fault Refusal :=
  effect h s fun u g _ =>
    match s.cell? g.cell with
    | none => s
    | some c => (s.barWait u (barIndex gang) c g).drawn

/-- The wave of a group has come (R362). -/
def Group.waveDue (g : Group) (b now : Nat) : Bool :=
  match g.wait with
  | .barrier k (some t) => k == b && decide (t ≤ now)
  | _ => false

/-- BARRIER_WAVE_RELEASE: the waiting groups of a cell whose wave has come resume (R362). -/
def execBarrierWaveRelease (cell b : Nat) (s : State) : Host.Outcome State Fault Refusal :=
  .next ((s.cellUnits cell).foldl (fun s u =>
    match s.group? u with
    | some g => if g.waveDue b (s.cycles (coreOf u)) then s.putGroup u (g.resumeBarrier u b) else s
    | none => s) s)

/-! ### Fences (17 R357) -/

/-- FENCE: it acquires what the group's reads have read from and the fences before it in the fence order (R348), and it
releases the writes that follow; a marker stands behind the stores still buffered. -/
def State.fence (s : State) (u : Nat) (g : Group) (uu : Bool) (scope : Nat) : State :=
  let g := (g.acquireHeard u scope uu).acquire u scope s.fences
  let g := s.fenceOf u g scope uu
  let r := g.fences.getLast?.toList
  let g := if g.buf.isEmpty then g else { g with buf := g.buf ++ [.marker] }
  (State.finish { s with fences := s.fences ++ r } u g).acquireL1 u scope

/-- FENCE. -/
def execFence (h : Head) (uu : Bool) (scope : BitVec 4) (s : State) : Host.Outcome State Fault Refusal :=
  effect h s fun u g _ => if g.released then s.fence u g uu scope.toNat else s

/-- The writes that a PFENCE of a group covers (R350): those that happen before it, made on a path that it names, by an agent
of its scope; each for reads on the other paths that it names. -/
def State.covered (s : State) (u : Nat) (g : Group) (scope : Nat) (mask : BitVec 5) : List (Nat × Path) :=
  let named := [Path.d, .k, .t, .p, .i].filter fun x => mask.getLsbD x.idx
  let v := s.viewOf g false s.uid
  s.old.flatMap fun o =>
    if v.known.elem o.stamp && named.elem o.author.path && inScope scope (g.party u) o.author.who then
      (named.filter (· != o.author.path)).map fun x => (o.stamp, x)
    else []

/-- A PFENCE covers; for reads on K it does so once an ACQ.k follows (R350). -/
def Group.cover (l : List (Nat × Path)) (g : Group) : Group :=
  { g with
    covers := g.covers ++ l.filter fun x => x.2 != .k && !g.covers.elem x
    coversK := g.coversK ++ l.filter fun x => x.2 == .k && !g.coversK.elem x }

/-- PFENCE. The pushes and tile transfers that a basin controller has received are applied as it receives them. -/
def execPfence (h : Head) (mask : BitVec 5) (scope : BitVec 4) (s : State) : Host.Outcome State Fault Refusal :=
  effect h s fun u g _ =>
    if !g.released then s
    else
      let s := s.finish u (g.cover (s.covered u g scope.toNat mask))
      let core := coreOf u
      let s := if mask.getLsbD 0 then s.acquireL1 u 4 else s
      if mask.getLsbD 4 then s.putCore core { s.core core with icache := [] } else s

/-- ACQ.k completes what a PFENCE began for reads on K (R350). -/
def Group.acquireK (g : Group) : Group := { g with covers := g.covers ++ g.coversK, coversK := [] }

/-- ACQ. -/
def execAcq (h : Head) (k : Bool) (scope : BitVec 4) (s : State) : Host.Outcome State Fault Refusal :=
  effect h s fun u g _ =>
    if g.readsOut then s
    else
      let g := g.acquireHeard u scope.toNat false
      let s := (s.finish u (if k then g.acquireK else g)).acquireL1 u scope.toNat
      if k then s.putCore (coreOf u) { s.core (coreOf u) with kcache := [] } else s

/-- REL: commits, then waits until every earlier access has been performed; its marker follows the stores that are still
unacknowledged. -/
def execRel (h : Head) (scope : BitVec 4) (s : State) : Host.Outcome State Fault Refusal :=
  effectE h s fun u g _ =>
    let s := s.commit u g.clauseIdx false
    match s.group? u with
    | none => s
    | some g => if g.released then (s.putGroup u ((s.fenceOf u g scope.toNat false).next true)).drawn else s.sendMarkers u

/-! ### SLEEP (18 R367) -/

/-- SLEEP. -/
def execSleep (h : Head) (a : Src) (imm : BitVec 20) (s : State) : Host.Outcome State Fault Refusal :=
  effect h s fun u g act =>
    let t : Int := (scalar32 s u g act a).toInt + imm.toInt
    if 0 < t then (s.putGroup u { g with wait := .sleep (s.now + t.toNat) }).drawn else s.finish u g

/-- SLEEP_EXPIRE: the timer has reached a sleeper's deadline. -/
def execSleepExpire (u : Nat) (s : State) : Host.Outcome State Fault Refusal :=
  match s.group? u with
  | none => .next s
  | some g =>
    match g.wait with
    | .sleep t => .next (if t ≤ s.now then s.putGroup u { g.advance with wait := .no } else s)
    | _ => .next s

end Sys2Proof.Machine
end

