-- ==== Sys2Proof/Machine/Requests.lean ====
section
/-! DEFINITION. Page requests after they are raised (spec 21 R382 to R385, R391): their records, their resolution and
their cancellation, the replay of parked lanes, and the walks that fill a TLB ahead of use. -/

namespace Sys2Proof.Machine

/-! ### Records (R382) -/

/-- The 32 bytes of a request's record. -/
def requestRecord (now : Nat) (q : PageReq) : Nat :=
  now % 2 ^ 64 + 2 ^ 140 * q.acc + 2 ^ 144 * q.reason + 2 ^ 148 * q.level + 2 ^ 150 * q.stage + 2 ^ 152 * q.srcfn +
  2 ^ 160 * q.tag.getD 0 + 2 ^ 176 * q.ctx + 2 ^ 192 * (q.region * 65536)

/-- Marks a request's record as written. -/
def State.requestDone (s : State) (id : Nat) : State :=
  { s with requests := modifyFirst (fun q => q.id == id) (fun q => { q with written := true }) s.requests }

/-- PAGE_REQUEST_RECORD: the oldest request of a function that holds a tag and has no record gets one, when its queue is
enabled and has room (R382, R383). -/
def execPageRequestRecord (f : Nat) (s : State) : Host.Outcome State Fault Refusal :=
  match s.requests.find? fun q => q.fn == f && q.tag.isSome && !q.written with
  | none => .next s
  | some q =>
    let ctl := s.reg (.prqctl f)
    let n := 2 ^ bits ctl 4 1
    let tail := bits ctl 63 32
    let head := bits (s.reg (.prqhead f)) 31 0
    if ctl.getLsbD 0 = false ∨ (tail + 2 ^ 32 - head) % 2 ^ 32 = n then .next s
    else
      let a := (s.reg (.prqbase f)).toNat + 32 * (tail % n)
      let s := s.devWrite .d srcBilael a (requestRecord s.now q) 32
      .next ((s.setReg (.prqctl f) (setBits ctl 63 32 ((tail + 1) % 2 ^ 32))).requestDone q.id)

/-! ### Resolution (R384, R385, R392) -/

/-- A group's wait ends when none of its requests is outstanding any more. -/
def State.endWait (s : State) (g : Group) : Group :=
  match g.wait with
  | .fault reqs => if reqs.any s.outstanding then g else { g with wait := .no }
  | _ => g

/-- Frees a request: its tag goes to the oldest request of the function that waits for one, and groups that wait on it
alone become ready. -/
def State.freeRequest (s : State) (q : PageReq) : State :=
  let s := State.assignTag { s with requests := s.requests.filter fun r => r.id != q.id } q.fn
  { s with groups := s.groups.map fun x => (x.1, s.endWait x.2) }

/-! ### Cancellation (R391) -/

/-- The instruction of a group that holds a lane parked on a request: its trap record; or that of a wait for it. -/
def Group.cancelRec (g : Group) (id : Nat) (addr : Dword) : Option TrapRec :=
  match g.pend.find? fun p => p.lanes.any fun l => l.st == .parked id with
  | some p => some ⟨causeCancel, p.addr, p.idx, addr, p.act⟩
  | none =>
    match g.wait with
    | .fault reqs => if reqs.elem id then some ⟨causeCancel, g.clauseAddr, g.clauseIdx, addr, g.headRun⟩ else none
    | _ => none

/-- A saved group takes the trap when it resumes; the access that was parked on the request is never performed. -/
def Group.cancelSaved (id : Nat) (addr : Dword) (g : Group) : Group :=
  { g with
    late := g.late.or (g.cancelRec id addr)
    pend := g.pend.filter fun p => !(p.lanes.any fun l => l.st == .parked id) }

/-- An agent that waits on the request fails (R391). -/
def Await.cancel (id : Nat) (a : Await) : Await := if a.reqs.elem id then { a with dead := true } else a

/-- Cancels a request: every group that holds such a lane or waits on it takes trap 15, and agents that wait fail. -/
def State.cancelRequest (s : State) (q : PageReq) : State :=
  let addr : Dword := BitVec.ofNat 64 (q.region * 65536)
  let hit := s.groups.filterMap fun x => (x.2.cancelRec q.id addr).map fun r => (x.1, r)
  let c := Await.cancel q.id
  let saveG (y : SavedGroup) : SavedGroup := ⟨y.g.cancelSaved q.id addr, y.slot⟩
  let savedL := s.saved.map fun (i : SaveImg) => { i with groups := i.groups.map saveG }
  let copyL := s.copies.map fun (k : CopyReq) => { k with aw := c k.aw }
  let memberC (k : CopymReq) : CopymReq := { k with aw := c k.aw, caw := c k.caw }
  let copymL := s.copyms.map memberC
  let copymO := s.copymOps.map fun (o : CopymOp) => { o with members := o.members.map memberC }
  let cardL := s.cards.map fun (k : Card) => { k with aw := c k.aw }
  let owedL := s.owed.map fun (k : Owed) => { k with aw := c k.aw }
  let jobL := s.routeJobs.map fun (k : RouteJob) => { k with aw := c k.aw }
  let tierL := s.tierReqs.map fun (k : TierReq) => { k with aw := c k.aw }
  let engW (k : EngAsync) : EngAsync := { k with aw := c k.aw }
  let engE (e : EngineSt) : EngineSt := { e with work := e.work.map engW }
  let engL := s.engines.map fun (e : Nat × EngineSt) => (e.1, engE e.2)
  let s := { s with saved := savedL, copies := copyL, copyms := copymL, copymOps := copymO, cards := cardL, routeJobs := jobL }
  let s := { s with tierReqs := tierL, engines := engL, owed := owedL }
  let s := hit.foldl (fun s x => s.takeTrap x.1 x.2) s
  s.freeRequest q

/-! ### Replay (R384) -/

/-- The kind of access of a parked lane. -/
def parkedAcc : Instr → Nat
  | .atom .. | .atomb .. => accAtomic
  | _ => accLoad

/-- The bytes of a lane that its group still has buffered, among those that it had when the lane issued (09 R239). -/
def LaneReq.ownNow (g : Group) (l : LaneReq) (ps : List Piece) : List (Nat × Byte) :=
  let as_ := ps.flatMap fun p => (List.range p.len).map (p.pa + ·)
  l.own.filter fun x => as_.elem x.1 && !(bufBytes g.buf false [x.1]).isEmpty

/-- Translates a lane again: it becomes ready, is parked under a request, or meets a physical-address fault. -/
def State.replayLane (s : State) (g : Group) (acc len : Nat) (l : LaneReq) : State × LaneReq × Option Dword :=
  match s.chkVa g.ctx acc (s.groupPriv g) l.addr len 1 none with
  | .fault st lv r a =>
    let x := s.raiseRequest g.ctx st lv r a acc
    (x.1, { l with st := .parked x.2 }, none)
  | .ok ps =>
    let s := s.tlbFill g.ctx l.addr.toNat (s.translate g.ctx l.addr.toNat acc (s.groupPriv g))
    (s, { l with st := .ready, pieces := ps, own := l.ownNow g ps }, none)
  | .trap _ i => (s, l, some i)

/-- The open region of a group commits where the group stands, before a replayed access to an S page (09 R224). DEDUCED
(log entry 68): its restart index has passed the access, which is performed once (21 R384). -/
def State.commitHere (s : State) (u : Nat) : State :=
  match s.group? u with
  | none => s
  | some g =>
    if g.taking.isSome || g.resume.isSome then s
    else
      let s := s.drain u
      s.onGroup u g.uid Group.reopen

/-- Translates lanes of an instruction again in ascending order; the address of the lowest one that meets a
physical-address fault, which is taken out and never performed. -/
def State.replay (s : State) (u tok : Nat) : List LaneReq → State × Option Dword
  | [] => (s, none)
  | l :: t =>
    match s.group? u with
    | none => (s, none)
    | some g =>
      match g.pend.find? fun p => p.tok == tok with
      | none => (s, none)
      | some p =>
        let (s, l', bad) := s.replayLane g (parkedAcc p.ins) (accessBytes p.ins) l
        match bad with
        | some i => (((s.putGroup u (g.dropLane tok l.lane)).replay u tok t).1, some i)
        | none =>
          let s := s.putGroup u (g.putLane tok l')
          (if l'.pieces.any (·.kind == .s) then s.commitHere u else s).replay u tok t

/-- Replays lanes of an instruction, performs those that can be, and then raises the trap of the lowest that may not be;
the lanes that remain stay pending (21 R384, R389). -/
def State.replayAll (s : State) (u tok : Nat) (p : Pend) (ls : List LaneReq) : State :=
  let r := s.replay u tok ls
  let s := r.1.tryLanes u tok (ls.map (·.lane))
  match r.2 with
  | some i => s.trapPend u causePhys p i
  | none => s

/-- PARKED_LANE_REPLAY (R384). -/
def execParkedLaneReplay (u tok : Nat) (s : State) : Host.Outcome State Fault Refusal :=
  match s.group? u with
  | none => .next s
  | some g =>
    match g.pend.find? fun p => p.tok == tok with
    | none => .next s
    | some p =>
      let ls := p.lanes.filter fun l =>
        match l.st with
        | .parked r => !s.outstanding r
        | _ => false
      if ls.isEmpty then .next s else .next ((s.replayAll u tok p ls).drawn)

/-! ### Walks (R378, R381, R383) -/

/-- The walk of a lane's address ends with that of a region. -/
def LaneReq.walks (len region : Nat) (l : LaneReq) : Bool :=
  l.st == .walking && (l.addr.toNat / 65536 == region || (l.addr.toNat + len - 1) / 65536 == region)

/-- The lanes of a group whose walk ends: each is translated, or its fault raises or joins a request (R383, R384). -/
def State.endWalks (s : State) (u region : Nat) (g : Group) : State :=
  g.pend.foldl (fun s p =>
    let ls := p.lanes.filter (LaneReq.walks (accessBytes p.ins) region)
    if ls.isEmpty then s else s.replayAll u p.tok p ls) s

/-- TRANSLATION_WALK: a walk of a context fills the TLBs (R376 to R381); one that fails holds nothing, and the accesses that
wait on it raise or join their request (R383). -/
def execTranslationWalk (c : Nat) (va : Dword) (acc : Nat) (sup : Bool) (s : State) : Host.Outcome State Fault Refusal :=
  let t := s.tlbFill c va.toNat (s.walk c va.toNat acc sup)
  .next ((s.groups.filter fun x => x.2.ctx == c).foldl (fun s x => s.endWalks x.1 (va.toNat / 65536) x.2) t)

/-! ### Traps that waited (R389, R394) -/

/-- TRAP_DELIVER: a taken trap is delivered once every result in flight has landed; a trap found for the group elsewhere
is taken between two clauses, before the next one starts (R389, 12 R303). -/
def execTrapDeliver (u : Nat) (s : State) : Host.Outcome State Fault Refusal :=
  match s.group? u with
  | none => .next s
  | some g =>
    match g.taking with
    | some r => .next (if g.settled && !g.isEngine then s.deliver u r else s)
    | none =>
      match g.late with
      | some r =>
        .next (if g.clause.all fun c => !c.started then (s.putGroup u { g with late := none }).takeTrap u r else s)
      | none => .next s

end Sys2Proof.Machine
end

