-- ==== Sys2Proof/Machine/Starting.lean ====
section
/-! DEFINITION. Clauses: their fetch and checks (spec 04 R77 to R82, R95 to R98), readiness and the clause-issue port (05
R115 to R122), the next instruction of a clause in flight, and time. -/

namespace Sys2Proof.Machine

/-! ### Fetch (04 R77 to R79, R98) -/

/-- The checks of a fetch: virtual addresses alone, and memory alone. DEDUCED (log entry 17). -/
def State.chkFetch (s : State) (g : Group) (a : Dword) (n : Nat) : LaneChk :=
  if 2 ^ 56 < a.toNat + n then .trap causeFetch a
  else
    match s.chkParts false g.ctx accFetch (s.groupPriv g) a (partsOf a.toNat n) with
    | .ok ps => if ps.any fun p => inRegs p.pa then .trap causeFetch a else .ok ps
    | c => c

/-- What a fetch of some bytes came to. -/
inductive Fetched where
  | bytes (s : State) (bs : List Byte)
  | wait (s : State) (reqs : List Nat)
  | trap

/-- Reads `n` bytes of code: through the instruction cache on the I path, or at the homes for an engine (04 R78; 14
R319). Poison on fetch is a fetch fault (21 R388). -/
def State.fetchBytes (s : State) (u : Nat) (g : Group) (a : Dword) (n : Nat) : Fetched :=
  match s.chkFetch g a n with
  | .trap _ _ => .trap
  | .fault st lv r ad =>
    let x := s.raiseRequest g.ctx st lv r ad accFetch
    .wait x.1 [x.2]
  | .ok ps =>
    let s := s.tlbFill g.ctx a.toNat (s.translate g.ctx a.toNat accFetch (s.groupPriv g))
    if g.isEngine then
      let r := s.readThrough mustAll [] ⟨false, false, false⟩ [] ps
      if r.bad.isSome then .trap else .bytes s r.vals
    else
      let c := s.core (coreOf u)
      let r := s.readThrough (g.must .i) c.icache ⟨true, true, false⟩ [] ps
      if r.bad.isSome then .trap
      else .bytes ((s.putCore (coreOf u) { c with icache := r.cache }).noteReads u g.uid .i false r.bytes) r.vals

/-- What the fetch of some words came to. -/
inductive FetchedWords where
  | words (s : State) (ws : List Dword)
  | wait (s : State) (reqs : List Nat)
  | trap (k : Nat)

/-- Fetches the `n` words of a clause at `a` from word `k` on, the header being word 0: the first that fails decides. -/
def State.fetchWords (u : Nat) (g : Group) (a : Dword) : Nat → Nat → State → FetchedWords
  | 0, _, s => .words s []
  | n + 1, k, s =>
    match s.fetchBytes u g (a + BitVec.ofNat 64 (8 * k)) 8 with
    | .trap => .trap k
    | .wait s reqs => .wait s reqs
    | .bytes s bs =>
      match State.fetchWords u g a n (k + 1) s with
      | .words s ws => .words s (BitVec.ofNat 64 (leNat bs) :: ws)
      | x => x

/-- The trap of R98 that a fetched clause raises, with the index of the offending word. -/
def State.clauseTrap (s : State) (g : Group) (hdr : Dword) (words : List Dword) : Option (Nat × Nat) :=
  (clauseError g.isEngine (s.groupPriv g) g.vr g.sr hdr words).map fun e => (e.cause, e.idx)

/-- Takes a trap found before a clause issues (04 R98). -/
def State.fetchTrap (s : State) (u : Nat) (g : Group) (a : Dword) (cause idx : Nat) (info : Dword) : State :=
  (s.takeTrap u ⟨cause, a, idx, info, g.headRun⟩).drawn

/-- A fetch that faulted in translation leaves the group not ready (21 R385). -/
def State.fetchWait (s : State) (u : Nat) (g : Group) (reqs : List Nat) : State :=
  (s.onGroup u g.uid fun g => { g with wait := .fault reqs }).drawn

/-- The fetch of word `k` of a clause failed: the trap names that word, and 15 for the header, word 0 (04 R98; 21 R388,
R389; log entry 17). -/
def State.fetchFail (s : State) (u : Nat) (g : Group) (a : Dword) (k : Nat) : State :=
  s.fetchTrap u g a causeFetch ((k + 15) % 16) (a + BitVec.ofNat 64 (8 * k))

/-- Fetches and checks the clause at the head run's address. -/
def State.fetchClause (s : State) (u : Nat) (g : Group) (a : Dword) : State :=
  match State.fetchWords u g a 1 0 s with
  | .trap k => s.fetchFail u g a k
  | .wait s reqs => s.fetchWait u g reqs
  | .words s hs =>
    let hdr := hs.headD 0
    match State.fetchWords u g a (hdrWords hdr - 1) 1 s with
    | .trap k => s.fetchFail u g a k
    | .wait s reqs => s.fetchWait u g reqs
    | .words s ws =>
      let words := ws.take (hdrCount hdr + 1)
      match s.clauseTrap g hdr words with
      | some (c, i) => s.fetchTrap u g a c i 0
      | none =>
        let c : Clause := ⟨a, hdr, words, ws.drop (hdrCount hdr + 1), false, 0, false⟩
        (s.onGroup u g.uid fun g => { g with clause := some c }).drawn

/-- The core of an issuer has power and is awake (21 R401; 24 R435). -/
def State.unitUp (s : State) (u : Nat) : Bool := decide (12288 ≤ u) || s.coreUp (coreOf u)

/-- A group may fetch: nothing is in flight, and no trap or wait holds it (a child may wait for its spawner's stores). -/
def Group.mayFetch (g : Group) : Bool :=
  g.clause.isNone && g.taking.isNone && g.late.isNone &&
  g.wait == .no

/-- CLAUSE_FETCH (04 R77, R78, R98). -/
def execClauseFetch (u : Nat) (s : State) : Host.Outcome State Fault Refusal :=
  match s.group? u with
  | none => .next s
  | some g =>
    match g.headAddr with
    | none => .next s
    | some a => if g.mayFetch && s.unitUp u then .next (s.fetchClause u g a) else .next s

/-! ### Readiness (05 R119, R120) -/

/-- Nothing makes the group wait; a child waits until its spawner's stores have been performed (05 R137). -/
def State.waitOver (s : State) (g : Group) : Bool :=
  match g.wait with
  | .no => true
  | .stores l =>
    l.all fun k => !(s.packets.any fun p => p.stamp == k) && !(s.globals.any fun x => x.id == k)
  | _ => false

/-- Every flag of a WAIT mask is idle. -/
def Group.flagsIdle (g : Group) (m : Nat) : Bool := (List.range 12).all fun n => !m.testBit n || g.flag n == 0

/-- A group is ready (05 R120). -/
def State.ready (s : State) (g : Group) : Bool :=
  match g.clause with
  | some c => !c.started && s.waitOver g && g.taking.isNone && g.late.isNone && g.flagsIdle (bits c.hdr 51 40)
  | none => false

/-! ### The clause-issue port (05 R121) -/

/-- A group has been ready for at least 128 cycles (05 R121). -/
def Group.isUrgent (g : Group) (now : Nat) : Bool :=
  g.urgent ||
  match g.readyAt with
  | some t => decide (t + 128 ≤ now)
  | none => false

/-- A charge-balance hold applies to a core's cluster (05 R121). -/
def State.held (s : State) (core : Nat) : Bool :=
  match (s.cluster (clusterOf core)).hold with
  | some t => decide (s.cycles core < t)
  | none => false

/-- The group that the port of a core starts (05 R121). -/
def State.chosen (s : State) (core : Nat) : Option (Nat × Group) :=
  let now := s.cycles core
  let rs := (s.coreGroups core).filter fun x => s.ready x.2
  let us := rs.filter fun x => x.2.isUrgent now
  if us.isEmpty then leastBy (fun x => x.2.prio * 2 ^ 64 + x.2.stamp) rs
  else leastBy (fun x => x.2.readyAt.getD now) us

/-- Starts a group's clause, at its restart index after a restart; a REGION clause commits first (05 R123, R125). -/
def State.startClause (s : State) (u : Nat) (g : Group) (c : Clause) : State :=
  let (i, half) := g.resume.getD (0, false)
  let g' : Group :=
    { g with
      clause := some { c with started := true, next := i, half := half }
      resume := none
      wait := .no
      readyAt := none
      urgent := false
      latch := []
      latchOk := 0 }
  let s := s.putGroup u g'
  if hdrRegion c.hdr = true ∧ g.resume = none then s.commit u 0 false else s

/-- CLAUSE_START (05 R115, R121): the port of core `port`, or from 384 on the weir engine of a stack, starts a clause. -/
def execClauseStart (port : Nat) (s : State) : Host.Outcome State Fault Refusal :=
  let x :=
    if port < 384 then
      if s.held port || !s.coreUp port then none else s.chosen port
    else
      let u := engineUnit (port - 384)
      match s.group? u with
      | some g => if s.ready g then some (u, g) else none
      | none => none
  match x with
  | none => .next s
  | some (u, g) =>
    match g.clause with
    | some c => .next (s.startClause u g c)
    | none => .next s

/-- GROUP_URGENT (05 R121). -/
def execGroupUrgent (u : Nat) (s : State) : Host.Outcome State Fault Refusal :=
  match s.group? u with
  | none => .next s
  | some g =>
    if s.ready g && g.isUrgent (s.cycles (coreOf u)) then .next (s.putGroup u { g with urgent := true }) else .next s

/-! ### The next instruction of a clause in flight (05 R115, R116) -/

/-- What an issue turn comes to: nothing issues, or an instruction does. -/
inductive Issuing where
  | idle (s : State)
  | run (i : Instr) (s : State)

/-- A group whose clause is in flight may issue: CTRWAIT and RDV read again on every turn. -/
def Group.mayIssue (g : Group) : Bool :=
  g.taking.isNone &&
  match g.wait with
  | .no | .counter _ | .cards _ => true
  | _ => false

/-- The instruction that an issuer issues next. A latch that a restart lost is stale (09 R224). -/
def State.issuing (s : State) (u : Nat) : Issuing :=
  match s.group? u with
  | none => .idle s
  | some g =>
    match g.clause with
    | none => .idle s
    | some c =>
      if !c.started || !g.mayIssue || !s.unitUp u then .idle s
      else
        match c.words[c.next]? with
        | none => .idle (s.putGroup u (g.endClause fun _ => some g.nextClause))
        | some w =>
          let s := { s with cur := u }
          match decodeWord w with
          | .error _ => .idle (s.trapAt u causeIllegal 0 g.headRun)
          | .ok i =>
            if i.latchReads.all fun b => g.latchOk.getLsbD b.toNat then .run i s
            else .idle (s.trapAt u causeStale 0 (g.headRun))

/-! ### Time (00 R4; 10 R252; 23 R416) -/

/-- The buckets of contracts fill (10 R252). -/
def State.refillBuckets (s : State) (ns : Nat) : State :=
  let f (b : Nat × Int) : Option (Nat × Int) :=
    let w := s.reg (.bsc (b.1 / 4))
    let k := b.1 % 4
    let rate := bits w (16 * k + 11) (16 * k)
    let cap : Int := (bits w (16 * k + 15) (16 * k + 12) + 1) * 1024
    if cap ≤ b.2 + rate * ns then none else some (b.1, b.2 + rate * ns)
  { s with buckets := s.buckets.filterMap f }

/-- When a group became ready (05 R121). -/
def State.markReady (s : State) (x : Nat × Group) : Nat × Group :=
  if s.ready x.2 && s.unitUp x.1 then
    (x.1, { x.2 with readyAt := some (x.2.readyAt.getD (s.cycles (coreOf x.1))) })
  else (x.1, { x.2 with readyAt := none, urgent := false })

/-- Every cluster, listed or not, has run for `ns` at its speed, of which `drift` millionths are nominal time; how far its
reading of the timer lies behind is free, within the bound and such that it never decreases (23 R422, R423). -/
def State.runClusters (s : State) (ns : Nat) : State :=
  (List.range 96).foldl (fun s k =>
    let c := s.cluster k
    s.putCluster k
      { c with
        cycle := c.cycle + c.speed * ns * s.drift
        lag := min (Config.lag s.draw k % (Config.skew + 1)) (c.lag + ns) }) s

/-- Time passes: `ns` nanoseconds of the global timer. -/
def State.tick (s : State) (ns : Nat) : State :=
  let s := { s with groups := s.groups.map s.markReady }
  let s := { s with now := s.now + ns }
  (s.runClusters ns).refillBuckets ns

end Sys2Proof.Machine
end

