-- ==== Sys2Proof/Machine/RegisterEvents.lean ====
section
/-! DEFINITION. Register writes that are steps of their own (spec 01 R24 to R27; 03 R52, R54; 10 R254; 11 R277; 21 R374,
R382, R386, R390, R396, R399; 24 R426): each is a write of its register by an agent. -/

namespace Sys2Proof.Machine

/-- PARTITION_OPEN (03 R52). -/
def execPartitionOpen (a : Agent) (p : Nat) (x : Dword) (s : State) : Host.Outcome State Fault Refusal :=
  .next (s.regWrite a (.partcfg p) x)

/-- PARTITION_CLOSE (03 R52). -/
def execPartitionClose (a : Agent) (p : Nat) (x : Dword) (s : State) : Host.Outcome State Fault Refusal :=
  .next (s.regWrite a (.partcfg p) x)

/-- ILMAP_WRITE (01 R25). -/
def execIlmapWrite (a : Agent) (n : Nat) (x : Dword) (s : State) : Host.Outcome State Fault Refusal :=
  .next (s.regWrite a (.ilmap n) x)

/-- ILLOCK_SET (01 R24). -/
def execIllockSet (a : Agent) (x : Dword) (s : State) : Host.Outcome State Fault Refusal :=
  .next (s.regWrite a .illock x)

/-- LAUNCH_LIST_ENABLE (03 R54). -/
def execLaunchListEnable (a : Agent) (p n : Nat) (x : Dword) (s : State) : Host.Outcome State Fault Refusal :=
  .next (s.regWrite a (.llctl p n) x)

/-- LAUNCH_LIST_DISABLE (03 R54). -/
def execLaunchListDisable (a : Agent) (p n : Nat) (x : Dword) (s : State) : Host.Outcome State Fault Refusal :=
  .next (s.regWrite a (.llctl p n) x)

/-- BSC_WRITE (10 R254). -/
def execBscWrite (a : Agent) (src : Nat) (x : Dword) (s : State) : Host.Outcome State Fault Refusal :=
  .next (s.regWrite a (.bsc src) x)

/-- BSSTAT_REFUSED_CLEAR (10 R254). -/
def execBsstatRefusedClear (a : Agent) (k : Nat) (x : Dword) (s : State) : Host.Outcome State Fault Refusal :=
  .next (s.regWrite a (.bsstat k) x)

/-- CTXCTL_WRITE (21 R374). -/
def execCtxctlWrite (a : Agent) (c : Nat) (x : Dword) (s : State) : Host.Outcome State Fault Refusal :=
  .next (s.regWrite a (.ctxctl c) x)

/-- PREEMPT_SAVE (21 R396). -/
def execPreemptSave (a : Agent) (c : Nat) (x : Dword) (s : State) : Host.Outcome State Fault Refusal :=
  .next (s.regWrite a (.preempt c) x)

/-- PREEMPT_RESUME (21 R396). -/
def execPreemptResume (a : Agent) (c : Nat) (x : Dword) (s : State) : Host.Outcome State Fault Refusal :=
  .next (s.regWrite a (.preempt c) x)

/-- BREAKPOINT_RESUME (21 R390). -/
def execBreakpointResume (a : Agent) (c : Nat) (x : Dword) (s : State) : Host.Outcome State Fault Refusal :=
  .next (s.regWrite a (.bkres c) x)

/-- KILL (21 R399). -/
def execKill (a : Agent) (c : Nat) (x : Dword) (s : State) : Host.Outcome State Fault Refusal :=
  .next (s.regWrite a (.kill c) x)

/-- KILL_COMPLETE: every step of the kill is done (21 R399 step 7). -/
def execKillComplete (c : Nat) (s : State) : Host.Outcome State Fault Refusal :=
  let w := s.reg (.ctxstat c)
  if w.getLsbD 0 && !w.getLsbD 1 && s.quiet c then
    let s := s.setReg (.ctxstat c) (setBits w 1 1 1)
    .next (s.logCtx c (srcDispatcher ((s.partOfCtx c).getD 0)) 0x0E c)
  else .next s

/-- PRQ_ENABLE (21 R382). -/
def execPrqEnable (a : Agent) (f : Nat) (x : Dword) (s : State) : Host.Outcome State Fault Refusal :=
  .next (s.regWrite a (.prqctl f) x)

/-- EVQ_ENABLE (24 R426). -/
def execEvqEnable (a : Agent) (p : Nat) (x : Dword) (s : State) : Host.Outcome State Fault Refusal :=
  .next (s.regWrite a (.evqctl p) x)

/-- TIERPOOL_WRITE (11 R277). -/
def execTierpoolWrite (a : Agent) (p d : Nat) (x : Dword) (s : State) : Host.Outcome State Fault Refusal :=
  .next (s.regWrite a (.tierpool p d) x)

/-- MIGGO_WRITE (21 R386). -/
def execMiggoWrite (a : Agent) (p : Nat) (x : Dword) (s : State) : Host.Outcome State Fault Refusal :=
  .next (s.regWrite a (.miggo p) x)

/-- REGISTER_WRITE: a write of any register by an agent (01 R27); an unassigned address takes none. -/
def execRegisterWrite (a : Agent) (pa : Nat) (x : Dword) (s : State) : Host.Outcome State Fault Refusal :=
  match regAt pa with
  | some r => .next (s.regWrite a r x)
  | none => .next s

end Sys2Proof.Machine
end

