-- ==== Sys2Proof/Machine/Power.lean ====
section
/-! DEFINITION. Charge balance, boost and the energy account (spec 23 R412 to R421).
What the device expects of a coming window, and the energy that no instruction or action accounts for, come with the
schedule. -/

namespace Sys2Proof.Machine

/-! ### The energy account (23 R420, R421) -/

/-- Adds to an account, in 1/1,024 µJ: a context's number, or 1000 + a partition's. -/
def State.addEnergy (s : State) (k n : Nat) : State := { s with energy := asetD 0 s.energy k (agetD 0 s.energy k + n) }

/-- A charge to a partition's house account. -/
def State.addHouse (s : State) (p n : Nat) : State := s.addEnergy (1000 + p) n

/-- A charge to a context; after its kill's step 2, to the house account (23 R421). -/
def State.addCtx (s : State) (c n : Nat) : State :=
  if (s.reg (.ctxstat c)).getLsbD 0 then
    match s.partOfCtx c with
    | some p => s.addHouse p n
    | none => s
  else s.addEnergy c n

/-- Energy of the stalls and holds of a context's resident groups, and of idle clusters and in-field tests of a partition
that is open: how much, the schedule says. -/
def State.turnCharge (s : State) (c n : Nat) : State := if s.groups.any fun x => x.2.ctx == c then s.addCtx c n else s
def State.turnHouse (s : State) (p n : Nat) : State := if s.partOpen p then s.addHouse p n else s

/-- The instruction of word `w` that a group issues: each active lane's operation counts in its cluster's window, for the
group's context, and its energy is the context's (23 R412, R421). -/
def State.chargeInstr (s : State) (u : Nat) (g : Group) (w : Dword) : State :=
  let n := (lanesList (g.active (headOf w))).length * Config.charge (bits w 63 52)
  let s := s.addCtx g.ctx (Config.energyOf n)
  if 12288 ≤ u then s
  else
    let i := clusterOf (coreOf u)
    let c := s.cluster i
    s.putCluster i { c with est := c.est + n, shares := asetD 0 c.shares g.ctx (agetD 0 c.shares g.ctx + n) }

/-! ### Charge balance (23 R412 to R415) -/

/-- The device's estimate of a cluster's charge in the window to come (23 R415). -/
def State.turnEstimate (s : State) (die k n : Nat) : State :=
  let i := 12 * die + k
  s.putCluster i { s.cluster i with coming := n }

/-- The imbalance of two estimates exceeds 10% (23 R412, R413). -/
def imbalanced (heavy light : Nat) : Bool := decide (heavy < 10 * (heavy - light))

/-- A cluster would rise by more than RAMP allows (23 R415). -/
def State.ramps (s : State) (die k ramp : Nat) : Bool :=
  let c := s.cluster (12 * die + k)
  ramp != 0 && decide (ramp * Config.fullLoad die k < 64 * (c.coming - c.est))

/-- A hold begins on a cluster, at most one in a window, and is counted (23 R413 to R415). -/
def State.beginHold (s : State) (die k : Nat) : State :=
  let i := 12 * die + k
  let c := s.cluster i
  if c.heldIn then s
  else
    let w := s.reg (.cbal die (k / 2))
    (s.putCluster i { c with hold := some (c.cycle / 5000000 + 64), heldIn := true }).setReg (.cbal die (k / 2))
      (setBits w 39 24 (min 0xFFFF (bits w 39 24 + 1)))

/-- A cluster's window ends and the next one begins: `lighter` where it is to perform ballast in it. -/
def State.closeWindow (s : State) (die k time : Nat) (lighter : Bool) : State :=
  let i := 12 * die + k
  let c := s.cluster i
  s.putCluster i
    { c with
      est := 0, shares := [], prevEst := c.est, prevShares := c.shares, lighter := lighter, ballast := 0, heldIn := false,
      window := time }

/-- The heavier cluster of a pair, then the lighter one: the even one is heavier where they are equal (23 R412). -/
def State.heavier (s : State) (die pair : Nat) : Nat × Nat :=
  let a := 2 * pair
  if (s.cluster (12 * die + a + 1)).est ≤ (s.cluster (12 * die + a)).est then (a, a + 1) else (a + 1, a)

/-- The window of a pair is judged at its end: the lighter cluster performs ballast in the next one where the imbalance
exceeds 10%, and a cluster whose coming estimate rises too fast takes a hold (23 R413, R415). -/
def State.judgePair (s : State) (die pair time : Nat) : State :=
  let (hv, lt) := s.heavier die pair
  let un := imbalanced (s.cluster (12 * die + hv)).est (s.cluster (12 * die + lt)).est
  let rise := [2 * pair, 2 * pair + 1].filter fun k => s.ramps die k (bits (s.reg (.cbal die pair)) 23 16)
  rise.foldl (fun s k => s.beginHold die k) ((s.closeWindow die lt time un).closeWindow die hv time false)

/-- The ballast operations that bring a cluster within 10% of the heavier one, and those that BUDGET admits (23 R413,
R414). -/
def ballastNeed (heavy light : Nat) : Nat := (9 * heavy - 10 * light + (10 * Config.ballastCharge - 1)) / (10 * Config.ballastCharge)
def ballastRoom (die k budget : Nat) : Nat := budget * Config.slots die k / 256

/-- Ballast's energy: to the contexts of the heavier cluster's window before, each by its share of the estimate (23
R421). -/
def State.chargeBallast (s : State) (die hv n : Nat) : State :=
  let c := s.cluster (12 * die + hv)
  c.prevShares.foldl (fun s x => s.addCtx x.1 (Config.energyOf (n * Config.ballastCharge) * x.2 / max 1 c.prevEst)) s

/-- What a pair does within a window that follows an imbalance: the lighter cluster performs ballast until it comes within
10% of the heavier or the budget is spent; if it is spent and the imbalance still exceeds 10%, the heavier cluster takes a
hold (23 R413). -/
def State.actPair (s : State) (die pair : Nat) : State :=
  match [2 * pair, 2 * pair + 1].find? fun k => (s.cluster (12 * die + k)).lighter with
  | none => s
  | some lt =>
    let hv := 4 * pair + 1 - lt
    let c := s.cluster (12 * die + lt)
    let heavy := (s.cluster (12 * die + hv)).est
    let room := ballastRoom die lt (bits (s.reg (.cbal die pair)) 7 0)
    let n := min (ballastNeed heavy c.est) (room - c.ballast)
    let c' : ClusterSt := { c with est := c.est + n * Config.ballastCharge, ballast := c.ballast + n }
    let s := (s.chargeBallast die hv n).putCluster (12 * die + lt) c'
    if room ≤ c'.ballast ∧ imbalanced heavy c'.est = true then s.beginHold die hv else s

/-- CBAL_WINDOW: at the end of a window the pair is judged; within one, it acts (23 R413, R415). -/
def execCbalWindow (die pair : Nat) (s : State) : Host.Outcome State Fault Refusal :=
  if s.now % 32 = 0 ∧ (s.cluster (12 * die + 2 * pair)).window ≠ s.now then
    .next ((s.actPair die pair).judgePair die pair s.now)
  else .next (s.actPair die pair)

/-- CBAL_HOLD_END: a hold has lasted its time, or ends before it (23 R413). -/
def execCbalHoldEnd (die k : Nat) (s : State) : Host.Outcome State Fault Refusal :=
  let i := 12 * die + k
  .next (s.putCluster i { s.cluster i with hold := none })

/-- Nothing of a cluster's charge windows is under way. -/
def ClusterSt.calm (c : ClusterSt) : Bool := c.est == 0 && c.prevEst == 0 && c.coming == 0 && !c.lighter && !c.heldIn

/-- The `n` windows of a pair that have ended by `time`: the one under way, and one behind it, in which nothing happened,
for all the others. -/
def State.passWindows (s : State) (time n die pair : Nat) : State :=
  let i := 12 * die + 2 * pair
  if n = 0 then s
  else if (s.cluster i).calm && (s.cluster (i + 1)).calm then
    (s.putCluster i { s.cluster i with window := time }).putCluster (i + 1) { s.cluster (i + 1) with window := time }
  else
    let s := (s.actPair die pair).judgePair die pair time
    if n = 1 then s else (s.actPair die pair).judgePair die pair time

/-- The windows of every pair that end within `ns` from now, the one that ends with it apart. -/
def State.windows (s : State) (ns : Nat) : State :=
  if ns = 0 then s
  else
    let last := (s.now + ns - 1) / 32
    (List.range 48).foldl (fun s k =>
      let w := (s.cluster (12 * (k / 6) + 2 * (k % 6))).window
      s.passWindows (32 * last) (last - w / 32) (k / 6) (k % 6)) s

/-! ### Boost (23 R416 to R418) -/

/-- The clusters of a die that claim boost. -/
def State.claims (s : State) (die : Nat) : List Nat :=
  (List.range 12).filter fun k =>
    (s.reg (.boost die)).getLsbD k && s.groups.any fun x => x.1 < 12288 && clusterOf (coreOf x.1) == 12 * die + k

/-- The claims in the order of the grant pointer. -/
def fromPtr (ptr : Nat) (l : List Nat) : List Nat := (l.filter fun k => ptr ≤ k) ++ (l.filter fun k => k < ptr)

/-- The claims that a pool grants, and the grant pointer afterwards (23 R417). -/
def grants (permits ptr : Nat) (claims : List Nat) : List Nat × Nat :=
  if claims.length ≤ permits then (claims, ptr)
  else
    let g := (fromPtr ptr claims).take permits
    (g, match g.getLast? with
      | some k => (k + 1) % 12
      | none => ptr)

/-- The speed of a cluster in an interval (23 R416, R417). -/
def boostSpeed (claims granted : List Nat) (k old : Nat) : Nat :=
  if granted.elem k then 20 else if claims.elem k && old == 20 then 19 else 18

/-- A boost interval of a die begins (23 R416 to R418): the pool's gain follows the grants. DEDUCED from the worked
burst. -/
def State.boost (s : State) (die : Nat) : State :=
  let d := s.die die
  let cs := s.claims die
  let (gs, ptr) := grants d.permits d.ptr cs
  let left := d.permits - gs.length
  let gain := if s.now % 20000 = 0 ∧ 4 ≤ d.noClaim then 1 else 0
  let d' : DieSt :=
    { d with
      permits := min 64 (left + gain)
      ptr := ptr
      noClaim := if cs.isEmpty then d.noClaim + 1 else 0
      boundary := s.now }
  (List.range 12).foldl (fun s k =>
    let c := s.cluster (12 * die + k)
    s.putCluster (12 * die + k) { c with speed := boostSpeed cs gs k c.speed }) (s.putDie die d')

/-- BOOST_INTERVAL: at a boundary that has not been served (23 R417). -/
def execBoostInterval (die : Nat) (s : State) : Host.Outcome State Fault Refusal :=
  if s.now % 5000 ≠ 0 ∨ (s.die die).boundary = s.now then .next s else .next (s.boost die)

/-! ### Time (00 R4; 23 R416 to R423) -/

/-- The boost intervals of every die that begin at this instant and have not been served (23 R417). -/
def State.boosts (s : State) : State :=
  if s.now % 5000 = 0 then (List.range 8).foldl (fun s d => if (s.die d).boundary = s.now then s else s.boost d) s else s

/-- The time that a tick of `ns` lets pass: none beyond the next boundary of the boost intervals (23 R416). -/
def tickSpan (now ns : Nat) : Nat := min ns (5000 - now % 5000)

end Sys2Proof.Machine
end

