-- ==== Sys2Proof/Machine/Records.lean ====
section
/-! DEFINITION. Launch records (spec 02 R32 to R43; 03 R53 to R63): the dispatcher's reads and checks, and the addition to
COMPCTR. -/

namespace Sys2Proof.Machine

/-- Dependence j of a side block (R43). -/
def depAddr (sd : List Dword) (j : Nat) : Dword := sd.getD (2 * j) 0
def depTarget (sd : List Dword) (j : Nat) : Nat := (sd.getD (2 * j + 1) 0).toNat

/-! ### The checks of R42 -/

/-- Check 1: a reserved field, or a reserved scope code (R31). -/
def recReserved (ws sd : List Dword) : Bool :=
  field ws 447 441 != 0 || field ws 379 376 != 0 || field ws 255 248 != 0 || field ws 191 176 != 0 ||
  decide (11 < field ws 383 380) || field sd 1023 832 != 0 || field sd 767 736 != 0

/-- Check 6: an address breaks its alignment. Fields of the side block whose flag is 0 are ignored (R43); no flag governs
CONDADDR, which stands in the record, nor TLSBASE (log entry 52). -/
def recMisaligned (ws sd : List Dword) : Bool :=
  field ws 55 0 % 256 != 0 || field ws 247 192 % 64 != 0 || recXaddr ws % 128 != 0 || field ws 375 320 % 8 != 0 ||
  field ws 439 384 % 8 != 0 || (recOvf ws && field sd 703 640 % 64 != 0) || field sd 831 768 % 8 != 0 ||
  (List.range (recNdep ws)).any fun j => (depAddr sd j).toNat % 8 != 0

/-- A section of a kernel image: offset and size. -/
def sectionOk (off sz : Nat) : Bool := off % 256 == 0 && decide (off + sz ≤ 2 ^ 32)

/-- The header of a kernel image is one that R34 accepts. -/
def headerOk (hd : List Dword) : Bool :=
  field hd 31 0 == 0x5A4B4931 && field hd 39 32 == 1 && field hd 47 40 != 0 && field hd 95 48 == 0 &&
  field hd 511 320 == 0 && field hd 319 288 % 8 == 0 && decide (field hd 319 288 ≤ 0x100000) &&
  field hd 159 128 % 8 == 0 && sectionOk (field hd 127 96) (field hd 159 128) &&
  sectionOk (field hd 191 160) (field hd 223 192) && sectionOk (field hd 255 224) (field hd 287 256)

/-- Check 8: R34 or R38. -/
def imageOk (ws hd en : List Dword) : Bool :=
  headerOk hd && decide (recEntry ws < field hd 47 40) && entryOk en (field hd 159 128) && decide (cellGroups ws ≤ 32)

/-- The first of checks 1 to 8 that fails (R42). -/
def recordCheck (ws sd hd en : List Dword) : Option Nat :=
  let s := recBase ws 6
  if recReserved ws sd then some 1
  else if ((List.range 6).any fun i => decide (32 < recWidth ws i)) || decide (64 < s) then some 2
  else if field ws 127 64 / 2 ^ s ≠ 0 then some 3
  else if recCell ws = 7 ∨ (recClus ws ≠ 0 ∧ (recClus ws ≤ recCell ws ∨ recClus ws = 7)) then some 4
  else if 4 < recNdep ws then some 5
  else if recMisaligned ws sd then some 6
  else if recXaddr ws = 0 ∧ (0 < recNdep ws ∨ recAff ws = true ∨ recOvf ws = true ∨ field hd 319 288 ≠ 0) then some 7
  else if !imageOk ws hd en then some 8
  else none

/-! ### Errors and completion (R42; 03 R63; 24 R424) -/

/-- A launch-error record: the record's address and the number of the check. -/
def State.launchError (s : State) (p addr check : Nat) : State :=
  s.logPart p (srcDispatcher p) 0x01 (addr % 2 ^ 56 + 2 ^ 56 * check)

/-- The addition to COMPCTR at CSCOPE; one that faults is discarded and reported (check 19). DESIGN CHOICE (log entry 70):
so is one to a COMPCTR that is not 8-byte aligned, of which the spec says nothing. -/
def State.addCompctr (s : State) (p ctx rec : Nat) (ws : List Dword) (v : View) (n : Nat) : State :=
  match s.addCounter ctx (s.ctxSup ctx) .d 0 (agentRel (srcDispatcher p) (recCscope ws) v) (recCompctr ws) n with
  | .done s' => s'
  | _ => s.launchError p rec 19

/-- A failed launch: its record, then 1 to COMPCTR. -/
def State.failRecord (s : State) (p ctx rec : Nat) (ws : List Dword) (v : View) (check : Nat) : State :=
  (s.launchError p rec check).addCompctr p ctx rec ws v 1

/-- What happens before a launch's completion: what the dispatcher has acquired for it, and its groups' exits. -/
def State.launchView (s : State) (k : Nat) (l : Launch) : View := l.view.join (s.jobView (k + 1))

/-- A launch leaves the set: its standing loads and its rings go with it (24 R425). -/
def State.dropLaunch (s : State) (k : Nat) : State :=
  let s := s.dropWatch fun w =>
    match w with
    | .dep l _ => l == k
    | _ => false
  let f (c : CoreSt) : CoreSt := { c with rings := adel c.rings k }
  { s with launches := adel s.launches k, cores := s.cores.map fun x => (x.1, f x.2) }

/-- A launch in the set fails (03 R62, R73, R75). -/
def State.failLaunch (s : State) (k check : Nat) : State :=
  match aget s.launches k with
  | none => s
  | some l => (s.dropLaunch k).failRecord l.part l.ctx l.record l.words (s.launchView k l) check

/-! ### Reading a record (03 R63) -/

/-- The side block, read when XADDR is nonzero and aligned; none where the read faults. -/
def State.readSide (s : State) (ctx : Nat) (ws : List Dword) : Option (List Dword) :=
  if recXaddr ws = 0 ∨ recXaddr ws % 128 ≠ 0 then some []
  else s.readWords ctx (s.ctxSup ctx) (BitVec.ofNat 64 (recXaddr ws)) 16

/-- The image header and the entry record, read where R63 step 4 says; none where a read faults. -/
def State.readImageHead (s : State) (ctx : Nat) (ws : List Dword) : Option (List Dword × List Dword) :=
  if field ws 7 0 ≠ 0 then some ([], [])
  else
    match s.readWords ctx (s.ctxSup ctx) (recKimg ws) 8 with
    | none => none
    | some hd =>
      if field hd 47 40 ≤ recEntry ws then some (hd, [])
      else (s.readEntry ctx (s.ctxSup ctx) (recKimg ws) (recEntry ws)).map fun en => (hd, en)

/-- The launch of a record that passed its checks; `v` is what the dispatcher has acquired. -/
def launchOf (p n q ctx rec : Nat) (ws sd hd en : List Dword) (v : View) : Launch :=
  let d := demandOf en
  let code := recKimg ws + BitVec.ofNat 64 (field hd 127 96)
  { part := p
    list := n
    seq := q
    ctx := ctx
    record := rec
    words := ws
    side := sd
    tlsb := field hd 319 288
    nent := field hd 47 40
    codeBase := code
    codeSz := field hd 159 128
    start := code + BitVec.ofNat 64 d.code
    vr := d.vr
    sr := d.sr
    acct := d.acct
    obuf := d.obuf
    sat := 0
    poll := 0
    st := .pending
    readyAt := 0
    cond := none
    view := v
    skipped := false
    nextCell := 0
    waiting := []
    turn := 0
    live := 0
    ended := 0 }

/-- The physical address of an aligned 8-byte word that the dispatcher watches or reads. -/
def State.wordPa (s : State) (ctx : Nat) (a : Dword) : Option Nat :=
  match s.devRange ctx accLoad (s.ctxSup ctx) a 8 with
  | .ok ps => (ps.head?).map (·.pa)
  | _ => none

/-- A read of a dispatcher is an acquire at package scope (17 R345). -/
def State.dispatcherHears (_ : State) (p : Nat) (v : View) (rs : List Rel) : View := v.acquire (agent (srcDispatcher p)) 8 rs

/-- A record becomes ready: with a condition, its word is read at this instant (03 R60, R61). -/
def State.becomeReady (s : State) (l : Launch) : Launch :=
  if recCond l.words then
    let pa := s.wordPa l.ctx (BitVec.ofNat 64 (field l.words 439 384))
    { l with
      readyAt := s.now
      st := .ready
      cond := pa.map s.homeWord
      view := s.dispatcherHears l.part l.view ((pa.map s.newestRels).getD []) }
  else { l with readyAt := s.now, st := .placing }

/-- Takes record `q` of a list: its reads and checks in R63's order, and its place in the pending set; `v` is what the read of
PUBLISH acquired. -/
def State.takeRecord (s : State) (p n q rec : Nat) (v : View) : State :=
  let ctx := bits (s.reg (.llcx p n)) 7 0
  let s := s.touchVa ctx (s.ctxSup ctx) (BitVec.ofNat 64 rec) 64
  let stray := !s.ctxEn ctx || s.ctxFn ctx != s.partFn p
  match s.readWords ctx (s.ctxSup ctx) (BitVec.ofNat 64 rec) 8 with
  | none => s.launchError p rec (if stray then 13 else 15)
  | some ws =>
    let fail (k : Nat) : State := s.failRecord p ctx rec ws v k
    if stray then fail 13
    else
      match s.readSide ctx ws with
      | none => fail 16
      | some sd =>
        match s.readImageHead ctx ws with
        | none => fail 17
        | some (hd, en) =>
          match recordCheck ws sd hd en with
          | some k => fail k
          | none =>
            let l := launchOf p n q ctx rec ws sd hd en v
            let s := (s.touchVa ctx (s.ctxSup ctx) (BitVec.ofNat 64 (recXaddr ws)) 128).touchVa ctx (s.ctxSup ctx) (recKimg ws) 64
            let l := if recNdep ws = 0 then s.becomeReady l else l
            { s with uid := s.uid + 1, launches := aput s.launches s.uid l }

end Sys2Proof.Machine
end

