-- ==== Sys2Proof/Machine/Lists.lean ====
section
/-! DEFINITION. The dispatcher's waits (spec 03 R54 to R63): the standing load on a list's publish word, consumption,
dependences and conditions. -/

namespace Sys2Proof.Machine

/-! ### The dispatcher's standing loads (03 R55, R59) -/

/-- A watcher holds a subscriber record. -/
def State.watching (s : State) (w : Watcher) : Bool := s.subs.any fun x => x.2.any fun b => b.who == w

/-- Records of a home's table that dispatchers hold. -/
def reservedUsed (l : List Sub) : Nat :=
  (l.filter fun b =>
    match b.who with
    | .slot _ _ => false
    | _ => true).length

/-- Takes a reserved record of the granule's home and pushes the current value; none without one. DESIGN CHOICE (log entry
73): none outside HBM either, where no subscription table is a home, so that the dispatcher polls the word. -/
def State.addWatch (s : State) (w : Watcher) (ctx pa : Nat) : Option State :=
  if !inHbm pa then none
  else
    let k := s.stackOf pa
    let l := agetD [] s.subs k
    if Config.reservedRecords ≤ reservedUsed l then none
    else
      let g := granule pa
      some (State.pushFirst { s with subs := aput s.subs k (l ++ [⟨g, w, ctx⟩]) } g w)

/-- The 8-byte word of a pushed granule at an address. -/
def pushedWord (x : Push) (a : Nat) : Nat := leNat ((x.data.drop (a % 16)).take 8)

/-! ### Lists -/

def State.listSt (s : State) (p n : Nat) : ListSt := (aget s.lists (4 * p + n)).getD ⟨false, false, false⟩
def State.putList (s : State) (p n : Nat) (x : ListSt) : State :=
  { s with lists := asetD ⟨false, false, false⟩ s.lists (4 * p + n) x }

/-- HEAD of a list, and the address of the slot that it names (R54, R55). -/
def State.listHead (s : State) (p n : Nat) : Nat := bits (s.reg (.llctl p n)) 63 32
def State.slotAddr (s : State) (p n : Nat) : Nat :=
  (s.reg (.llbase p n)).toNat + 64 * (s.listHead p n % 2 ^ bits (s.reg (.llctl p n)) 5 1)

/-- The context of a list. -/
def State.listCtx (s : State) (p n : Nat) : Nat := bits (s.reg (.llcx p n)) 7 0

/-- A list is consumed: its partition is open and its EN set, and no kill of its context has begun, from which on nothing
of that context is placed (21 R399). -/
def State.listOn (s : State) (p n : Nat) : Bool :=
  s.partOpen p && (s.reg (.llctl p n)).getLsbD 0 && !(s.reg (.ctxstat (s.listCtx p n))).getLsbD 0

/-- Places the standing load on the publish word at HEAD, or polls without a record; a fault is reported once (R55,
R63). -/
def State.watchList (s : State) (p n : Nat) : State :=
  let a := s.slotAddr p n + 56
  let ctx := s.listCtx p n
  let x := s.listSt p n
  match s.wordPa ctx (BitVec.ofNat 64 a) with
  | none => if x.faulted then s else (s.launchError p a 14).putList p n { x with faulted := true, poll := false }
  | some pa =>
    match s.addWatch (.publish p n) ctx pa with
    | some s' => s'.putList p n { x with faulted := false, poll := false }
    | none => s.putList p n { x with faulted := false, poll := true }

/-- Writes HEAD to MIRROR, a release at package scope; a write that faults is discarded, and MIRROR is written no more (R55,
R63). DESIGN CHOICE (log entry 72): a MIRROR that is not 8-byte aligned counts as one that faults. -/
def State.mirror (s : State) (p n rec : Nat) (v : View) : State :=
  let m := s.reg (.llhm p n)
  let ctx := s.listCtx p n
  if m = 0 ∨ (s.listSt p n).noMirror = true then s
  else
    match (if m.toNat % 8 = 0 then s.devRange ctx accStore (s.ctxSup ctx) m 8 else .trap causeAlign m) with
    | .ok ps =>
      (s.touchAll ps).devRelease .d (srcDispatcher p) 0 (s.ctxFn ctx) [agentRel (srcDispatcher p) 8 v] false ps
        ((natLE (s.listHead p n) 8).map fun b => (b, false))
    | _ => (s.launchError p rec 18).putList p n { s.listSt p n with noMirror := true }

/-- Consumes the record at HEAD (R55 steps 1 to 4); `v` is what the read of PUBLISH acquired. -/
def State.consume (s : State) (p n : Nat) (v : View) : State :=
  let q := s.listHead p n
  let rec_ := s.slotAddr p n
  let s := s.takeRecord p n q rec_ v
  let s := s.setReg (.llctl p n) (setBits (s.reg (.llctl p n)) 63 32 ((q + 1) % 2 ^ 32))
  let s := s.mirror p n rec_ v
  (s.dropWatch fun w => w == .publish p n).watchList p n

/-- Records of a partition in the pending set (R58). DESIGN CHOICE (log entry 74): a record is in it until its last cell or
batch has been placed. -/
def State.pendingCount (s : State) (p : Nat) : Nat :=
  (s.launches.filter fun x => x.2.part == p && x.2.st != .running).length

/-- The publish word at a list's HEAD, as memory holds it. -/
def State.publishWord (s : State) (p n : Nat) : Option Nat :=
  (s.wordPa (s.listCtx p n) (BitVec.ofNat 64 (s.slotAddr p n + 56))).map fun pa => (s.homeWord pa).toNat

/-- A list has a published record waiting: its value has been pushed, or stands in memory where the list polls (R58). -/
def State.listWaits (s : State) (p n : Nat) : Bool :=
  s.listOn p n &&
  ((s.pushes.any fun x => x.who == .publish p n && pushedWord x 8 == s.listHead p n + 1) ||
    ((s.listSt p n).poll && s.publishWord p n == some (s.listHead p n + 1)))

/-- A list of higher priority has a published record waiting (R58). -/
def State.higherWaits (s : State) (p n : Nat) : Bool := (List.range n).any (s.listWaits p)

/-- Compares a publish value, and consumes on a match while the pending set has room; `keep` is the state in which the
value still waits, `gone` the one in which it has been taken, `rs` the releases that it was read from. -/
def State.publishValue (keep gone : State) (p n v : Nat) (rs : List Rel) : State :=
  if v ≠ keep.listHead p n + 1 then gone
  else if Config.pendingSet ≤ keep.pendingCount p || keep.higherWaits p n then keep
  else gone.consume p n (keep.dispatcherHears p noView rs)

/-- The physical address of the publish word at a list's HEAD. -/
def State.publishPa (s : State) (p n : Nat) : Nat :=
  (s.wordPa (s.listCtx p n) (BitVec.ofNat 64 (s.slotAddr p n + 56))).getD 0

/-- PUBLISH_OBSERVED: a list without a standing load gets one; a pushed value is compared (R55). -/
def execPublishObserved (p n : Nat) (s : State) : Host.Outcome State Fault Refusal :=
  let w := Watcher.publish p n
  let x := s.listSt p n
  if !s.listOn p n then .next s
  else
    match takeFirst (fun y : Push => y.who == w) s.pushes with
    | some (y, rest) =>
      .next (s.publishValue { s with pushes := rest } p n (pushedWord y 8) (s.relsSeen y.wrote (s.publishPa p n)))
    | none => if s.watching w || x.poll || x.faulted then .next s else .next (s.watchList p n)

/-- PUBLISH_POLL: without a reserved record the word is read; a record that has become free is taken (R55). -/
def execPublishPoll (p n : Nat) (s : State) : Host.Outcome State Fault Refusal :=
  if !s.listOn p n || !(s.listSt p n).poll then .next s
  else
    let s' := s.watchList p n
    if !(s'.listSt p n).poll then .next s'
    else
      match s.publishWord p n with
      | none => .next s'
      | some v =>
        let s := s.touchVa (s.listCtx p n) (s.ctxSup (s.listCtx p n)) (BitVec.ofNat 64 (s.slotAddr p n + 56)) 8
        .next (s.publishValue s p n v (s.newestRels (s.publishPa p n)))

/-- PUBLISH_TRANSLATION_RETRY (R63). -/
def execPublishTranslationRetry (p n : Nat) (s : State) : Host.Outcome State Fault Refusal :=
  if s.listOn p n && (s.listSt p n).faulted then .next (s.watchList p n) else .next s

/-! ### Dependences (03 R59, R60, R62) -/

/-- Every dependence of a launch is satisfied. -/
def Launch.satisfied (l : Launch) : Bool := (List.range (recNdep l.words)).all fun j => l.sat.getLsbD j

/-- Dependence j of a pending launch has been observed; `rs` are the releases that its value was read from. -/
def State.depSatisfied (s : State) (k j : Nat) (l : Launch) (rs : List Rel) : State :=
  let s := s.dropWatch fun w => w == .dep k j
  let l : Launch :=
    { l with
      sat := l.sat ||| (1#4 <<< j)
      poll := l.poll &&& ~~~(1#4 <<< j)
      view := s.dispatcherHears l.part l.view rs }
  { s with launches := aput s.launches k (if l.satisfied then s.becomeReady l else l) }

/-- A value of a counter is compared with its target. -/
def State.depValue (s : State) (k j : Nat) (l : Launch) (v : Nat) (rs : List Rel) : State :=
  if depTarget l.side j ≤ v then s.depSatisfied k j l rs else s

/-- Places the standing load of a dependence, or polls without a record; a fault fails the launch (R62). -/
def State.watchDep (s : State) (k j : Nat) (l : Launch) : State :=
  match s.wordPa l.ctx (depAddr l.side j) with
  | none => s.failLaunch k 9
  | some pa =>
    match s.addWatch (.dep k j) l.ctx pa with
    | some s' => { s' with launches := aput s'.launches k { l with poll := l.poll &&& ~~~(1#4 <<< j) } }
    | none => { s with launches := aput s.launches k { l with poll := l.poll ||| (1#4 <<< j) } }

/-- A pending launch with dependence j unsatisfied. -/
def State.depOpen (s : State) (k j : Nat) : Option Launch :=
  match aget s.launches k with
  | none => none
  | some l => if l.st = .pending ∧ j < recNdep l.words ∧ l.sat.getLsbD j = false then some l else none

/-- DEPENDENCE_SATISFIED: a dependence without a standing load gets one; a pushed value is compared (R59). -/
def execDependenceSatisfied (k j : Nat) (s : State) : Host.Outcome State Fault Refusal :=
  match s.depOpen k j with
  | none => .next s
  | some l =>
    match takeFirst (fun y : Push => y.who == Watcher.dep k j) s.pushes with
    | some (y, rest) =>
      let rs := s.relsSeen y.wrote ((s.wordPa l.ctx (depAddr l.side j)).getD 0)
      .next (State.depValue { s with pushes := rest } k j l (pushedWord y (depAddr l.side j).toNat) rs)
    | none => if s.watching (.dep k j) || l.poll.getLsbD j then .next s else .next (s.watchDep k j l)

/-- DEPENDENCE_POLL (R59). -/
def execDependencePoll (k j : Nat) (s : State) : Host.Outcome State Fault Refusal :=
  match s.depOpen k j with
  | none => .next s
  | some l =>
    if l.poll.getLsbD j = false then .next s
    else
      match s.wordPa l.ctx (depAddr l.side j) with
      | none => .next (s.failLaunch k 9)
      | some pa =>
        match s.addWatch (.dep k j) l.ctx pa with
        | some _ => .next (s.watchDep k j l)
        | none => .next ((s.touch pa).depValue k j l (s.homeWord pa).toNat (s.newestRels pa))

/-! ### Conditions (03 R61, R62) -/

/-- CONDITION_READ: the word that the instant of readiness found decides: the record runs if (word ≠ 0) XOR CNEG, and
otherwise is skipped: 1 is added to COMPCTR. -/
def execConditionRead (k : Nat) (s : State) : Host.Outcome State Fault Refusal :=
  match aget s.launches k with
  | none => .next s
  | some l =>
    if l.st ≠ .ready then .next s
    else
      match l.cond with
      | none => .next (s.failLaunch k 10)
      | some w =>
        let nz := w != 0
        if nz != (field l.words 440 440 == 1) then .next { s with launches := aput s.launches k { l with st := .placing } }
        else .next ((s.dropLaunch k).addCompctr l.part l.ctx l.record l.words (s.launchView k l) 1)

/-! ### Retirement (24 R424) -/

/-- LAUNCH_RETIRE: every group of a placed launch has come to an end. -/
def execLaunchRetire (k : Nat) (s : State) : Host.Outcome State Fault Refusal :=
  match aget s.launches k with
  | none => .next s
  | some l =>
    if l.st ≠ .running ∨ l.live ≠ 0 then .next s
    else
      let v := s.launchView k l
      let s := s.dropLaunch k
      if l.ended = 0 then .next (s.addCompctr l.part l.ctx l.record l.words v 1)
      else
        let s := s.logPart l.part (srcDispatcher l.part) 0x02 (l.record % 2 ^ 56 + 2 ^ 64 * (l.ended % 2 ^ 32))
        .next (s.addCompctr l.part l.ctx l.record l.words v (2 ^ 63 + 1))

end Sys2Proof.Machine
end

