-- ==== Sys2Proof/Machine/Dealing.lean ====
section
/-! DEFINITION. The deal (spec 03 R64, R70 to R76), the placement of a cell (02 R38 to R40), and the restore of a saved
cell (21 R396, R397). -/

namespace Sys2Proof.Machine

/-! ### Clusters in the partition's order (R72, R75) -/

/-- The live cores of a cluster, in LPT order. -/
def State.clusterCores (s : State) (i : Nat) : List Nat := (s.dieCores (i / 12)).filter fun c => clusterOf c == i

/-- The partition's clusters, die-interleaved, those without a live core skipped (R75). -/
def State.clusterOrder (s : State) (p : Nat) : List Nat :=
  interleave 12 ((s.diesOfPart p).map fun d =>
    ((List.range 12).map fun k => 12 * d + k).filter fun i => !(s.clusterCores i).isEmpty)

/-- Reports the entries that the dispatcher skips (R71); once for each launch (log entry 52). -/
def State.skipRecords (s : State) (p : Nat) : State :=
  (s.diesOfPart p).foldl (fun s d =>
    (s.deadEntries d).foldl (fun s e => s.logPart p (srcDispatcher p) 0x04 (e.1 + 2 ^ 8 * e.2 + 2 ^ 16 * d)) s) s

/-! ### Room (R73) -/

/-- A core may hold cells: its die has power and its cluster is not offline. -/
def State.usable (s : State) (core : Nat) : Bool := (s.die (core / 48)).power && !(s.cluster (clusterOf core)).offline

/-- A core has room for a cell of `n` groups of these demands. -/
def State.roomFor (s : State) (n vr acct obuf core : Nat) : Bool := s.usable core && s.fits core n vr acct (obuf * n)

/-- A core has room for a cell of a launch. -/
def State.room (s : State) (l : Launch) (core : Nat) : Bool := s.roomFor (cellGroups l.words) l.vr l.acct l.obuf core

/-- The cell limit of a core with these free resources (R73). -/
def cellLimit (slots regs tiles obufFree : Nat) (l : Launch) : Nat :=
  let a := min slots (regs / (256 * (l.vr + 1)))
  let b := if l.obuf = 0 then a else min a (obufFree / l.obuf)
  let c := if l.acct = 0 then b else min b (tiles / l.acct)
  c / cellGroups l.words

/-- The cell limit of an empty core, and of a core as it stands. -/
def emptyLimit (l : Launch) : Nat := cellLimit 32 0x200000 16 512 l
def State.limit (s : State) (l : Launch) (core : Nat) : Nat :=
  if s.usable core then cellLimit (s.freeSlots core) (s.freeRegs core) (s.freeTiles core) (s.freeObuf core) l else 0

/-! ### Placing a cell (02 R38 to R40) -/

/-- Places the groups of a cell from index `i` on. -/
def State.placeGroups (s : State) (l : Launch) (k cell n core lcore : Nat) : List Nat → State
  | [] => s
  | i :: t =>
    match s.freeSlot core with
    | none => s
    | some slot =>
      let g := l.group k s.uid cell n i lcore
      (s.fresh.enterSlot core slot g).placeGroups l k cell n core lcore t

/-- Places cell `n` of a launch on a core, whole. -/
def State.placeCell (s : State) (l : Launch) (k n core : Nat) : State :=
  let cell := s.uid
  let m := cellGroups l.words
  let s := (s.fresh).putCell cell (newCell cell core l.ctx (some k) m (l.obuf))
  s.placeGroups l k cell n core (s.positionOf l.part core) (List.range m)

/-! ### Where a cell goes (R74, R76) -/

/-- The die that AFF chooses for a cell, and its quadrant of clusters (R76). DESIGN CHOICE (log entry 76): an address outside
HBM, which gives no stack, or a global one, leaves the cell to R74. -/
def State.affinity (s : State) (l : Launch) (n : Nat) : Option (Nat × List Nat) :=
  if !recAff l.words || recClus l.words != 0 then none
  else
    let a := field l.side 575 512 + n * field l.side 639 576
    match s.devRange l.ctx accLoad (s.ctxSup l.ctx) (BitVec.ofNat 64 a) 1 with
    | .ok [p] =>
      if p.glob || !inHbm p.pa then none
      else
        let k := s.stackOf p.pa
        let ds := (diesOf k).filter fun d => (s.partDies l.part).testBit d
        match ds with
        | [] => none
        | [d] => some (d, (List.range 3).map fun j => 12 * d + k / 4 * 3 + j)
        | a :: b :: _ =>
          let d := if s.channelOf p.pa < 16 then a else b
          some (d, (List.range 3).map fun j => 12 * d + k / 4 * 3 + j)
    | _ => none

/-- The cores that a cell may take, in the order in which they are tried; `turn` where the deal stands, 0 for a cell that
waits. -/
def State.candidates (s : State) (l : Launch) (n turn : Nat) : List Nat :=
  let ps := s.positions l.part
  let ps := ps.drop turn ++ ps.take turn
  match s.affinity l n with
  | none => ps
  | some (d, quad) =>
    ((s.dieCores d).filter fun c => quad.elem (clusterOf c)) ++ ps.filter fun c => c / 48 == d

/-- The deal's next turn after a cell went to a core (R74). DESIGN CHOICE (log entry 76): a cell placed in its quadrant does
not move it. -/
def State.nextTurn (s : State) (l : Launch) (n core : Nat) : Nat :=
  let quadrant := match s.affinity l n with
    | some (_, quad) => quad.elem (clusterOf core)
    | none => false
  if quadrant then l.turn
  else
    let ps := s.positions l.part
    ((ps.findIdx fun c => c == core) + 1) % max 1 ps.length

/-! ### Batches (R75) -/

/-- A batch fits in some empty cluster of the partition. -/
def State.batchSomewhere (s : State) (l : Launch) : Bool :=
  (s.clusterOrder l.part).any fun i => decide (batchCells l.words ≤ (s.clusterCores i).length * emptyLimit l)

/-- The cluster of batch `b`. -/
def State.batchCluster (s : State) (l : Launch) (b : Nat) : Option Nat :=
  let cs := s.clusterOrder l.part
  cs[b % max 1 cs.length]?

/-- The cluster can take the whole batch. -/
def State.batchFits (s : State) (l : Launch) (i : Nat) : Bool :=
  decide (batchCells l.words ≤ (s.clusterCores i).foldl (fun n c => n + s.limit l c) 0)

/-- Deals the cells of a batch over the cores of its cluster, in turn, passing over cores without room. -/
def State.dealBatch (s : State) (l : Launch) (k : Nat) (cores : List Nat) : Nat → List Nat → State
  | _, [] => s
  | turn, n :: t =>
    let ps := cores.drop turn ++ cores.take turn
    match ps.find? (s.room l) with
    | none => s
    | some c => (s.placeCell l k n c).dealBatch l k cores (((cores.findIdx fun x => x == c) + 1) % max 1 cores.length) t

/-! ### The order of placement (R64) -/

/-- The key of a launch or an image in the order of placement: priority, instant, images first, place in list or area. -/
def placeKey (prio time kind place : Nat) : Nat := ((prio * 2 ^ 64 + time) * 2 + kind) * 2 ^ 64 + place

/-- The priority of an image. -/
def SaveImg.prio (i : SaveImg) : Nat := ((i.groups.head?).map (·.g.prio)).getD 0

/-- What waits to be placed in a partition: ready launches, those whose condition has still to be judged among them, and
returned images, with their keys. -/
def State.waitingItems (s : State) (p : Nat) : List (Nat × (Nat ⊕ Nat)) :=
  ((s.launches.filter fun x => x.2.part == p && (x.2.st == .placing || x.2.st == .ready)).map fun x =>
    (placeKey x.2.list x.2.readyAt 1 x.2.seq, .inl x.1)) ++
  s.saved.filterMap fun i =>
    match i.go with
    | some t => if s.partOfCtx i.ctx = some p then some (placeKey i.prio t 0 i.slot, .inr i.id) else none
    | none => none

/-- The first of them. -/
def State.firstItem (s : State) (p : Nat) : Option (Nat ⊕ Nat) := (leastBy (·.1) (s.waitingItems p)).map (·.2)

/-! ### The events -/

/-- Stores a launch whose deal has moved on; with nothing left to place it runs. -/
def State.putDeal (s : State) (k : Nat) (l : Launch) : State :=
  let total := if recClus l.words = 0 then cellCount l.words else batchCount l.words
  let l : Launch := { l with st := if l.nextCell = total ∧ l.waiting = [] then .running else l.st }
  { s with launches := aput s.launches k l }

/-- A waiting cell or batch that has room now, with the core or cluster that takes it. -/
def State.waitingPlace (s : State) (l : Launch) : Option (Nat × Nat) :=
  l.waiting.findSome? fun n =>
    if recClus l.words = 0 then ((s.candidates l n 0).find? (s.room l)).map fun c => (n, c)
    else
      match s.batchCluster l n with
      | some i => if s.batchFits l i then some (n, i) else none
      | none => none

/-- The cores that placing a cell or batch uses are awake. -/
def State.awake (s : State) (i : Nat) : Bool := !(s.cluster i).asleep

/-- Places a cell on a core, or a batch on a cluster. -/
def State.placeUnit (s : State) (l : Launch) (k n at_ : Nat) : State :=
  if recClus l.words = 0 then s.placeCell l k n at_
  else
    let m := batchCells l.words
    s.dealBatch l k (s.clusterCores at_) 0 ((List.range m).map fun i => n * m + i)

/-- The groups that placing a cell or batch adds to its launch. -/
def unitGroups (l : Launch) : Nat :=
  cellGroups l.words * (if recClus l.words = 0 then 1 else batchCells l.words)

/-- Deals the next cell or batch of a launch: it is placed, or it waits (R74 to R76). -/
def State.dealNext (s : State) (k : Nat) (l : Launch) : State :=
  let n := l.nextCell
  let wait : State := s.putDeal k { l with nextCell := n + 1, waiting := l.waiting ++ [n] }
  if recClus l.words = 0 then
    match (s.candidates l n l.turn).find? (s.room l) with
    | none => wait
    | some c =>
      if !s.awake (clusterOf c) then s
      else (s.placeUnit l k n c).putDeal k { l with nextCell := n + 1, turn := s.nextTurn l n c, live := l.live + unitGroups l }
  else
    match s.batchCluster l n with
    | none => wait
    | some i =>
      if (l.waiting.any fun b => s.batchCluster l b == some i) || !s.batchFits l i then wait
      else if !s.awake i then s
      else (s.placeUnit l k n i).putDeal k { l with nextCell := n + 1, live := l.live + unitGroups l }

/-- One step of a launch's deal: checks 11 and 12 first, then waiting cells, then the next one. -/
def State.deal (s : State) (k : Nat) (l : Launch) : State :=
  let total := if recClus l.words = 0 then cellCount l.words else batchCount l.words
  if (s.positions l.part).all fun _ => emptyLimit l == 0 then s.failLaunch k 11
  else if recClus l.words ≠ 0 ∧ s.batchSomewhere l = false then s.failLaunch k 12
  else
    let s := if l.skipped then s else s.skipRecords l.part
    let l := { l with skipped := true }
    let s := { s with launches := aput s.launches k l }
    match s.waitingPlace l with
    | some (n, c) =>
      let cl := if recClus l.words = 0 then clusterOf c else c
      if !s.awake cl then s
      else
        (s.placeUnit l k n c).putDeal k
          { l with waiting := l.waiting.filter fun x => x != n, live := l.live + unitGroups l }
    | none => if l.nextCell < total then s.dealNext k l else s

/-- The core for a returned image: the lowest position with room (R74; 21 R396). -/
def State.restoreCore (s : State) (p : Nat) (i : SaveImg) (c : CellSt) : Option Nat :=
  let g := (i.groups.head?).map (·.g)
  (s.positions p).find? fun k =>
    s.usable k && s.fits k i.groups.length ((g.map (·.vr)).getD 0) ((g.map (·.acct)).getD 0) (c.obuf * c.ngroup)

/-- The cluster at which the dispatcher of a partition would place the first item in the order. -/
def State.placingAt (s : State) (p : Nat) : Option Nat :=
  match s.firstItem p with
  | none => none
  | some (.inl k) =>
    (aget s.launches k).bind fun l =>
      match s.waitingPlace l with
      | some (_, c) => some (if recClus l.words = 0 then clusterOf c else c)
      | none =>
        if recClus l.words = 0 then ((s.candidates l l.nextCell l.turn).find? (s.room l)).map clusterOf
        else (s.batchCluster l l.nextCell).filter fun i => s.batchFits l i
  | some (.inr img) =>
    (s.saved.find? fun i => i.id == img).bind fun i => i.cell.bind fun c => (s.restoreCore p i c).map clusterOf

/-- The free slots of a partition's cores go to their own saved joiners and overflowed children first (R67). -/
def State.settlePart (s : State) (p : Nat) : State := (s.positions p).foldl State.settle s

/-- A step of the deal of a launch as it stands. -/
def State.dealOn (s : State) (k : Nat) : State :=
  match aget s.launches k with
  | some l => s.deal k l
  | none => s

/-- CELL_PLACE: the first item in the order, if it is a launch, deals a cell or a batch (R64, R74); one whose condition has
not been judged holds the order up. -/
def execCellPlace (p : Nat) (s : State) : Host.Outcome State Fault Refusal :=
  if !s.partOpen p then .next s
  else
    match s.firstItem p with
    | some (.inl k) =>
      match aget s.launches k with
      | some l => .next (if l.st = .placing then (s.settlePart p).dealOn k else s)
      | none => .next s
    | _ => .next s

/-- Restores the groups of an image, in GROUP order, into the lowest free slots. -/
def State.restoreGroups (s : State) (core lcore : Nat) : List Group → State
  | [] => s
  | g :: t =>
    match s.freeSlot core with
    | none => s
    | some slot => (s.restoreGroup core slot lcore g).restoreGroups core lcore t

/-- A cell of an image becomes resident on a core (21 R397), with the spawn counter where no other group stands there
(05 R136). DESIGN CHOICE (log entry 78). -/
def State.restoreCell (s : State) (p core : Nat) (i : SaveImg) (c : CellSt) : State :=
  let gs := s.readImage i
  let s := State.saveFreed { s.skipRecords p with saved := s.saved.filter fun x => x.id != i.id } i.ctx
  let s := if (s.coreGroups core).isEmpty then s.putCore core { s.core core with spawn := i.spawn } else s
  let s := s.putCell c.uid { s.readCell i c with core := some core, wantSave := false }
  s.restoreGroups core (s.positionOf p core) gs

/-- CELL_RESTORE: a returned image that is first in the order goes to the lowest position with room (R74; 21 R396,
R397). -/
def execCellRestore (img : Nat) (s : State) : Host.Outcome State Fault Refusal :=
  match s.saved.find? fun i => i.id == img with
  | none => .next s
  | some i =>
    match s.partOfCtx i.ctx, i.cell with
    | some p, some c =>
      if s.firstItem p ≠ some (.inr img) then .next s
      else
        let s := s.settlePart p
        match s.restoreCore p i c with
        | none => .next s
        | some core =>
          if !s.awake (clusterOf core) then .next s else .next ((s.restoreCell p core i c).drawn)
    | _, _ => .next s

end Sys2Proof.Machine
end

