-- ==== Sys2Proof/Machine/Filling.lean ====
section
/-! DEFINITION. The save of a cell (spec 21 R396, R398). -/

namespace Sys2Proof.Machine

/-! ### The save of a cell (21 R396, R398) -/

/-- Withdraws every arrival of a cell (12 R293). -/
def State.withdrawCell (s : State) (cell : Nat) : State := (s.cellUnits cell).foldl State.withdrawGroup s

/-- The save of a cell is refused: it keeps running (R398). -/
def State.saveRefused (s : State) (cell : Nat) (c : CellSt) (reason kib : Nat) : State :=
  let s := s.putCell cell { c with wantSave := false }
  s.logCtx c.ctx (srcDispatcher ((s.partOfCtx c.ctx).getD 0)) 0x0D (refusedData c.ctx reason kib 0 0 0)

/-- Saves a cell whose groups are quiescent into a save slot. A cell of a cluster that went offline returns to the
dispatcher at once (21 R401). -/
def State.saveCell (s : State) (cell : Nat) (c : CellSt) (core slot : Nat) (us : List Nat) : State :=
  let gs := us.filterMap s.group?
  let saved := (us.zip gs).map fun x => SavedGroup.mk x.2.saved (unitSlot x.1)
  let go := if (s.cluster (clusterOf core)).offline then some s.now else none
  let img : SaveImg := ⟨s.uid, c.ctx, slot, core, some { c with core := none, wantSave := false }, saved, none, go,
    (s.core core).spawn⟩
  let s := s.fresh.writeImage img.id c.ctx slot core (some c) (saved.map (·.g))
  { s with
    groups := s.groups.filter fun x => !us.elem x.1
    cells := adel s.cells cell
    saved := s.saved ++ [img] }

/-- CELL_SAVE: a cell that is to be saved leaves its core once every group may (R396); refused without a save slot, or
where SLOTSZ is too small (R398). -/
def execCellSave (cell : Nat) (s : State) : Host.Outcome State Fault Refusal :=
  match s.cell? cell with
  | none => .next s
  | some c =>
    match c.core with
    | none => .next s
    | some core =>
      if !c.wantSave then .next s
      else
        let s' := s.withdrawCell cell
        let us := s'.cellUnits cell
        let gs := us.filterMap s'.group?
        if !((us.zip gs).all fun (x : Nat × Group) => x.2.mayLeave && s'.engineIdle x.1 x.2) then .next s
        else
          match s.freeSave c.ctx, s'.cell? cell with
          | some slot, some c' =>
            if s.slotsz c.ctx < imageKiB gs then .next (s.saveRefused cell c 2 (imageKiB gs))
            else .next ((s'.saveCell cell c' core slot us).drawn)
          | _, _ => .next (s.saveRefused cell c 1 (imageKiB gs))

end Sys2Proof.Machine
end

