-- ==== Sys2Proof/Machine/Retention.lean ====
section
/-! DEFINITION. Retention sleep (spec 21 R401, R402), and the passing of time. -/

namespace Sys2Proof.Machine

/-- The issuers of a cluster's resident groups. -/
def State.clusterUnits (s : State) (i : Nat) : List Nat :=
  (s.groups.filter fun x => decide (x.1 < 12288) && clusterOf (coreOf x.1) == i).map (·.1)

/-- A group that would keep its cluster awake: ready, or with a clause in flight that no wait stops. -/
def State.busyGroup (s : State) (g : Group) : Bool :=
  s.ready g ||
  match g.clause with
  | some c => c.started && g.wait == .no
  | none => false

/-- Nothing of a cluster is under way (21 R402). -/
def State.clusterIdle (s : State) (i : Nat) : Bool :=
  let cores := (List.range 4).map fun j => i / 12 * 48 + i % 12 * 4 + j
  (s.groups.all fun x => !(decide (x.1 < 12288) && clusterOf (coreOf x.1) == i && s.busyGroup x.2)) &&
  (cores.all fun c => (s.core c).ops.isEmpty && (s.core c).steps.isEmpty) &&
  (s.copies.all fun k =>
    match k.img with
    | .ob _ _ _ => !cores.elem k.core
    | _ => true) &&
  (s.copymOps.all fun o => o.members.all fun k => !cores.elem k.core) &&
  (s.cells.all fun k =>
    match k.2.core with
    | some c => !(cores.elem c && k.2.wantSave)
    | none => true)

/-- Notes since when clusters have been idle. -/
def State.noteIdle (s : State) : State :=
  (List.range 96).foldl (fun s i =>
    if s.clusterIdle i then s else s.putCluster i { s.cluster i with idleSince := s.now }) s

/-- Time passes: boost intervals that begin now are granted, and the charge windows that end on the way are judged. -/
def State.turnTick (s : State) (ns : Nat) : State :=
  let n := tickSpan s.now ns
  (((s.boosts.windows n).noteIdle.tick n).noteIdle).drawn

/-- RETENTION_ENTER: a cluster idle for IDLE µs sleeps, unless a group has LDB.c in its open region (21 R401, R402; 09
R232). The open regions are discarded at the wake, before which nothing of them can be seen. -/
def execRetentionEnter (die k : Nat) (s : State) : Host.Outcome State Fault Refusal :=
  let i := 12 * die + k
  let ctl := s.reg (.retctl die)
  let c := s.cluster i
  if ctl.getLsbD k && !c.asleep && !c.offline && s.clusterIdle i && decide (c.idleSince + 1000 * bits ctl 63 32 ≤ s.now) &&
      s.groups.all fun x => !(decide (x.1 < 12288) && clusterOf (coreOf x.1) == i && x.2.ldbc) then
    .next (s.putCluster i { c with asleep := true })
  else .next s

/-- A group after a wake: at its region start, and every wait that its restart issues again is over (21 R402). -/
def Group.woken (g : Group) : Group :=
  let w := match g.wait with
    | .fault reqs => .fault reqs
    | .stores l => .stores l
    | .exit => .exit
    | .drain t => .drain t
    | _ => .no
  match g.wait with
  | .exit | .drain _ => g
  | _ => { g.restart with wait := w }

/-- The elements of a core (21 R401): 0 to 31 registers, 32 to 39 operand buffer, 40 to 46 accumulators, 47 control. A
failed element is numbered 48 × the core's index in its cluster + the element: DEDUCED (log entry 19). -/
def State.lost (s : State) (i : Nat) (failed : List Nat) (u : Nat) (g : Group) : Option Nat :=
  failed.find? fun e =>
    let core := i / 12 * 48 + i % 12 * 4 + e / 48
    coreOf u == core &&
    (let n := e % 48
     if n < 32 then Config.elementHolds e u
     else if n < 40 then (s.cellUnits g.cell).any fun v => decide (g.obuf ≠ 0) && Config.elementHolds e v
     else if n < 47 then (s.cellUnits g.cell).any fun v => decide (g.acct ≠ 0) && Config.elementHolds e v
     else true)

/-- Empties the caches of a cluster's cores. -/
def State.emptyCaches (s : State) (i : Nat) : State :=
  (List.range 4).foldl (fun s j =>
    let c := i / 12 * 48 + i % 12 * 4 + j
    s.putCore c { s.core c with l1 := [], kcache := [], icache := [] }) s

/-- Every group of a cluster wakes. -/
def State.wakeGroups (s : State) (i : Nat) : State :=
  (s.clusterUnits i).foldl (fun s u =>
    match s.group? u with
    | some g => s.putGroup u g.woken
    | none => s) s

/-- Ends the groups that lost state, with trap 27 (21 R388, R401). -/
def State.endLost (s : State) (i : Nat) (failed : List Nat) : State :=
  let hit := (s.clusterUnits i).filterMap fun u =>
    (s.group? u).bind fun g => (s.lost i failed u g).map fun e => (u, e)
  hit.foldl (fun s x => s.trapAt x.1 causeRetention (BitVec.ofNat 64 x.2)
    (((s.group? x.1).map (·.headRun)).getD 0)) s

/-- Asks for every cell of a cluster to be saved. -/
def State.wantSaves (s : State) (i : Nat) : State :=
  let f (c : CellSt) : CellSt :=
    { c with wantSave := c.wantSave || (c.core.map fun k => clusterOf k == i).getD false }
  { s with cells := s.cells.map fun x => (x.1, f x.2) }

/-- A counter or card wait of a group would end if it read again. -/
def State.readEnds (s : State) (u : Nat) (g : Group) : Bool :=
  let over_ (o : Host.Outcome State Fault Refusal) : Bool :=
    match o with
    | .next t => ((t.group? u).map fun x => x.wait != g.wait).getD true
    | _ => false
  match g.wait with
  | .counter (.ctrwait h x) => over_ (execCtrwait h x { s with cur := u })
  | .cards (.rdv h r n) => over_ (execRdv h r n { s with cur := u })
  | _ => false

/-- A wait of a sleeping group ends, so that it would become ready, or go on (21 R402). -/
def State.wouldRun (s : State) (u : Nat) (g : Group) : Bool :=
  g.taking.isNone &&
  match g.wait with
  | .no | .stores _ =>
    s.waitOver g &&
    match g.clause with
    | some c => c.started || g.flagsIdle (bits c.hdr 51 40)
    | none => g.headAddr.isSome
  | .counter _ | .cards _ => s.readEnds u g
  | .sleep t => decide (t ≤ s.now)
  | .barrier _ (some t) => decide (t ≤ s.cycles (coreOf u))
  | .join q n => (g.named q n).isEmpty
  | _ => false

/-- A child or a saved joiner would take a free slot of a core. -/
def State.childWaits (s : State) (core : Nat) : Bool :=
  (s.freeSlot core).isSome && ((s.nextJoiner core).isSome || (s.core core).rings.any fun x => !x.2.2.isEmpty)

/-- An event of R402 wakes a cluster: a wait ends, the dispatcher has something to place there, a pre-emption or a kill
names a group of it, or its EN bit is clear. -/
def State.wakes (s : State) (i : Nat) : Bool :=
  !(s.reg (.retctl (i / 12))).getLsbD (i % 12) ||
  (s.groups.any fun x => decide (x.1 < 12288) && clusterOf (coreOf x.1) == i &&
    (s.wouldRun x.1 x.2 || (s.reg (.ctxstat x.2.ctx)).getLsbD 0)) ||
  (s.cells.any fun x => x.2.wantSave && (x.2.core.map fun k => clusterOf k == i).getD false) ||
  ((List.range 4).any fun j => s.childWaits (i / 12 * 48 + i % 12 * 4 + j)) ||
  (List.range 8).any fun p => s.placingAt p == some i

/-- RETENTION_WAKE: at an event that wakes the cluster every group resumes at its region start; where an element failed, the cluster goes offline, the groups
it held end, and the rest are saved (21 R401, R402). -/
def execRetentionWake (die k : Nat) (failed : List Nat) (s : State) : Host.Outcome State Fault Refusal :=
  let i := 12 * die + k
  let c := s.cluster i
  if !c.asleep || !s.wakes i then .next s
  else
    let s := s.putCluster i { c with asleep := false, offline := !failed.isEmpty, idleSince := s.now }
    let s := (s.clusterUnits i).foldl State.withdrawGroup s
    let s := (s.wakeGroups i).emptyCaches i
    if failed.isEmpty then .next s else .next ((s.endLost i failed).wantSaves i)

end Sys2Proof.Machine
end

