-- ==== Sys2Proof/Machine/MatrixEngine.lean ====
section
/-! DEFINITION. The matrix engine and the cluster bus at work (spec 12 R286, R295 to R303; 07 R174 to R189). -/

namespace Sys2Proof.Machine

/-! ### Operand elements (R286; 07 R174 to R182) -/

/-- An operand's bytes: its record, a byte of its range, and its poison. -/
structure Operand where
  r : BitVec 128
  byte : Nat → Byte
  bad : Nat → Bool

/-- An operand in a share: offsets are counted from the start of its range. -/
def operandOf (r : BitVec 128) (share : Assoc Byte) (poison : List Nat) : Operand :=
  let o := 16 * resOff r
  ⟨r, fun i => agetD 0 share (o + i), fun i => poison.elem (granule (o + i))⟩

/-- The first bit of an element of a row. -/
def elemBit (r : BitVec 128) (row k : Nat) : Nat := (32 * resKrow r * row + k) * fmtBits (resFmt r)

/-- The code of an element. -/
def Operand.code (o : Operand) (row k : Nat) : Nat :=
  let b := elemBit o.r row k
  leNat ((List.range 3).map fun i => o.byte (b / 8 + i)) / 2 ^ (b % 8) % 2 ^ fmtBits (resFmt o.r)

/-- Where the scale bytes of the block of an element lie: the second one for SD formats. -/
def scaleAt (r : BitVec 128) (row k : Nat) (second : Bool) : Nat :=
  let q := row * resKrow r + k / 32
  if resE2off r = 0 then 16 * resScoff r + q * fmtScale (resFmt r) + (if second then 1 else 0)
  else 16 * (if second then resE2off r else resScoff r) + q

/-- The element format of an operand, for the float formats. -/
def elemFmt (f : Nat) : Fmt :=
  match f with
  | 1 => fp16
  | 2 => bf16
  | 3 | 5 => e4m3
  | 4 => e5m2
  | 6 => e3m2
  | 7 => e2m1
  | 9 => sd4
  | _ => sd6

/-- A value times the value of an E8M0 scale byte. -/
def scaled8 (v : FVal) (x : Nat) : FVal := if x = 255 then .nan else v.scaleBy ((x : Int) - 127)

/-- The value of a code of a format, with its scales: per tensor, and per block (07 R174 to R182). -/
def elemValue (f c tscale : Nat) (scale : Bool → Nat) : FVal :=
  match f with
  | 1 | 2 => (elemFmt f).decode c
  | 3 | 4 => scaled8 ((elemFmt f).decode c) tscale
  | 5 | 6 | 7 => scaled8 ((elemFmt f).decode c) (scale false)
  | 8 => scaled8 ((ofInt (BitVec.ofNat 8 c).toInt).scaleBy (-6)) (scale false)
  | _ =>
    let b := fmtBits f
    let m := (elemFmt f).decode (c % 2 ^ (b - 2))
    let v := if c.testBit (b - 2) then m.neg else m
    scaled8 v (scale (c.testBit (b - 1)))

/-- The value of an element. -/
def Operand.value (o : Operand) (row k : Nat) : FVal :=
  elemValue (resFmt o.r) (o.code row k) (resTscale o.r) fun second => (o.byte (scaleAt o.r row k second)).toNat

/-- An operation that reads elements k to k + n − 1 of a row reads a poisoned byte. -/
def Operand.rowBad (o : Operand) (row k n : Nat) : Bool :=
  let lo := elemBit o.r row k / 8
  let hi := (elemBit o.r row (k + n) + 7) / 8
  ((List.range (hi - lo)).any fun i => o.bad (lo + i)) ||
  (fmtScale (resFmt o.r) != 0 &&
    (List.range ((n + 31) / 32)).any fun q =>
      o.bad (scaleAt o.r row (k + 32 * q) false) || (fmtSd (resFmt o.r) && o.bad (scaleAt o.r row (k + 32 * q) true)))

/-! ### The operation (R295, R297; 07 R187 to R189) -/

/-- The exact sum of products: an exact zero is −0 only where every product is (07 R188). -/
def sumProducts : List (FVal × FVal) → FVal
  | [] => .fin false 0 0
  | (a, b) :: t => t.foldl (fun s x => s.add false (x.1.mul x.2)) (a.mul b)

/-- One group sum added to a cell (07 R189). -/
def accAdd (x : Acc56) (s : FVal) : Acc56 :=
  BitVec.ofNat 56 (roundTo acc56 .rne ((acc56.decode x.toNat).add false s)).1

/-- A cell after the groups of K positions of an operation: `row` of A from element ka, `col` of B from element kb. -/
def dotCell (a b : Operand) (row col ka kb gsz : Nat) : Nat → Acc56 → Acc56
  | 0, x => x
  | n + 1, x =>
    let y := dotCell a b row col ka kb gsz n x
    accAdd y (sumProducts ((List.range gsz).map fun i => (a.value row (ka + n * gsz + i), b.value col (kb + n * gsz + i))))

/-- The group size of two formats (07 R187). -/
def groupSize (fa fb : Nat) : Nat := if fa = 1 ∨ fa = 2 ∨ fb = 1 ∨ fb = 2 then 8 else 32

/-- Writes row i of a member's tile. -/
def mmaRow (zero msk : Bool) (mask : BitVec 256) (a b : Operand) (x : BodyMma) (kbf : BitVec 12) (g : Group) (i : Nat) :
    Group :=
  let k := classK (fmtClass (resFmt a.r))
  let gsz := groupSize (resFmt a.r) (resFmt b.r)
  let row := 32 * (x.ka.toNat / 512) + i
  let ka := x.ka.toNat % 512 * k
  let kb := kbf.toNat % 512 * k
  let nn := mmaN x.n128
  let arow := a.rowBad row ka k
  (List.range nn).foldl (fun g n =>
    let key := accKey x.acc.toNat i n
    let g := if zero then g.setAcc key 0 false else g
    if msk && !mask.getLsbD row then g
    else
      let col := nn * (kbf.toNat / 512) + n
      let bad := arow || g.accBad key || (List.range nn).any fun j => b.rowBad (nn * (kbf.toNat / 512) + j) kb k
      g.setAcc key (dotCell a b row col ka kb gsz (k / gsz) (g.accCell key)) bad) g

/-- The tile of a member after an operation. -/
def mmaMember (zero : Bool) (c : CellSt) (b : Operand) (kbf : BitVec 12) (m : Member) (g : Group) : Group :=
  let a := operandOf m.record c.share c.sharePoison
  let mask := agetD (BitVec.allOnes 256) c.masks (resMslot m.record)
  (List.range 32).foldl (mmaRow zero m.x.msk mask a b m.x kbf) g

/-- B of an operation that may be performed: its operand and its KB field. -/
def MatOp.bOperand (o : MatOp) (c : CellSt) : Option (Operand × BitVec 12) :=
  match o.step with
  | some b => some (operandOf b.record o.bshare o.bpoison, b.kb)
  | none => if o.x.bus then none else o.hb.map fun r => (operandOf r c.share c.sharePoison, o.x.kb)

/-- An earlier read of a member's tile is still to be performed (R298). -/
def State.readsBefore (s : State) (o : MatOp) : Bool :=
  o.members.any fun m =>
    match s.group? m.unit with
    | none => false
    | some g => g.uid == m.uid && g.pend.any fun p =>
        match p.ins with
        | .accrd _ _ _ _ _ t => t == m.x.acc && decide (p.tok < o.id) && !p.lanes.isEmpty
        | _ => false

/-- MATRIX_OP_COMPLETE: the oldest operation of a core completes on every member's tile (R297, R298). -/
def execMatrixOpComplete (core : Nat) (s : State) : Host.Outcome State Fault Refusal :=
  let x := s.core core
  match x.ops with
  | [] => .next s
  | o :: rest =>
    let c := (s.cell? o.cell).getD (newCell 0 core o.ctx none 1 0)
    match o.bOperand c with
    | none => .next s
    | some (b, kbf) =>
      if s.readsBefore o then .next s
      else
        let s := s.putCore core { x with ops := rest }
        .next (o.members.foldl (fun s m =>
          (s.onGroup m.unit m.uid (mmaMember o.zero c b kbf m)).partDone m.unit m.uid m.tok) s)

/-! ### The bus (R302, R303) -/

/-- The cores of a step's mask. -/
def maskCores (core : Nat) (m : BitVec 4) : List Nat := ((List.range 4).filter fun i => m.getLsbD i).map fun i => core / 4 * 4 + i

/-- The oldest bus operation of a core. -/
def CoreSt.busOp (x : CoreSt) : Option MatOp := x.ops.find? fun o => o.x.bus

/-- A member is ready for a channel (R302). -/
def CoreSt.readyFor (x : CoreSt) (chan : Nat) : Bool :=
  (match x.bus.head? with
    | some q => q.chan == chan
    | none => false) &&
  match x.busOp with
  | some o => o.step.isNone
  | none => false

/-- An operation matches a step (R302). -/
def MatOp.matches (o : MatOp) (b : BusStep) : Bool :=
  o.x.n128 == b.n128 && o.members.all fun m => fmtClass (resFmt m.record) == fmtClass (resFmt b.record)

/-- The bus trap of a member (R303). -/
def Member.busRec (m : Member) (value : BitVec 32) : TrapRec := ⟨causeBus, m.addr, m.idx, value.setWidth 64, m.act⟩

/-- A group carries a trap that it will take between two clauses, and its flag falls. -/
def Group.carryBus (uid : Nat) (tok : Option Nat) (r : TrapRec) (g : Group) : Group :=
  if g.uid ≠ uid then g
  else
    let g := match tok with
      | some t => g.dropTok t
      | none => g
    { g with late := g.late.or (some r) }

/-- A member of an abandoned operation takes the bus trap: resident, saved, or reported where it has exited (R303). -/
def State.busTrap (s : State) (o : MatOp) (m : Member) : State :=
  let r := m.busRec o.value
  let here := match s.group? m.unit with
    | some g => g.uid == m.uid
    | none => false
  if here then s.onGroup m.unit m.uid (Group.carryBus m.uid m.tok r)
  else if s.saved.any fun i => i.groups.any fun y => y.g.uid == m.uid then
    let f (y : SavedGroup) : SavedGroup := ⟨y.g.carryBus m.uid m.tok r, y.slot⟩
    let l := s.saved.map fun (i : SaveImg) => { i with groups := i.groups.map f }
    { s with saved := l }
  else s.logCtx o.ctx (srcUnit m.unit) 0x06 (trapData m.unit o.ctx r)

/-- A bus step or subscription is done: its flag falls in its group, wherever that has gone by then (12 R300, R301). -/
def Group.busDone (uid t : Nat) (g : Group) : Group :=
  if g.uid = uid then g.dropTok t else g

/-- The same, in the slots and in the save images. -/
def State.busDone (s : State) (uid : Nat) (tok : Option Nat) : State :=
  match tok with
  | none => s
  | some t =>
    { s with
      groups := s.groups.map fun x => (x.1, x.2.busDone uid t)
      saved := s.saved.map fun i => { i with groups := i.groups.map fun y => ⟨y.g.busDone uid t, y.slot⟩ } }

/-- What a step's range holds at its delivery, with its poisoned granules: in its cell, resident or saved; free bytes once
the cell has ended, for the spec states no value then (log entry 55). -/
def State.published (s : State) (b : BusStep) : Assoc Byte × List Nat :=
  let lo := 16 * resOff b.record
  let hi := lo + 16 * resLen b.record
  let saved (i : SaveImg) : Option CellSt := i.cell.filter fun c => c.uid == b.cell
  match (s.cell? b.cell).or (s.saved.findSome? saved) with
  | some c =>
    (c.share.filter fun y => decide (lo ≤ y.1) && decide (y.1 < hi),
      c.sharePoison.filter fun k => decide (lo ≤ 16 * k) && decide (16 * k < hi))
  | none =>
    ((List.range (hi - lo)).foldl (fun t o => asetD 0 t (lo + o) (Config.freeByte b.id (lo + o))) [],
      (List.range ((hi - lo) / 16)).filterMap fun k => if Config.pick b.id k then some (lo / 16 + k) else none)

/-- A member core takes a step into its oldest bus operation, or abandons it; its subscription counts down. -/
def State.takeStep (s : State) (b : BusStep) (core : Nat) : State :=
  let x := s.core core
  match x.busOp, x.bus with
  | some o, q :: t =>
    let src := s.published b
    let o' : MatOp := { o with step := some b, bshare := src.1, bpoison := src.2 }
    let ok := o.matches b
    let ops := if ok then modifyFirst (fun y => y.id == o.id) (fun _ => o') x.ops else x.ops.filter fun y => y.id != o.id
    let bus := if q.count ≤ 1 then t else { q with count := q.count - 1 } :: t
    let s := s.putCore core { x with ops := ops, bus := bus }
    let s := if q.count ≤ 1 then s.busDone q.uid q.tok else s
    if ok then s else o.members.foldl (fun s m => s.busTrap o m) s
  | _, _ => s

/-- BUS_STEP_DELIVER: the head step of a core's channel goes to every core of its mask at once (R302). -/
def execBusStepDeliver (core : Nat) (s : State) : Host.Outcome State Fault Refusal :=
  let x := s.core core
  match x.steps with
  | [] => .next s
  | b :: t =>
    let ms := maskCores core b.mask
    if ms.all fun m => (s.core m).readyFor (core % 4) then
      let s := s.putCore core { x with steps := t }
      .next ((ms.foldl (fun s m => s.takeStep b m) s).busDone b.uid b.tok)
    else .next s

end Sys2Proof.Machine
end

