-- ==== Sys2Proof/Machine/Basin.lean ====
section
/-! DEFINITION. Standing loads and full/empty waits after their issue (spec 09 R231 to R236, R245, R246): the home's
record of a subscriber, the landing of a push, the end of a subscription, and the service of waiting LDB lanes. -/

namespace Sys2Proof.Machine

/-! ### Subscribing (R233, R245) -/

/-- Records of a home's table that serve programs. -/
def programUsed (l : List Sub) : Nat := l.length - reservedUsed l

/-- Acknowledges the UNSUB lanes that wait for a slot (R246). -/
def State.ackUnsub (s : State) (r : SlotRec) : State :=
  r.unsub.foldl (fun s x => s.partDone x.1 x.2.1 (some x.2.2)) s

/-- Undoes step 4 of a refused subscription: no slot record, and the slot's full bits as they were. -/
def State.undoSlot (s : State) (q : SubReq) : State :=
  let k := slotKey q.die q.off
  let r := aget s.slots k
  let s := q.prev.foldl (fun s g => s.setFull g true) { s with slots := adel s.slots k }
  match r with
  | some r => s.ackUnsub r
  | none => s

/-- The destination register of a subscription's lane. -/
def State.subDest (s : State) (q : SubReq) : Nat :=
  match (s.group? q.unit).bind fun g => g.pend.find? fun p => p.tok == q.tok with
  | some p =>
    match p.ins with
    | .ldsub _ _ d _ _ => d.toNat
    | _ => 0
  | none => 0

/-- The status of a subscription reaches its lane. -/
def State.subDone (s : State) (q : SubReq) (st : Nat) : State :=
  s.laneDone q.unit q.uid q.tok q.lane [⟨.v (s.subDest q) q.lane, BitVec.ofNat 32 st, false⟩] none

/-- SUBSCRIBE_RECORD: the home takes a record for the subscriber and pushes the granule's value, status 0; without a free
record, status 1 (R245). -/
def execSubscribeRecord (die off : Nat) (s : State) : Host.Outcome State Fault Refusal :=
  match takeFirst (fun q : SubReq => q.die == die && q.off == off) s.subReqs with
  | none => .next s
  | some (q, rest) =>
    let s := { s with subReqs := rest }
    let home := s.stackOf (16 * q.granule)
    let l := agetD [] s.subs home
    if Config.subRecords ≤ programUsed l then .next ((s.undoSlot q).subDone q 1)
    else
      let w : Watcher := .slot die off
      let b : Sub := ⟨q.granule, w, q.ctx⟩
      let s := { s with subs := aput s.subs home (l ++ [b]) }
      .next ((s.pushFirst q.granule w).subDone q 0)

/-! ### Pushes (R234) -/

/-- Sat23. -/
def sat23 (n : Nat) : Nat := min n 0x7FFFFF

/-- Where a push lands in its slot, and the record after it. -/
def slotPush (full : Nat → Bool) (r : SlotRec) : Nat × SlotRec :=
  let st := match r.st with
    | .removing => SlotSt.removing
    | _ => .active
  let r := { r with st := st }
  if r.ring then
    let t := r.widx
    if full t then ((t + 3) % 4, { r with ovr := sat23 (r.ovr + 1) }) else (t, { r with widx := (t + 1) % 4 })
  else (0, if full 0 then { r with ovr := sat23 (r.ovr + 1) } else r)

/-- The release that a landing is, at die scope: after the write whose value it carries, and after all that happens before that
write where it is a release that reaches the basin controller (17 R354). -/
def Push.landRel (y : Push) (die : Nat) : Rel :=
  let b := agent (srcBasin die)
  ⟨b, 6, (handedTo b y.rels).join ⟨[y.wrote], []⟩, 0⟩

/-- PUSH_LAND: the oldest push toward a slot lands once it has come to the die, with the full bit of the granule that it
writes (R230, R234). -/
def execPushLand (die off : Nat) (s : State) : Host.Outcome State Fault Refusal :=
  match takeFirst (fun y : Push => y.who == .slot die off) s.pushes with
  | none => .next s
  | some (y, rest) =>
    if y.trip.way ≠ [] then .next s
    else
      let s := { s with pushes := rest }
      let k := slotKey die off
      match aget s.slots k with
      | none => .next s
      | some r =>
        let base := (windowBase die + off) / 16
        let (i, r') := slotPush (fun i => s.isFull (base + i)) r
        let g := base + i
        let s := { s with slots := aput s.slots k r' }
        .next (s.releaseWrite .p (srcBasin die) 0 [y.landRel die] (dataOf (16 * g) y.data) [g] (if y.bad then [g] else []))

/-! ### The end of a subscription (R236, R246) -/

/-- Removes a slot's record at the home, here or in another package: no later write is pushed. -/
def State.unsubHome (s : State) (w : Watcher) : State :=
  { s with
    subs := s.subs.map fun x => (x.1, x.2.filter fun b => b.who != w)
    farSubs := s.farSubs.filter fun b => b.who != w }

/-- The subscription of a slot is still on its way to its home. -/
def State.subscribing (s : State) (die off : Nat) : Bool :=
  (s.subReqs.any fun q => q.die == die && q.off == off) ||
  s.globals.any fun x =>
    match x.what with
    | .sub q => q.die == die && q.off == off
    | _ => false

/-- UNSUB_ACK: the home removes the subscription of a slot that is being removed; once no push toward the slot is in
flight, its record goes and every UNSUB lane is acknowledged. -/
def execUnsubAck (die off : Nat) (s : State) : Host.Outcome State Fault Refusal :=
  let k := slotKey die off
  let w : Watcher := .slot die off
  match aget s.slots k with
  | none => .next s
  | some r =>
    if r.st ≠ .removing ∨ s.subscribing die off = true then .next s
    else
      let s := s.unsubHome w
      if s.pushes.any fun y => y.who == w then .next s
      else .next (State.ackUnsub { s with slots := adel s.slots k } r)

/-! ### Full/empty waits (R231) -/

/-- A lane of LDB.w that waits for a granule: its place in the controller's order, issuer, token and lane. -/
structure FullWait where
  ticket : Nat
  unit : Nat
  tok : Nat
  lane : Nat
  deriving DecidableEq, Repr

/-- The waits of a die for a granule whose lanes may be performed now. -/
def State.fullWaits (s : State) (die gran : Nat) : List FullWait :=
  s.groups.flatMap fun x =>
    if unitDie x.1 != die then []
    else x.2.pend.flatMap fun p => p.lanes.filterMap fun l =>
      match l.st with
      | .full t => if l.gran == gran && s.laneClear x.1 x.2 p l then some ⟨t, x.1, p.tok, l.lane⟩ else none
      | _ => none

/-- The wait that reached the controller first. -/
def firstWait (l : List FullWait) : Option FullWait :=
  l.foldl (fun o w =>
    match o with
    | none => some w
    | some v => if w.ticket < v.ticket then some w else some v) none

/-- FULL_EMPTY_WAIT_SERVE: the first waiter on a full granule reads it, and under .wc empties it. -/
def execFullEmptyWaitServe (die granule : Nat) (s : State) : Host.Outcome State Fault Refusal :=
  if !s.isFull granule then .next s
  else
    match firstWait (s.fullWaits die granule) with
    | none => .next s
    | some w =>
      match s.group? w.unit with
      | none => .next s
      | some g =>
        match g.pend.find? fun p => p.tok == w.tok with
        | none => .next s
        | some p =>
          match p.lanes.find? fun l => l.lane == w.lane with
          | none => .next s
          | some l => .next (s.performLane w.unit g p l)

end Sys2Proof.Machine
end

