-- ==== Sys2Proof/Machine/Layout.lean ====
section
/-! DEFINITION. Tensor layout records and tile images (spec 02 R44 to R46; 11 R262 to R264): which bytes of a tensor a tile
holds, and where they stand in its image. -/

namespace Sys2Proof.Machine

/-! ### Layout records (02 R44, R46) -/

def layBase (ws : List Dword) : Nat := field ws 55 0
def layFmt (ws : List Dword) : Nat := field ws 60 56
def layNdim (ws : List Dword) : Nat := field ws 63 61
def layExt (ws : List Dword) (d : Nat) : Nat := field ws (95 + 32 * d) (64 + 32 * d)
def layStr (ws : List Dword) (d : Nat) : Nat := field ws (263 + 40 * (d - 1)) (224 + 40 * (d - 1))
def layTile (ws : List Dword) (d : Nat) : Nat := field ws (395 + 12 * d) (384 + 12 * d)
def laySoff (ws : List Dword) : Nat := field ws 483 444

/-- Bits of an element, scale bytes and bytes of a block (02 R44). -/
def layBits (ws : List Dword) : Nat := fmtBits (layFmt ws)
def layScale (ws : List Dword) : Nat := fmtScale (layFmt ws)
def layBlock (ws : List Dword) : Nat := 4 * layBits ws

/-- The extent of a tile in a dimension; 1 beyond NDIM (R262). -/
def tileOf (ws : List Dword) (d : Nat) : Nat := if d < layNdim ws then layTile ws d else 1

/-- Rows of a tile (R262). -/
def tileRows (ws : List Dword) : Nat := tileOf ws 1 * tileOf ws 2 * tileOf ws 3 * tileOf ws 4

/-- A record that R46 does not reject. -/
def layoutOk (ws : List Dword) : Bool :=
  let n := layNdim ws
  let b := layBits ws
  decide (layFmt ws ≤ 14) && decide (1 ≤ n) && decide (n ≤ 5) &&
  ((List.range 5).all fun d =>
    if d < n then layExt ws d != 0 && layTile ws d != 0
    else layExt ws d == 0 && layTile ws d == 0 && (d == 0 || layStr ws d == 0)) &&
  decide (tileRows ws ≤ 256) &&
  layTile ws 0 * b % 8 == 0 && (layScale ws == 0 || layTile ws 0 % 32 == 0) &&
  ((List.range 5).all fun d =>
    d == 0 || decide (n ≤ d) || layStr ws d % (if layScale ws = 0 then (b + 7) / 8 else layBlock ws) == 0) &&
  field ws 511 484 == 0

/-- An origin that R262 admits. -/
def originOk (ws : List Dword) (org : List (BitVec 32)) : Bool :=
  let o := (org.getD 0 0).toInt
  (layScale ws == 0 || o % 32 == 0) && o * layBits ws % 8 == 0

/-! ### Rows (R262, R45) -/

/-- The index of a row of a tile in dimension d. -/
def rowIdx (ws : List Dword) (org : List (BitVec 32)) (r d : Nat) : Int :=
  let j := match d with
    | 1 => r % tileOf ws 1
    | 2 => r / tileOf ws 1 % tileOf ws 2
    | 3 => r / (tileOf ws 1 * tileOf ws 2) % tileOf ws 3
    | _ => r / (tileOf ws 1 * tileOf ws 2 * tileOf ws 3)
  (org.getD d 0).toInt + j

/-- The dimensions above 0. -/
def upperDims (ws : List Dword) : List Nat := (List.range (layNdim ws - 1)).map (· + 1)

/-- A valid row (R262). -/
def rowValid (ws : List Dword) (org : List (BitVec 32)) (r : Nat) : Bool :=
  (upperDims ws).all fun d => decide (0 ≤ rowIdx ws org r d) && decide (rowIdx ws org r d < layExt ws d)

/-- Byte offsets of a valid row from BASE: of its elements, and of its scale bytes from BASE + SOFF (R45). -/
def rowOff (ws : List Dword) (org : List (BitVec 32)) (r : Nat) : Nat :=
  (upperDims ws).foldl (fun n d => n + (rowIdx ws org r d).toNat * layStr ws d) 0
def rowScaleOff (ws : List Dword) (org : List (BitVec 32)) (r : Nat) : Nat :=
  (upperDims ws).foldl (fun n d => n + (rowIdx ws org r d).toNat * (layStr ws d / layBlock ws * layScale ws)) 0

/-! ### Images (R263) -/

/-- Bytes of a row of the image, where the scale bytes begin, scale bytes of a row, and the image's size. -/
def imgRow (ws : List Dword) : Nat := layTile ws 0 * layBits ws / 8
def imgScale (ws : List Dword) : Nat := (tileRows ws * imgRow ws + 15) / 16 * 16
def imgRowScale (ws : List Dword) : Nat := layTile ws 0 / 32 * layScale ws
def imgSize (ws : List Dword) : Nat :=
  if layScale ws = 0 then tileRows ws * imgRow ws else imgScale ws + tileRows ws * imgRowScale ws

/-- A run of bytes that an image shares with its tensor: the row, the offset in the image, the offset from BASE, and the
length. -/
structure Seg where
  row : Nat
  img : Nat
  off : Nat
  len : Nat
  deriving DecidableEq, Repr

/-- The in-range elements of a row of a tile: from `lo` to `hi` − 1 (R262). -/
def rangeLo (org : List (BitVec 32)) : Nat := (-(org.getD 0 0).toInt).toNat
def rangeHi (ws : List Dword) (org : List (BitVec 32)) : Nat :=
  min (layTile ws 0) ((layExt ws 0 : Int) - (org.getD 0 0).toInt).toNat

/-- The elements that a row's storage holds of them: whole blocks (R45, R267). -/
def storedHi (ws : List Dword) (org : List (BitVec 32)) : Nat :=
  let h := rangeHi ws org
  if layScale ws = 0 then h else (h + 31) / 32 * 32

/-- The bytes of a valid row. -/
def rowSeg (ws : List Dword) (org : List (BitVec 32)) (r : Nat) : List Seg :=
  let lo := rangeLo org
  let hi := storedHi ws org
  let b := layBits ws
  if hi ≤ lo then []
  else [⟨r, r * imgRow ws + lo * b / 8, rowOff ws org r + ((org.getD 0 0).toInt + lo).toNat * b / 8, (hi - lo) * b / 8⟩]

/-- The scale bytes of the blocks of a valid row that hold an in-range element. -/
def scaleSeg (ws : List Dword) (org : List (BitVec 32)) (r : Nat) : List Seg :=
  let lo := rangeLo org / 32
  let hi := storedHi ws org / 32
  let e := layScale ws
  if e = 0 ∨ hi ≤ lo then []
  else [⟨r, imgScale ws + r * imgRowScale ws + lo * e,
    laySoff ws + rowScaleOff ws org r + ((org.getD 0 0).toInt / 32 + lo).toNat * e, (hi - lo) * e⟩]

/-- Every run of a tile. -/
def tileSegs (ws : List Dword) (org : List (BitVec 32)) : List Seg :=
  ((List.range (tileRows ws)).filter (rowValid ws org)).flatMap fun r => rowSeg ws org r ++ scaleSeg ws org r

/-- The address of a run. -/
def Seg.addr (ws : List Dword) (g : Seg) : Dword := BitVec.ofNat 64 (layBase ws + g.off)

/-- Keeps of a byte of an image's row the bits of its in-range elements (R263). -/
def keepByte (ws : List Dword) (org : List (BitVec 32)) (i : Nat) (x : Byte) : Byte :=
  let b := layBits ws
  let first := i % imgRow ws * 8
  (List.range 8).foldl (fun y t => if (first + t) / b < rangeHi ws org then y else y &&& ~~~(1#8 <<< t)) x

/-- A byte of the image where the tensor gives none: zeros, and neutral scales (R263). -/
def imgBlank (ws : List Dword) (i : Nat) : Byte := if layScale ws ≠ 0 ∧ imgScale ws ≤ i then 0x7F else 0

/-- The image that a tile copy writes, each byte with its poison, from the bytes of its runs. A byte that holds no
in-range element is not poisoned. -/
def tileImage (ws : List Dword) (org : List (BitVec 32)) (l : List (Seg × List (Byte × Bool))) : List (Byte × Bool) :=
  (List.range (imgSize ws)).map fun i =>
    match l.find? fun x => decide (x.1.img ≤ i) && decide (i < x.1.img + x.1.len) with
    | none => (imgBlank ws i, false)
    | some x =>
      let y := x.2.getD (i - x.1.img) (0, false)
      if i < tileRows ws * imgRow ws then
        let used := keepByte ws org i 0xFF != 0
        (keepByte ws org i y.1, y.2 && used)
      else y

/-- The validity mask (R264). -/
def tileMask (ws : List Dword) (org : List (BitVec 32)) : Nat :=
  ((List.range (tileRows ws)).filter (rowValid ws org)).foldl (fun n r => n + 2 ^ r) 0

/-- The runs of bytes of the image that slice `j` of `n` carries: rows, scale bytes, and with the last slice the padding
(R269). -/
def inSlice (ws : List Dword) (j n i : Nat) : Bool :=
  let lo := j * tileRows ws / n
  let hi := (j + 1) * tileRows ws / n
  let rb := tileRows ws * imgRow ws
  if i < rb then decide (lo ≤ i / imgRow ws) && decide (i / imgRow ws < hi)
  else if i < imgScale ws then j + 1 == n
  else decide (lo ≤ (i - imgScale ws) / imgRowScale ws) && decide ((i - imgScale ws) / imgRowScale ws < hi)

end Sys2Proof.Machine
end

