-- ==== Sys2Proof/Machine/Copies.lean ====
section
/-! DEFINITION. The copy engines at work (spec 11 R260 to R273): a copy as one step, and the operations of COPYM. -/

namespace Sys2Proof.Machine

/-! ### Ranges that an engine needs -/

/-- Why an engine's access cannot go on: translation faults of a kind of access, or a failure with its ERR code (R272,
14 R321). -/
inductive PlanStop where
  | faults (acc : Nat) (l : List (Nat × Nat × Nat × Nat))
  | fail (err : Nat)
  deriving DecidableEq, Repr

/-- The translation fault of a range. -/
def LaneChk.fault? : LaneChk → Option (Nat × Nat × Nat × Nat)
  | .fault a b c d => some (a, b, c, d)
  | _ => none

/-- The pieces of a range. -/
def LaneChk.got : LaneChk → List Piece
  | .ok p => p
  | _ => []

/-- The range meets a physical-address fault, or another fault of its address. -/
def LaneChk.bad : LaneChk → Bool
  | .trap _ _ => true
  | _ => false

/-- The pieces of some ranges that an engine accesses: every translation fault first, then failures. `phys` is the ERR
code of a physical-address fault. An empty range needs nothing. -/
def State.planRanges (s : State) (ctx acc : Nat) (priv : Bool) (stack phys : Nat) (l : List (Dword × Nat)) :
    Except PlanStop (List (List Piece)) :=
  let cs := l.map fun x => if x.2 = 0 then .ok [] else s.devRange ctx acc priv x.1 x.2
  let fs := cs.filterMap LaneChk.fault?
  if fs ≠ [] then .error (.faults acc fs)
  else if cs.any LaneChk.bad then .error (.fail phys)
  else if cs.all fun c => s.routed stack c.got then .ok (cs.map LaneChk.got)
  else .error (.fail 3)

/-- The 8-byte words of some bytes. -/
def wordsOfBytes (bs : List Byte) (n : Nat) : List Dword :=
  (List.range n).map fun i => BitVec.ofNat 64 (leNat ((bs.drop (8 * i)).take 8))

/-- Reads a record of `n` words (02 R30). -/
def State.planRecord (s : State) (ctx : Nat) (priv : Bool) (stack phys : Nat) (a : Dword) (n : Nat) :
    Except PlanStop (List Dword) :=
  match s.planRanges ctx accEngRead priv stack phys [(a, 8 * n)] with
  | .error e => .error e
  | .ok ps => .ok (wordsOfBytes ((s.devRead ps.flatten).map (·.1)) n)

/-- The stack that homes the first byte of a range for a copy. DESIGN CHOICE (log entry 43): stack 0 where that byte does not
lie in HBM, or cannot be reached. -/
def State.stackAt (s : State) (ctx acc : Nat) (priv : Bool) (a : Dword) : Except PlanStop Nat :=
  match s.devRange ctx acc priv a 1 with
  | .fault st l r ad => .error (.faults acc [(st, l, r, ad)])
  | .trap _ _ => .ok 0
  | .ok ps =>
    match ps.head? with
    | some p => .ok (if p.glob || !inHbm p.pa then 0 else s.stackOf p.pa)
    | none => .ok 0

/-! ### Plans (R267, R268, R272) -/

/-- Where bytes of a copy go: a share, at an offset, or the pieces of a range. -/
inductive CopyDst where
  | share (cell off : Nat)
  | mem (ps : List Piece)
  deriving DecidableEq, Repr

/-- What a copy will do: the count, the writes, the mask of a handle's slot, the bytes that its poison is counted over, and the
pieces that it accesses through translations. -/
structure CopyPlan where
  count : Dword
  outs : List (CopyDst × List (Byte × Bool))
  mask : Option (Nat × Nat × Nat)
  image : List (Byte × Bool)
  uses : List Piece
  deriving DecidableEq, Repr

/-- The piece of a basin range. -/
def basinPiece (die off len : Nat) : Piece := ⟨windowBase die + off, len, false, .c⟩

/-- The little-endian bytes of a mask. -/
def maskBytes (m : Nat) : List (Byte × Bool) := (natLE m 32).map fun b => (b, false)

/-- The pieces of a copy's image that a translation leads to. -/
def CopyEnd.uses (e : CopyEnd) (ps : List Piece) : List Piece :=
  match e with
  | .va _ => ps
  | _ => []

/-- A tile copy into its destination, from the record's words. -/
def State.planIn (s : State) (q : CopyReq) (stack : Nat) (ws : List Dword) : Except PlanStop CopyPlan :=
  let segs := tileSegs ws q.origin
  let n := imgSize ws
  let m := tileMask ws q.origin
  let fits : Except PlanStop (List Piece) :=
    match q.img with
    | .basin die off =>
      let stop := if q.mask then (off + n + 15) / 16 * 16 + 32 else off + n
      if Config.basinSize < stop then .error (.fail 6)
      else if (s.die die).power then .ok [basinPiece die off n] else .error (.fail 8)
    | .ob _ _ off => if 16 * resLen (q.handle.getD 0) < off + n then .error (.fail 6) else .ok []
    | .va a => (s.planRanges q.ctx accEngWrite q.priv stack 8 [(a, n)]).map List.flatten
  match fits with
  | .error e => .error e
  | .ok dst =>
    match s.planRanges q.ctx accEngRead q.priv stack 8 (segs.map fun g => (g.addr ws, g.len)) with
    | .error e => .error e
    | .ok ps =>
      let img := tileImage ws q.origin (segs.zip (ps.map s.devRead))
      let (outs, mask) : List (CopyDst × List (Byte × Bool)) × Option (Nat × Nat × Nat) :=
        match q.img with
        | .basin die off =>
          (if q.mask then [(.mem dst, img), (.mem [basinPiece die ((off + n + 15) / 16 * 16) 32], maskBytes m)]
            else [(.mem dst, img)], none)
        | .ob cell _ off =>
          ([(.share cell (16 * resOff (q.handle.getD 0) + off), img)], some (cell, resMslot (q.handle.getD 0), m))
        | .va _ => ([(.mem dst, img)], none)
      .ok ⟨BitVec.ofNat 64 n, outs, mask, img, ps.flatten ++ q.img.uses dst⟩

/-- A tile copy out of its image (R267): whole blocks of in-range elements and their scales. -/
def State.planOut (s : State) (q : CopyReq) (stack : Nat) (ws : List Dword) : Except PlanStop CopyPlan :=
  let segs := tileSegs ws q.origin
  let n := imgSize ws
  let src : Except PlanStop (List Piece) :=
    match q.img with
    | .va a => (s.planRanges q.ctx accEngRead q.priv stack 8 [(a, n)]).map List.flatten
    | .ob _ _ _ => .error (.fail 6)
    | .basin die off =>
      if Config.basinSize < off + n then .error (.fail 6)
      else if (s.die die).power then .ok [basinPiece die off n] else .error (.fail 8)
  match src with
  | .error e => .error e
  | .ok sp =>
    match s.planRanges q.ctx accEngWrite q.priv stack 8 (segs.map fun g => (g.addr ws, g.len)) with
    | .error e => .error e
    | .ok ps =>
      let img := s.devRead sp
      let outs := (segs.zip ps).map fun x => (CopyDst.mem x.2, (img.drop x.1.img).take x.1.len)
      let used := (List.range n).zip img |>.map fun x =>
        (x.2.1, x.2.2 && segs.any fun g => decide (g.img ≤ x.1) && decide (x.1 < g.img + g.len))
      .ok ⟨BitVec.ofNat 64 n, outs, none, used, ps.flatten ++ q.img.uses sp⟩

/-- A linear copy (R268): every byte is read before any is written. -/
def State.planLinear (s : State) (q : CopyReq) (stack : Nat) (dst : Dword) : Except PlanStop CopyPlan :=
  match s.planRanges q.ctx accEngRead q.priv stack 8 [(q.src, q.len.toNat)] with
  | .error e => .error e
  | .ok sp =>
    match s.planRanges q.ctx accEngWrite q.priv stack 8 [(dst, q.len.toNat)] with
    | .error e => .error e
    | .ok dp =>
      let bs := s.devRead sp.flatten
      .ok ⟨q.len, [(.mem dp.flatten, bs)], none, bs, sp.flatten ++ dp.flatten⟩

/-- A tile copy's record, read once, and its origin (R46, R260, R262). -/
def State.planTile (s : State) (q : CopyReq) (rec : Dword) : Except PlanStop (List Dword) :=
  if rec.toNat % 64 ≠ 0 then .error (.fail 1)
  else
    match s.planRecord q.ctx q.priv 0 8 rec 8 with
    | .error e => .error e
    | .ok ws => if layoutOk ws && originOk ws q.origin then .ok ws else .error (.fail 1)

/-- What a request that stands at an engine of a stack does now. -/
def State.planCopy (s : State) (q : CopyReq) (stack : Nat) : Except PlanStop CopyPlan :=
  match q.record with
  | none =>
    match q.img with
    | .va a => s.planLinear q stack a
    | _ => .error (.fail 6)
  | some _ => if q.out then s.planOut q stack q.words else s.planIn q stack q.words

/-! ### The engine of a request (R260) -/

/-- Requests that an engine holds. -/
def State.queueAt (s : State) (place : Nat) : Nat :=
  (s.copies.filter fun q => q.place == some place).length +
  s.copymOps.foldl (fun n o => n + (o.members.filter fun m =>
    m.place == place && !o.moved.elem (m.core % (if o.n4 then 4 else 2))).length) 0

/-- The engine of a stack that takes the next request: the fewest queued, then the lowest index. -/
def State.enginePlace (s : State) (stack : Nat) : Nat :=
  6 * stack + (leastBy (fun e => s.queueAt (6 * stack + e)) (List.range 6)).getD 0

/-- The first byte of the first valid row of a tile, else BASE. -/
def tileFirst (ws : List Dword) (origin : List (BitVec 32)) : Dword :=
  (((tileSegs ws origin).head?).map (Seg.addr ws)).getD (BitVec.ofNat 64 (layBase ws))

/-- The record's words of a request, once read, and the stack to which it passes. -/
def State.routeCopy (s : State) (q : CopyReq) : List Dword × Except PlanStop Nat :=
  match q.record with
  | none => ([], if q.len = 0 then .ok 0 else s.stackAt q.ctx accEngRead q.priv q.src)
  | some rec =>
    match (if q.words.isEmpty then s.planTile q rec else .ok q.words) with
    | .error e => ([], .error e)
    | .ok ws => (ws, s.stackAt q.ctx (if q.out then accEngWrite else accEngRead) q.priv (tileFirst ws q.origin))

/-- The engine that reports a request which has passed to none: one of the stack that homes its record. -/
def State.recordPlace (s : State) (q : CopyReq) : Nat :=
  s.enginePlace (match s.stackAt q.ctx accEngRead q.priv (q.record.getD q.src) with
    | .ok k => k
    | .error _ => 0)

/-! ### Performing a copy -/

/-- The poison of some bytes: the offset of the first, and their number (R273). -/
def poisonOf (bs : List (Byte × Bool)) : Option Nat × Nat := (bs.findIdx? (·.2), (bs.filter (·.2)).length)

/-- The granules of a run from `o` on that hold a poisoned byte. -/
def badGranules (o : Nat) (bs : List (Byte × Bool)) : List Nat :=
  (((List.range bs.length).zip bs).filter fun x => x.2.2).foldl (fun l x => sput l (granule (o + x.1))) []

/-- Writes some bytes into a share. -/
def State.putShare (s : State) (cell off : Nat) (bs : List (Byte × Bool)) : State :=
  s.onCell cell fun c => c.setBytes (dataOf off (bs.map (·.1))) (badGranules off bs)

/-- Performs the writes of a plan, on the T path (09 R228). -/
def State.runOuts (s : State) (src job fn : Nat) (outs : List (CopyDst × List (Byte × Bool))) : State :=
  outs.foldl (fun s o =>
    match o.1 with
    | .share cell off => s.putShare cell off o.2
    | .mem ps => s.devPut .t src job fn true ps o.2) s

/-- Writes the mask slot of a cell (R264). -/
def State.putMask (s : State) (m : Option (Nat × Nat × Nat)) : State :=
  match m with
  | none => s
  | some (cell, slot, x) => s.onCell cell fun c => { c with masks := asetD (BitVec.allOnes 256) c.masks slot (BitVec.ofNat 256 x) }

/-- A copy-error record: the layout record or the source, the reason, and the counter (24 R427). -/
def State.copyError (s : State) (ctx place : Nat) (a : Dword) (err : Nat) (ctr : Dword) : State :=
  s.logCtx ctx (srcCopy 0 place) 0x07 (a.toNat % 2 ^ 56 + 2 ^ 56 * err + 2 ^ 64 * (ctr.toNat % 2 ^ 56))

/-- A copy-poison record (24 R427); none where nothing was poisoned. -/
def State.copyPoison (s : State) (ctx place : Nat) (p : Option Nat × Nat) (ctr : Dword) : State :=
  match p.1 with
  | none => s
  | some o =>
    s.logCtx ctx (srcCopy 0 place) 0x08
      (o % 2 ^ 40 + 2 ^ 40 * min p.2 (2 ^ 35 - 1) + 2 ^ 75 * (ctr.toNat / 8 % 2 ^ 53))

/-- How an agent's own addition to a counter ends. -/
inductive CtrEnd where
  | added (s : State)
  | waits (s : State) (reqs : List Nat)
  | lost (s : State)

/-- The addition of an agent to its counter (R271): it waits for page requests, and is discarded where it cannot be made;
`dead` says that a request of it was cancelled. -/
def State.endCounter (s : State) (ctx : Nat) (priv : Bool) (path : Path) (stack : Nat) (rel : Rel) (ctr n : Dword) (dead : Bool) :
    CtrEnd :=
  if dead then .lost s
  else
    match s.addCounter ctx priv path stack rel ctr n.toNat with
    | .done s => .added s
    | .bad _ => .lost s
    | .fault st l r a =>
      let x := s.raiseAll ctx accEngWrite [(st, l, r, a)]
      .waits x.1 x.2

/-- What failures add to a counter. -/
def failCount : Dword := 0x8000000000000000

/-- Changes a copy request. -/
def State.onCopy (s : State) (id : Nat) (f : CopyReq → CopyReq) : State :=
  { s with copies := modifyFirst (fun k => k.id == id) f s.copies }

/-- A copy request leaves its engine. -/
def State.dropCopy (s : State) (id : Nat) : State := { s with copies := s.copies.filter fun k => k.id != id }

/-- The address that a copy's records name, and its counter, or its card's. -/
def CopyReq.named (q : CopyReq) : Dword := q.record.getD q.src
def State.copyCtr (s : State) (q : CopyReq) : Dword :=
  match q.ctr with
  | some c => c
  | none => (((s.cards.find? fun x => some x.id == q.card).map fun x => cardCtr x.words)).getD 0

/-- A card's copy has ended: its failure, its poison and its count wait for the card to close (R272, R273). -/
def State.cardCopied (s : State) (card : Nat) (f : CopyFin) : State :=
  let g (c : Card) : Card :=
    { c with work := false, err := f.err, poff := f.poff, pbytes := f.pbytes, inc := f.count, place := f.place }
  { s with cards := modifyFirst (fun c => c.id == card) g s.cards }

/-- The release that a copy's addition is (R261; 17 R347). -/
def State.copyRel (s : State) (q : CopyReq) (place : Nat) : Rel :=
  s.jobRel (srcCopy 0 place) q.scope.toNat (q.id + 1) q.rels

/-- The addition of a copy whose writes have been performed, and its end (R261, R271). -/
def State.closeCopy (s : State) (q : CopyReq) (f : CopyFin) (dead : Bool) : State :=
  match q.card, q.ctr with
  | some c, _ => (s.cardCopied c f).dropCopy q.id
  | none, none => s.dropCopy q.id
  | none, some ctr =>
    match s.endCounter q.ctx q.priv .t (f.place / 6) (s.copyRel q f.place) ctr f.count dead with
    | .added s => s.dropCopy q.id
    | .waits s reqs => s.onCopy q.id fun k => { k with fin := some f, aw := ⟨reqs, false⟩ }
    | .lost s => (s.copyError q.ctx f.place q.named 11 ctr).dropCopy q.id

/-- A copy fails: its record, and 2^63 in place of its count (R271). -/
def State.failCopy (s : State) (q : CopyReq) (err : Nat) : State :=
  let place := q.place.getD (s.recordPlace q)
  (s.copyError q.ctx place q.named err (s.copyCtr q)).closeCopy q ⟨place, err, failCount, none, 0⟩ false

/-- A copy performs its writes, and then its addition. -/
def State.runCopy (s : State) (q : CopyReq) (place : Nat) (p : CopyPlan) : State :=
  let s := ((s.touchAll p.uses).runOuts (srcCopy 0 place) (q.card.getD q.id + 1) (s.ctxFn q.ctx) p.outs).putMask p.mask
  let x := poisonOf p.image
  let s := if q.card.isSome then s else s.copyPoison q.ctx place x (s.copyCtr q)
  s.closeCopy q ⟨place, 0, p.count, x.1, x.2⟩ false

/-- A copy fails, or waits for the page requests of its translation faults (21 R385). -/
def State.stopCopy (s : State) (q : CopyReq) (e : PlanStop) : State :=
  match e with
  | .fail e => s.failCopy q e
  | .faults acc l =>
    let x := s.raiseAll q.ctx acc l
    x.1.onCopy q.id fun k => { k with aw := ⟨x.2, false⟩ }

/-- COPY_EXECUTE: a request passes to an engine (R260), or its engine performs it whole (R267, R268): it waits for page
requests, fails, or writes and adds to the counter. A cancelled request fails it (R271). -/
def execCopyExecute (k : Nat) (s : State) : Host.Outcome State Fault Refusal :=
  match s.copies.find? fun q => q.id == k with
  | none => .next s
  | some q =>
    if q.aw.reqs.any s.outstanding then .next s
    else
      match q.fin with
      | some f => .next (s.closeCopy q f q.aw.dead).drawn
      | none =>
        if q.aw.dead then .next (s.failCopy q 2).drawn
        else
          match q.place with
          | none =>
            let x := s.routeCopy q
            match x.2 with
            | .error e => .next ((s.onCopy q.id fun k => { k with words := x.1 }).stopCopy q e).drawn
            | .ok stack =>
              let place := s.enginePlace stack
              .next (s.onCopy q.id fun k => { k with words := x.1, place := some place, aw := noWait }).drawn
          | some place =>
            match s.planCopy q (place / 6) with
            | .ok p => .next (s.runCopy q place p).drawn
            | .error e => .next (s.stopCopy q e).drawn

/-! ### COPYM (R269) -/

/-- The cores of the set of a core. -/
def copymSet (core : Nat) (n4 : Bool) : List Nat :=
  let b := if n4 then core / 48 * 48 + core % 48 / 4 * 4 else core / 48 * 48 + core % 48 / 2 * 2
  (List.range (if n4 then 4 else 2)).map (b + ·)

/-- The oldest request of a core for a set size that has not started: the i-th one pairs with the i-th of the others. -/
def State.copymHead (s : State) (core : Nat) (n4 : Bool) : Option CopymReq := s.copyms.find? fun q => q.core == core && q.n4 == n4

/-- The fields that must agree. -/
def CopymReq.agrees (a b : CopymReq) : Bool :=
  a.record == b.record && a.origin == b.origin && a.off == b.off && a.k == b.k && a.scope == b.scope

/-- Why a whole operation fails, from the words of its record. -/
def copymFails (ms : List CopymReq) (q : CopymReq) (ws : List Dword) : Nat :=
  if !(ms.all q.agrees) then 7
  else if !(layoutOk ws && originOk ws q.origin) then 1
  else if ms.any fun m => decide (16 * resLen m.handle < m.off + imgSize ws) then 6
  else 0

/-- Enters a member of an operation. -/
def State.joinOp (s : State) (id : Nat) (m : CopymReq) : State :=
  { s with copymOps := modifyFirst (fun o => o.id == id) (fun o => { o with members := o.members ++ [m] }) s.copymOps }

/-- Starts an operation: the request of each slice passes to an engine (R260). DESIGN CHOICE (log entry 44): of stack 0 where
the first byte's translation faults. -/
def State.startCopym (s : State) (ms : List CopymReq) (ws : List Dword) (err : Nat) : State :=
  let l := s.copyms.filter fun q => !(ms.any fun m => m.id == q.id)
  match ms with
  | [] => s
  | m :: _ =>
    let a := if ws.isEmpty then m.record else tileFirst ws m.origin
    let stack := match s.stackAt m.ctx accEngRead m.priv a with
      | .ok k => k
      | .error _ => 0
    let o : CopymOp := ⟨s.uid, m.n4, ws, err, [], [], []⟩
    let s := { s.fresh with copyms := l, copymOps := s.copymOps ++ [o] }
    ms.foldl (fun s m => s.joinOp o.id { m with place := s.enginePlace stack, aw := noWait }) s

/-- COPYM_OPERATION_START: when every core of the set has issued its COPYM, the record is read once and the operation
starts; a set whose fields differ, or whose record is rejected, fails whole (R269, R271). -/
def execCopymOperationStart (k : Nat) (s : State) : Host.Outcome State Fault Refusal :=
  match s.copyms.find? fun q => q.id == k with
  | none => .next s
  | some q =>
    let set := copymSet q.core q.n4
    let ms := set.filterMap fun c => s.copymHead c q.n4
    if ms.length ≠ set.length ∨ !(ms.any fun m => m.id == q.id) ∨ (ms.any fun m => m.aw.reqs.any s.outstanding) then .next s
    else if ms.any fun m => m.aw.dead then .next (s.startCopym ms [] 2)
    else if !(ms.all q.agrees) then .next (s.startCopym ms [] 7)
    else if q.record.toNat % 64 ≠ 0 then .next (s.startCopym ms [] 1)
    else
      match s.planRecord q.ctx q.priv 0 8 q.record 8 with
      | .ok ws => .next (s.startCopym ms ws (copymFails ms q ws)).drawn
      | .error (.fail e) => .next (s.startCopym ms [] e)
      | .error (.faults acc l) =>
        let x := s.raiseAll q.ctx acc l
        let f (m : CopymReq) : CopymReq := { m with aw := ⟨x.2, false⟩ }
        .next { x.1 with copyms := modifyFirst (fun m => m.id == k) f x.1.copyms }.drawn

/-- Changes an operation. -/
def State.onCopym (s : State) (id : Nat) (f : CopymOp → CopymOp) : State :=
  { s with copymOps := modifyFirst (fun o => o.id == id) f s.copymOps }

/-- Changes a member of an operation. -/
def CopymOp.onMember (o : CopymOp) (core : Nat) (f : CopymReq → CopymReq) : CopymOp :=
  { o with members := modifyFirst (fun m => m.core == core) f o.members }

/-- Slices of an operation. -/
def CopymOp.n (o : CopymOp) : Nat := if o.n4 then 4 else 2

/-- Slice `j` fails: its engine's record (R269). -/
def State.failSlice (s : State) (o : CopymOp) (m : CopymReq) (j err : Nat) : State :=
  let f (o : CopymOp) : CopymOp := { o with moved := sput o.moved j, failed := sput o.failed j }
  (s.copyError m.ctx m.place m.record err m.ctr).onCopym o.id f

/-- The bytes of slice `j` in every reservation of the set, and the masks. -/
def State.putSlice (s : State) (o : CopymOp) (j : Nat) (img : List (Byte × Bool)) (mask : Nat) : State :=
  let part := ((List.range img.length).zip img).filter fun x => inSlice o.words j o.n x.1
  o.members.foldl (fun s m =>
    let b := 16 * resOff m.handle + m.off
    let bad := (part.filter fun x => x.2.2).foldl (fun l x => sput l (granule (b + x.1))) []
    (s.onCell m.cell fun c => c.setBytes (part.map fun x => (b + x.1, x.2.1)) bad).putMask
      (some (m.cell, resMslot m.handle, mask))) s

/-- The bytes that slice `j` counts (R269). -/
def CopymOp.sliceCount (o : CopymOp) (j : Nat) : Nat :=
  if o.failed.elem j then failCount.toNat else ((List.range (imgSize o.words)).filter (inSlice o.words j o.n)).length

/-- Fetches slice `j` (R269). -/
def State.moveSlice (s : State) (o : CopymOp) (m : CopymReq) (j : Nat) : State :=
  if o.err ≠ 0 then s.failSlice o m j o.err
  else if m.aw.dead then s.failSlice o m j 2
  else
    let segs := (tileSegs o.words m.origin).filter fun g => inSlice o.words j o.n g.img
    match s.planRanges m.ctx accEngRead m.priv (m.place / 6) 8 (segs.map fun g => (g.addr o.words, g.len)) with
    | .error (.fail e) => s.failSlice o m j e
    | .error (.faults acc l) =>
      let x := s.raiseAll m.ctx acc l
      x.1.onCopym o.id fun o => o.onMember m.core fun m => { m with aw := ⟨x.2, false⟩ }
    | .ok ps =>
      let all := tileImage o.words m.origin (segs.zip (ps.map s.devRead))
      let s := s.touchAll ps.flatten
      let s := s.putSlice o j all (tileMask o.words m.origin)
      let part := ((List.range all.length).zip all).map fun x => (x.2.1, x.2.2 && inSlice o.words j o.n x.1)
      (s.copyPoison m.ctx m.place (poisonOf part) m.ctr).onCopym o.id fun o => { o with moved := sput o.moved j }

/-- The engine of slice `j`. -/
def CopymOp.slicePlace (o : CopymOp) (j : Nat) : Nat :=
  ((o.members.find? fun m => m.core % o.n == j).map (·.place)).getD 0

/-- The addition of slice `j` to one member's counter. -/
def State.countSlice (s : State) (o : CopymOp) (j : Nat) (m : CopymReq) : State :=
  if m.landed.elem j ∨ (m.caw.reqs.any s.outstanding) = true then s
  else
    let landed (s : State) : State := s.onCopym o.id fun o => o.onMember m.core fun m =>
      { m with landed := sput m.landed j, caw := noWait }
    let p := o.slicePlace j
    let rel := s.jobRel (srcCopy 0 p) m.scope.toNat (o.id + 1) (o.members.flatMap (·.rels))
    match s.endCounter m.ctx m.priv .t (p / 6) rel m.ctr (BitVec.ofNat 64 (o.sliceCount j)) m.caw.dead with
    | .added s => landed s
    | .lost s => landed (s.copyError m.ctx p m.record 11 m.ctr)
    | .waits s reqs => s.onCopym o.id fun o => o.onMember m.core fun m => { m with caw := ⟨reqs, false⟩ }

/-- An operation whose slices have all been counted is over. -/
def State.endCopym (s : State) (id : Nat) : State :=
  { s with copymOps := s.copymOps.filter fun o => !(o.id == id && o.members.all fun m => m.landed.length == o.n) }

/-- COPYM_SLICE_LAND: slice `j` of an operation lands in every reservation of the set, and each core's counter receives its
addition (R269). -/
def execCopymSliceLand (k j : Nat) (s : State) : Host.Outcome State Fault Refusal :=
  match s.copymOps.find? fun o => o.id == k with
  | none => .next s
  | some o =>
    match o.members.find? fun m => m.core % o.n == j with
    | none => .next s
    | some m =>
      let s :=
        if o.moved.elem j ∨ (m.aw.reqs.any s.outstanding) = true then s else s.moveSlice o m j
      match s.copymOps.find? fun o => o.id == k with
      | none => .next s
      | some o =>
        if o.moved.elem j then .next ((o.members.foldl (fun s m => s.countSlice o j m) s).endCopym k).drawn
        else .next s.drawn

end Sys2Proof.Machine
end

