-- ==== Sys2Proof/Machine/Moving.lean ====
section
/-! DEFINITION. Moving a frame (spec 21 R387; 11 R281; 17 R356): its bytes and poison, its subscriptions, and the accesses
that are held and forwarded; and the end of a page migration. -/

namespace Sys2Proof.Machine

/-- The place of an address after a frame has moved. -/
def relocate (old new size a : Nat) : Nat := if old ≤ a ∧ a < old + size then a - old + new else a

/-- A lane that is held and forwarded. -/
def LaneReq.moved (f : Nat → Nat) (l : LaneReq) : LaneReq :=
  { l with
    pieces := l.pieces.map fun (p : Piece) => if p.glob then p else { p with pa := f p.pa }
    own := l.own.map fun x => (f x.1, x.2) }

/-- Instructions that name basin bytes by their offset: no translation leads them elsewhere. -/
def byOffset : Instr → Bool
  | .ldb .. | .atomb .. | .substat .. => true
  | _ => false

/-- A pending instruction whose lanes are forwarded. -/
def Pend.moved (f : Nat → Nat) (p : Pend) : Pend := if byOffset p.ins then p else { p with lanes := p.lanes.map (LaneReq.moved f) }

/-- Some bytes at their new addresses. -/
def movedData (f : Nat → Nat) (l : List (Nat × Byte)) : List (Nat × Byte) := l.map fun x => (f x.1, x.2)

/-- The granules of a list at their new places. -/
def movedGrans (f : Nat → Nat) (l : List Nat) : List Nat := l.map fun g => f (16 * g) / 16

/-- A buffered store whose bytes are forwarded. -/
def BufItem.moved (f : Nat → Nat) : BufItem → BufItem
  | .bytes false k data full poison => .bytes false k (movedData f data) (movedGrans f full) (movedGrans f poison)
  | x => x

/-- A group's accesses forwarded. -/
def Group.moved (f : Nat → Nat) (g : Group) : Group :=
  { g with pend := g.pend.map (Pend.moved f), buf := g.buf.map (BufItem.moved f) }

/-- A packet forwarded: it keeps its place in its source's order. -/
def Packet.moved (f : Nat → Nat) (p : Packet) : Packet :=
  if p.glob.isSome then p
  else
    { p with
      pa := f p.pa
      body := match p.body with
        | .write data full poison => .write (movedData f data) (movedGrans f full) (movedGrans f poison)
        | b => b }

/-- Copies the bytes and the poison of a frame. -/
def State.copyFrame (s : State) (old new size : Nat) : State :=
  let s := (List.range size).foldl (fun s i => s.setByte (new + i) (s.byte (old + i))) s
  (List.range (size / 16)).foldl (fun s i => s.setPoison (new / 16 + i) (s.poison.elem (old / 16 + i))) s

/-- A cache without the lines of a range. -/
def dropLines (lo size : Nat) (t : Assoc (List Byte)) : Assoc (List Byte) := t.filter fun x => !(decide (lo ≤ x.1) && decide (x.1 < lo + size))

/-- A core's caches without the lines of a range. -/
def CoreSt.dropLines (lo size : Nat) (c : CoreSt) : CoreSt :=
  { c with
    l1 := Machine.dropLines lo size c.l1
    kcache := Machine.dropLines lo size c.kcache
    icache := Machine.dropLines lo size c.icache }

/-- Subscriptions follow their granules to the new homes (09 R235). -/
def State.moveSubs (s : State) (f : Nat → Nat) : State :=
  let mv (b : Sub) : Sub := { b with granule := f (16 * b.granule) / 16 }
  let all := s.subs.flatMap fun x => x.2.map fun b => (x.1, b)
  let subs := all.foldl (fun t x =>
    let b := mv x.2
    let k := if b.granule = x.2.granule then x.1 else s.stackOf (16 * b.granule)
    aput t k (agetD [] t k ++ [b])) ([] : Assoc (List Sub))
  let slot (r : SlotRec) : SlotRec := { r with granule := f (16 * r.granule) / 16 }
  let req (q : SubReq) : SubReq := { q with granule := f (16 * q.granule) / 16 }
  { s with subs := subs, slots := s.slots.map fun x => (x.1, slot x.2), subReqs := s.subReqs.map req }

/-- A performed write after a frame has moved (17 R356): its bytes of the frame stand at their new addresses, under the keys that
they had, and what stood in the new frame is gone. -/
def OldBytes.moved (old new size : Nat) (o : OldBytes) : List OldBytes :=
  let within (b a : Nat) : Bool := decide (b ≤ a) && decide (a < b + size)
  let go := o.data.filter fun x => within old x.1
  let rest : OldBytes := { o with data := o.data.filter fun x => !within old x.1 && !within new x.1 }
  let there : OldBytes :=
    { o with data := movedData (relocate old new size) go, full := [], shift := o.shift + (old : Int) - (new : Int) }
  if go.isEmpty then [rest] else if rest.data.isEmpty && rest.full.isEmpty then [there] else [rest, there]

/-- Moves a frame: bytes, poison, what readers may still see, subscriptions, and every held access (R387 steps 1, 2
and 5). -/
def State.moveFrame (s : State) (old new size : Nat) : State :=
  let f := relocate old new size
  let s := s.copyFrame old new size
  let saveG (y : SavedGroup) : SavedGroup := ⟨y.g.moved f, y.slot⟩
  let saved := s.saved.map fun (i : SaveImg) => { i with groups := i.groups.map saveG }
  let s := s.moveSubs f
  { s with
    old := s.old.flatMap (OldBytes.moved old new size)
    saved := saved
    groups := s.groups.map fun x => (x.1, x.2.moved f)
    packets := s.packets.map (Packet.moved f)
    cores := s.cores.map fun x => (x.1, x.2.dropLines new size) }

/-- An earlier move holds one of the frames. -/
def State.moveBlocked (s : State) (m : Move) : Bool :=
  let frames (x : Move) : List (Nat × Nat) := [(x.old, x.old + x.size), (x.new, x.new + x.size)]
  (s.moves.takeWhile fun x => x.id != m.id).any fun x => rangesMeet (frames x) (frames m)

/-- MIGRATION_COMPLETE: the move of a migration command, whole (R387): the frame, the entry, the TLBs, the counter. -/
def execMigrationComplete (k : Nat) (s : State) : Host.Outcome State Fault Refusal :=
  match s.moves.find? fun m => m.id == k && m.object.isNone with
  | none => .next s
  | some m =>
    if s.moveBlocked m then .next s
    else
      let f := relocate m.old m.new m.size
      let src := srcMigration m.part
      let s := s.moveFrame m.old m.new m.size
      let e := f m.ptea
      let s :=
        if m.ptea % 8 = 0 ∧ rangeInHbm e 8 = true then
          s.devWrite .d src e (setBits (s.word64 e) 44 12 (m.new / 4096)).toNat 8
        else s
      let tlb := s.tlb.filter fun t => !(t.leaves.elem m.ptea || t.leaves.elem e)
      let objects := s.objects.map fun (o : Object) => { o with entry := f o.entry }
      let s := { s with tlb := tlb, objects := objects, moves := s.moves.filter fun x => x.id != k }
      .next (s.addPhys src (f m.ctr) 1)

end Sys2Proof.Machine
end

