-- ==== Sys2Proof/Machine/Tiers.lean ====
section
/-! DEFINITION. The tier agents (spec 11 R276 to R282): requests on objects, eviction, promotions and demotions. -/

namespace Sys2Proof.Machine

/-! ### Object-table entries (R276) -/

def objDie (ws : List Dword) : Nat := field ws 3 0
def objHpa (ws : List Dword) : Nat := field ws 127 64
def objVa (ws : List Dword) : Nat := field ws 191 128
def objSize (ws : List Dword) : Nat := field ws 255 192
def objReserved (ws : List Dword) : Bool := field ws 63 4 != 0 || field ws 319 256 != 0 || field ws 431 356 != 0

/-- The code of a state. -/
def ObjSt.code : ObjSt → Nat
  | .hbm => 0
  | .promoting => 1
  | .basin => 2
  | .demoting => 3

/-- Writes word `i` of an entry at a physical address. -/
def State.putEntry (s : State) (part entry i : Nat) (x : Dword) : State :=
  if rangeInHbm entry 64 ∨ (s.physOk entry 64 = true ∧ inRegs entry = false) then
    s.devWrite .d (srcMigration part) (entry + 8 * i) x.toNat 8
  else s

/-- STATE and ERR of an entry. -/
def State.putObjState (s : State) (part entry st err : Nat) : State :=
  s.putEntry part entry 6 (setBits (setBits (s.word64 (entry + 48)) 63 56 st) 55 48 err)
/-- ERR of an entry as it stands. -/
def State.objErr (s : State) (entry : Nat) : Nat := bits (s.word64 (entry + 48)) 55 48

/-- An object that a tier agent knows: one in HBM is not listed. -/
def State.objectAt (s : State) (part entry : Nat) : Option Object :=
  s.objects.find? fun o => o.part == part && o.entry == entry

/-- Replaces an object; one in HBM leaves the list. -/
def State.setObject (s : State) (o : Object) : State :=
  let rest := s.objects.filter fun x => !(x.part == o.part && x.entry == o.entry)
  { s with objects := if o.st = .hbm then rest else rest ++ [o] }

/-- A request waits for the promotion of the object at an entry. -/
def State.awaitsObject (s : State) (p entry : Nat) (r : TierReq) : Bool :=
  r.part == p && r.kind == .promote && r.t0.isSome && r.fin.isNone &&
  ((s.devRange r.ctx accEngWrite r.priv r.entry 64).got.head?).map (·.pa) == some entry

/-- Sets the age of an object, and of its entry (R278); a promote of it that waits for room keeps it. -/
def State.setAge (s : State) (part entry : Nat) : State :=
  let s := s.putEntry part entry 7 (BitVec.ofNat 64 s.now)
  let f (o : Object) : Object := if o.part = part ∧ o.entry = entry then { o with age := s.now, due := false } else o
  let g (r : TierReq) : TierReq := if s.awaitsObject part entry r then { r with age := s.now } else r
  { s with objects := s.objects.map f, tierReqs := s.tierReqs.map g }

/-- The latest age that the waiting promotes of an object keep. -/
def State.waitingAge (s : State) (part entry : Nat) : Nat :=
  (s.tierReqs.filter (s.awaitsObject part entry)).foldl (fun n r => max n r.age) 0

/-- An object's entry shows the age that its accesses have set. -/
def State.showAge (s : State) (o : Object) : State :=
  if o.due then (s.setObject { o with due := false }).putEntry o.part o.entry 7 (BitVec.ofNat 64 o.age) else s

/-! ### Pools (R277, R280) -/

def State.poolBase (s : State) (p d : Nat) : Nat := bits (s.reg (.tierpool p d)) 15 0
def State.poolLimit (s : State) (p d : Nat) : Nat := bits (s.reg (.tierpool p d)) 31 16

/-- The lowest place of a pool where `n` units fit, in units; objects that `skip` names do not count. -/
def State.poolFit (s : State) (p d n : Nat) (skip : Object → Bool) : Option Nat :=
  let b := s.poolBase p d
  let l := s.poolLimit p d
  let busy := (s.objects.filter fun o => o.part == p && o.die == d && !skip o).map fun o =>
    (o.off / 65536, o.off / 65536 + o.size / 65536)
  if l < n then none
  else ((List.range (l - n + 1)).map (b + ·)).find? fun u => !rangesMeet [(u, u + n)] busy

/-- Starts a move of an object. -/
def State.startMove (s : State) (o : Object) (st : ObjSt) : State :=
  let s := (s.setObject { o with st := st }).putObjState o.part o.entry st.code (s.objErr o.entry)
  let b := windowBase o.die + o.off
  let m : Move :=
    if st = .promoting then ⟨s.uid, o.part, o.hpa, b, o.size, 0, 0, some o.entry⟩
    else ⟨s.uid, o.part, b, o.hpa, o.size, 0, 0, some o.entry⟩
  { s with uid := s.uid + 1, moves := s.moves ++ [m] }

/-- The object to evict for a promote accepted at `t0`: oldest age first, lowest VA among ties (R280). -/
def State.evictee (s : State) (p d t0 entry : Nat) : Option Object :=
  (s.objects.filter fun o => o.part == p && o.die == d && o.st == .basin && decide (o.age < t0) && o.entry != entry).foldl
    (fun b o =>
      match b with
      | none => some o
      | some x => if o.age < x.age ∨ (o.age = x.age ∧ o.va < x.va) then some o else some x) none

/-- Objects that are on their way out of a pool. -/
def leavingObj (o : Object) : Bool := o.st == .demoting

/-- Evicts until `n` units fit, as far as objects may be evicted; whether any was. -/
def State.evict (s : State) (p d n t0 entry : Nat) : Nat → State × Bool
  | 0 => (s, false)
  | k + 1 =>
    if (s.poolFit p d n leavingObj).isSome then (s, false)
    else
      match s.evictee p d t0 entry with
      | none => (s, false)
      | some o => (((s.startMove o .demoting).evict p d n t0 entry k).1, true)

/-! ### Requests (R279, R282) -/

/-- Changes a request. -/
def State.onTier (s : State) (id : Nat) (f : TierReq → TierReq) : State :=
  { s with tierReqs := modifyFirst (fun r => r.id == id) f s.tierReqs }

/-- Decides a request. -/
def State.finTier (s : State) (id e : Nat) : State := s.onTier id fun r => { r with fin := some e, aw := noWait }

/-- Refuses a request: ERR of the entry (R279). -/
def State.refuseTier (s : State) (r : TierReq) (entry : Nat) (e : Nat) : State :=
  let st := ((s.objectAt r.part entry).map fun o => o.st.code).getD 0
  (s.putObjState r.part entry st e).finTier r.id e

/-- The refusals that hold whatever the state: SIZE, DIE, a reserved field. A size or base that R276 does not admit is
refused likewise: DESIGN CHOICE (log entry 22). -/
def State.tierBad (s : State) (p : Nat) (ws : List Dword) : Bool :=
  objReserved ws || decide (8 ≤ objDie ws) || !(s.partDies p).testBit (objDie ws) || objSize ws == 0 ||
  objSize ws % 65536 != 0 || objHpa ws % 65536 != 0 || objVa ws % 65536 != 0 || !rangeInHbm (objHpa ws) (objSize ws) ||
  decide (s.poolLimit p (objDie ws) < objSize ws / 65536)

/-- A granule of a frame is watched (R279). -/
def State.frameWatched (s : State) (pa size : Nat) : Bool :=
  let lo := pa / 16
  let hi := (pa + size) / 16
  s.subs.any fun x => x.2.any fun b => decide (lo ≤ b.granule) && decide (b.granule < hi)

/-- A granule of an object's pages is watched: they lie in HBM until a promotion has switched them. -/
def State.tierWatched (s : State) (o : Option Object) (ws : List Dword) : Bool :=
  match o with
  | none => s.frameWatched (objHpa ws) (objSize ws)
  | some o => o.st == .promoting && s.frameWatched o.hpa o.size

/-- A promote of an object in HBM (R280): it allocates, or evicts and waits for room. None where nothing changes. -/
def State.promote (s : State) (r : TierReq) (entry : Nat) (ws : List Dword) : Option State :=
  let t0 := r.t0.getD s.now
  let s' := if r.t0.isSome then s else (s.onTier r.id fun r => { r with t0 := some t0 }).setAge r.part entry
  let d := objDie ws
  let n := objSize ws / 65536
  match s'.poolFit r.part d n fun _ => false with
  | some u =>
    let age := max t0 (s'.waitingAge r.part entry)
    let o : Object := ⟨r.part, entry, d, objHpa ws, objVa ws, objSize ws, .promoting, u * 65536, age, 0, false⟩
    some (s'.startMove o .promoting)
  | none =>
    let x := s'.evict r.part d n t0 entry s'.objects.length
    if x.2 ∨ r.t0.isNone then some x.1 else none

/-- Acts on a request whose entry has been read; none while it waits (R279). What the entry says of an object that is not in
HBM counts no more: the agent uses what it read at the start of the move (R276). -/
def State.tierAct (s : State) (r : TierReq) (entry : Nat) (ws : List Dword) : Option State :=
  let o := s.objectAt r.part entry
  if o.isNone && s.tierBad r.part ws then some (s.refuseTier r entry 4)
  else if s.tierWatched o ws then some (s.refuseTier r entry 5)
  else
    let done (s : State) : Option State := some (s.finTier r.id 0)
    match r.kind, (o.map (·.st)).getD .hbm with
    | .touch, .demoting => done s
    | .touch, _ => done (s.setAge r.part entry)
    | .demote, .hbm => done s
    | .demote, .basin => o.map fun o => s.startMove o .demoting
    | .demote, _ => none
    | .promote, .hbm => s.promote r entry ws
    | .promote, .basin => done (if r.t0.isSome then s else s.setAge r.part entry)
    | .promote, .promoting =>
      if r.t0.isSome then none
      else some ((s.onTier r.id fun r => { r with t0 := some s.now }).setAge r.part entry)
    | .promote, .demoting => none

/-- The addition, or the card, of a request that has been decided (R282, R272); none while it waits. -/
def State.tierClose (s : State) (r : TierReq) (e : Nat) : Option State :=
  let drop (s : State) : State := { s with tierReqs := s.tierReqs.filter fun x => x.id != r.id }
  match r.card, r.ctr with
  | some c, _ =>
    let f (c : Card) : Card := { c with work := false, err := e }
    some (drop { s with cards := modifyFirst (fun x => x.id == c) f s.cards })
  | none, none => some (drop s)
  | none, some ctr =>
    let rel := s.jobRel (srcMigration r.part) r.scope.toNat (r.id + 1) []
    match s.endCounter r.ctx r.priv .d 0 rel ctr (if e = 0 then 1 else failCount) r.aw.dead with
    | .added s => some (drop s)
    | .lost s => some (drop s)
    | .waits s reqs => some (s.onTier r.id fun r => { r with aw := ⟨reqs, false⟩ })

/-- Takes one request; none where it has to wait. -/
def State.tierTake (s : State) (r : TierReq) : Option State :=
  if r.aw.reqs.any s.outstanding then none
  else
    match r.fin with
    | some e => s.tierClose r e
    | none =>
      if r.entry.toNat % 64 ≠ 0 then some (s.finTier r.id 4)
      else
        match s.planRanges r.ctx accEngWrite r.priv 0 8 [(r.entry, 64)] with
        | .error (.fail e) => some (s.finTier r.id e)
        | .error (.faults acc l) =>
          if r.aw.dead then some (s.finTier r.id 2)
          else
            let x := s.raiseAll r.ctx acc l
            some (x.1.onTier r.id fun r => { r with aw := ⟨x.2, false⟩ })
        | .ok ps =>
          match ps.flatten with
          | p :: _ => if p.glob then some (s.finTier r.id 3) else s.tierAct r p.pa (s.words64 p.pa 8)
          | [] => none

/-- TIER_REQUEST: a partition's agent handles the next request that need not wait, in the order of acceptance (R279); a
request that this decides is completed with it where it can be. -/
def execTierRequest (p : Nat) (s : State) : Host.Outcome State Fault Refusal :=
  match (s.tierReqs.filter fun r => r.part == p).findSome? fun r => (s.tierTake r).map fun t => (r.id, t) with
  | none => .next s
  | some (id, t) =>
    match t.tierReqs.find? fun r => r.id == id with
    | none => .next t.drawn
    | some r =>
      match r.fin with
      | none => .next t.drawn
      | some e => .next (((t.tierClose r e).getD t)).drawn

/-! ### Moves and ages (R278, R279, R281) -/

/-- Translations that lead to a frame are invalidated. -/
def State.dropBase (s : State) (lo size : Nat) : State :=
  { s with tlb := s.tlb.filter fun e => !(decide (lo ≤ e.base) && decide (e.base < lo + size)) }

/-- A move is over. -/
def State.dropMove (s : State) (k : Nat) : State := { s with moves := s.moves.filter fun x => x.id != k }

/-- The promotes that waited for an object are done (R279). -/
def State.donePromotes (s : State) (p entry : Nat) : State :=
  let f (r : TierReq) : TierReq := if s.awaitsObject p entry r then { r with fin := some 0, aw := noWait } else r
  { s with tierReqs := s.tierReqs.map f }

/-- An object has arrived where its move led (R279). -/
def State.arrive (s : State) (p : Nat) (o : Object) : State :=
  let e := s.objErr o.entry
  let s := s.showAge o
  let o := { o with due := false }
  if o.st == .promoting then
    let s := s.setObject { o with st := .basin, sampled := 0 }
    let s := s.putEntry p o.entry 5 (BitVec.ofNat 64 (o.die * 2 ^ 32 + o.off))
    (s.donePromotes p o.entry).putObjState p o.entry 2 e
  else (s.setObject { o with st := .hbm }).putObjState p o.entry 0 e

/-- TIER_MOVE_COMPLETE: the copy of a promotion or demotion completes; translations switch, and each held access is
performed at the new place (R279, R281). -/
def execTierMoveComplete (p : Nat) (k : Nat) (s : State) : Host.Outcome State Fault Refusal :=
  match s.moves.find? fun m => m.id == k && m.part == p with
  | none => .next s
  | some m =>
    match m.object.bind (s.objectAt p) with
    | none => .next s
    | some o =>
      if s.moveBlocked m then .next s
      else .next ((((s.moveFrame m.old m.new m.size).dropBase m.old m.size).dropMove k).arrive p o).drawn

/-- TIER_AGE_SAMPLE: the entry of an object shows the age that its first access in a 1 µs interval has set (R278); `k` is the
address of its entry. -/
def execTierAgeSample (p : Nat) (k : Nat) (s : State) : Host.Outcome State Fault Refusal :=
  match s.objectAt p k with
  | none => .next s
  | some o => .next (s.showAge o)

end Sys2Proof.Machine
end

