-- ==== Sys2Proof/Machine/Charges.lean ====
section
/-! DEFINITION. What a turn is charged for (spec 23 R412, R421), and which turns safe mode leaves (24 R428). -/

namespace Sys2Proof.Machine

/-! ### Energy (23 R421) -/

/-- The charge of the instruction that an issuer issues next. -/
def State.chargeIssue (s : State) (u : Nat) : State :=
  match s.group? u with
  | none => s
  | some g =>
    match g.clause with
    | none => s
    | some c => s.chargeInstr u g (c.words.getD c.next 0)

/-- The account that an action of the device is charged to: the context of the issuing group or card for a copy, a card,
an engine instruction, a push, a tier request or move, a save or a restore; the house account of every open partition for
the patrol scrub, and that of the die's partition for its powering. -/
def State.accountsOf (s : State) : Instr → List Nat
  | .copyExecute k => ((s.copies.find? fun q => q.id == k).map (·.ctx)).toList
  | .copymOperationStart k => ((s.copyms.find? fun q => q.id == k).map (·.ctx)).toList
  | .cardClose k => ((s.cards.find? fun c => c.id == k).map (·.ctx)).toList
  | .engineAsyncComplete st k =>
    (((aget s.engines st).bind fun e => e.work.find? fun w => w.id == k).bind fun _ =>
      (s.group? (engineUnit st)).map (·.ctx)).toList
  | .pushLand d o => ((aget s.slots (d * 2 ^ 28 + o)).map (·.ctx)).toList
  | .tierRequest p => ((s.tierReqs.find? fun r => r.part == p).map (·.ctx)).toList
  | .tierMoveComplete p _ => ((s.tierReqs.find? fun r => r.part == p).map (·.ctx)).toList
  | .cellSave c => ((s.cell? c).map (·.ctx)).toList
  | .cellRestore i => ((s.saved.find? fun x => x.id == i).map (·.ctx)).toList
  | .patrolScrub _ => s.openParts.map (1000 + ·)
  | .diepowerOff d | .diepowerOn d => ((s.partOfDie d).map (1000 + ·)).toList
  | _ => []

/-- A number for each of those actions. -/
def actionOf : Instr → Nat
  | .copyExecute _ => 1
  | .copymOperationStart _ => 2
  | .cardClose _ => 3
  | .engineAsyncComplete _ _ => 4
  | .pushLand _ _ => 5
  | .tierRequest _ => 6
  | .tierMoveComplete _ _ => 7
  | .cellSave _ => 8
  | .cellRestore _ => 9
  | .patrolScrub _ => 10
  | .diepowerOff _ => 11
  | .diepowerOn _ => 12
  | _ => 0

/-- The charge of an event (23 R421; 24 R435). -/
def State.chargeEvent (s : State) (i : Instr) : State :=
  (s.accountsOf i).foldl (fun s k =>
    if k < 1000 then s.addCtx k (Config.actionEnergy (actionOf i)) else s.addEnergy k (Config.actionEnergy (actionOf i))) s

/-! ### Safe mode (24 R428) -/

/-- Bilael, or the host through the control link. -/
def safeAgent : Agent → Bool
  | .bilael | .pf | .vf _ => true
  | _ => false

/-- An event that safe mode leaves: what Bilael does, and the host's writes, under the rules of the registers. -/
def safeEvent : Instr → Bool
  | .eccCorrectable _ | .eccUncorrectable _ | .patrolScrub _ | .timerDisciplineLost | .packageReset | .getreport
  | .readerr | .setpatrol _ | .reset | .hostWrite .. | .izeusLinkFail _ | .izeusLinkTrain _ | .linkFrameRetry _ _
  | .linkFault _ _ | .boundViolation .. => true
  | .partitionOpen a _ _ | .partitionClose a _ _ | .ilmapWrite a _ _ | .illockSet a _ | .launchListEnable a _ _ _
  | .launchListDisable a _ _ _ | .bscWrite a _ _ | .bsstatRefusedClear a _ _ | .ctxctlWrite a _ _ | .preemptSave a _ _
  | .preemptResume a _ _ | .breakpointResume a _ _ | .kill a _ _ | .prqEnable a _ _ | .evqEnable a _ _
  | .tierpoolWrite a _ _ _ | .registerWrite a _ _ | .miggoWrite a _ _ => safeAgent a
  | _ => false

/-- A turn that safe mode leaves. -/
def Turn.isSafe : Turn → Bool
  | .event i => safeEvent i
  | .tick _ | .timer _ | .wiring _ => true
  | _ => false

end Sys2Proof.Machine
end

