-- ==== Sys2Proof/Machine/Atomics.lean ====
section
/-! DEFINITION. Atomics and subscriptions (spec 09 R243 to R247). -/

namespace Sys2Proof.Machine

/-- Bytes of an atomic (R237). -/
def atomBytes (x : BodyAtom) : Nat := if x.b64 then 8 else 4

/-- The operands of a lane: v in bits [63:0], and swp of .cas above them (R243). -/
def atomAux (s : State) (g : Group) (x : BodyAtom) (L : Nat) : BitVec 128 :=
  let d := x.d.toNat
  let r (n : Nat) : Word := g.vread s.draw n L
  let v : Dword := if x.b64 then pairOf (r d) (r (d + 1)) else (r d).setWidth 64
  let w : Dword :=
    if x.op = 9 then (if x.b64 then pairOf (r (d + 2)) (r (d + 3)) else (r (d + 1)).setWidth 64) else 0
  w ++ v

/-- The lanes of an atomic at virtual addresses. -/
def atomLanes (s : State) (u : Nat) (g : Group) (x : BodyAtom) (act : Lanes) : List Lane :=
  let n := atomBytes x
  (lanesList act).map fun L => vaLane s u g accAtomic n n x.addr x.off (atomAux s g x L) L

/-- ATOM: commits the region, then every lane's operation at its home (R243, R244). A translation fault aborts (21
R385). -/
def execAtom (h : Head) (x : BodyAtom) (s : State) : Host.Outcome State Fault Refusal :=
  effectE h s fun u g act =>
    let ls := atomLanes s u g x act
    if firstTrap ls = none ∧ faultsOf ls ≠ [] then s.abortStore u g accAtomic true ls
    else s.startAsync u g h (.atom h x) act accAtomic true (fun _ => .ready) ls

/-- ATOMB: at the issuing die's basin controller; does not commit (R243, R244). -/
def execAtomb (h : Head) (x : BodyAtom) (s : State) : Host.Outcome State Fault Refusal :=
  effect h s fun u g act =>
    let n := atomBytes x
    s.startAsync u g h (.atomb h x) act accAtomic false (fun _ => .ready)
      ((lanesList act).map fun L => basinLane s u g n n x.addr x.off (atomAux s g x L) L)

/-- Sends the operation of each lane of a RED. -/
def State.sendReds (s : State) (u : Nat) (x : BodyAtom) (tok : Option Nat) (ls : List Lane) : State :=
  ls.foldl (fun s l =>
    match l.pieces.head? with
    | none => s
    | some p => s.sendStore u (if p.glob then some (BitVec.ofNat 64 p.pa) else none) p.kind p.pa
        (.rmw x.op x.b64 (l.aux.setWidth 64) 0) tok (atomRel x) 0) s

/-- RED: ATOM's operation without a result; the flag falls when every lane's operation has been acknowledged (R243). -/
def execRed (h : Head) (x : BodyAtom) (s : State) : Host.Outcome State Fault Refusal :=
  effectE h s fun u g act =>
    let ls := atomLanes s u g x act
    match firstTrap ls with
    | some (c, i) => s.trapE u g c i act
    | none =>
      if faultsOf ls ≠ [] then s.abortStore u g accAtomic true ls
      else
        let s := (s.tlbFillLanes g.ctx accAtomic (s.groupPriv g) ls).commit u g.clauseIdx false
        match s.group? u with
        | none => s
        | some g =>
          let tok := s.uid
          let sync := anyS ls
          let g := if sync || (flagOf h).isSome then g.addPend h (.red h x) act tok [] [] ls.length else g
          let g := if sync then { g with wait := .drain tok } else g.next true
          ((s.fresh.putGroup u g).drawn).sendReds u x (if sync || (flagOf h).isSome then some tok else none) ls

/-- The checks of a lane of LDSUB (R238, R245): the address, both alignments, the slot's range, the translation. -/
def ldsubLane (s : State) (u : Nat) (g : Group) (ring : Bool) (d : BitVec 9) (a : Src) (off : BitVec 14) (L : Nat) : Lane :=
  let ea := vaAddr s u g a off L
  let bo := (g.vread s.draw d.toNat L).toNat
  let n := if ring then 64 else 16
  let early :=
    if bo % n ≠ 0 then some (causeAlign, BitVec.ofNat 64 bo)
    else if Config.basinSize < bo + n then some (causeBasin, BitVec.ofNat 64 bo)
    else none
  ⟨L, ea, BitVec.ofNat 128 bo, s.chkVa g.ctx accLoad (s.groupPriv g) ea 8 16 early, true⟩

/-- Marks the lanes whose slot shares a granule with the slot of a lower lane (R245, status 3). -/
def markShared (ring : Bool) (ls : List Lane) : List Lane :=
  ls.map fun l =>
    if ls.any fun m => decide (m.lane < l.lane) && slotsMeet m.aux.toNat ring l.aux.toNat ring then
      { l with aux := l.aux ||| (1#128 <<< 32) }
    else l

/-- LDSUB (R245). -/
def execLdsub (h : Head) (ring : Bool) (d : BitVec 9) (addr : Src) (off : BitVec 14) (s : State) :
    Host.Outcome State Fault Refusal :=
  effectE h s fun u g act =>
    s.startAsync u g h (.ldsub h ring d addr off) act accLoad true (fun _ => .ready)
      (markShared ring ((lanesList act).map (ldsubLane s u g ring d addr off)))

/-- Asks the home to remove a slot's subscription: the number of acknowledgments to wait for (R246). -/
def State.unsubLane (s : State) (u uid tok off : Nat) : State × Nat :=
  let k := slotKey (unitDie u) off
  match aget s.slots k with
  | none => (s, 0)
  | some r => ({ s with slots := aput s.slots k { r with st := .removing, unsub := r.unsub ++ [(u, uid, tok)] } }, 1)

/-- The same for some lanes. -/
def State.unsubLanes (s : State) (u uid tok : Nat) : List Nat → State × Nat
  | [] => (s, 0)
  | o :: t =>
    let x := s.unsubLane u uid tok o
    let y := State.unsubLanes x.1 u uid tok t
    (y.1, x.2 + y.2)

/-- UNSUB (R236, R246). -/
def execUnsub (h : Head) (addr : Src) (off : BitVec 14) (s : State) : Host.Outcome State Fault Refusal :=
  effectE h s fun u g act =>
    let ls := (lanesList act).map (basinLane s u g 16 16 addr off 0)
    match firstTrap ls with
    | some (c, i) => s.trapE u g c i act
    | none =>
      let s := s.commit u g.clauseIdx false
      let tok := s.uid
      let x := s.fresh.unsubLanes u g.uid tok (ls.map (·.addr.toNat))
      match x.1.group? u with
      | none => x.1
      | some g =>
        let g := if x.2 = 0 ∨ flagOf h = none then g else g.addPend h (.unsub h addr off) act tok [] [] x.2
        (x.1.putGroup u (g.next true)).drawn

/-- SUBSTAT (R247): it reads no memory. -/
def execSubstat (h : Head) (d : BitVec 9) (addr : Src) (off : BitVec 14) (s : State) : Host.Outcome State Fault Refusal :=
  effect h s fun u g act =>
    let ls := (lanesList act).map (basinLane s u g 16 16 addr off 0)
    let f (l : Lane) : Lane :=
      match l.chk with
      | .ok _ => { l with chk := .ok [] }
      | _ => l
    s.startAsync u g h (.substat h d addr off) act accLoad false (fun _ => .ready) (ls.map f)

end Sys2Proof.Machine
end

