-- ==== Sys2Proof/Machine/Engine.lean ====
section
/-! DEFINITION. The weir engines' own instructions, family 0xE (spec 14 R318 to R328): streams, reductions, broadcasts,
copies, matrix-vector products and signals, at issue and at completion. The route forms are in Routing. -/

namespace Sys2Proof.Machine

/-! ### The engine of a program -/

/-- The stack of the engine that runs a group. -/
def engineOf (g : Group) : Nat := g.engine.getD 0

/-- The engine of a stack. -/
def State.engineSt (s : State) (k : Nat) : EngineSt := (aget s.engines k).getD ⟨0, [], [], 0, none, 0⟩

/-- Changes the engine of a stack that runs a program. -/
def State.onEngine (s : State) (k : Nat) (f : EngineSt → EngineSt) : State :=
  match aget s.engines k with
  | some e => { s with engines := aput s.engines k (f e) }
  | none => s

/-- The address of a card in flight. -/
def State.cardVa (s : State) (id : Nat) : Dword := ((s.cards.find? fun c => c.id == id).map (·.va)).getD 0

/-- An engine-error record (24 R427) of a source: the reason, the clause, the card. -/
def State.engineError (s : State) (ctx src err : Nat) (clause card : Dword) : State :=
  s.logCtx ctx src 0x09 (err + 2 ^ 8 * (clause.toNat / 8 % 2 ^ 53) + 2 ^ 64 * card.toNat)

/-- Takes a failure into the card's ERR, the first of them (R321). -/
def State.engineErr (s : State) (k err : Nat) : State := s.onEngine k fun e => { e with err := if e.err = 0 then err else e.err }

/-- Counts poisoned bytes written: POFF is the address of the first (R320). -/
def State.enginePoison (s : State) (k : Nat) (first : Option Nat) (n : Nat) : State :=
  s.onEngine k fun e => { e with poff := e.poff.or first, pbytes := e.pbytes + n }

/-! ### At issue (R322, R323) -/

/-- The pair that a source names, once for the engine's one lane. -/
def enginePair (s : State) (u : Nat) (g : Group) (a : Src) : Dword := src64 s u g 0 a

/-- Enters an asynchronous instruction: the descriptors that it names are captured. It comes after every earlier synchronous
access of its program (R319). -/
def State.startEngine (s : State) (u : Nat) (g : Group) (h : Head) (ins : Instr) (act : Lanes) (arg : Dword)
    (ctr : Option EngCtr) (words : List Dword) : State :=
  let k := engineOf g
  let id := s.uid
  let tok := (flagOf h).map fun _ => id
  let c := ctr.map fun x => (enginePair s u g x.c, x.scope)
  let w : EngAsync := ⟨id, ins, (s.engineSt k).streams, arg, c, tok, g.clauseAddr, words, none, noWait⟩
  let g' := if tok.isSome then g.addPend h ins act id [] [] 1 else g
  let s := s.putView (id + 1) (s.viewOf g false id)
  (s.fresh.onEngine k fun e => { e with work := e.work ++ [w] }).finish u g'

/-- ESTREAM: binds a descriptor at once (R323). -/
def execEstream (h : Head) (j : BitVec 3) (r c : Src) (s : State) : Host.Outcome State Fault Refusal :=
  effect h s fun u g _ =>
    let x := (enginePair s u g r, enginePair s u g c)
    (s.onEngine (engineOf g) fun e => { e with streams := aput e.streams j.toNat x }).finish u g

/-- EREDUCE (R324). -/
def execEreduce (h : Head) (ty : BitVec 2) (d : BitVec 3) (mask : BitVec 8) (ctr : Option EngCtr) (s : State) :
    Host.Outcome State Fault Refusal :=
  effect h s fun u g act => s.startEngine u g h (.ereduce h ty d mask ctr) act 0 ctr []

/-- EBCAST (R325). -/
def execEbcast (h : Head) (q : BitVec 3) (mask : BitVec 8) (ctr : Option EngCtr) (s : State) :
    Host.Outcome State Fault Refusal :=
  effect h s fun u g act => s.startEngine u g h (.ebcast h q mask ctr) act 0 ctr []

/-- ECOPY (R325). -/
def execEcopy (h : Head) (d q : BitVec 3) (ctr : Option EngCtr) (s : State) : Host.Outcome State Fault Refusal :=
  effect h s fun u g act => s.startEngine u g h (.ecopy h d q ctr) act 0 ctr []

/-! ### Matrix-vector records (R327) -/

def gemvB (ws : List Dword) : Dword := ws.getD 1 0
def gemvA (ws : List Dword) : Dword := ws.getD 0 0
def gemvY (ws : List Dword) : Dword := ws.getD 3 0
def gemvStr (ws : List Dword) : Nat := field ws 191 152
def gemvBts (ws : List Dword) : Nat := field ws 151 144
def gemvAts (ws : List Dword) : Nat := field ws 143 136
/-- The layout records of A and B behind the four words of the record. -/
def gemvLayA (ws : List Dword) : List Dword := (ws.drop 4).take 8
def gemvLayB (ws : List Dword) : List Dword := ws.drop 12

/-- Reads what is still missing of the record and of both layout records (R327): the words read so far, and why it could not
go on. -/
def State.gemvRead (s : State) (ctx : Nat) (priv : Bool) (stack : Nat) (a : Dword) (ws : List Dword) :
    List Dword × Option PlanStop :=
  let part (a : Dword) (n : Nat) (ws : List Dword) : Except (List Dword × PlanStop) (List Dword) :=
    match s.planRecord ctx priv stack 5 a n with
    | .error e => .error (ws, e)
    | .ok x => .ok (ws ++ x)
  let all : Except (List Dword × PlanStop) (List Dword) := do
    if a.toNat % 32 ≠ 0 then .error (ws, .fail 4)
    let ws ← if ws.length < 4 then part a 4 ws else .ok ws
    if (gemvA ws).toNat % 64 ≠ 0 ∨ (gemvB ws).toNat % 64 ≠ 0 then .error (ws, .fail 6)
    let ws ← if ws.length < 12 then part (gemvA ws) 8 ws else .ok ws
    if ws.length < 20 then part (gemvB ws) 8 ws else .ok ws
  match all with
  | .ok ws => (ws, none)
  | .error (ws, e) => (ws, some e)

/-- The checks of the records (R327), in order: the failure's code. -/
def gemvFails (ws : List Dword) (size : Nat) : Option Nat :=
  let a := gemvLayA ws
  let b := gemvLayB ws
  let float (f : Nat) : Bool := f == 3 || f == 4
  if !layoutOk a || !layoutOk b || layNdim a != 2 || layNdim b != 2 || fmtClass (layFmt a) == 3 || fmtClass (layFmt b) == 3 ||
      decide (8 < layExt a 1) || layExt a 0 != layExt b 0 || fmtClass (layFmt a) != fmtClass (layFmt b) ||
      field ws 135 128 != 0 || (!float (layFmt b) && gemvBts ws != 0) || (!float (layFmt a) && gemvAts ws != 0) then some 6
  else if (gemvY ws).toNat % size ≠ 0 ∨ gemvStr ws % size ≠ 0 then some 4
  else none

/-- ESIG: the value is taken at issue (R326). -/
def execEsig (h : Head) (code : BitVec 16) (r : Src) (s : State) : Host.Outcome State Fault Refusal :=
  effect h s fun u g act => s.startEngine u g h (.esig h code r) act (enginePair s u g r) none []

/-! ### Completion -/

/-- What an engine instruction will do: its writes, each with the address of its first byte, its count, and the pieces that it
reads. -/
structure EnginePlan where
  outs : List (Dword × List Piece × List (Byte × Bool))
  count : Nat
  uses : List Piece
  deriving DecidableEq, Repr

/-- The bound descriptor `j`. -/
def EngAsync.stream (w : EngAsync) (j : Nat) : Option (Dword × Nat) := (aget w.streams j).map fun x => (x.1, x.2.toNat)

/-- The descriptors of a mask, ascending. -/
def maskStreams (m : BitVec 8) : List Nat := (List.range 8).filter fun j => m.getLsbD j

/-- The bound descriptors of some numbers; none where one is unbound or has another length. -/
def EngAsync.equalStreams (w : EngAsync) (js : List Nat) : Option (List (Dword × Nat)) :=
  let l := js.map w.stream
  if l.all Option.isSome then
    let v := js.filterMap w.stream
    match v with
    | [] => some []
    | x :: _ => if v.all fun y => y.2 == x.2 then some v else none
  else none

/-- The key of a source (R324): its home stack, 16 + d for the basin of die d, 24 for another package. -/
def State.streamKey (s : State) (ps : List Piece) : Nat :=
  match ps.head? with
  | none => 24
  | some p =>
    if p.glob then 24
    else if inHbm p.pa then s.stackOf p.pa
    else
      match basinOf p.pa with
      | some (d, _) => 16 + d
      | none => 24

/-- Bytes of an element of EREDUCE. -/
def reduceSize (ty : BitVec 2) : Nat := if ty = 2 then 8 else 4

/-- Add of EREDUCE. -/
def reduceAdd (ty : BitVec 2) (x y : Nat) : Nat :=
  match ty.toNat with
  | 0 => (addF32 (BitVec.ofNat 32 x) (BitVec.ofNat 32 y)).toNat
  | 1 => (x + y) % 2 ^ 32
  | _ => (x + y) % 2 ^ 64

/-- The elements of a run of bytes, each with its poison. -/
def elements (n : Nat) (bs : List (Byte × Bool)) : List (Nat × Bool) :=
  (List.range (bs.length / n)).map fun i =>
    let e := (bs.drop (n * i)).take n
    (leNat (e.map (·.1)), e.any (·.2))

/-- Two sources combined element by element. -/
def combineElems (ty : BitVec 2) (a b : List (Nat × Bool)) : List (Nat × Bool) :=
  (a.zip b).map fun x => (reduceAdd ty x.1.1 x.2.1, x.1.2 || x.2.2)

/-- The bytes of elements. -/
def elementBytes (n : Nat) (l : List (Nat × Bool)) : List (Byte × Bool) :=
  l.flatMap fun x => (natLE x.1 n).map fun b => (b, x.2)

/-- Elements of a run from an address on, with the poison of the granules that hold them: a granule that holds any byte of a
poisoned one is written as poisoned. -/
def spreadPoison (a : Nat) (bs : List (Byte × Bool)) : List (Byte × Bool) :=
  let bad := (((List.range bs.length).zip bs).filter fun x => x.2.2).foldl (fun l x => sput l (granule (a + x.1))) []
  ((List.range bs.length).zip bs).map fun x => (x.2.1, bad.elem (granule (a + x.1)))

/-- EREDUCE's plan (R324). -/
def State.planReduce (s : State) (ctx : Nat) (priv : Bool) (stack : Nat) (w : EngAsync) (ty : BitVec 2) (d : BitVec 3)
    (mask : BitVec 8) : Except PlanStop EnginePlan :=
  let n := reduceSize ty
  match w.equalStreams (d.toNat :: maskStreams mask) with
  | none | some [] => .error (.fail 4)
  | some (q :: srcs) =>
    if q.2 % n ≠ 0 ∨ ((q :: srcs).any fun x => x.1.toNat % n != 0) then .error (.fail 4)
    else
      match s.planRanges ctx accEngRead priv stack 5 (srcs.map fun x => (x.1, x.2)) with
      | .error e => .error e
      | .ok ps =>
        match s.planRanges ctx accEngWrite priv stack 5 [q] with
        | .error e => .error e
        | .ok dp =>
          let l := sortBy s.streamKey ps |>.map fun p => elements n (s.devRead p)
          match l with
          | [] => .error (.fail 4)
          | x :: t => .ok ⟨[(q.1, dp.flatten, spreadPoison q.1.toNat (elementBytes n (t.foldl (combineElems ty) x)))], q.2, ps.flatten⟩

/-- The plan of EBCAST and ECOPY (R325). -/
def State.planSpread (s : State) (ctx : Nat) (priv : Bool) (stack : Nat) (w : EngAsync) (src : Nat) (dsts : List Nat) :
    Except PlanStop EnginePlan :=
  match w.equalStreams (src :: dsts) with
  | none | some [] => .error (.fail 4)
  | some (q :: ds) =>
    match s.planRanges ctx accEngRead priv stack 5 [q] with
    | .error e => .error e
    | .ok sp =>
      match s.planRanges ctx accEngWrite priv stack 5 ds with
      | .error e => .error e
      | .ok dp =>
        let bs := s.devRead sp.flatten
        .ok ⟨(ds.zip dp).map fun x => (x.1.1, x.2, bs), q.2 * ds.length, sp.flatten⟩

/-! ### Matrix-vector products (R328) -/

/-- A matrix in memory: its layout, its per-tensor scale, and the bytes of each row and of its scales. -/
structure MatRows where
  lay : List Dword
  tscale : Nat
  rows : List (List (Byte × Bool))
  scales : List (List (Byte × Bool))
  deriving DecidableEq, Repr

/-- The ranges of a matrix's rows and of their scale bytes (02 R45): whole blocks. -/
def matRanges (lay : List Dword) : List (Dword × Nat) × List (Dword × Nat) :=
  let blocks := (layExt lay 0 + 31) / 32
  let n := if layScale lay = 0 then layExt lay 0 * layBits lay / 8 else blocks * layBlock lay
  let rs := List.range (layExt lay 1)
  (rs.map fun i => (BitVec.ofNat 64 (layBase lay + i * layStr lay 1), n),
    if layScale lay = 0 then []
    else rs.map fun i => (BitVec.ofNat 64 (layBase lay + laySoff lay + i * (layStr lay 1 / layBlock lay * layScale lay)),
      blocks * layScale lay))

/-- Reads a matrix. -/
def State.planMatrix (s : State) (ctx : Nat) (priv : Bool) (stack : Nat) (lay : List Dword) (ts : Nat) :
    Except PlanStop (MatRows × List Piece) :=
  let r := matRanges lay
  match s.planRanges ctx accEngRead priv stack 5 (r.1 ++ r.2) with
  | .error e => .error e
  | .ok ps =>
    let rows := ps.take r.1.length
    let sc := ps.drop r.1.length
    .ok (⟨lay, ts, rows.map s.devRead, sc.map s.devRead⟩, ps.flatten)

/-- The value of an element of a matrix. -/
def MatRows.value (m : MatRows) (r k : Nat) : FVal :=
  let f := layFmt m.lay
  let b := layBits m.lay
  let row := m.rows.getD r []
  let sc := m.scales.getD r []
  let c := leNat ((row.drop (k * b / 8)).take 3 |>.map (·.1)) / 2 ^ (k * b % 8) % 2 ^ b
  elemValue f c m.tscale fun second =>
    ((sc.getD (k / 32 * layScale m.lay + (if second then 1 else 0)) (0, false)).1).toNat

/-- A row holds a poisoned byte. -/
def MatRows.bad (m : MatRows) (r : Nat) : Bool := (m.rows.getD r []).any (·.2) || (m.scales.getD r []).any (·.2)

/-- One element of Y before its final rounding. -/
def gemvDot (a b : MatRows) (r n gsz kk : Nat) : Nat → Acc56
  | 0 => 0
  | j + 1 =>
    let ks := (List.range gsz).map (j * gsz + ·) |>.filter (· < kk)
    accAdd (gemvDot a b r n gsz kk j) (sumProducts (ks.map fun k => (a.value r k, b.value n k)))

/-- Local granules of one stack T (01 R22; R327). -/
def State.oneLocal (s : State) (ps : List Piece) : Bool :=
  match ps with
  | [] => true
  | p :: _ =>
    let t := s.stackOf p.pa
    ps.all fun q => !q.glob && rangeInHbm q.pa q.len && s.setClass (q.pa / 2 ^ 37) == 2 &&
      s.setClass ((q.pa + q.len - 1) / 2 ^ 37) == 2 && s.stackOf q.pa == t && s.stackOf (q.pa + q.len - 1) == t

/-- EGEMV's plan (R327, R328). A row of B that cannot be reached at all lies in no local granule either. -/
def State.planGemv (s : State) (ctx : Nat) (priv : Bool) (stack : Nat) (bf : Bool) (ws : List Dword) :
    Except PlanStop EnginePlan :=
  let size := if bf then 2 else 4
  match gemvFails ws size with
  | some e => .error (.fail e)
  | none =>
    match s.planMatrix ctx priv stack (gemvLayB ws) (gemvBts ws) with
    | .error (.fail _) => .error (.fail 7)
    | .error e => .error e
    | .ok (b, bp) =>
      if !s.oneLocal bp then .error (.fail 7)
      else
        match s.planMatrix ctx priv stack (gemvLayA ws) (gemvAts ws) with
        | .error e => .error e
        | .ok (a, ap) =>
          let rr := layExt a.lay 1
          let nn := layExt b.lay 1
          let kk := layExt a.lay 0
          let gsz := groupSize (layFmt a.lay) (layFmt b.lay)
          let ys := (List.range rr).map fun r => (gemvY ws + BitVec.ofNat 64 (r * gemvStr ws), nn * size)
          match s.planRanges ctx accEngWrite priv stack 5 ys with
          | .error e => .error e
          | .ok yp =>
            let row (r : Nat) : List (Byte × Bool) := (List.range nn).flatMap fun n =>
              let v := acc56.decode (gemvDot a b r n gsz kk ((kk + gsz - 1) / gsz)).toNat
              let y := if bf then (roundTo bf16 .rne v).1 else (toF32 .rne v).1.toNat
              (natLE y size).map fun x => (x, a.bad r || b.bad n)
            let outs := ((List.range rr).zip (ys.zip yp)).map fun x => (x.2.1.1, x.2.2, spreadPoison x.2.1.1.toNat (row x.1))
            .ok ⟨outs, rr * nn * size, bp ++ ap⟩

/-! ### The end of an instruction -/

/-- The writes that a step has performed happen before the addition of the instruction `id` that made them (R322). -/
def State.wrote (s : State) (id before : Nat) : State :=
  s.putView (id + 1) ((s.jobView (id + 1)).join
    ⟨(s.old.filter fun o => decide (before ≤ o.stamp) && decide (o.stamp < s.uid)).map (·.stamp), []⟩)

/-- Writes the bytes of a plan on the T path, with its full bits; the poison that it writes (R320). -/
def State.runEngine (s : State) (ctx stack card id : Nat) (p : EnginePlan) : State :=
  let s := s.touchAll (p.uses ++ p.outs.flatMap (·.2.1))
  let start := s.uid
  let s := p.outs.foldl (fun s o => s.devPut .t (srcWeir stack) (card + 1) (s.ctxFn ctx) true o.2.1 o.2.2) s
  let s := s.wrote id start
  let first := p.outs.findSome? fun o => (o.2.2.findIdx? (·.2)).map fun i => (o.1.toNat + i) % 2 ^ 40
  s.enginePoison stack first (p.outs.foldl (fun n o => n + (o.2.2.filter (·.2)).length) 0)

/-- Changes an instruction in progress. -/
def State.onWork (s : State) (stack id : Nat) (f : EngAsync → EngAsync) : State :=
  s.onEngine stack fun e => { e with work := modifyFirst (fun w => w.id == id) f e.work }

/-- An instruction is over: its flag falls. -/
def State.dropWork (s : State) (stack id : Nat) (tok : Option Nat) : State :=
  let s := s.onEngine stack fun e => { e with work := e.work.filter fun w => w.id != id }
  match s.group? (engineUnit stack) with
  | some g => s.partDone (engineUnit stack) g.uid tok
  | none => s

/-- The addition of an instruction whose writes have been performed (R321, R322). -/
def State.closeWork (s : State) (ctx : Nat) (priv : Bool) (stack : Nat) (w : EngAsync) (f : CopyFin) (dead : Bool) : State :=
  match w.ctr with
  | none => s.dropWork stack w.id w.tok
  | some (c, scope) =>
    let rel := agentRel (srcWeir stack) scope.toNat (s.jobView (w.id + 1))
    match s.endCounter ctx priv .t stack rel c f.count dead with
    | .added s => s.dropWork stack w.id w.tok
    | .waits s reqs => s.onWork stack w.id fun w => { w with fin := some f, aw := ⟨reqs, false⟩ }
    | .lost s =>
      ((s.engineError ctx (srcWeir stack) 11 w.clause (s.cardVa (s.engineSt stack).card)).engineErr stack 11).dropWork stack w.id
        w.tok

/-- An instruction fails: its record, the card's ERR, and 2^63 in place of its count (R321). -/
def State.failWork (s : State) (ctx : Nat) (priv : Bool) (stack : Nat) (w : EngAsync) (src err : Nat) : State :=
  ((s.engineError ctx src err w.clause (s.cardVa (s.engineSt stack).card)).engineErr stack err).closeWork ctx priv stack w
    ⟨stack, err, failCount, none, 0⟩ false

/-- A failure at issue: the record, the card's ERR, and 2^63 for the count to come. -/
def State.failAtIssue (s : State) (ctx stack id err : Nat) : State :=
  match (s.engineSt stack).work.find? fun w => w.id == id with
  | none => s
  | some w =>
    let s := (s.engineError ctx (srcWeir stack) err w.clause (s.cardVa (s.engineSt stack).card)).engineErr stack err
    s.onWork stack id fun w => { w with fin := some ⟨stack, err, failCount, none, 0⟩ }

/-- EGEMV: the records are read when it issues, and fail it there; where a read faults in translation, the rest is read once
that is resolved (R321, R327). -/
def execEgemv (h : Head) (bf : Bool) (r : Src) (ctr : Option EngCtr) (s : State) : Host.Outcome State Fault Refusal :=
  effect h s fun u g act =>
    let a := enginePair s u g r
    let x := s.gemvRead g.ctx (s.groupPriv g) (engineOf g) a []
    let id := s.uid
    let s := s.startEngine u g h (.egemv h bf r ctr) act a ctr x.1
    match x.2 with
    | some (.fail e) => s.failAtIssue g.ctx (engineOf g) id e
    | _ => s

end Sys2Proof.Machine
end

