-- ==== Sys2Proof/Machine/Routing.lean ====
section
/-! DEFINITION. The route engines (spec 14 R329 to R334), and the completion of asynchronous engine instructions (R319 to
R326). -/

namespace Sys2Proof.Machine

/-! ### Route records (R329) -/

def rtE (ws : List Dword) : Nat := field ws 10 0
def rtKc (ws : List Dword) : Nat := field ws 14 11
def rtMask (ws : List Dword) : Nat := field ws 31 16
def rtC (ws : List Dword) : Nat := field ws 63 32
def rtT (ws : List Dword) : Nat := field ws 95 64
def rtRb (ws : List Dword) : Nat := field ws 127 96
def rtChoice (ws : List Dword) : Nat := field ws 191 128
def rtWgt (ws : List Dword) : Nat := field ws 255 192
def rtXbuf (ws : List Dword) : Nat := field ws 319 256
def rtCnts (ws : List Dword) : Nat := field ws 383 320
def rtOffs (ws : List Dword) : Nat := field ws 447 384
def rtPart (ws : List Dword) : Nat := field ws 511 448
def rtBase (ws : List Dword) : Nat := field ws 575 512
def rtDrop (ws : List Dword) : Nat := field ws 639 576
def rtDcap (ws : List Dword) : Nat := field ws 671 640
def rtInv (ws : List Dword) : Nat := field ws 767 704
def rtTok (ws : List Dword) : Nat := field ws 831 768
def rtOuta (ws : List Dword) : Nat := field ws 895 832

/-- A record that R330 accepts on a stack. -/
def routeOk (ws : List Dword) (stack : Nat) : Bool :=
  field ws 703 672 == 0 && field ws 15 15 == 0 && decide (1 ≤ rtE ws) && decide (rtE ws ≤ 1024) && decide (1 ≤ rtKc ws) &&
  decide (rtKc ws ≤ 8) && rtRb ws != 0 && rtRb ws % 16 == 0 && decide (rtRb ws ≤ 0x100000) &&
  decide (rtT ws * rtKc ws < 2 ^ 32) && rtChoice ws % 2 == 0 && rtWgt ws % 4 == 0 && rtXbuf ws % 8 == 0 &&
  rtCnts ws % 4 == 0 && rtOffs ws % 4 == 0 && rtPart ws % 4 == 0 && rtBase ws % 4 == 0 && rtDrop ws % 8 == 0 &&
  rtInv ws % 4 == 0 && rtTok ws % 16 == 0 && rtOuta ws % 16 == 0 && (rtMask ws).testBit stack

/-- Participants, and the index of a stack among them (R330). -/
def rtP (ws : List Dword) : Nat := ((List.range 16).filter fun i => (rtMask ws).testBit i).length
def rtIndex (ws : List Dword) (stack : Nat) : Nat := ((List.range stack).filter fun i => (rtMask ws).testBit i).length

/-- The tokens lo to hi − 1 of a participant. -/
def rtLo (ws : List Dword) (i : Nat) : Nat := i * rtT ws / rtP ws

/-! ### The forms (R331) -/

/-- What a form will do: its writes, of which the first `rows` are rows of PLACE or COMB, whether it adds to SYNC after them,
whether it fails for those that meet RouteFail, and the rows that it reads. -/
structure RoutePlan where
  outs : List (Dword × List Piece × List (Byte × Bool))
  rows : Nat
  sync : Bool
  err : Nat
  uses : List Piece
  deriving DecidableEq, Repr

/-- An agent's accesses: its context, its privilege and its stack. -/
structure RouteCtx where
  ctx : Nat
  priv : Bool
  stack : Nat
  deriving DecidableEq, Repr

/-- Reads an array. -/
def State.rtRead (s : State) (c : RouteCtx) (a n : Nat) : Except PlanStop (List (Byte × Bool)) :=
  (s.planRanges c.ctx accEngRead c.priv c.stack 5 [(BitVec.ofNat 64 a, n)]).map fun ps => s.devRead ps.flatten

/-- The words of an array, of `n` bytes each. -/
def rtWords (n : Nat) (bs : List (Byte × Bool)) : List Nat := (elements n bs).map (·.1)

/-- The bytes of 4-byte words. -/
def rtPack (l : List Nat) : List (Byte × Bool) := elementBytes 4 (l.map fun x => (x, false))

/-- The plan of some writes: those that meet RouteFail are discarded, and the form fails with the others made (10 R259; 16
R338). DEDUCED (log entry 58). -/
def State.rtWrites (s : State) (c : RouteCtx) (l : List (Nat × List (Byte × Bool))) (rows : Nat) (sync : Bool) :
    Except PlanStop (Option RoutePlan) :=
  let rs := l.map fun x => (BitVec.ofNat 64 x.1, x.2.length)
  let cs := rs.map fun x => if x.2 = 0 then .ok [] else s.devRange c.ctx accEngWrite c.priv x.1 x.2
  let fs := cs.filterMap LaneChk.fault?
  if fs ≠ [] then .error (.faults accEngWrite fs)
  else if cs.any LaneChk.bad then .error (.fail 5)
  else
    let ok := cs.map fun k => s.routed c.stack k.got
    let outs := ((rs.zip cs).zip (l.zip ok)).map fun x => (x.1.1.1, if x.2.2 then x.1.2.got else [], x.2.1.2)
    .ok (some ⟨outs, rows, sync, if ok.all id then 0 else 3, []⟩)

/-- The CHOICE entries of a participant. -/
def State.rtChoices (s : State) (c : RouteCtx) (ws : List Dword) (lo hi : Nat) : Except PlanStop (List Nat) :=
  (s.rtRead c (rtChoice ws + 2 * lo * rtKc ws) (2 * (hi - lo) * rtKc ws)).map (rtWords 2)

/-- CNT. -/
def State.planCnt (s : State) (c : RouteCtx) (rec : Nat) (ws : List Dword) (i lo hi : Nat) : Except PlanStop (Option RoutePlan) :=
  match s.rtChoices c ws lo hi with
  | .error e => .error e
  | .ok ch =>
    let cs := (List.range (rtE ws)).map fun e => (ch.filter (· == e)).length
    match s.planRanges c.ctx accEngWrite c.priv c.stack 5 [(BitVec.ofNat 64 (rec + 120), 8)] with
    | .error e => .error e
    | .ok _ => s.rtWrites c [(rtPart ws + 4 * i * rtE ws, rtPack cs)] 0 true

/-- Sums of the counts of the participants below `n`. -/
def rtSums (E : Nat) (part : List Nat) (n : Nat) : List Nat :=
  (List.range E).map fun e => (List.range n).foldl (fun x k => x + part.getD (k * E + e) 0) 0

/-- The offsets of experts from their totals. -/
def rtOffsets (cap : Nat) : List Nat → Nat → List Nat
  | [], _ => []
  | x :: t, n => n :: rtOffsets cap t (n + min x cap)

/-- SCAN: none while SYNC is below the number of participants. -/
def State.planScan (s : State) (c : RouteCtx) (rec : Nat) (ws : List Dword) (i : Nat) :
    Except PlanStop (Option RoutePlan) :=
  match s.rtRead c (rec + 120) 8 with
  | .error e => .error e
  | .ok sy =>
    if (rtWords 8 sy).headD 0 < rtP ws then .ok none
    else
      let E := rtE ws
      match s.rtRead c (rtPart ws) (4 * rtP ws * E) with
      | .error e => .error e
      | .ok pb =>
        let part := rtWords 4 pb
        let tot := rtSums E part (rtP ws)
        let b := rtSums E part i
        let off := rtOffsets (rtC ws) tot 0
        let excess (l : List Nat) : Nat := l.foldl (fun n x => n + (x - rtC ws)) 0
        if off.any fun x => decide (0xFFFFFFFF ≤ x) then .error (.fail 6)
        else
          let row := (rtBase ws + 4 * i * (2 * E + 1), rtPack (b ++ off ++ [excess b]))
          let head :=
            if i = 0 then
              [(rtCnts ws, rtPack tot), (rtOffs ws, rtPack off), (rec + 112, rtPack [excess tot, min (excess tot) (rtDcap ws)])]
            else []
          s.rtWrites c (row :: head) 0 false

/-- What PLACE has done so far: next places, drops, INV, and the rows and drop records to write. -/
structure PlaceSt where
  n : List Nat
  d : Nat
  inv : List Nat
  rows : List (Nat × Nat)
  drops : List (Nat × List (Byte × Bool))
  deriving DecidableEq, Repr

/-- One assignment of PLACE: token t, rank r, expert e. -/
def placeOne (ws : List Dword) (off xb : List Nat) (p : PlaceSt) (x : Nat × Nat × Nat) : PlaceSt :=
  let (t, r, e) := x
  let none32 := 0xFFFFFFFF
  if rtE ws ≤ e then { p with inv := p.inv ++ [none32] }
  else
    let k := p.n.getD e 0
    let n := p.n.set e (k + 1)
    if k < rtC ws then
      { p with
        n := n
        inv := p.inv ++ [(off.getD e 0 + k) % 2 ^ 32]
        rows := p.rows ++ [(rtTok ws + t * rtRb ws, xb.getD e 0 + k * rtRb ws)] }
    else
      let rec8 := natLE (t + 2 ^ 32 * e + 2 ^ 48 * r) 8 |>.map fun b => (b, false)
      { p with
        n := n
        d := p.d + 1
        inv := p.inv ++ [none32]
        drops := if p.d < rtDcap ws then p.drops ++ [(rtDrop ws + 8 * p.d, rec8)] else p.drops }

/-- The (t, r, choice) triples of a participant, ascending. -/
def rtTriples (kc lo : Nat) (ch : List Nat) : List (Nat × Nat × Nat) :=
  ((List.range ch.length).zip ch).map fun x => (lo + x.1 / kc, x.1 % kc, x.2)

/-- The pieces of several ranges. -/
def State.rtPieces (s : State) (c : RouteCtx) (l : List (Nat × Nat)) : Except PlanStop (List (List Piece)) :=
  s.planRanges c.ctx accEngRead c.priv c.stack 5 (l.map fun x => (BitVec.ofNat 64 x.1, x.2))

/-- Reads of several ranges. -/
def State.rtReads (s : State) (c : RouteCtx) (l : List (Nat × Nat)) : Except PlanStop (List (List (Byte × Bool))) :=
  (s.rtPieces c l).map fun ps => ps.map s.devRead

/-- A plan that reads some rows besides. -/
def usesRows (ps : List (List Piece)) (p : Except PlanStop (Option RoutePlan)) : Except PlanStop (Option RoutePlan) :=
  p.map fun o => o.map fun p => { p with uses := ps.flatten }

/-- PLACE. -/
def State.planPlace (s : State) (c : RouteCtx) (ws : List Dword) (i lo hi : Nat) : Except PlanStop (Option RoutePlan) :=
  let E := rtE ws
  match s.rtReads c [(rtChoice ws + 2 * lo * rtKc ws, 2 * (hi - lo) * rtKc ws), (rtBase ws + 4 * i * (2 * E + 1), 4 * (2 * E + 1)),
      (rtXbuf ws, 8 * E)] with
  | .error e => .error e
  | .ok rs =>
    let row := rtWords 4 (rs.getD 1 [])
    let xb := rtWords 8 (rs.getD 2 [])
    if xb.any fun a => a % 16 != 0 then .error (.fail 6) else
    let p := (rtTriples (rtKc ws) lo (rtWords 2 (rs.getD 0 []))).foldl
      (placeOne ws ((row.drop E).take E) xb) ⟨row.take E, row.getD (2 * E) 0, [], [], []⟩
    match s.rtPieces c (p.rows.map fun x => (x.1, rtRb ws)) with
    | .error e => .error e
    | .ok ps =>
      let data := ps.map s.devRead
      usesRows ps <| s.rtWrites c ((p.rows.zip data).map (fun x => (x.1.2, x.2)) ++ p.drops ++
        [(rtInv ws + 4 * lo * rtKc ws, rtPack p.inv)]) p.rows.length false

/-- FMUL .rn of two words. -/
def mulF32 (x y : Nat) : Nat := (fprod fp32 .rne (f32 (BitVec.ofNat 32 x)) (f32 (BitVec.ofNat 32 y))).1

/-- One rank added to the elements of a token's row; none for Empty. -/
def combRank (w : Nat × Bool) (row : List (Nat × Bool)) (y : List (Option (Nat × Bool))) : List (Option (Nat × Bool)) :=
  (y.zip row).map fun x =>
    let p := mulF32 w.1 x.2.1
    let bad := x.2.2 || w.2
    match x.1 with
    | none => some (p, bad)
    | some z => some ((addF32 (BitVec.ofNat 32 z.1) (BitVec.ofNat 32 p)).toNat, z.2 || bad)

/-- COMB. -/
def State.planComb (s : State) (c : RouteCtx) (ws : List Dword) (i lo hi : Nat) : Except PlanStop (Option RoutePlan) :=
  let E := rtE ws
  let kc := rtKc ws
  let nh := rtRb ws / 4
  match s.rtReads c [(rtChoice ws + 2 * lo * kc, 2 * (hi - lo) * kc), (rtBase ws + 4 * i * (2 * E + 1), 4 * (2 * E + 1)),
      (rtXbuf ws, 8 * E), (rtInv ws + 4 * lo * kc, 4 * (hi - lo) * kc), (rtWgt ws + 4 * lo * kc, 4 * (hi - lo) * kc)] with
  | .error e => .error e
  | .ok rs =>
    let ch := rtWords 2 (rs.getD 0 [])
    let off := ((rtWords 4 (rs.getD 1 [])).drop E).take E
    let xb := rtWords 8 (rs.getD 2 [])
    if xb.any fun a => a % 16 != 0 then .error (.fail 6) else
    let inv := rtWords 4 (rs.getD 3 [])
    let wgt := elements 4 (rs.getD 4 [])
    let use (x : Nat) : Bool := inv.getD x 0 != 0xFFFFFFFF && decide (ch.getD x 0 < E)
    let place (x : Nat) : Nat :=
      ((xb.getD (ch.getD x 0) 0 : Int) + ((inv.getD x 0 : Int) - off.getD (ch.getD x 0) 0) * rtRb ws).toNat % 2 ^ 64
    let xs := (List.range (kc * (hi - lo))).filter use
    match s.rtPieces c (xs.map fun x => (place x, rtRb ws)) with
    | .error e => .error e
    | .ok ps =>
      let data := ps.map s.devRead
      let rows := xs.zip (data.map (elements 4))
      let outRow (t : Nat) : List (Byte × Bool) :=
        let y := (List.range kc).foldl (fun y r =>
          match rows.find? fun z => z.1 == t * kc + r with
          | none => y
          | some z => combRank (wgt.getD z.1 (0, false)) z.2 y) (List.replicate nh (none : Option (Nat × Bool)))
        elementBytes 4 (y.map fun z => z.getD (0, false))
      usesRows ps <| s.rtWrites c ((List.range (hi - lo)).map fun t => (rtOuta ws + (lo + t) * rtRb ws, outRow t)) (hi - lo) false

/-- The plan of a form: 0 CNT, 1 SCAN, 2 PLACE, 3 COMB; none while it waits. -/
def State.planRoute (s : State) (c : RouteCtx) (form rec : Nat) (ws : List Dword) : Except PlanStop (Option RoutePlan) :=
  if !routeOk ws c.stack then .error (.fail 6)
  else
    let i := rtIndex ws c.stack
    let lo := rtLo ws i
    let hi := rtLo ws (i + 1)
    match form with
    | 0 => s.planCnt c rec ws i lo hi
    | 1 => s.planScan c rec ws i
    | 2 => s.planPlace c ws i lo hi
    | _ => s.planComb c ws i lo hi

/-! ### Jobs (R330, R334) -/

/-- Changes a route job. -/
def State.onJob (s : State) (id : Nat) (f : RouteJob → RouteJob) : State :=
  { s with routeJobs := modifyFirst (fun j => j.id == id) f s.routeJobs }

/-- A job leaves its slot. -/
def State.dropJob (s : State) (id : Nat) : State := { s with routeJobs := s.routeJobs.filter fun j => j.id != id }

/-- A slot of a stack's route engine is free. -/
def State.slotFree (s : State) (stack : Nat) : Bool := decide ((s.routeJobs.filter fun j => j.stack == stack).length < 4)

/-- How far a form has come: it waits, it has failed, or its writes have been performed, with their poison. -/
inductive FormEnd where
  | waits (s : State)
  | failed (s : State) (err : Nat)
  | done (s : State) (first : Option Nat) (n : Nat)

/-- Writes some outputs of a form. -/
def State.putRoute (s : State) (j : RouteJob) (job : Nat) (full : Bool) (outs : List (Dword × List Piece × List (Byte × Bool))) :
    State :=
  outs.foldl (fun s o => s.devPut .t (srcRoute j.stack) job (s.ctxFn j.ctx) full o.2.1 o.2.2) s

/-- The writes of a form, the rows of PLACE and COMB with their full bits (R331; 09 R230), and its addition to SYNC. -/
def State.runRoute (s : State) (j : RouteJob) (job : Nat) (priv : Bool) (p : RoutePlan) : FormEnd :=
  let s := s.touchAll (p.uses ++ p.outs.flatMap (·.2.1))
  let id := j.eng.getD (job - 1)
  let start := s.uid
  let s := (s.putRoute j job true (p.outs.take p.rows)).putRoute j job false (p.outs.drop p.rows)
  let s := s.wrote id start
  let done := p.outs.filter fun o => !o.2.1.isEmpty
  let first := done.findSome? fun o => (o.2.2.findIdx? (·.2)).map fun i => (o.1.toNat + i) % 2 ^ 40
  let n := done.foldl (fun n o => n + (o.2.2.filter (·.2)).length) 0
  if p.err ≠ 0 then .failed s p.err
  else if p.sync then
    match s.addCounter j.ctx priv .t j.stack (agentRel (srcRoute j.stack) 8 (s.jobView (id + 1))) (j.record + 120) 1 with
    | .done s => .done s first n
    | _ => .failed s 5
  else .done s first n

/-- Runs the form that a job has reached; its record is read once when the form begins (R330). -/
def State.runForm (s : State) (j : RouteJob) (job form : Nat) : FormEnd :=
  let priv := s.ctxSup j.ctx
  let stop (e : PlanStop) (s : State) : FormEnd :=
    match e with
    | .fail e => .failed s e
    | .faults acc l =>
      let x := s.raiseAll j.ctx acc l
      .waits (x.1.onJob j.id fun j => { j with aw := ⟨x.2, false⟩ })
  if j.aw.reqs.any s.outstanding then .waits s
  else if j.aw.dead then .failed s 2
  else if j.record.toNat % 128 ≠ 0 then .failed s 6
  else
    let rec? : Except PlanStop (List Dword) :=
      if j.words.isEmpty then s.planRecord j.ctx priv j.stack 5 j.record 16 else .ok j.words
    match rec? with
    | .error e => stop e s
    | .ok ws =>
      let s := s.onJob j.id fun j => { j with words := ws }
      match s.planRoute ⟨j.ctx, priv, j.stack⟩ form j.record.toNat ws with
      | .error e => stop e s
      | .ok none => .waits s
      | .ok (some p) => s.runRoute j job priv p

/-- A route card's job: one form of it, or the end of the job (R334). -/
def State.runCardJob (s : State) (j : RouteJob) (card : Nat) : State :=
  let endCard (s : State) (err : Nat) : State :=
    let f (c : Card) : Card := { c with work := false, err := err }
    { (s.dropJob j.id) with cards := modifyFirst (fun c => c.id == card) f s.cards }
  match j.forms with
  | [] => endCard s 0
  | form :: rest =>
    match s.runForm j (card + 1) form with
    | .waits s => s
    | .failed s e => endCard (s.engineError j.ctx (srcRoute j.stack) e 0 (s.cardVa card)) e
    | .done s first n =>
      let f (c : Card) : Card := { c with poff := c.poff.or first, pbytes := c.pbytes + n }
      let s := { s with cards := modifyFirst (fun c => c.id == card) f s.cards }
      if rest.isEmpty then endCard s 0
      else s.onJob j.id fun j => { j with forms := rest, words := [], aw := noWait }

/-! ### Completion (R319 to R326) -/

/-- The form of a route instruction. -/
def routeFormOf : Instr → Option Nat
  | .routeCnt .. => some 0
  | .routeScan .. => some 1
  | .routePlace .. => some 2
  | .routeComb .. => some 3
  | _ => none

/-- ROUTE.CNT, .SCAN, .PLACE, .COMB in an engine program: each waits for a slot and then runs (R330, R331). -/
def execRouteCnt (h : Head) (r : Src) (ctr : Option EngCtr) (s : State) : Host.Outcome State Fault Refusal :=
  effect h s fun u g act => s.startEngine u g h (.routeCnt h r ctr) act (enginePair s u g r) ctr []
def execRouteScan (h : Head) (r : Src) (ctr : Option EngCtr) (s : State) : Host.Outcome State Fault Refusal :=
  effect h s fun u g act => s.startEngine u g h (.routeScan h r ctr) act (enginePair s u g r) ctr []
def execRoutePlace (h : Head) (r : Src) (ctr : Option EngCtr) (s : State) : Host.Outcome State Fault Refusal :=
  effect h s fun u g act => s.startEngine u g h (.routePlace h r ctr) act (enginePair s u g r) ctr []
def execRouteComb (h : Head) (r : Src) (ctr : Option EngCtr) (s : State) : Host.Outcome State Fault Refusal :=
  effect h s fun u g act => s.startEngine u g h (.routeComb h r ctr) act (enginePair s u g r) ctr []

/-- A route instruction in its slot. -/
def State.runEngineRoute (s : State) (ctx : Nat) (priv : Bool) (stack : Nat) (w : EngAsync) (form : Nat) (j : RouteJob) :
    State :=
  match s.runForm j ((s.engineSt stack).card + 1) form with
  | .waits s => s
  | .failed s e => (s.dropJob j.id).failWork ctx priv stack w (srcRoute stack) e
  | .done s first n => ((s.dropJob j.id).enginePoison stack first n).closeWork ctx priv stack w ⟨stack, 0, 1, none, 0⟩ false

/-- The plan of an instruction other than the route forms and ESIG. -/
def State.planWork (s : State) (ctx : Nat) (priv : Bool) (stack : Nat) (w : EngAsync) : Except PlanStop EnginePlan :=
  match w.ins with
  | .ereduce _ ty d mask _ => s.planReduce ctx priv stack w ty d mask
  | .ebcast _ q mask _ => s.planSpread ctx priv stack w q.toNat (maskStreams mask)
  | .ecopy _ d q _ => s.planSpread ctx priv stack w q.toNat [d.toNat]
  | .egemv _ bf _ _ => s.planGemv ctx priv stack bf w.words
  | _ => .ok ⟨[], 0, []⟩

/-- What EGEMV has still to read of its records (R327): nothing for another instruction. -/
def State.workRead (s : State) (ctx : Nat) (priv : Bool) (stack : Nat) (w : EngAsync) : List Dword × Option PlanStop :=
  match w.ins with
  | .egemv .. => s.gemvRead ctx priv stack w.arg w.words
  | _ => ([], none)

/-- An instruction fails, or waits for the page requests of its faults (R321). -/
def State.stopWork (s : State) (ctx : Nat) (priv : Bool) (stack : Nat) (w : EngAsync) (e : PlanStop) : State :=
  match e with
  | .fail e => s.failWork ctx priv stack w (srcWeir stack) e
  | .faults acc l =>
    let x := s.raiseAll ctx acc l
    x.1.onWork stack w.id fun w => { w with aw := ⟨x.2, false⟩ }

/-- Completes an instruction, or lets it wait. -/
def State.runWork (s : State) (ctx : Nat) (priv : Bool) (stack : Nat) (w : EngAsync) : State :=
  match w.fin with
  | some f => s.closeWork ctx priv stack w f w.aw.dead
  | none =>
    match w.ins with
    | .esig _ code _ =>
      if ((s.engineSt stack).work.head?).map (·.id) = some w.id then
        (s.logCtx ctx (srcWeir stack) 0x0A (w.arg.toNat + 2 ^ 64 * code.toNat)).dropWork stack w.id w.tok
      else s
    | _ =>
      match routeFormOf w.ins with
      | some form =>
        match s.routeJobs.find? fun j => j.eng == some w.id with
        | some j => s.runEngineRoute ctx priv stack w form j
        | none =>
          if s.slotFree stack then
            let j : RouteJob := ⟨s.uid, stack, ctx, w.arg, [form], [], none, some w.id, noWait⟩
            let s := { s.fresh with routeJobs := s.routeJobs ++ [j] }
            s.runEngineRoute ctx priv stack w form j
          else s
      | none =>
        if w.aw.dead then s.failWork ctx priv stack w (srcWeir stack) 2
        else
          let x := s.workRead ctx priv stack w
          let s := s.onWork stack w.id fun k => { k with words := x.1 }
          match x.2 with
          | some e => s.stopWork ctx priv stack w e
          | none =>
            match s.planWork ctx priv stack { w with words := x.1 } with
            | .ok p =>
              (s.runEngine ctx stack (s.engineSt stack).card w.id p).closeWork ctx priv stack w
                ⟨stack, 0, BitVec.ofNat 64 p.count, none, 0⟩ false
            | .error e => s.stopWork ctx priv stack w e

/-- ENGINE_ASYNC_COMPLETE: an asynchronous instruction of the stack's program, or the job of a route card, is performed: its
writes and then its addition (R319 to R334). -/
def execEngineAsyncComplete (stack k : Nat) (s : State) : Host.Outcome State Fault Refusal :=
  match (s.engineSt stack).work.find? fun w => w.id == k with
  | some w =>
    if w.aw.reqs.any s.outstanding then .next s
    else
      match s.group? (engineUnit stack) with
      | some g => .next (s.runWork g.ctx (s.ctxSup g.ctx) stack w).drawn
      | none => .next s
  | none =>
    match s.routeJobs.find? fun j => j.id == k && j.stack == stack with
    | none => .next s
    | some j =>
      match j.card with
      | some c => .next (s.runCardJob j c).drawn
      | none => .next s

end Sys2Proof.Machine
end

