-- ==== Sys2Proof/Machine/Cards.lean ====
section
/-! DEFINITION. Job cards after FORK (spec 02 R47 to R49; 14 R314 to R321): the start of a list, the end of an engine
program, and the close of a card. -/

namespace Sys2Proof.Machine

/-! ### Units (R314) -/

/-- The units that a list needs: 1 a stack's weir engine, 3 a slot of its route engine. -/
def needOf (l : List Card) : List (Nat × Nat) :=
  l.filterMap fun c => if cardKind c.words = 1 ∨ cardKind c.words = 3 then some (cardKind c.words, cardStack c.words) else none

/-- Free units of a kind on a stack. -/
def State.unitsFree (s : State) (x : Nat × Nat) : Nat :=
  if x.1 = 1 then (if (aget s.engines x.2).isSome then 0 else 1)
  else 4 - (s.routeJobs.filter fun j => j.stack == x.2).length

/-- The units of a list that are not free. -/
def State.shortOf (s : State) (l : List Card) : List (Nat × Nat) :=
  let need := needOf l
  need.filter fun x => decide (s.unitsFree x < (need.filter fun y => y == x).length)

/-- Every edge of a list's cards is satisfied (02 R49). -/
def State.edgesDone (s : State) (l : List Card) : Bool := l.all fun c => c.deps.all fun d => s.cards.all fun x => x.id != d

/-- The cards of a list. -/
def State.listOf (s : State) (k : Nat) : List Card := s.cards.filter fun c => c.list == k

/-- The earlier lists whose edges are satisfied and which have not started, in order of acceptance. -/
def State.listsBefore (s : State) (k : Nat) : List Nat :=
  (((s.cards.filter fun c => decide (c.list < k) && !c.running).map (·.list)).eraseDups).filter fun j => s.edgesDone (s.listOf j)

/-- No card of a list waits for a page request. -/
def State.listFree (s : State) (k : Nat) : Bool := (s.listOf k).all fun c => !c.aw.reqs.any s.outstanding

/-- The units for which an earlier list waits: those that it lacks, or all of them while it waits for the write of its STATE. -/
def State.heldUnits (s : State) (k : Nat) : List (Nat × Nat) :=
  (s.listsBefore k).flatMap fun j => if s.listFree j then s.shortOf (s.listOf j) else needOf (s.listOf j)

/-- A list's edges are satisfied, its units are free, and no earlier list waits for one of them. -/
def State.listCan (s : State) (k : Nat) : Bool :=
  let l := s.listOf k
  !l.isEmpty && (l.all fun c => !c.running) && s.edgesDone l && s.listFree k && (s.shortOf l).isEmpty &&
  (needOf l).all fun x => !(s.heldUnits k).elem x

/-- A list may start: in order of acceptance, as far as edges and units allow (R314). -/
def State.listReady (s : State) (k : Nat) : Bool := s.listCan k && (s.listsBefore k).all fun j => !s.listCan j

/-! ### Starting (R318; 11 R272) -/

/-- The program of a weir card (R318). -/
def weirGroup (c : Card) (id stack : Nat) : Group :=
  let g : Group :=
    { blankGroup with
      uid := id
      ctx := c.ctx
      sr := 63
      wids := [0]
      pc := [(0, cardProg c.words)]
      region := ⟨[(0, cardProg c.words)], 0, false⟩
      engine := some stack }
  let a1 := cardArg1 c.words
  let a2 := cardArg2 c.words
  let g := ((g.setS 0 (lowWord c.va)).setS 1 (highWord c.va)).setS 2 (BitVec.ofNat 32 (cardArg0 c.words))
  let g := (((g.setS 4 (lowWord a1)).setS 5 (highWord a1)).setS 6 (lowWord a2)).setS 7 (highWord a2)
  g.setS 8 (BitVec.ofNat 32 stack)

/-- The request of a copy card (11 R272). -/
def copyOfCard (c : Card) (priv : Bool) : CopyReq :=
  let arg0 := cardArg0 c.words
  let a1 := cardArg1 c.words
  let a2 := cardArg2 c.words
  let o2 : BitVec 32 := (BitVec.ofNat 28 arg0).signExtend 32
  let tile := arg0 / 2 ^ 28 ≠ 0
  { id := 0
    ctx := c.ctx
    core := c.core
    record := if tile then some (cardProg c.words) else none
    out := arg0 / 2 ^ 28 == 2
    origin := if tile then [lowWord a1, highWord a1, o2, 0, 0] else []
    img := .va (if tile then a2 else a1)
    src := cardProg c.words
    len := a2
    mask := false
    handle := none
    ctr := none
    scope := BitVec.ofNat 4 (cardScope c.words)
    card := some c.id
    priv := priv
    rels := c.rels
    words := []
    place := none
    fin := none
    aw := noWait }

/-- Starts the work of a card. -/
def State.startCard (s : State) (c : Card) : State :=
  let stack := cardStack c.words
  match cardKind c.words with
  | 1 =>
    let v := (s.jobView (c.id + 1)).join (handedTo (agent (srcWeir stack)) c.rels)
    let g := { weirGroup c s.uid stack with view := v, viewU := v }
    let s := (s.fresh).putGroup (engineUnit stack) g
    { s with engines := aput s.engines stack ⟨c.id, [], [], 0, none, 0⟩ }
  | 2 => s.addCopy (copyOfCard c (s.ctxSup c.ctx))
  | 3 =>
    let s := s.putView (c.id + 1) ((s.jobView (c.id + 1)).join (handedTo (agent (srcRoute stack)) c.rels))
    let j : RouteJob :=
      ⟨s.uid, stack, c.ctx, cardProg c.words, if cardArg0 c.words % 4 = 0 then [0, 1, 2] else [3], [], some c.id, none, noWait⟩
    { s.fresh with routeJobs := s.routeJobs ++ [j] }
  | _ =>
    s.addTier c.rels ⟨0, (s.partOfCtx c.ctx).getD 8, c.ctx, cardProg c.words, tierKindOf (cardArg0 c.words % 4), none,
      BitVec.ofNat 4 (cardScope c.words), some c.id, s.ctxSup c.ctx, none, 0, none, noWait⟩

/-- Marks a list's cards as running. -/
def State.markRunning (s : State) (k : Nat) : State :=
  let f (c : Card) : Card := if c.list = k then { c with running := true, work := true, aw := noWait } else c
  { s with cards := s.cards.map f }

/-- A card waits for page requests. -/
def State.cardWaits (s : State) (id : Nat) (reqs : List Nat) : State :=
  let f (c : Card) : Card := { c with aw := ⟨reqs, false⟩ }
  { s with cards := modifyFirst (fun c => c.id == id) f s.cards }

/-- The cards of a list whose word of STATE faults in translation, with the fault; a cancelled one is over. -/
def State.stateFaults (s : State) (l : List Card) : List (Card × (Nat × Nat × Nat × Nat)) :=
  l.filterMap fun c =>
    if c.aw.dead then none else (s.devRange c.ctx accEngWrite (s.ctxSup c.ctx) (c.va + 48) 8).fault?.map fun f => (c, f)

/-- CARD_LIST_START: a list whose edges are satisfied and whose units are free starts whole (R314). It waits for the requests
that the writes of its STATE raise. -/
def execCardListStart (k : Nat) (s : State) : Host.Outcome State Fault Refusal :=
  if !s.listReady k then .next s
  else
    let l := s.listOf k
    let fs := s.stateFaults l
    if fs ≠ [] then
      .next (fs.foldl (fun s x =>
        let r := s.raiseAll x.1.ctx accEngWrite [x.2]
        r.1.cardWaits x.1.id r.2) s).drawn
    else
      let s := l.foldl (fun s c => s.cardState c.ctx c.core [] c.va 2 0 0) s
      .next (l.foldl State.startCard (s.markRunning k)).drawn

/-! ### Closing (R320) -/

/-- The outcome of a card's work: its failure, and its poison; none while the work goes on. -/
def State.cardEnd (s : State) (c : Card) : Option (Nat × Option Nat × Nat) :=
  if cardKind c.words = 1 then
    let stack := cardStack c.words
    let e := s.engineSt stack
    match s.group? (engineUnit stack) with
    | some g =>
      if g.wait = .exit ∧ e.card = c.id ∧ e.work.isEmpty = true ∧ g.taking = none then some (e.err, e.poff, e.pbytes) else none
    | none => none
  else if c.running && !c.work then some (c.err, c.poff, c.pbytes)
  else none

/-- The agent that performs a card. -/
def State.cardSrc (s : State) (c : Card) : Nat :=
  match cardKind c.words with
  | 1 => srcWeir (cardStack c.words)
  | 2 => srcCopy 0 c.place
  | 3 => srcRoute (cardStack c.words)
  | _ => srcMigration ((s.partOfCtx c.ctx).getD 8)

/-- What a card's release carries beside its own writes: all of its program, or of the cards before it (17 R347). -/
def State.cardRel (s : State) (c : Card) : Rel :=
  let r := s.jobRel (s.cardSrc c) (cardScope c.words) (c.id + 1) c.rels
  match (if cardKind c.words = 1 then s.group? (engineUnit (cardStack c.words)) else none) with
  | some g => { r with view := r.view.join (s.viewOf g false s.uid) }
  | none => r

/-- Writes the DW fields of a card that closes: PBYTES, then POFF, ERR and STATE, a release at its SCOPE (R320). -/
def State.writeCardEnd (s : State) (c : Card) (state err : Nat) (poff : Option Nat) (pbytes : Nat) : State :=
  let s := match s.devRange c.ctx accEngWrite (s.ctxSup c.ctx) (c.va + 56) 8 with
    | .ok ps => (s.touchAll ps).devPut .d (srcCore c.core) 0 (s.ctxFn c.ctx) false ps ((natLE pbytes 8).map fun b => (b, false))
    | _ => s
  let rel := s.cardRel c
  s.cardState c.ctx c.core [{ rel with who := agent (srcCore c.core) }] c.va state err (poff.getD 0)

/-- The cards that depend on a card come after its work (02 R49; 17 R347). -/
def State.dependentsHear (s : State) (c : Card) : State :=
  let v := (s.cardRel c).view
  (s.cards.filter fun d => d.deps.elem c.id).foldl (fun s d => s.putView (d.id + 1) ((s.jobView (d.id + 1)).join v)) s

/-- A card leaves, and its engine with it. -/
def State.dropCard (s : State) (c : Card) : State :=
  let s := s.dependentsHear c
  let s := { s with cards := s.cards.filter fun x => x.id != c.id }
  if cardKind c.words = 1 then
    let k := cardStack c.words
    { s with engines := adel s.engines k, groups := adel s.groups (engineUnit k) }
  else s

/-- The record of a card whose addition could not be made (R321; 11 R271). -/
def State.lostCard (s : State) (c : Card) : State :=
  match cardKind c.words with
  | 1 | 3 => s.engineError c.ctx (s.cardSrc c) 11 0 c.va
  | 2 => s.copyError c.ctx c.place (cardProg c.words) 11 (cardCtr c.words)
  | _ => s

/-- STATE of a card that closes (R320). -/
def finalState (err pbytes : Nat) : Nat := if err ≠ 0 then 5 else if pbytes ≠ 0 then 4 else 3

/-- ERR of a card whose addition was discarded: 11 for a copy or tier card, and for another where nothing failed before
(R321; 11 R271). -/
def lostErr (c : Card) (err : Nat) : Nat := if cardKind c.words % 2 = 0 ∨ err = 0 then 11 else err

/-- Changes a card. -/
def State.onCard (s : State) (id : Nat) (f : Card → Card) : State :=
  { s with cards := modifyFirst (fun c => c.id == id) f s.cards }

/-- The last writes of a card whose addition is over, with its ERR: they wait for the requests that they raise; where one is
cancelled they are discarded (R320). -/
def State.closeCard (s : State) (c : Card) (err : Nat) (poff : Option Nat) (pbytes : Nat) : State :=
  if c.aw.dead then s.dropCard c
  else
    match (s.devRange c.ctx accEngWrite (s.ctxSup c.ctx) (c.va + 48) 16).fault? with
    | some f =>
      let x := s.raiseAll c.ctx accEngWrite [f]
      x.1.cardWaits c.id x.2
    | none => (s.writeCardEnd c (finalState err pbytes) err poff pbytes).dropCard c

/-- A rejected card's counter is tried again once its requests are resolved (R313). -/
def State.closeOwed (s : State) (k : Nat) : State :=
  match s.owed.find? fun x => x.id == k with
  | none => s
  | some x =>
    if x.aw.reqs.any s.outstanding then s
    else (State.payOwed { s with owed := s.owed.filter fun y => y.id != k } x).drawn

/-- CARD_CLOSE: a card whose work has ended adds to its counter, then writes ERR, POFF, PBYTES and STATE (R320). Each waits
for the requests that it raises; where one is cancelled the addition, or the writes, are discarded. -/
def execCardClose (k : Nat) (s : State) : Host.Outcome State Fault Refusal :=
  match s.cards.find? fun c => c.id == k with
  | none => .next (s.closeOwed k)
  | some c =>
    match s.cardEnd c with
    | none => .next s
    | some (err, poff, pbytes) =>
      if c.aw.reqs.any s.outstanding then .next s
      else
        match c.fin with
        | some e => .next (s.closeCard c e poff pbytes).drawn
        | none =>
          let n := if err = 0 then c.inc else failCount
          let stack := if cardKind c.words = 2 then c.place / 6 else cardStack c.words
          let ended (s : State) (e : Nat) : State :=
            let f (c : Card) : Card := { c with fin := some e, aw := noWait }
            (s.onCard k f).closeCard (f c) e poff pbytes
          match s.endCounter c.ctx (s.ctxSup c.ctx) .t stack (s.cardRel c) (cardCtr c.words) n c.aw.dead with
          | .waits s reqs => .next (s.cardWaits k reqs).drawn
          | .added s => .next (ended s err).drawn
          | .lost s => .next (ended (s.lostCard c) (lostErr c err)).drawn

/-! ### Traps of an engine program (R321) -/

/-- ERR for a trap: fetch and illegal 1, a cancelled request 2, RouteFail 3, alignment 4, a physical address 5, any other
8. -/
def trapErr (s : State) (r : TrapRec) : Nat :=
  if r.cause = causeFetch ∨ r.cause = causeIllegal then 1
  else if r.cause = causeCancel then 2
  else if r.cause = causeAlign then 4
  else if r.cause = causePhys then (if r.info.getLsbD 63 && !s.isHere r.info then 3 else 5)
  else 8

/-- ENGINE_TRAP: a trap ends the program of a stack's engine; its asynchronous instructions complete, and the card closes
with the first failure (R321). -/
def execEngineTrap (stack : Nat) (s : State) : Host.Outcome State Fault Refusal :=
  let u := engineUnit stack
  match s.group? u with
  | none => .next s
  | some g =>
    match g.taking with
    | none => .next s
    | some r =>
      let toks := (s.engineSt stack).work.filterMap (·.tok)
      let g := { g with taking := none, late := none, clause := none, wait := .exit, pc := [],
                        pend := g.pend.filter fun p => toks.elem p.tok }
      .next ((s.putGroup u g).engineErr stack (trapErr s r)).drawn

end Sys2Proof.Machine
end

