-- ==== Sys2Proof/Machine/Bilael.lean ====
section
/-! DEFINITION. Bilael and the host (spec 24 R428 to R436; 21 R400; 23 R422; 01 R27; 03 R56): errors, the boot, the mailbox
commands, a die's power, and the host's writes. -/

namespace Sys2Proof.Machine

/-! ### Errors (21 R400; 24 R436) -/

/-- The die of a structure that an error strikes; none for HBM. -/
def State.siteDie (s : State) : EccSite → Option Nat
  | .memory pa => (basinOf pa).map (·.1)
  | .operandBuffer cell _ => ((s.cell? cell).bind (·.core)).map (· / 48)
  | .accumulator u _ => some (unitDie u)
  | .group u => some (unitDie u)
  | .cache d => some d

/-- Counts an error of a site: in the partition of its die, or in every open one (24 R436). -/
def State.countSite (s : State) (i : Nat) (site : EccSite) : State :=
  match s.siteDie site with
  | none => s.countAll i 1
  | some d =>
    match s.partOfDie d with
    | some p => s.countErr p i 1
    | none => s

/-- ECC_CORRECTABLE: corrected and counted. -/
def execEccCorrectable (site : EccSite) (s : State) : Host.Outcome State Fault Refusal := .next (s.countSite 0 site)

/-- ECC_UNCORRECTABLE: a granule of memory or of an operand buffer, or an accumulator cell, is poisoned; a group whose own
state is struck ends with trap 28. -/
def execEccUncorrectable (site : EccSite) (s : State) : Host.Outcome State Fault Refusal :=
  match site with
  | .memory pa => .next ((s.setPoison (granule pa) true).countSite 1 site)
  | .operandBuffer cell g =>
    .next ((s.onCell cell fun c => { c with sharePoison := sput c.sharePoison g }).countSite 1 site)
  | .accumulator u k =>
    match s.group? u with
    | some g => .next ((s.putGroup u { g with accPoison := sput g.accPoison k }).countSite 1 site)
    | none => .next s
  | .group u =>
    match s.group? u with
    | some g => .next (s.takeTrap u ⟨causeState, g.clauseAddr, g.clauseIdx, 0, g.headRun⟩)
    | none => .next s
  | .cache _ => .next (s.countSite 1 site)

/-- One granule that the patrol scrub reads: whether it finds an error there, and which, is free. -/
def State.scrubGranule (s : State) (g : Nat) : State :=
  if Config.pick s.draw (2 * g) then
    (((s.setPoison g true).countAll 1 1).logAll srcBilael 0x0F (16 * g)).drawn
  else if Config.pick s.draw (2 * g + 1) then (s.countAll 0 1).drawn
  else s.drawn

/-- PATROL_SCRUB: a line of HBM is read, corrected and rewritten; a granule that cannot be corrected is poisoned and
reported (21 R400). With INTERVAL 0 there is no scrub. -/
def execPatrolScrub (pa : Nat) (s : State) : Host.Outcome State Fault Refusal :=
  if bits (s.reg .patrol) 31 0 = 0 ∨ inHbm pa = false then .next s
  else .next ((List.range 8).foldl (fun s i => s.scrubGranule (pa / 128 * 8 + i)) s)

/-- TIMER_DISCIPLINE_LOST: Bilael's record; the timer keeps running (23 R422). -/
def execTimerDisciplineLost (s : State) : Host.Outcome State Fault Refusal := .next (s.logAll srcBilael 0x11 (s.now % 2 ^ 64))

/-! ### Boot (24 R429 to R431) -/

/-- A little-endian field of an image, and a run of its bytes. -/
def imgField (img : List Byte) (o n : Nat) : Nat := leNat ((img.drop o).take n)
def imgRun (img : List Byte) (o n : Nat) : List Byte := (img.drop o).take n

def imgLen (img : List Byte) : Nat := imgField img 16 8
def imgSvn (img : List Byte) : Nat := imgField img 8 4
def imgVersion (img : List Byte) : Nat := imgField img 4 4

/-- D. -/
def imgDigest (img : List Byte) : BitVec 384 := sha384 (img.take (512 + imgLen img))

/-- Bytes of an image. -/
def imgTotal (img : List Byte) : Nat := 512 + imgLen img + 384 + 16224

/-- The checks of R430. -/
def firmwareOk (img : List Byte) : Bool :=
  let n := imgLen img
  imgField img 0 4 == 0x5A4B4657 && imgVersion img == 1 && imgField img 12 4 == 0 && n % 16 == 0 && decide (n ≤ 0x4000000) &&
  imgField img 456 56 == 0 && decide (imgTotal img ≤ img.length) && decide (Config.fusedSvn.toNat ≤ imgSvn img) &&
  sha384 (imgRun img 24 384) == Config.fusedRsa && sha384 (imgRun img 408 48) == Config.fusedSlh &&
  rsaVerify (imgRun img 24 384) (imgDigest img) (imgRun img (512 + n) 384) &&
  slhVerify (imgRun img 408 48) (imgDigest img) (imgRun img (896 + n) 16224)

/-- The ROM verifies the flash image and measures it before firmware runs (R430, R431); in safe mode none runs (R428). -/
def State.boot (s : State) : State :=
  if firmwareOk s.flash && !s.safeMode then { s.extendMr 0 (imgDigest s.flash) with fwUp := true }
  else { s with fwUp := false }

/-- What firmware does of itself: once HMAP is written it extends MR1, which has not been, with the digest of STRAPS and
every die's HMAP; it extends MR3 to MR7 (R431); and it writes memory (01 R25). -/
def State.turnFirmware (s : State) (a : FirmAct) : State :=
  if !s.fwRuns then s
  else
    match a with
    | .measure =>
      if agetD 0 s.mr 1 = 0 then s.extendMr 1 (sha384 (s.regBytes (Reg.straps :: (List.range 8).map Reg.hmap))) else s
    | .extend i d => if 3 ≤ i ∧ i ≤ 7 then s.extendMr i d else s
    | .store pa data =>
      if s.physOk pa data.length = true ∧ inRegs pa = false then s.performWrite .d srcBilael 0 (dataOf pa data) [] [] else s

/-- Bilael sets the timer once, before any partition opens, and from then on changes its rate alone, by at most 200 ppm
(23 R422). -/
def State.turnTimer (s : State) : TimerAct → State
  | .set ns =>
    if s.timerSet then s
    else
      { s with
        now := ns
        timerSet := true
        clusters := s.clusters.map fun x => (x.1, { x.2 with window := ns / 32 * 32 }) }
  | .rate d => if 999800 ≤ d ∧ d ≤ 1000200 then { s with drift := d } else s

/-- The links and attachments that the next training will find at fault (R428): below 48 by their place in `stackLinks`, below 80
in `attachments` after them, and above those that STRAPS does not imply. -/
def State.turnWiring (s : State) (bad : List Nat) : State := { s with wiring := bad }

/-- The package after a reset: only the module flash, the wiring, the schedule and the model's own counters are kept; what
memory holds is open: DESIGN CHOICE (log entry 23). Where training finds a link or an attachment at fault, it holds in safe
mode (R428). -/
def State.packageReset (s : State) : State :=
  let keys := List.range 8 ++ (List.range 8).map (16 + ·)
  { State.reset with
    agenda := s.agenda
    uid := s.uid + 1
    draw := s.draw + 1
    flash := s.flash
    wiring := s.wiring
    safeMode := !s.wiring.isEmpty
    blankEpoch := keys.map fun k => (k, s.uid) }

/-- PACKAGE_RESET: the state after reset, and the boot (R430). -/
def execPackageReset (s : State) : Host.Outcome State Fault Refusal := .next s.packageReset.boot

/-! ### The mailbox (R432 to R434) -/

/-- Writes bytes into BMBUF from its start. -/
def State.putBuffer (s : State) (bs : List Byte) : State :=
  (List.range ((bs.length + 7) / 8)).foldl (fun s i =>
    s.setReg (.bmbuf i) (BitVec.ofNat 64 (leNat ((bs.drop (8 * i)).take 8)))) s

/-- The first bytes of BMBUF. -/
def State.bufferBytes (s : State) (n : Nat) : List Byte :=
  (List.range n).map fun i => BitVec.ofNat 8 ((s.reg (.bmbuf (i / 8))).toNat / 2 ^ (8 * (i % 8)))

/-- Exactly `n` bytes. -/
def padTo (n : Nat) (bs : List Byte) : List Byte := (List.range n).map fun i => bs.getD i 0

/-- The fields of a report (R434). -/
def State.report (s : State) (nonce : List Byte) : List Byte :=
  nonce ++ ((List.range 8).flatMap fun i => natLE (agetD 0 s.mr i).toNat 48) ++ padTo 16 Config.serial ++
  natLE (imgVersion s.flash) 4 ++ natLE (imgSvn s.flash) 4 ++ natLE (s.reg .gident).toNat 8 ++ [if s.safeMode then 1 else 0]

/-- GETREPORT (R433, R434). -/
def execGetreport (s : State) : Host.Outcome State Fault Refusal :=
  match s.command 1 with
  | none => .next s
  | some _ =>
    let r := s.report (s.bufferBytes 48)
    let d := sha384 r
    .next ((s.putBuffer (r ++ padTo 384 (Config.identityRsa d) ++ padTo 16224 (Config.identitySlh d))).endCommand 0)

/-- LOADIMG: refused while a partition is open; else the image is verified, replaces the flash image and boots (R433). -/
def execLoadimg (pa : Nat) (s : State) : Host.Outcome State Fault Refusal :=
  match s.command 2 with
  | none => .next s
  | some a =>
    if a ≠ pa then .next s
    else if !s.openParts.isEmpty then .next (s.endCommand 1)
    else if !rangeInHbm pa 512 then .next (s.endCommand 3)
    else
      let n := imgTotal (s.bytes pa 512)
      if !rangeInHbm pa n || decide (0x4000000 < imgLen (s.bytes pa 512)) then .next (s.endCommand 3)
      else
        let img := s.bytes pa n
        if firmwareOk img then .next ((State.boot { s with flash := img }).endCommand 0) else .next (s.endCommand 3)

/-- READERR (R433, R436). -/
def execReaderr (s : State) : Host.Outcome State Fault Refusal :=
  match s.command 4 with
  | none => .next s
  | some _ =>
    let f (s : State) (k : Nat) : State :=
      s.setReg (.bmbuf k) (if s.partOpen (k / 8) then s.reg (.errcnt (k / 8) (k % 8)) else 0)
    .next (((List.range 64).foldl f s).endCommand 0)

/-- SETPATROL (R433). -/
def execSetpatrol (x : Dword) (s : State) : Host.Outcome State Fault Refusal :=
  match s.command 5 with
  | none => .next s
  | some a =>
    if a ≠ x.toNat then .next s else .next ((s.setReg .patrol (BitVec.ofNat 64 (a % 2 ^ 32))).endCommand 0)

/-- RESET (R433). -/
def execReset (s : State) : Host.Outcome State Fault Refusal :=
  match s.command 6 with
  | none => .next s
  | some _ => .next s.packageReset.boot

/-! ### A die's power (R435) -/

/-- The die and the direction of a DIEPOWER command. -/
def State.diePower (s : State) (die : Nat) (on : Bool) : Bool :=
  match s.command 3 with
  | none => false
  | some a => a.testBit 0 == on && a / 2 % 8 == die

/-- Nothing stands against powering a die down. -/
def State.mayPowerOff (s : State) (die : Nat) : Bool :=
  (s.groups.all fun x => !(decide (x.1 < 12288) && unitDie x.1 == die)) && (s.dieSlots die).isEmpty &&
  s.objects.all fun o => o.die != die || o.st == .hbm

/-- A core without its caches. -/
def CoreSt.noCaches (c : CoreSt) : CoreSt := { c with l1 := [], kcache := [], icache := [] }

/-- A die loses the contents of its basin, its directory and its caches. -/
def State.loseDie (s : State) (die : Nat) : State :=
  let b := windowBase die
  let here (a : Nat) : Bool := decide (b ≤ a) && decide (a < b + 2 ^ 28)
  { s with
    mem := s.mem.filter fun c => !here c.1
    blankEpoch := adel s.blankEpoch (16 + die)
    poison := s.poison.filter fun g => !here (16 * g)
    full := s.full.filter fun g => !here (16 * g)
    old := s.old.filter fun o => !(o.data.any fun x => here x.1)
    slots := s.slots.filter fun x => x.1 / 2 ^ 28 != die
    cores := s.cores.map fun x => (x.1, if x.1 / 48 = die then x.2.noCaches else x.2) }

/-- DIEPOWER off (R433, R435). -/
def execDiepowerOff (die : Nat) (s : State) : Host.Outcome State Fault Refusal :=
  if !s.diePower die false then .next s
  else
    let d := s.die die
    if !d.power then .next (s.endCommand 0)
    else if !s.mayPowerOff die then .next (s.endCommand 1)
    else .next (((s.loseDie die).putDie die { d with power := false }).endCommand 0)

/-- DIEPOWER on: a die in its clean state (R435). -/
def execDiepowerOn (die : Nat) (s : State) : Host.Outcome State Fault Refusal :=
  if !s.diePower die true then .next s
  else
    let d := s.die die
    if d.power then .next (s.endCommand 0)
    else .next (((s.loseDie die).putDie die { d with power := true }).endCommand 0)

/-! ### The host (01 R26, R27; 03 R56) -/

/-- The source of the host's writes: the model's own number, outside R69. -/
def srcHost : Nat := 0xF000

/-- A host write to the register space: aligned 8-byte writes alone; the agent's rights are those of `regWrite`. -/
def State.hostReg (s : State) (g : Agent) (pa : Nat) (bytes : List Byte) : State :=
  if bytes.length = 8 ∧ pa % 8 = 0 then
    match regAt pa with
    | some r => s.regWrite g r (BitVec.ofNat 64 (leNat bytes))
    | none => s
  else s

/-- The physical address at an offset of a function's BAR 0 (01 R27): the physical function's maps the register space from
its start; a virtual function's maps its own block, that of the partition it owns, and those of its contexts. -/
def State.barAddr (s : State) (g : Agent) (off : Nat) : Option Nat :=
  match g with
  | .pf => if off < 0x400000 then some (regBase + off) else none
  | .vf f =>
    if off < 0x1000 then some (regBase + 0x300000 + 0x1000 * f + off)
    else if off < 0x2000 then (s.partOfFn f).map fun p => regBase + 0x200000 + 0x1000 * p + (off - 0x1000)
    else if 0x10000 ≤ off ∧ off < 0x20000 ∧ s.ctxFn ((off - 0x10000) / 0x100) = f then some (regBase + 0x100000 + (off - 0x10000))
    else none
  | _ => none

/-- The host reaches the memory of some pieces: HBM only behind ILLOCK (01 R25). -/
def State.hostMay (s : State) (ps : List Piece) : Bool :=
  (s.reg .illock).getLsbD 0 || ps.all fun p => !inHbm p.pa

/-- HOST_WRITE: a write through a function, performed at once (03 R56): to a register by its offset in BAR 0; for the
physical function, to a physical address of memory; or to an address under a context of the function, where a register takes
it as one of the function's: DESIGN CHOICE (log entry 24). A write that faults is dropped. -/
def execHostWrite (g : Agent) (via : HostVia) (addr : Dword) (bytes : List Byte) (s : State) :
    Host.Outcome State Fault Refusal :=
  match g with
  | .fw | .bilael | .dev _ => .next s
  | .pf | .vf _ =>
    match via with
    | .bar0 =>
      match s.barAddr g addr.toNat with
      | some pa => .next (s.hostReg g pa bytes)
      | none => .next s
    | .memory =>
      let pa := addr.toNat
      if g = .pf ∧ inRegs pa = false ∧ s.physOk pa bytes.length = true ∧ s.hostMay [⟨pa, bytes.length, false, .c⟩] = true then
        .next (s.performWrite .d srcHost 0 (dataOf pa bytes) [] [])
      else .next s
    | .context k =>
      if g ≠ .pf ∧ g ≠ .vf (s.ctxFn k) then .next s
      else
        match s.devRange k accEngWrite (s.ctxSup k) addr bytes.length with
        | .ok [p] =>
          if inRegs p.pa then .next (s.hostReg g p.pa bytes)
          else if s.hostMay [p] then .next (s.devPut .d srcHost 0 (s.ctxFn k) false [p] (bytes.map fun b => (b, false)))
          else .next s
        | .ok ps =>
          if s.hostMay ps && ps.all fun p => !inRegs p.pa then
            .next (s.devPut .d srcHost 0 (s.ctxFn k) false ps (bytes.map fun b => (b, false)))
          else .next s
        | _ => .next s

end Sys2Proof.Machine
end

