-- ==== Sys2Proof/Machine/Compare.lean ====
section
/-! DEFINITION. The compare and predicate family, 0x3 (spec 06 R160 to R162). -/

namespace Sys2Proof.Machine

/-- An ordered comparison by its condition (04 R102) from the tests "less" and "equal". -/
def cmpBits (cond : BitVec 3) (lt eq : Bool) : Bool :=
  match cond.toNat with
  | 0 => eq
  | 1 => !eq
  | 2 => lt
  | 3 => lt || eq
  | 4 => !lt && !eq
  | 5 => !lt
  | _ => false

/-- ICMP's comparison (06 R160). -/
def icmpBit (cond : BitVec 3) (uns : Bool) {w : Nat} (a b : BitVec w) : Bool :=
  cmpBits cond (if uns then a.ult b else a.slt b) (a == b)

/-- FCMP's comparison (06 R160). -/
def fcmpBit (cond : BitVec 3) (a b : FVal) : Bool :=
  if a.isNan || b.isNan then cond == 1 || cond == 7
  else if cond = 6 then true
  else cmpBits cond (a.lt b) (a.eqv b)

/-- Combines a comparison with a predicate (06 R160). -/
def combine (cmb : BitVec 2) (x p : Bool) : Bool :=
  match cmb.toNat with
  | 0 => x
  | 1 => x && p
  | 2 => x || p
  | _ => x != p

/-- The predicate that combines, false in format I. -/
def cmbOf : CmpB → BitVec 2
  | .v _ c _ => c
  | .i _ => 0
def cpOf : CmpB → BitVec 3
  | .v _ _ p => p
  | .i _ => 0
/-- Operand B as an operand of format V or I. -/
def srcIOf : CmpB → SrcI
  | .v b _ _ => .src b
  | .i x => .imm x

/-- The lanes of a set in which a test holds. -/
def lanesWhere (act : Lanes) (f : Nat → Bool) : Lanes := maskOf ((lanesList act).filter f)

/-- A comparison of each active lane (06 R160). -/
def cmpForm (h : Head) (x : BodyCmp) (s : State) (f : Nat → Group → Nat → Bool) : Host.Outcome State Fault Refusal :=
  predF h x.d s fun u g act =>
    lanesWhere act fun L => combine (cmbOf x.b) (f u g L) ((g.pred (cpOf x.b)).getLsbD L)

def execIcmp (h : Head) (x : BodyCmp) (s : State) :=
  cmpForm h x s fun u g L =>
    if x.wide then icmpBit x.cond x.uns (src64 s u g L x.a) (srcI64 s u g L (srcIOf x.b))
    else icmpBit x.cond x.uns (src32 s u g L x.a) (srcI32 s u g L (srcIOf x.b))

def execFcmp (h : Head) (x : BodyCmp) (s : State) :=
  cmpForm h x s fun u g L => fcmpBit x.cond (f32 (srcF32 s u g L x.a)) (f32 (srcIF32 s u g L (srcIOf x.b)))

/-- A predicate input, inverted or not (06 R161). -/
def predIn (g : Group) (inv : Bool) (p : BitVec 3) : Lanes := if inv then ~~~(g.pred p) else g.pred p

/-- PAND, POR, PXOR (06 R161). -/
def pred2 (h : Head) (x : BodyP2) (s : State) (f : Lanes → Lanes → Lanes) : Host.Outcome State Fault Refusal :=
  predF h x.d s fun _ g _ => f (predIn g x.na x.a) (predIn g x.nb x.b)

def execPand (h : Head) (x : BodyP2) (s : State) := pred2 h x s (· &&& ·)
def execPor (h : Head) (x : BodyP2) (s : State) := pred2 h x s (· ||| ·)
def execPxor (h : Head) (x : BodyP2) (s : State) := pred2 h x s (· ^^^ ·)
def execPnot (h : Head) (x : BodyP1) (s : State) := predF h x.d s fun _ g _ => ~~~(predIn g x.na x.a)
def execPmov (h : Head) (x : BodyP1) (s : State) := predF h x.d s fun _ g _ => predIn g x.na x.a

/-- The number of lanes in a set. -/
def laneCount (m : Lanes) : Nat := (lanesList m).length

def execPcnt (h : Head) (d : BitVec 9) (a : BitVec 3) (s : State) : Host.Outcome State Fault Refusal :=
  issue h s fun u g act =>
    let n : Word := BitVec.ofNat 32 (laneCount (act &&& g.pred a))
    s.finish u (g.writeVec h d.toNat false ((lanesList act).map fun L => (L, n.setWidth 64)))

def execPany (h : Head) (d : BitVec 3) (a : BitVec 3) (s : State) :=
  predF h d s fun _ g act => if act &&& g.pred a = 0 then 0 else act
def execPall (h : Head) (d : BitVec 3) (a : BitVec 3) (s : State) :=
  predF h d s fun _ g act => if act &&& g.pred a = act then act else 0
def execLead (h : Head) (d : BitVec 3) (a : BitVec 3) (s : State) :=
  predF h d s fun _ g act =>
    let q := act &&& g.pred a
    if q = 0 then 0 else 1#64 <<< lowest q

end Sys2Proof.Machine
end

