-- ==== Sys2Proof/Machine/FloatOps.lean ====
section
/-! DEFINITION. The FP32 and packed-half families, 0x4 and 0x5 (spec 08 R191 to R204). -/

namespace Sys2Proof.Machine

/-- A value, negated or not (08 R194). -/
def negIf (n : Bool) (v : FVal) : FVal := if n then v.neg else v

/-- A code and its conditions as a result. -/
def coded (r : Nat × Word) : Dword × Word := (BitVec.ofNat 64 r.1, r.2)

/-- FADD, FSUB, FMUL (08 R195). -/
def fp2 (h : Head) (x : BodyF2I) (s : State) (f : RMode → FVal → FVal → Nat × Word) :
    Host.Outcome State Fault Refusal :=
  vecF h x.d.toNat false s fun u g L =>
    coded (f (rmode x.rm) (negIf (x.mod.getLsbD 0) (f32 (srcF32 s u g L x.a)))
      (negIf (x.mod.getLsbD 1) (f32 (srcIF32 s u g L x.b))))

def execFadd (h : Head) (x : BodyF2I) (s : State) := fp2 h x s (fsum fp32)
def execFsub (h : Head) (x : BodyF2I) (s : State) := fp2 h x s fun m a b => fsum fp32 m a b.neg
def execFmul (h : Head) (x : BodyF2I) (s : State) := fp2 h x s (fprod fp32)

def execFfma (h : Head) (x : BodyF3) (s : State) :=
  vecF h x.d.toNat false s fun u g L =>
    coded (ffused fp32 (rmode x.rm) (negIf (x.mod.getLsbD 0) (f32 (srcF32 s u g L x.a))) (f32 (srcF32 s u g L x.b))
      (negIf (x.mod.getLsbD 1) (f32 (srcF32 s u g L x.c))))

/-- FMIN, FMAX (08 R197). -/
def fminmaxForm (h : Head) (d : BitVec 9) (a : Src) (b : SrcI) (s : State) (mx : Bool) :
    Host.Outcome State Fault Refusal :=
  vecF h d.toNat false s fun u g L =>
    coded (fminmax fp32 mx (srcF32 s u g L a).toNat (srcIF32 s u g L b).toNat, 0)

def execFmin (h : Head) (d : BitVec 9) (a : Src) (b : SrcI) (s : State) := fminmaxForm h d a b s false
def execFmax (h : Head) (d : BitVec 9) (a : Src) (b : SrcI) (s : State) := fminmaxForm h d a b s true

/-- FRND (08 R198): an integral value of the sign of a. -/
def frnd (m : RMode) (v : FVal) : Nat :=
  match v with
  | .fin n x e => (roundTo fp32 .rne (.fin n (roundInt m n x e).1 0)).1
  | v => (roundTo fp32 .rne v).1

/-- A one-source FP32 form. -/
def fp1 (h : Head) (d : BitVec 9) (a : Src) (s : State) (f : Word → Dword × Word) : Host.Outcome State Fault Refusal :=
  vecF h d.toNat false s fun u g L => f (srcF32 s u g L a)

def execFrnd (h : Head) (rm : BitVec 2) (d : BitVec 9) (a : Src) (s : State) :=
  fp1 h d a s fun x => coded (frnd (rmode rm) (f32 x), 0)

/-- The class bit of an FP32 code (08 R199). -/
def fclassBit (x : Word) : Nat :=
  let neg := x.getLsbD 31
  let e := x.toNat / 2 ^ 23 % 256
  let f := x.toNat % 2 ^ 23
  if e = 255 ∧ f ≠ 0 then 8
  else if e = 255 then (if neg then 0 else 7)
  else if e ≠ 0 then (if neg then 1 else 6)
  else if f ≠ 0 then (if neg then 2 else 5)
  else if neg then 3 else 4

def execFclass (h : Head) (d : BitVec 9) (a : Src) (s : State) :=
  fp1 h d a s fun x => (BitVec.ofNat 64 (2 ^ fclassBit x), 0)

def execFscale (h : Head) (x : BodyF2) (s : State) :=
  vecF h x.d.toNat false s fun u g L =>
    coded (roundTo fp32 (rmode x.rm) ((f32 (srcF32 s u g L x.a)).scaleBy (src32 s u g L x.b).toInt))

/-- FEXP: significand and exponent (08 R201). -/
def fexp (x : Word) : Word × Word :=
  match f32 x with
  | .fin n m e =>
    if m = 0 then (x, 0)
    else ((toF32 .rne (.fin n m (1 - bitLen m))).1, BitVec.ofInt 32 ((bitLen m : Int) + e - 1))
  | .inf _ => (x, 0)
  | .nan => (0x7FC00000, 0)

def execFexp (h : Head) (d : BitVec 9) (a : Src) (s : State) :=
  vecF h d.toNat true s fun u g L =>
    let r := fexp (srcF32 s u g L a)
    (pairOf r.1 r.2, 0)

/-- The value of a packed-half element. -/
def elemOf (F : Fmt) (x : Word) (i : Nat) : FVal := F.decode (x.toNat / 2 ^ (16 * i) % 65536)

/-- Two element results in one word, their conditions ORed (08 R202). -/
def packed (f : Nat → Nat × Word) : Dword × Word :=
  let a := f 0
  let b := f 1
  (BitVec.ofNat 64 (a.1 + 65536 * b.1), a.2 ||| b.2)

/-- HADD2, HMUL2, BADD2, BMUL2 (08 R202). -/
def half2 (F : Fmt) (h : Head) (x : BodyF2) (s : State) (f : Fmt → RMode → FVal → FVal → Nat × Word) :
    Host.Outcome State Fault Refusal :=
  vecF h x.d.toNat false s fun u g L =>
    let a := srcHalf F s u g L x.a
    let b := srcHalf F s u g L x.b
    packed fun i => f F (rmode x.rm) (negIf (x.mod.getLsbD 0) (elemOf F a i)) (negIf (x.mod.getLsbD 1) (elemOf F b i))

/-- HFMA2, BFMA2 (08 R202). -/
def half3 (F : Fmt) (h : Head) (x : BodyF3) (s : State) : Host.Outcome State Fault Refusal :=
  vecF h x.d.toNat false s fun u g L =>
    let a := srcHalf F s u g L x.a
    let b := srcHalf F s u g L x.b
    let c := srcHalf F s u g L x.c
    packed fun i => ffused F (rmode x.rm) (negIf (x.mod.getLsbD 0) (elemOf F a i)) (elemOf F b i)
      (negIf (x.mod.getLsbD 1) (elemOf F c i))

def execHadd2 (h : Head) (x : BodyF2) (s : State) := half2 fp16 h x s fsum
def execHmul2 (h : Head) (x : BodyF2) (s : State) := half2 fp16 h x s fprod
def execHfma2 (h : Head) (x : BodyF3) (s : State) := half3 fp16 h x s
def execBadd2 (h : Head) (x : BodyF2) (s : State) := half2 bf16 h x s fsum
def execBmul2 (h : Head) (x : BodyF2) (s : State) := half2 bf16 h x s fprod
def execBfma2 (h : Head) (x : BodyF3) (s : State) := half3 bf16 h x s

def execHmnx2 (h : Head) (mx bf : Bool) (d : BitVec 9) (a b : Src) (s : State) : Host.Outcome State Fault Refusal :=
  let F := if bf then bf16 else fp16
  vecF h d.toNat false s fun u g L =>
    let x := (srcHalf F s u g L a).toNat
    let y := (srcHalf F s u g L b).toNat
    packed fun i => (fminmax F mx (x / 2 ^ (16 * i) % 65536) (y / 2 ^ (16 * i) % 65536), 0)

/-- HDOT2 on the six values (08 R204). -/
def hdot (m : RMode) (a0 b0 a1 b1 c : FVal) : Nat × Word :=
  let p := a0.mul b0
  let q := a1.mul b1
  let terms := [p, q, c]
  let opposed := terms.any (· == .inf true) && terms.any (· == .inf false)
  if a0.zeroInf b0 || a1.zeroInf b1 || opposed then (fp32.nanCode, lsNV)
  else roundTo fp32 m ((p.add (m == .rd) q).add (m == .rd) c)

def execHdot2 (h : Head) (x : BodyF3) (s : State) : Host.Outcome State Fault Refusal :=
  let F := if x.mod.getLsbD 0 then bf16 else fp16
  vecF h x.d.toNat false s fun u g L =>
    let a := srcHalf F s u g L x.a
    let b := srcHalf F s u g L x.b
    coded (hdot (rmode x.rm) (elemOf F a 0) (elemOf F b 0) (elemOf F a 1) (elemOf F b 1) (f32 (srcF32 s u g L x.c)))

end Sys2Proof.Machine
end

