-- ==== Sys2Proof/Machine/Convert.lean ====
section
/-! DEFINITION. The conversion family, 0x6 (spec 08 R205 to R215). -/

namespace Sys2Proof.Machine

/-! ### Types (08 R205) -/

/-- The float format of a type code 0 to 6. -/
def cvtFmt (t : BitVec 4) : Fmt :=
  match t.toNat with
  | 0 => fp32
  | 1 => fp16
  | 2 => bf16
  | 3 => e4m3
  | 4 => e5m2
  | 5 => e3m2
  | _ => e2m1

/-- Decodes a code of a float type. -/
def cvtDecode (t : BitVec 4) (c : Nat) : FVal := if t = 7 then e8m0Decode c else (cvtFmt t).decode c

/-- Rounds into a float type. -/
def cvtRound (t : BitVec 4) (m : RMode) (v : FVal) : Nat × Word :=
  if t = 7 then e8m0Round m v else roundTo (cvtFmt t) m v

/-- A signed integer type. -/
def cvtSigned (t : BitVec 4) : Bool := t.toNat < 12

/-- The bounds of an integer type. -/
def cvtLo (t : BitVec 4) : Int := if cvtSigned t then -(2 ^ (cvtWidth t - 1)) else 0
def cvtHi (t : BitVec 4) : Int := if cvtSigned t then 2 ^ (cvtWidth t - 1) - 1 else 2 ^ cvtWidth t - 1

/-- The bits of the selected source element (08 R207). -/
def cvtElement (s : State) (u : Nat) (g : Group) (L : Nat) (x : BodyCvt) : Nat :=
  let w := cvtWidth x.st
  if w = 64 then (src64 s u g L x.a).toNat
  else (src32 s u g L x.a).toNat / 2 ^ (w * x.sel.toNat) % 2 ^ w

/-- The integer that an element holds. -/
def cvtInt (t : BitVec 4) (n : Nat) : Int :=
  if cvtSigned t = true ∧ n.testBit (cvtWidth t - 1) = true then (n : Int) - 2 ^ cvtWidth t else n

/-- Places an integer in D (08 R207): 8 and 16 bits extend to 32. -/
def cvtPlace (t : BitVec 4) (n : Int) : Dword :=
  let m : Int := n % 2 ^ cvtWidth t
  let v := cvtInt t m.toNat
  if cvtWidth t = 64 then BitVec.ofInt 64 v else (BitVec.ofInt 32 v).setWidth 64

/-- A form of one source element. -/
def cvtForm (h : Head) (x : BodyCvt) (s : State) (f : Nat → Dword × Word) : Host.Outcome State Fault Refusal :=
  vecF h x.d.toNat (cvtWidth x.dt == 64) s fun u g L => f (cvtElement s u g L x)

/-- F2I on a value (08 R208). -/
def f2iVal (m : RMode) (t : BitVec 4) (v : FVal) : Int × Word :=
  match v with
  | .nan => (0, lsNV)
  | .inf n => (if n then cvtLo t else cvtHi t, lsNV)
  | .fin n a e =>
    let r := roundInt m n a e
    let k : Int := if n then -(r.1 : Int) else r.1
    if k < cvtLo t then (cvtLo t, lsNV)
    else if cvtHi t < k then (cvtHi t, lsNV)
    else (k, if r.2 then 0 else lsNX)

def execF2i (h : Head) (x : BodyCvt) (s : State) :=
  cvtForm h x s fun c =>
    let r := f2iVal (rmode x.rm) x.dt (cvtDecode x.st c)
    (cvtPlace x.dt r.1, r.2)

def execI2f (h : Head) (x : BodyCvt) (s : State) :=
  cvtForm h x s fun c => coded (cvtRound x.dt (rmode x.rm) (ofInt (cvtInt x.st c)))

def execF2f (h : Head) (x : BodyCvt) (s : State) :=
  cvtForm h x s fun c => coded (cvtRound x.dt (rmode x.rm) (cvtDecode x.st c))

/-- I2I on an integer (08 R210). -/
def i2iVal (sat : Bool) (t : BitVec 4) (n : Int) : Int × Word :=
  if !sat then (n, 0)
  else if n < cvtLo t then (cvtLo t, lsSAT)
  else if cvtHi t < n then (cvtHi t, lsSAT)
  else (n, 0)

def execI2i (h : Head) (x : BodyCvt) (s : State) :=
  cvtForm h x s fun c =>
    let r := i2iVal x.sat x.dt (cvtInt x.st c)
    (cvtPlace x.dt r.1, r.2)

/-! ### Packing and unpacking (08 R211, R212) -/

/-- The four FP32 values of two pairs. -/
def packInputs (a b : Dword) : List Word := [lowWord a, highWord a, lowWord b, highWord b]

/-- Four codes of w bits, element 0 lowest, with their conditions ORed. -/
def packCodes (t : BitVec 4) (w : Nat) (xs : List Word) : Nat × Word :=
  xs.foldr (fun x r =>
    let c := cvtRound t .rne (f32 x)
    (c.1 + 2 ^ w * r.1, c.2 ||| r.2)) (0, 0)

/-- PACK8 and PACK6. -/
def packForm (h : Head) (t : BitVec 4) (w : Nat) (d : BitVec 9) (a b : Src) (s : State) :
    Host.Outcome State Fault Refusal :=
  vecF h d.toNat false s fun u g L => coded (packCodes t w (packInputs (src64 s u g L a) (src64 s u g L b)))

def execPack8 (h : Head) (dt : BitVec 4) (d : BitVec 9) (a b : Src) (s : State) := packForm h dt 8 d a b s
def execPack6 (h : Head) (d : BitVec 9) (a b : Src) (s : State) := packForm h 5 6 d a b s

def execPack4 (h : Head) (sel : BitVec 2) (d : BitVec 9) (a b : Src) (s : State) : Host.Outcome State Fault Refusal :=
  vecF h d.toNat false s fun u g L =>
    let r := packCodes 6 4 (packInputs (src64 s u g L a) (src64 s u g L b))
    let old := (g.vread s.draw d.toNat L).toNat
    (BitVec.ofNat 64 (if sel = 0 then old / 65536 * 65536 + r.1 else old % 65536 + 65536 * r.1), r.2)

/-- Widens element i of w bits (08 R212). -/
def widen (st dt : BitVec 4) (w : Nat) (x : Word) (i : Nat) : Nat :=
  (cvtRound dt .rne (cvtDecode st (x.toNat / 2 ^ (w * i) % 2 ^ w))).1

/-- UNPACK8 and UNPACK4: two FP32 values, or four 16-bit codes. -/
def unpackForm (h : Head) (st dt : BitVec 4) (w : Nat) (sel : BitVec 2) (d : BitVec 9) (a : Src) (s : State) :
    Host.Outcome State Fault Refusal :=
  vecF h d.toNat true s fun u g L =>
    let f := widen st dt w (src32 s u g L a)
    let k := sel.toNat
    (BitVec.ofNat 64 (if dt = 0 then f (2 * k) + 2 ^ 32 * f (2 * k + 1)
      else f (4 * k) + 2 ^ 16 * f (4 * k + 1) + 2 ^ 32 * f (4 * k + 2) + 2 ^ 48 * f (4 * k + 3)), 0)

def execUnpack8 (h : Head) (st dt : BitVec 4) (sel : BitVec 2) (d : BitVec 9) (a : Src) (s : State) :=
  unpackForm h st dt 8 sel d a s
def execUnpack4 (h : Head) (dt : BitVec 4) (sel : BitVec 2) (d : BitVec 9) (a : Src) (s : State) :=
  unpackForm h 6 dt 4 sel d a s

/-! ### Block scales (08 R213 to R215) -/

/-- emax of a quantised format (08 R213). -/
def quantEmax (q : BitVec 4) : Int :=
  match q.toNat with
  | 0 => 8
  | 1 => 15
  | 2 => 4
  | 3 => 2
  | 5 => 2
  | _ => 0

/-- Exp(m) (08 R214). -/
def scaleExp (q : BitVec 4) (v : FVal) : Nat := (min 254 (max 0 (v.floorLog2 - quantEmax q + 127))).toNat

/-- The greater of two magnitudes. -/
def maxVal (x y : FVal) : FVal := if x.lt y then y else x

/-- The greatest magnitude; 0 of no value. -/
def maxOf (l : List FVal) : FVal := l.foldl (fun m v => maxVal m v.abs) (.fin false 0 0)

/-- The scales of a block (08 R214). -/
def blockScale (q : BitVec 4) (vs : List FVal) : Nat :=
  if vs.any fun v => v.isNan || v.isInf then (if q.toNat ≤ 4 then 0xFF else 0xFFFF)
  else
    let m := maxOf vs
    let eb := if m.isZero then 0x7F else scaleExp q m
    if q.toNat ≤ 4 then eb
    else
      let bound : FVal := .fin false 1 (m.floorLog2 - 3)
      let i := maxOf (vs.filter fun v => v.abs.lt bound)
      let ea := if m.isZero || i.isZero then eb else scaleExp q i
      eb * 256 + ea

def execScaleq (h : Head) (q : BitVec 4) (d : BitVec 9) (a : Src) (s : State) : Host.Outcome State Fault Refusal :=
  issue h s fun u g act =>
    let val (L : Nat) := f32 (src32 s u g L a)
    let block (j : Nat) := (lanesList act).filter fun L => L / 32 == j
    let scale (j : Nat) := blockScale q ((block j).map val)
    let special (L : Nat) := (val L).isNan || (val L).isInf
    let x0 := scale 0
    let x1 := scale 1
    let r := (lanesList act).map fun L => (L, BitVec.ofNat 64 (if L / 32 = 0 then x0 else x1))
    s.finish u ((g.writeVec h d.toNat false r).orLstats
      ((lanesList act).map fun L => (L, if special L then lsNV else 0)))

/-- QUANT to an element format under the scale X (08 R215). -/
def quantEl (F : Fmt) (x : Nat) (a : FVal) : Nat × Word :=
  if x = 255 then roundTo F .rne .nan else roundTo F .rne (a.scaleBy (127 - (x : Int)))

/-- QUANT.mxint8 (08 R215). -/
def quantInt (x : Nat) (a : FVal) : Nat × Word :=
  if x = 255 then (0, lsNV)
  else
    match a with
    | .nan => (0, lsNV)
    | .inf n => (if n then 128 else 127, lsSAT ||| lsNV)
    | .fin n m e =>
      let r := roundInt .rne n m (e + 133 - (x : Int))
      let q : Int := if n then -(r.1 : Int) else r.1
      let nx : Word := if r.2 then 0 else lsNX
      if q < -128 then (128, lsSAT ||| nx)
      else if 127 < q then (127, lsSAT ||| nx)
      else ((q % 256).toNat, nx)

/-- QUANT.sd6 and QUANT.sd4: the finer exponent is tried first (08 R215). `k` is the weight of the selector bit. -/
def quantSd (F : Fmt) (k ea eb : Nat) (a : FVal) : Nat × Word :=
  if (ea = 255 ∧ eb = 255) ∨ a.isNan = true then (0, lsNV)
  else
    let fineB := decide (eb < ea)
    let fine := if fineB then eb else ea
    let coarse := if fineB then ea else eb
    let selF := if fineB then k else 0
    let selC := if fineB ∨ ea = eb then 0 else k
    let y := roundTo F .rne (a.scaleBy (127 - (fine : Int)))
    if y.2 &&& (lsOF ||| lsNV) ≠ 0 ∧ coarse ≠ 255 then
      let z := roundTo F .rne (a.scaleBy (127 - (coarse : Int)))
      (selC + z.1, z.2)
    else (selF + y.1, y.2)

/-- QUANT (08 R215). -/
def quantVal (q : BitVec 4) (a : FVal) (b : Word) : Nat × Word :=
  let x := b.toNat % 256
  let eb := b.toNat / 256 % 256
  match q.toNat with
  | 0 => quantEl e4m3 x a
  | 1 => quantEl e5m2 x a
  | 2 => quantEl e3m2 x a
  | 3 => quantEl e2m1 x a
  | 4 => quantInt x a
  | 5 => quantSd sd6 32 x eb a
  | _ => quantSd sd4 8 x eb a

def execQuant (h : Head) (q : BitVec 4) (d : BitVec 9) (a b : Src) (s : State) :=
  vecF h d.toNat false s fun u g L => coded (quantVal q (f32 (src32 s u g L a)) (src32 s u g L b))

end Sys2Proof.Machine
end

