-- ==== Sys2Proof/Machine/CrossLane.lean ====
section
/-! DEFINITION. The cross-lane family, 0x8 (spec 06 R163 to R171). -/

namespace Sys2Proof.Machine

/-- A cross-lane operation by its code (04 R103, 06 R168). -/
def crossOp (op : BitVec 4) (x y : Word) : Word :=
  match op.toNat with
  | 0 => x + y
  | 1 => addF32 x y
  | 2 => if x.toInt ≤ y.toInt then x else y
  | 3 => if x.toInt ≤ y.toInt then y else x
  | 4 => if x.toNat ≤ y.toNat then x else y
  | 5 => if x.toNat ≤ y.toNat then y else x
  | 6 => BitVec.ofNat 32 (fminmax fp32 false x.toNat y.toNat)
  | 7 => BitVec.ofNat 32 (fminmax fp32 true x.toNat y.toNat)
  | 8 => x &&& y
  | 9 => x ||| y
  | _ => x ^^^ y

/-- Its identity, for SCAN.excl (06 R168). -/
def crossId (op : BitVec 4) : Word :=
  match op.toNat with
  | 0 => 0
  | 1 => 0x80000000
  | 2 => 0x7FFFFFFF
  | 3 => 0x80000000
  | 4 => 0xFFFFFFFF
  | 5 => 0
  | 6 => 0x7F800000
  | 7 => 0xFF800000
  | 8 => 0xFFFFFFFF
  | _ => 0

/-- Operand A of a cross-lane operation in a lane: an FP32 operand for .fadd, .fmin and .fmax (04 R88; 06 R168). -/
def crossSrc (op : BitVec 4) (s : State) (u : Nat) (g : Group) (L : Nat) (a : Src) : Word :=
  if op.toNat = 1 ∨ op.toNat = 6 ∨ op.toNat = 7 then srcF32 s u g L a else src32 s u g L a

/-- A 32-bit vector result. -/
def cross (h : Head) (d : BitVec 9) (s : State) (f : Nat → Group → Lanes → Nat → Word) :
    Host.Outcome State Fault Refusal :=
  issue h s fun u g act =>
    s.finish u (g.writeVec h d.toNat false ((lanesList act).map fun L => (L, (f u g act L).setWidth 64)))

/-- The offset of SHFL: an immediate −k stands for W >> k (06 R164). -/
def shflOffset (s : State) (u : Nat) (g : Group) (L : Nat) : Src → Nat
  | .imm i => if i.toInt < 0 then Config.lanes / 2 ^ (-i.toInt).toNat else i.toNat
  | x => (src32 s u g L x).toNat

/-- The source lane of SHFL; none where it is missing (06 R165). -/
def shflLane (mode : BitVec 2) (L o : Nat) : Option Nat :=
  match mode.toNat with
  | 0 => if o ≤ L then some (L - o) else none
  | 1 => if L + o < Config.lanes then some (L + o) else none
  | 2 => if L ^^^ o < Config.lanes then some (L ^^^ o) else none
  | _ => if o < Config.lanes then some o else none

def execShfl (h : Head) (mode : BitVec 2) (d : BitVec 9) (a b : Src) (s : State) :=
  cross h d s fun u g _ L =>
    match shflLane mode L (shflOffset s u g L b) with
    | some j => if g.present.getLsbD j then src32 s u g j a else src32 s u g L a
    | none => src32 s u g L a

def execPerm (h : Head) (d : BitVec 9) (a b c : Src) (s : State) :=
  cross h d s fun u g _ L =>
    let i := (src32 s u g L b).toNat % (2 * Config.lanes)
    let j := i % Config.lanes
    if g.present.getLsbD j then src32 s u g j (if i < Config.lanes then a else c) else 0

/-- RDSTEP (06 R169). -/
def execRdstep (h : Head) (op : BitVec 4) (d : BitVec 9) (a : Src) (k : BitVec 3) (s : State) :=
  cross h d s fun u g act L =>
    let hw := Config.lanes / 2 ^ (k.toNat + 1)
    let p := L ^^^ hw
    if hw = 0 ∨ act.getLsbD p = false then crossSrc op s u g L a
    else crossOp op (crossSrc op s u g (min L p) a) (crossSrc op s u g (max L p) a)

/-- The tree of RDX over 2^n lanes from `lo` (06 R170). -/
def rdxTree (op : BitVec 4) (f : Nat → Option Word) : Nat → Nat → Option Word
  | 0, lo => f lo
  | n + 1, lo =>
    match rdxTree op f n lo, rdxTree op f n (lo + 2 ^ n) with
    | some x, some y => some (crossOp op x y)
    | some x, none => some x
    | none, y => y

def execRdx (h : Head) (op : BitVec 4) (d : BitVec 9) (a : Src) (s : State) : Host.Outcome State Fault Refusal :=
  issue h s fun u g act =>
    let f (L : Nat) : Option Word := if L < 64 ∧ act.getLsbD L = true then some (crossSrc op s u g L a) else none
    let x := (rdxTree op f 7 0).getD 0
    s.finish u (g.writeVec h d.toNat false ((lanesList act).map fun L => (L, x.setWidth 64)))

/-- The prefixes of SCAN in ascending lane order (06 R171): `acc` is the fold of the lanes so far. -/
def scanFold (op : BitVec 4) (excl : Bool) : Option Word → List (Nat × Word) → List (Nat × Word)
  | _, [] => []
  | acc, (L, x) :: t =>
    let next := match acc with
      | none => x
      | some y => crossOp op y x
    (L, if excl then acc.getD (crossId op) else next) :: scanFold op excl (some next) t

def execScan (h : Head) (op : BitVec 4) (excl : Bool) (d : BitVec 9) (a : Src) (s : State) :
    Host.Outcome State Fault Refusal :=
  issue h s fun u g act =>
    let r := scanFold op excl none ((lanesList act).map fun L => (L, crossSrc op s u g L a))
    s.finish u (g.writeVec h d.toNat false (r.map fun x => (x.1, x.2.setWidth 64)))

def execBcast (h : Head) (d : BitVec 9) (a b : Src) (s : State) :=
  cross h d s fun u g act _ =>
    let j := (scalar32 s u g act b).toNat
    if j < Config.lanes ∧ g.present.getLsbD j = true then src32 s u g j a else 0

end Sys2Proof.Machine
end

