-- ==== Sys2Proof/Machine/Integer.lean ====
section
/-! DEFINITION. The integer family, 0x1 (spec 06 R148 to R151). -/

namespace Sys2Proof.Machine

/-- A two-source form on 32-bit operands (06 R148). -/
def int2 (h : Head) (x : Body2) (s : State) (f : Word → Word → Word × Word) : Host.Outcome State Fault Refusal :=
  formF h x.sc x.d false s fun u g L => withBits (f (src32 s u g L x.a) (srcI32 s u g L x.b))

/-- A one-source form. -/
def int1 (h : Head) (x : Body1) (s : State) (f : Word → Word × Word) : Host.Outcome State Fault Refusal :=
  formF h x.sc x.d false s fun u g L => withBits (f (src32 s u g L x.a))

def execIadd (h : Head) (x : Body2) (s : State) := int2 h x s (addMode x.mod)
def execIsub (h : Head) (x : Body2) (s : State) := int2 h x s (subMode x.mod)

/-- IADDC and ISUBB (06 R150): p[CI] is read before p[CO] is written; a scalar form takes the carry of the lowest
active lane and writes p[CO] in every lane. NWB suppresses the write of D only (04 R83; DEDUCED, log entry 25). -/
def carryForm (h : Head) (x : BodyC) (s : State) (f : Word → Word → Bool → Word × Bool) :
    Host.Outcome State Fault Refusal :=
  issue h s fun u g act =>
    let run (L : Nat) : Word × Bool :=
      match x.b with
      | .v b cie _ ci => f (src32 s u g L x.a) (src32 s u g L b) (cie && (g.pred ci).getLsbD L)
      | .i imm _ ci => f (src32 s u g L x.a) (imm.signExtend 32) ((g.pred ci).getLsbD L)
    let co := match x.b with
      | .v _ _ co _ => co
      | .i _ co _ => co
    if x.sc then
      if act = 0 then s.finish u (g.openLatch h.lat s.draw)
      else
        let r := run (lowest act)
        let g' := g.writeSca h x.d.toNat false (r.1.setWidth 64)
        s.finish u (g'.setPred co (if r.2 then BitVec.allOnes 64 else 0))
    else
      let r := (lanesList act).map fun L => (L, run L)
      let g' := g.writeVec h x.d.toNat false (r.map fun y => (y.1, y.2.1.setWidth 64))
      let m := maskOf ((r.filter fun y => y.2.2).map (·.1))
      s.finish u (g'.setPred co ((g.pred co &&& ~~~act) ||| m))

def execIaddc (h : Head) (x : BodyC) (s : State) := carryForm h x s addCarry
def execIsubb (h : Head) (x : BodyC) (s : State) := carryForm h x s subBorrow

def execImul (h : Head) (x : Body2) (s : State) := int2 h x s fun a b => (a * b, 0)

/-- The high half of a product (06 R148). -/
def mulHigh (uns : Bool) (a b : Word) : Word :=
  if uns then BitVec.ofNat 32 (a.toNat * b.toNat / 2 ^ 32) else BitVec.ofInt 32 (a.toInt * b.toInt / 2 ^ 32)

def execImulh (h : Head) (x : Body2) (s : State) := int2 h x s fun a b => (mulHigh (x.mod == 1) a b, 0)

def execImad (h : Head) (x : Body3) (s : State) :=
  formF h x.sc x.d false s fun u g L => plain (src32 s u g L x.a * src32 s u g L x.b + src32 s u g L x.c)

/-- The product of two extended operands, 64 bits (06 R149). -/
def mulWide (uns : Bool) (a b : Word) : Dword :=
  if uns then a.setWidth 64 * b.setWidth 64 else a.signExtend 64 * b.signExtend 64

def execImadw (h : Head) (x : Body3) (s : State) :=
  formF h x.sc x.d true s fun u g L =>
    (mulWide (x.mod == 1) (src32 s u g L x.a) (src32 s u g L x.b) + src64 s u g L x.c, 0)

/-- The four divisions (06 R151). With .trap and a zero divisor in an active lane, only DZ is set, and the arithmetic
trap is taken. -/
def divForm (h : Head) (x : Body2) (s : State) (signed quot : Bool) : Host.Outcome State Fault Refusal :=
  issue h s fun u g act =>
    let hit := (lanesList act).filter fun L => srcI32 s u g L x.b == 0
    let hitS := if x.sc && !hit.isEmpty && srcI32 s u g (lowest act) x.b == 0 then lanesList act else []
    let bad := if x.sc then hitS else hit
    if x.mod = 1 ∧ bad ≠ [] then
      (s.putGroup u (g.orLstats (bad.map fun L => (L, lsDZ)))).trapAt u causeArith 0 act
    else if x.sc then
      if act = 0 then s.finish u (g.openLatch h.lat s.draw)
      else
        let r := divide signed quot (src32 s u g (lowest act) x.a) (srcI32 s u g (lowest act) x.b)
        s.finish u ((g.writeSca h x.d.toNat false (r.1.setWidth 64)).orLstats
          ((lanesList act).map fun L => (L, r.2)))
    else
      let r := (lanesList act).map fun L => (L, divide signed quot (src32 s u g L x.a) (srcI32 s u g L x.b))
      s.finish u ((g.writeVec h x.d.toNat false (r.map fun y => (y.1, y.2.1.setWidth 64))).orLstats
        (r.map fun y => (y.1, y.2.2)))

def execIdiv (h : Head) (x : Body2) (s : State) := divForm h x s true true
def execIrem (h : Head) (x : Body2) (s : State) := divForm h x s true false
def execUdiv (h : Head) (x : Body2) (s : State) := divForm h x s false true
def execUrem (h : Head) (x : Body2) (s : State) := divForm h x s false false

def execImin (h : Head) (x : Body2) (s : State) := int2 h x s fun a b => (if a.toInt ≤ b.toInt then a else b, 0)
def execImax (h : Head) (x : Body2) (s : State) := int2 h x s fun a b => (if a.toInt ≤ b.toInt then b else a, 0)
def execUmin (h : Head) (x : Body2) (s : State) := int2 h x s fun a b => (if a.toNat ≤ b.toNat then a else b, 0)
def execUmax (h : Head) (x : Body2) (s : State) := int2 h x s fun a b => (if a.toNat ≤ b.toNat then b else a, 0)

def execIabs (h : Head) (x : Body1) (s : State) :=
  int1 h x s fun a => if a.toInt < 0 then negMode (x.mod == 1) a else (a, 0)
def execIneg (h : Head) (x : Body1) (s : State) := int1 h x s (negMode (x.mod == 1))

def execIadd64 (h : Head) (x : Body2) (s : State) :=
  formF h x.sc x.d true s fun u g L => (src64 s u g L x.a + srcI64 s u g L x.b, 0)

/-- The 32-bit index of LEA, sign-extended; IMM20 is sign-extended to 64 bits (06 R149). -/
def leaIndex (s : State) (u : Nat) (g : Group) (L : Nat) : SrcI → Dword
  | .src x => (src32 s u g L x).signExtend 64
  | .imm i => i.signExtend 64

def execLea (h : Head) (x : Body2) (s : State) :=
  formF h x.sc x.d true s fun u g L => (src64 s u g L x.a + (leaIndex s u g L x.b <<< x.mod.toNat), 0)

end Sys2Proof.Machine
end

