-- ==== Sys2Proof/Machine/Izeus.lean ====
section
/-! DEFINITION. Global packets at the Izeus ports (spec 10 R257 to R259), the stack links (R255), and what other packages
and the host send (02 R56; 10 R259). -/

namespace Sys2Proof.Machine

/-! ### RouteFail (10 R259) -/

/-- The tier at which a global address leaves this package: 0 pod, 1 board, 2 device. -/
def State.tierOf (s : State) (a : Dword) : Nat :=
  let id := s.reg .gident
  if bits a 62 55 ≠ bits id 21 14 then 0 else if bits a 54 49 ≠ bits id 13 8 then 1 else 2

/-- DATA of a route-error record (24 R427). -/
def routeData (a : Dword) (tier crossings : Nat) (ctx : Option Nat) : Nat :=
  a.toNat + 2 ^ 64 * tier + (if crossings = 15 then 2 ^ 66 else 0) + 2 ^ 72 * crossings +
  match ctx with
  | some c => 2 ^ 88 * c + 2 ^ 96
  | none => 0

/-- The route-error record of a failing port. -/
def State.routeRecord (s : State) (q : GlobPacket) (port : Nat) : State :=
  let d := routeData q.addr (s.tierOf q.addr) q.crossings q.ctx
  match q.ctx with
  | some c => s.logCtx c (srcIzeus port) 0x0B d
  | none => s.logAll (srcIzeus port) 0x0B d

/-- Removes a global packet. -/
def State.dropGlobal (s : State) (k : Nat) : State := { s with globals := s.globals.filter fun x => x.id != k }

/-- Changes a global packet. -/
def State.onGlobal (s : State) (k : Nat) (f : GlobPacket → GlobPacket) : State :=
  { s with globals := modifyFirst (fun x => x.id == k) f s.globals }

/-- A store for another package is over: its acknowledgment sets out from a port's stack (09 R229; 10 R248). -/
def State.ackGlobal (s : State) (q : GlobPacket) (p : Packet) : State :=
  s.acknowledge p (wayOf msgResponse (izeusStack q.port) (entryGlobal p.unit q.addr))

/-- The number that another package's source is known by here: its identifier there and the port through which it came (10
R250), and back. -/
def foreignSrc (src port : Nat) : Nat := 0x10000 + 32 * src + port
def GlobPacket.foreign (q : GlobPacket) : Bool := decide (0x10000 ≤ q.src)
def GlobPacket.cameBy (q : GlobPacket) : Nat := q.src % 32

/-- What goes back to another package through the port by which it came. -/
def State.answerForeign (s : State) (q : GlobPacket) (fail : Bool) (data : List Byte) : State :=
  { s with outbox := s.outbox ++ [⟨q.cameBy, (q.src - 0x10000) / 32, fail, data⟩] }

/-- ERR 3 in the card of an engine whose store met RouteFail (14 R321). -/
def State.routeErr (s : State) (src : Nat) : State := if src / 0x1000 = 3 then s.engineErr (src % 0x1000) 3 else s

/-- RouteFail of a packet at a port: a load or atomic lane takes the fault; a store is discarded and acknowledged, and the port
writes a record; an engine's card takes ERR 3 (14 R321). -/
def State.routeFail (s : State) (q : GlobPacket) (port : Nat) : State :=
  let s := s.dropGlobal q.id
  match q.what with
  | .lane u uid tok lane => s.failLane u uid tok lane
  | .sub r => (s.undoSlot r).failLane r.unit r.uid r.tok r.lane
  | .store p => (((s.routeRecord q port).routeErr q.src).ackGlobal q p)
  | .foreign (.write _ _) => (s.routeRecord q port).answerForeign q false []
  | .foreign _ => s.answerForeign q true []

/-! ### Requests of other packages (10 R259) -/

/-- A source of another package as a party. -/
def GlobPacket.party (q : GlobPacket) : Party := ⟨srcIzeus q.cameBy, some q.src, 0⟩

/-- A release of a source of another package: after its own earlier writes here. -/
def State.foreignRels (s : State) (q : GlobPacket) (rel : Option Nat) : List Rel :=
  match rel with
  | none => []
  | some scope => [⟨q.party, scope, ⟨(s.old.filter fun o => o.author.who == q.party).map (·.stamp), []⟩, 0⟩]

/-- A subscription of a slot of another package, in its port's name (09 R245): status 0, or 1 without a free record. -/
def State.foreignSub (s : State) (q : GlobPacket) (pa slot : Nat) : State :=
  let home := s.stackOf pa
  let l := agetD [] s.subs home
  if !inHbm pa then s.answerForeign q true []
  else if Config.subRecords ≤ programUsed l then s.answerForeign q false [1]
  else
    let w : Watcher := .far q.cameBy slot
    let b : Sub := ⟨granule pa, w, 0⟩
    let s := { s with subs := aput s.subs home (l ++ [b]) }
    (s.answerForeign q false [0]).pushFirst (granule pa) w

/-- Some bytes of memory here that another package may reach; the register space takes no access of one (DEDUCED, log entry
20). -/
def State.foreignOk (s : State) (pa len : Nat) : Bool := s.physOk pa len && !inRegs pa && !inRegs (pa + len)

/-- Performs another package's request by its offset. -/
def State.deliverForeign (s : State) (q : GlobPacket) (r : ForeignReq) : State :=
  let pa := q.addr.toNat % 2 ^ 45
  match r with
  | .write data rel =>
    if s.foreignOk pa data.length then
      let by_ : Author := ⟨q.party, .d, 0, 0, false, false, s.foreignRels q rel⟩
      (s.fresh.writeAs s.uid by_ (dataOf pa data) [] []).answerForeign q false []
    else (s.routeRecord q q.port).answerForeign q false []
  | .read n => if s.foreignOk pa n then s.answerForeign q false (s.bytes pa n) else s.answerForeign q true []
  | .rmw op wide v w =>
    let n := if wide then 8 else 4
    if pa % n = 0 ∧ s.foreignOk pa n = true then
      let by_ : Author := ⟨q.party, .d, 0, 0, false, true, []⟩
      let x := s.fresh.rmwAs s.uid by_ (.dev 0) pa op wide v w
      x.1.answerForeign q false (natLE x.2.toNat n)
    else s.answerForeign q true []
  | .sub slot => s.foreignSub q pa slot
  | .unsub slot => (s.unsubHome (.far q.cameBy slot)).answerForeign q false []

/-- A packet that has come to its target here: another package's request. -/
def State.deliverHere (s : State) (q : GlobPacket) : State :=
  match q.what with
  | .foreign r => (s.dropGlobal q.id).deliverForeign q r
  | _ => s.routeFail q q.port

/-! ### From port to port (10 R259) -/

/-- What a global packet has to wait for before its source sends it: the accesses of its group that come before it, or the
earlier packets of its source in another package. -/
def State.globalClear (s : State) (q : GlobPacket) : Bool :=
  match q.what with
  | .store p => s.acked p.after && s.packetClear p
  | .lane u uid tok lane =>
    match s.group? u with
    | none => true
    | some g =>
      g.uid != uid ||
      g.pend.all fun p => p.tok != tok || p.lanes.all fun l => l.lane != lane || s.laneClear u g p l
  | .sub _ => true
  | .foreign _ => s.globals.all fun x => x.src != q.src || x.home.isSome || decide (q.id ≤ x.id)

/-- The source whose contract a global packet draws on, and its payload bytes (10 R252). -/
def GlobPacket.payer (q : GlobPacket) : Nat := if q.foreign then srcIzeus q.cameBy else q.src
def State.globalSize (s : State) (q : GlobPacket) : Nat :=
  match q.what with
  | .store p => p.body.size
  | .foreign (.write data _) => data.length
  | .foreign (.rmw _ wide _ _) => if wide then 8 else 4
  | .lane u _ tok _ =>
    match (s.group? u).bind fun g => g.pend.find? fun p => p.tok == tok with
    | none => 0
    | some p =>
      match p.ins with
      | .atom _ x | .atomb _ x => if x.b64 then 8 else 4
      | _ => 0
  | _ => 0

/-- A packet sets out from its entry stack toward a stack, with its number there (10 R248 to R252). -/
def State.routeTo (s : State) (q : GlobPacket) (home port crossings : Nat) : State :=
  let n := s.seqOf q.src home
  let s := (s.spend q.payer .release (s.globalSize q)).takeSeq q.src home
  let f (x : GlobPacket) : GlobPacket :=
    { x with
      home := some home
      seq := n
      trip := ⟨if home < 16 then wayOf msgRequest (izeusStack q.port) home else [], s.uid⟩
      port := port
      crossings := crossings }
  s.fresh.onGlobal q.id f

/-- The lookup at a port (R259): the packet is routed toward a stack, or meets RouteFail; none while its number or its
contract holds it. -/
def State.lookup (s : State) (q : GlobPacket) : Option State :=
  let go (home port crossings : Nat) : Option State :=
    if s.inWindow q.src home && s.affords q.payer .release (s.globalSize q) then some (s.routeTo q home port crossings) else none
  if s.isHere q.addr then go (s.homeFromStack (izeusStack q.port) (q.addr.toNat % 2 ^ 45)) q.port q.crossings
  else
    match s.routeOf q.port q.crossings q.addr with
    | .error _ => some (s.routeFail q q.port)
    | .ok port => go (izeusStack port) port (q.crossings + 1)

/-- A packet that has come to its stack, next in its source's order there: it is performed, or leaves by its port. -/
def State.comeTo (s : State) (q : GlobPacket) (home : Nat) : State :=
  let s := s.doneSeq q.src home
  if s.isHere q.addr then s.deliverHere q
  else if s.links.elem q.port then s.routeFail q q.port
  else if q.foreign then s.dropGlobal q.id
  else s.onGlobal q.id fun x => { x with out := true }

/-- How a global packet goes on, where it can: it is looked up at its port, or leaves the stack to which it has come. -/
def State.globalNext (s : State) (q : GlobPacket) : Option State :=
  if q.out then none
  else
    match q.home with
    | none => if s.globalClear q then s.lookup q else none
    | some home => if q.trip.way.isEmpty && q.seq == s.doneOf q.src home then some (s.comeTo q home) else none

/-- GLOBAL_ROUTE: a packet is looked up at its port, or goes on from the stack to which it was routed (R259). -/
def execGlobalRoute (k : Nat) (s : State) : Host.Outcome State Fault Refusal :=
  match s.globals.find? fun q => q.id == k with
  | none => .next s
  | some q => .next ((s.globalNext q).getD s)

/-! ### Answers -/

/-- A lane is performed in another package (09 R239, R243): it reads and changes what this package knows of its memory. -/
def State.answerLane (s : State) (u uid tok lane : Nat) : State :=
  match s.group? u with
  | none => s
  | some g =>
    if g.uid ≠ uid then s
    else
      match g.pend.find? fun p => p.tok == tok with
      | none => s
      | some p =>
        match p.lanes.find? fun l => l.lane == lane with
        | none => s
        | some l => s.performLane u g p l

/-- Another package answers a packet that has left: it has performed it, or it has no record free for a subscription, or the
packet met RouteFail there. -/
def State.turnRemote (s : State) (k : Nat) (ans : Nat) : State :=
  match s.globals.find? fun q => q.id == k && q.out with
  | none => s
  | some q =>
    if 1 < ans then s.routeFail q q.port
    else
      let s := s.dropGlobal k
      match q.what with
      | .lane u uid tok lane => s.answerLane u uid tok lane
      | .store p => (s.performBody p).ackGlobal q p
      | .sub r =>
        if ans = 1 then (s.undoSlot r).subDone r 1
        else
          let w : Watcher := .slot r.die r.off
          (State.pushFirst { s with farSubs := s.farSubs ++ [⟨r.granule, w, r.ctx⟩] } r.granule w).subDone r 0
      | .foreign _ => s

/-- Other packages write some of their bytes. -/
def State.turnFar (s : State) (data : List (Nat × Byte)) : State :=
  let d := data.filter fun x => farAddr x.1
  if d.isEmpty then s else s.performWrite .d srcOther 0 d [] []

/-- A request of another package arrives at a port. -/
def State.turnForeign (s : State) (port crossings : Nat) (addr : Dword) (src : Nat) (r : ForeignReq) : State :=
  if s.links.elem port ∨ 32 ≤ port ∨ 15 < crossings then s
  else
    let q : GlobPacket := ⟨s.uid, addr, port, crossings, foreignSrc src port, none, none, 0, ⟨[], 0⟩, false, .foreign r⟩
    { s with uid := s.uid + 1, globals := s.globals ++ [q] }

/-- A lane of a load or atomic performed ahead of its flag; SUBSTAT is performed when its result lands. -/
def State.turnPerform (s : State) (u tok lane : Nat) : State :=
  match (s.group? u).bind fun g => g.pend.find? fun p => p.tok == tok with
  | none => s
  | some p =>
    match p.ins with
    | .substat .. => s
    | _ => s.tryLane u tok lane

/-! ### Links (10 R255, R259) -/

/-- IZEUS_LINK_FAIL: the port routes nothing; of the packets that were leaving by it, those that the failure strands meet
RouteFail. -/
def execIzeusLinkFail (port : Nat) (s : State) : Host.Outcome State Fault Refusal :=
  let lost := s.globals.filter fun q => q.out && q.port == port && Config.pick s.draw q.id
  let s := { s with links := sput s.links port }
  .next (lost.foldl (fun s q => s.routeFail q port) s).drawn

/-- IZEUS_LINK_TRAIN. -/
def execIzeusLinkTrain (port : Nat) (s : State) : Host.Outcome State Fault Refusal := .next { s with links := sdel s.links port }

/-- LINK_FRAME_RETRY: invisible but for the count of every open partition (10 R255; 24 R436). -/
def execLinkFrameRetry (_stack _port : Nat) (s : State) : Host.Outcome State Fault Refusal := .next (s.countAll 3 1)

/-- LINK_FAULT: Bilael reports the link, and the package holds in safe mode until reset (10 R255). -/
def execLinkFault (stack port : Nat) (s : State) : Host.Outcome State Fault Refusal :=
  .next { s.logAll srcBilael 0x12 (stack + 16 * port) with safeMode := true }

/-- BOUND_VIOLATION: recorded and counted in every open partition (00 R9; 24 R427, R436). -/
def execBoundViolation (mech : Nat) (ns bound : BitVec 32) (src : BitVec 16) (s : State) : Host.Outcome State Fault Refusal :=
  .next ((s.logAll srcBilael 0x10 (mech + 2 ^ 8 * ns.toNat + 2 ^ 40 * bound.toNat + 2 ^ 72 * src.toNat)).countAll 2 1)

end Sys2Proof.Machine
end

