-- ==== Sys2Proof/Machine/Logic.lean ====
section
/-! DEFINITION. The logic and bitfield family, 0x2 (spec 06 R152 to R159). -/

namespace Sys2Proof.Machine

def execAnd (h : Head) (x : Body2) (s : State) := int2 h x s fun a b => (a &&& b, 0)
def execOr (h : Head) (x : Body2) (s : State) := int2 h x s fun a b => (a ||| b, 0)
def execXor (h : Head) (x : Body2) (s : State) := int2 h x s fun a b => (a ^^^ b, 0)
def execAndn (h : Head) (x : Body2) (s : State) := int2 h x s fun a b => (a &&& ~~~b, 0)
def execNot (h : Head) (x : Body1) (s : State) := int1 h x s fun a => (~~~a, 0)

/-- MOV (06 R158). A write to LSTAT is masked to the bits that exist; NWB has no effect on it. -/
def execMov (h : Head) (sc : Bool) (x : MovForm) (s : State) : Host.Outcome State Fault Refusal :=
  match x with
  | .mov d a => formF h sc d false s fun u g L => plain (srcI32 s u g L a)
  | .fromLstat d => formF h sc d false s fun _ g L => plain (g.lstatOf L)
  | .toLstat a =>
    issue h s fun u g act =>
      if sc then
        if act = 0 then s.finish u (g.openLatch h.lat s.draw)
        else
          let v := src32 s u g (lowest act) a &&& lsAll
          let g' := g.setLatch h.lat ((List.range 64).map fun L => (L, v.setWidth 64))
          s.finish u ((lanesList act).foldl (fun g L => g.setLstat L v) g')
      else
        let r := (lanesList act).map fun L => (L, src32 s u g L a &&& lsAll)
        let g' := g.setLatch h.lat (r.map fun y => (y.1, y.2.setWidth 64))
        s.finish u (r.foldl (fun g y => g.setLstat y.1 y.2) g')
  | .mov64 d a => formF h sc d true s fun u g L => (srcI64 s u g L a, 0)

/-- Reads the old D of a form that reads it (06 R152). -/
def oldD (s : State) (g : Group) (sc : Bool) (d : BitVec 9) (L : Nat) : Word :=
  if sc then g.sread s.draw d.toNat else g.vread s.draw d.toNat L

/-- One bit of LUT3 (06 R155). -/
def lutBits (t : BitVec 8) (d a z : Word) : Word :=
  BitVec.ofNat 32 ((List.range 32).foldl (fun n i =>
    let k := (if d.getLsbD i then 4 else 0) + (if a.getLsbD i then 2 else 0) + (if z.getLsbD i then 1 else 0)
    if t.getLsbD k then n + 2 ^ i else n) 0)

def execLut3 (h : Head) (x : BodyLut) (s : State) :=
  formF h x.sc x.d false s fun u g L =>
    plain (lutBits x.table (oldD s g x.sc x.d L) (src32 s u g L x.a) (oldD s g x.sc x.z L))

/-- Shifts by an unsigned amount (06 R153). -/
def shl32 (a n : Word) : Word := if 32 ≤ n.toNat then 0 else a <<< n.toNat
def shr32 (a n : Word) : Word := if 32 ≤ n.toNat then 0 else a >>> n.toNat
def sar32 (a n : Word) : Word := a.sshiftRight (min n.toNat 32)

def execShl (h : Head) (x : Body2) (s : State) := int2 h x s fun a b => (shl32 a b, 0)
def execShr (h : Head) (x : Body2) (s : State) := int2 h x s fun a b => (shr32 a b, 0)
def execSar (h : Head) (x : Body2) (s : State) := int2 h x s fun a b => (sar32 a b, 0)
def execRotl (h : Head) (x : Body2) (s : State) := int2 h x s fun a b => (a.rotateLeft (b.toNat % 32), 0)

/-- FSHF (06 R153). -/
def funnel (left : Bool) (a b c : Word) : Word :=
  let x : Dword := a ++ b
  let n := c.toNat % 32
  if left then highWord (x <<< n) else lowWord (x >>> n)

def execFshf (h : Head) (x : Body3) (s : State) :=
  formF h x.sc x.d false s fun u g L =>
    plain (funnel (x.mod == 1) (src32 s u g L x.a) (src32 s u g L x.b) (src32 s u g L x.c))

/-- BFX (06 R154): a extended to 64 bits holds every position that the field can reach. -/
def bfx (signed : Bool) (a b c : Word) : Word :=
  let pos := min (b.toNat % 256) 32
  let len := min (c.toNat % 256) 32
  let x : Dword := if signed then a.signExtend 64 else a.setWidth 64
  let f := (x >>> pos).toNat % 2 ^ len
  if signed = true ∧ 0 < len ∧ f.testBit (len - 1) = true then BitVec.ofInt 32 ((f : Int) - 2 ^ len)
  else BitVec.ofNat 32 f

def execBfx (h : Head) (x : Body3) (s : State) :=
  formF h x.sc x.d false s fun u g L =>
    plain (bfx (x.mod == 1) (src32 s u g L x.a) (src32 s u g L x.b) (src32 s u g L x.c))

/-- BFI (06 R154). -/
def bfi (d a b c : Word) : Word :=
  let pos := min (b.toNat % 256) 32
  let len := min (c.toNat % 256) 32
  let m : Word := BitVec.ofNat 32 ((2 ^ len - 1) * 2 ^ pos)
  (d &&& ~~~m) ||| (BitVec.ofNat 32 (a.toNat * 2 ^ pos) &&& m)

def execBfi (h : Head) (x : Body3) (s : State) :=
  formF h x.sc x.d false s fun u g L =>
    plain (bfi (oldD s g x.sc x.d L) (src32 s u g L x.a) (src32 s u g L x.b) (src32 s u g L x.c))

/-- BREV, POPC, CLZ, CTZ (06 R152). -/
def brev32 (a : Word) : Word :=
  BitVec.ofNat 32 ((List.range 32).foldl (fun n i => if a.getLsbD i then n + 2 ^ (31 - i) else n) 0)
def popc32 (a : Word) : Word := BitVec.ofNat 32 ((List.range 32).filter fun i => a.getLsbD i).length
def clz32 (a : Word) : Word := BitVec.ofNat 32 (32 - bitLen a.toNat)
def ctz32 (a : Word) : Word := BitVec.ofNat 32 (((List.range 32).find? fun i => a.getLsbD i).getD 32)

def execBrev (h : Head) (x : Body1) (s : State) := int1 h x s fun a => (brev32 a, 0)
def execPopc (h : Head) (x : Body1) (s : State) := int1 h x s fun a => (popc32 a, 0)
def execClz (h : Head) (x : Body1) (s : State) := int1 h x s fun a => (clz32 a, 0)
def execCtz (h : Head) (x : Body1) (s : State) := int1 h x s fun a => (ctz32 a, 0)

/-- One result byte of BPERM (06 R156). -/
def bpermByte (a b : Word) (ctl : Nat) : Nat :=
  let x : Dword := b ++ a
  let y := x.toNat / 2 ^ (8 * (ctl % 8)) % 256
  match ctl / 8 % 4 with
  | 0 => y
  | 1 => if 128 ≤ y then 255 else 0
  | 2 => 0
  | _ => 255

/-- BPERM (06 R156). -/
def bperm (a b c : Word) : Word :=
  BitVec.ofNat 32 ((List.range 4).foldl (fun n i => n + bpermByte a b (c.toNat / 2 ^ (8 * i) % 256) * 2 ^ (8 * i)) 0)

def execBperm (h : Head) (x : Body3) (s : State) :=
  formF h x.sc x.d false s fun u g L =>
    plain (bperm (src32 s u g L x.a) (src32 s u g L x.b) (src32 s u g L x.c))

def execSel (h : Head) (x : BodySel) (s : State) :=
  formF h x.sc x.d false s fun u g L =>
    plain (if (g.pred x.p).getLsbD L then src32 s u g L x.a else src32 s u g L x.b)

/-- The register that MOVX names in a lane (06 R159). -/
def movxIndex (s : State) (u : Nat) (g : Group) (a b : Src) (L : Nat) : Nat :=
  (src32 s u g L a + src32 s u g L b).toNat

def execMovxRd (h : Head) (d : BitVec 9) (a b : Src) (s : State) : Host.Outcome State Fault Refusal :=
  issue h s fun u g act =>
    if (lanesList act).any fun L => decide (g.vr < movxIndex s u g a b L) then s.trapAt u causeRange 0 act
    else
      s.finish u (g.writeVec h d.toNat false ((lanesList act).map fun L =>
        (L, (g.vread s.draw (movxIndex s u g a b L) L).setWidth 64)))

def execMovxWr (h : Head) (a b c : Src) (s : State) : Host.Outcome State Fault Refusal :=
  issue h s fun u g act =>
    if (lanesList act).any fun L => decide (g.vr < movxIndex s u g a b L) then s.trapAt u causeRange 0 act
    else
      let r := (lanesList act).map fun L => (L, movxIndex s u g a b L, src32 s u g L c)
      let g' := g.setLatch h.lat (r.map fun y => (y.1, y.2.2.setWidth 64))
      s.finish u (if h.nwb then g' else r.foldl (fun g y => g.setV y.2.1 y.1 y.2.2) g')

end Sys2Proof.Machine
end

