-- ==== Sys2Proof/Machine/Privileged.lean ====
section
/-! DEFINITION. The privileged family, 0xF (spec 21 R403 to R408). -/

namespace Sys2Proof.Machine

/-- A privileged instruction: without supervisor privilege it raises the privileged-instruction trap (R375). -/
def privileged (h : Head) (s : State) (f : Nat → Group → Lanes → State) : Host.Outcome State Fault Refusal :=
  issue h s fun u g act => if s.groupPriv g then f u g act else s.trapAt u causePrivileged 0 act

/-- The shadow's region start and trap record, zero before the first delivery (R394, R403). -/
def Group.shadowRec (g : Group) : TrapRec := ((g.shadow).map (·.2)).getD ⟨0, 0, 0, 0, 0⟩
def Group.shadowIndex (g : Group) : Nat := ((g.shadow).map (·.1.index)).getD 0

/-- The value of a CSR (R403). -/
def csrValue (s : State) (g : Group) (csr : Nat) : Dword :=
  let r := g.shadowRec
  match csr with
  | 0 => BitVec.ofNat 64 ((if s.groupPriv g then 1 else 0) + (if g.intrap then 2 else 0) + 256 * g.ctx)
  | 1 => BitVec.ofNat 64 r.cause
  | 2 => g.taddr
  | 3 => BitVec.ofNat 64 (r.idx + 16 * g.shadowIndex)
  | 4 => r.info
  | 5 => r.mask
  | 6 => 0
  | k => g.scratch (k - 16)

/-- CSRR (R403, R404). -/
def execCsrr (h : Head) (d : BitVec 7) (csr : BitVec 12) (s : State) : Host.Outcome State Fault Refusal :=
  privileged h s fun u g act =>
    if act = 0 then s.finish u (g.openLatch h.lat s.draw)
    else s.finish u (g.writeSca h d.toNat true (csrValue s g csr.toNat))

/-- The write of a CSR (R403). -/
def Group.writeCsr (g : Group) (csr : Nat) (x : Dword) : Group :=
  if csr = 2 then g.moveTaddr x else { g with tscr := asetD 0 g.tscr (csr - 16) x }

/-- CSRW (R404). -/
def execCsrw (h : Head) (csr : BitVec 12) (a : Src) (s : State) : Host.Outcome State Fault Refusal :=
  privileged h s fun u g act =>
    if act = 0 then s.finish u g else s.finish u (g.writeCsr csr.toNat (scalar64 s u g act a))

/-- The translations that an invalidation drops (R405). -/
def tlbDrops (s : State) (g : Group) (m : TlbMode) (e : TlbEntry) : Bool :=
  let r (n : BitVec 7) : Nat := (g.sread s.draw n.toNat).toNat
  let p (n : BitVec 7) : Nat := (pairOf (g.sread s.draw n.toNat) (g.sread s.draw (n.toNat + 1))).toNat
  match m with
  | .page c a => e.ctx == r c && e.region == p a / 65536
  | .ctx c => e.ctx == r c
  | .gpa c a => e.ctx == r c && e.gpas.elem (p a / 65536)
  | .all => true

/-- TLBINV (R405): it waits until the group's stores are acknowledged. -/
def execTlbinv (h : Head) (m : TlbMode) (s : State) : Host.Outcome State Fault Refusal :=
  privileged h s fun u g act =>
    if act = 0 then s.finish u g
    else if g.unacked ≠ 0 then s
    else
      let keep := s.tlb.filter fun e => !tlbDrops s g m e
      State.finish { s with tlb := keep } u g

/-- RETT (R406): with no lane active the head run goes to NextClause, DEDUCED (log entry 16). -/
def execRett (h : Head) (s : State) : Host.Outcome State Fault Refusal :=
  privileged h s fun u g act =>
    if act = 0 then (s.putGroup u (g.branch (fun _ => 0) 0)).drawn
    else if g.intrap = false then s.trapAt u causeIllegal 0 act
    else if !targetOk g.taddr then s.trapAt u causeTarget g.taddr act
    else
      let s := s.commit u g.clauseIdx false
      match s.group? u with
      | none => s
      | some g => (s.putGroup u g.returnTrap).drawn

/-- PRESP (R407): it waits until the group's stores are acknowledged. -/
def execPresp (h : Head) (a : Src) (s : State) : Host.Outcome State Fault Refusal :=
  privileged h s fun u g act =>
    if act = 0 then s.finish u g
    else
      let x := (scalar32 s u g act a).toNat
      let tag := x % 65536
      let f := x / 65536 % 64
      let status := x / 2 ^ 24 % 4
      if f ≠ s.ctxFn g.ctx ∧ s.ctxHyp g.ctx = false then s.trapAt u causePrivileged 0 act
      else if g.unacked ≠ 0 then s
      else
        let s' := s.finish u g
        match s.requests.find? fun q => q.fn == f && q.tag == some tag with
        | none => s'
        | some q =>
          if 2 ≤ status ∨ 32 < f then s'
          else if status = 0 then s'.freeRequest q
          else s'.cancelRequest q

/-- HALTC (R408). -/
def execHaltc (h : Head) (a : Src) (s : State) : Host.Outcome State Fault Refusal :=
  privileged h s fun u g act =>
    if act = 0 then (s.putGroup u (g.branch (fun _ => 0) 0)).drawn
    else s.trapAt u causeHalt ((scalar32 s u g act a).setWidth 64) act

end Sys2Proof.Machine
end

