-- ==== Sys2Proof/Machine/SpecialFn.lean ====
section
/-! DEFINITION. The special functions, family 0x7 (spec 08 R216 to R218). -/

namespace Sys2Proof.Machine

def posInf : Nat := 0x7F800000
def negInf : Nat := 0xFF800000
def canonNan : Nat := 0x7FC00000
def negZero : Nat := 0x80000000
def oneCode : Nat := 0x3F800000

/-- RoundToFormat into FP32⟨p⟩, as an FP32 code (08 R216). -/
def roundP (p : Nat) (v : FVal) : Nat × Word :=
  let r := roundTo (fp32p p) .rne v
  (r.1 * 2 ^ (24 - p), r.2)

/-- RCP (08 R217, R218). -/
def rcp (p : Nat) : FVal → Nat × Word
  | .nan => (canonNan, 0)
  | .inf n => (if n then negZero else 0, 0)
  | .fin n m e => if m = 0 then (if n then negInf else posInf, lsDZF) else roundP p (recip n m e)

/-- RSQ. -/
def rsq (p : Nat) : FVal → Nat × Word
  | .nan => (canonNan, 0)
  | .inf n => if n then (canonNan, lsNV) else (0, 0)
  | .fin n m e =>
    if m = 0 then (if n then negInf else posInf, lsDZF)
    else if n then (canonNan, lsNV)
    else roundP p (rsqrtVal m e)

/-- SQRT. -/
def sqrtF (p : Nat) : FVal → Nat × Word
  | .nan => (canonNan, 0)
  | .inf n => if n then (canonNan, lsNV) else (posInf, 0)
  | .fin n m e =>
    if m = 0 then (if n then negZero else 0, 0)
    else if n then (canonNan, lsNV)
    else roundP p (sqrtVal m e)

/-- EXP2. -/
def exp2F : FVal → Nat × Word
  | .nan => (canonNan, 0)
  | .inf n => (if n then 0 else posInf, 0)
  | .fin n m e => if m = 0 then (oneCode, 0) else roundP 22 (exp2Val n m e)

/-- LOG2. -/
def log2F : FVal → Nat × Word
  | .nan => (canonNan, 0)
  | .inf n => if n then (canonNan, lsNV) else (posInf, 0)
  | .fin n m e =>
    if m = 0 then (negInf, lsDZF)
    else if n then (canonNan, lsNV)
    else if (FVal.fin false m e).eqv (.fin false 1 0) then (0, 0)
    else roundP 22 (log2Val m e)

/-- The value is an integer. -/
def isIntegral (m : Nat) (e : Int) : Bool := decide (0 ≤ e) || m % 2 ^ (-e).toNat == 0

/-- SINP. -/
def sinpF : FVal → Nat × Word
  | .nan => (canonNan, 0)
  | .inf _ => (canonNan, lsNV)
  | .fin n m e =>
    if m = 0 ∨ isIntegral m e = true then (if n then negZero else 0, 0) else roundP 22 (sinpVal n m e)

/-- COSP. -/
def cospF : FVal → Nat × Word
  | .nan => (canonNan, 0)
  | .inf _ => (canonNan, lsNV)
  | .fin n m e =>
    if m = 0 then (oneCode, 0)
    else if isIntegral m (e + 1) = true ∧ isIntegral m e = false then (0, 0)
    else roundP 22 (cospVal n m e)

/-- TANH. -/
def tanhF : FVal → Nat × Word
  | .nan => (canonNan, 0)
  | .inf n => (oneCode + (if n then negZero else 0), 0)
  | .fin n m e => if m = 0 then (if n then negZero else 0, 0) else roundP 22 (tanhVal n m e)

/-- Significant bits of RCP, RSQ and SQRT (08 R217). -/
def approxBits (ap : Bool) : Nat := if ap then 12 else 24

/-- A special function of one source. -/
def special1 (h : Head) (d : BitVec 9) (a : Src) (s : State) (f : FVal → Nat × Word) :
    Host.Outcome State Fault Refusal :=
  fp1 h d a s fun x => coded (f (f32 x))

def execRcp (h : Head) (ap : Bool) (d : BitVec 9) (a : Src) (s : State) := special1 h d a s (rcp (approxBits ap))
def execRsq (h : Head) (ap : Bool) (d : BitVec 9) (a : Src) (s : State) := special1 h d a s (rsq (approxBits ap))
def execSqrt (h : Head) (ap : Bool) (d : BitVec 9) (a : Src) (s : State) := special1 h d a s (sqrtF (approxBits ap))
def execExp2 (h : Head) (d : BitVec 9) (a : Src) (s : State) := special1 h d a s exp2F
def execLog2 (h : Head) (d : BitVec 9) (a : Src) (s : State) := special1 h d a s log2F
def execSinp (h : Head) (d : BitVec 9) (a : Src) (s : State) := special1 h d a s sinpF
def execCosp (h : Head) (d : BitVec 9) (a : Src) (s : State) := special1 h d a s cospF
def execTanh (h : Head) (d : BitVec 9) (a : Src) (s : State) := special1 h d a s tanhF

end Sys2Proof.Machine
end

