-- ==== Sys2Proof/Machine/Dispatch.lean ====
section
/-! DEFINITION. The one dispatch from instructions and device events to their meanings. -/

namespace Sys2Proof.Machine

/-- One step of an instruction, or one device event. -/
def exec (i : Instr) (s : State) : Host.Outcome State Fault Refusal :=
  match i with
  | .nop h => Sys2Proof.Machine.execNop h s
  | .bra h mode tgt => Sys2Proof.Machine.execBra h mode tgt s
  | .brax h a => Sys2Proof.Machine.execBrax h a s
  | .call h tgt => Sys2Proof.Machine.execCall h tgt s
  | .callx h a => Sys2Proof.Machine.execCallx h a s
  | .ret h => Sys2Proof.Machine.execRet h s
  | .exit h => Sys2Proof.Machine.execExit h s
  | .spawn h d pe a ent => Sys2Proof.Machine.execSpawn h d pe a ent s
  | .join h a b => Sys2Proof.Machine.execJoin h a b s
  | .yield h => Sys2Proof.Machine.execYield h s
  | .trap h code => Sys2Proof.Machine.execTrap h code s
  | .bkpt h code => Sys2Proof.Machine.execBkpt h code s
  | .iadd h x => Sys2Proof.Machine.execIadd h x s
  | .isub h x => Sys2Proof.Machine.execIsub h x s
  | .iaddc h x => Sys2Proof.Machine.execIaddc h x s
  | .isubb h x => Sys2Proof.Machine.execIsubb h x s
  | .imul h x => Sys2Proof.Machine.execImul h x s
  | .imulh h x => Sys2Proof.Machine.execImulh h x s
  | .imad h x => Sys2Proof.Machine.execImad h x s
  | .imadw h x => Sys2Proof.Machine.execImadw h x s
  | .idiv h x => Sys2Proof.Machine.execIdiv h x s
  | .irem h x => Sys2Proof.Machine.execIrem h x s
  | .udiv h x => Sys2Proof.Machine.execUdiv h x s
  | .urem h x => Sys2Proof.Machine.execUrem h x s
  | .imin h x => Sys2Proof.Machine.execImin h x s
  | .imax h x => Sys2Proof.Machine.execImax h x s
  | .umin h x => Sys2Proof.Machine.execUmin h x s
  | .umax h x => Sys2Proof.Machine.execUmax h x s
  | .iabs h x => Sys2Proof.Machine.execIabs h x s
  | .ineg h x => Sys2Proof.Machine.execIneg h x s
  | .iadd64 h x => Sys2Proof.Machine.execIadd64 h x s
  | .lea h x => Sys2Proof.Machine.execLea h x s
  | .and h x => Sys2Proof.Machine.execAnd h x s
  | .or h x => Sys2Proof.Machine.execOr h x s
  | .xor h x => Sys2Proof.Machine.execXor h x s
  | .andn h x => Sys2Proof.Machine.execAndn h x s
  | .not h x => Sys2Proof.Machine.execNot h x s
  | .mov h sc x => Sys2Proof.Machine.execMov h sc x s
  | .lut3 h x => Sys2Proof.Machine.execLut3 h x s
  | .shl h x => Sys2Proof.Machine.execShl h x s
  | .shr h x => Sys2Proof.Machine.execShr h x s
  | .sar h x => Sys2Proof.Machine.execSar h x s
  | .rotl h x => Sys2Proof.Machine.execRotl h x s
  | .fshf h x => Sys2Proof.Machine.execFshf h x s
  | .bfx h x => Sys2Proof.Machine.execBfx h x s
  | .bfi h x => Sys2Proof.Machine.execBfi h x s
  | .brev h x => Sys2Proof.Machine.execBrev h x s
  | .popc h x => Sys2Proof.Machine.execPopc h x s
  | .clz h x => Sys2Proof.Machine.execClz h x s
  | .ctz h x => Sys2Proof.Machine.execCtz h x s
  | .bperm h x => Sys2Proof.Machine.execBperm h x s
  | .sel h x => Sys2Proof.Machine.execSel h x s
  | .movxRd h d a b => Sys2Proof.Machine.execMovxRd h d a b s
  | .movxWr h a b c => Sys2Proof.Machine.execMovxWr h a b c s
  | .icmp h x => Sys2Proof.Machine.execIcmp h x s
  | .fcmp h x => Sys2Proof.Machine.execFcmp h x s
  | .pand h x => Sys2Proof.Machine.execPand h x s
  | .por h x => Sys2Proof.Machine.execPor h x s
  | .pxor h x => Sys2Proof.Machine.execPxor h x s
  | .pnot h x => Sys2Proof.Machine.execPnot h x s
  | .pmov h x => Sys2Proof.Machine.execPmov h x s
  | .pcnt h d a => Sys2Proof.Machine.execPcnt h d a s
  | .pany h d a => Sys2Proof.Machine.execPany h d a s
  | .pall h d a => Sys2Proof.Machine.execPall h d a s
  | .lead h d a => Sys2Proof.Machine.execLead h d a s
  | .fadd h x => Sys2Proof.Machine.execFadd h x s
  | .fsub h x => Sys2Proof.Machine.execFsub h x s
  | .fmul h x => Sys2Proof.Machine.execFmul h x s
  | .ffma h x => Sys2Proof.Machine.execFfma h x s
  | .fmin h d a b => Sys2Proof.Machine.execFmin h d a b s
  | .fmax h d a b => Sys2Proof.Machine.execFmax h d a b s
  | .frnd h rm d a => Sys2Proof.Machine.execFrnd h rm d a s
  | .fclass h d a => Sys2Proof.Machine.execFclass h d a s
  | .fscale h x => Sys2Proof.Machine.execFscale h x s
  | .fexp h d a => Sys2Proof.Machine.execFexp h d a s
  | .hadd2 h x => Sys2Proof.Machine.execHadd2 h x s
  | .hmul2 h x => Sys2Proof.Machine.execHmul2 h x s
  | .hfma2 h x => Sys2Proof.Machine.execHfma2 h x s
  | .badd2 h x => Sys2Proof.Machine.execBadd2 h x s
  | .bmul2 h x => Sys2Proof.Machine.execBmul2 h x s
  | .bfma2 h x => Sys2Proof.Machine.execBfma2 h x s
  | .hmnx2 h mx bf d a b => Sys2Proof.Machine.execHmnx2 h mx bf d a b s
  | .hdot2 h x => Sys2Proof.Machine.execHdot2 h x s
  | .f2i h x => Sys2Proof.Machine.execF2i h x s
  | .i2f h x => Sys2Proof.Machine.execI2f h x s
  | .f2f h x => Sys2Proof.Machine.execF2f h x s
  | .i2i h x => Sys2Proof.Machine.execI2i h x s
  | .pack8 h dt d a b => Sys2Proof.Machine.execPack8 h dt d a b s
  | .unpack8 h st dt sel d a => Sys2Proof.Machine.execUnpack8 h st dt sel d a s
  | .pack6 h d a b => Sys2Proof.Machine.execPack6 h d a b s
  | .pack4 h sel d a b => Sys2Proof.Machine.execPack4 h sel d a b s
  | .unpack4 h dt sel d a => Sys2Proof.Machine.execUnpack4 h dt sel d a s
  | .scaleq h q d a => Sys2Proof.Machine.execScaleq h q d a s
  | .quant h q d a b => Sys2Proof.Machine.execQuant h q d a b s
  | .rcp h ap d a => Sys2Proof.Machine.execRcp h ap d a s
  | .rsq h ap d a => Sys2Proof.Machine.execRsq h ap d a s
  | .sqrt h ap d a => Sys2Proof.Machine.execSqrt h ap d a s
  | .exp2 h d a => Sys2Proof.Machine.execExp2 h d a s
  | .log2 h d a => Sys2Proof.Machine.execLog2 h d a s
  | .sinp h d a => Sys2Proof.Machine.execSinp h d a s
  | .cosp h d a => Sys2Proof.Machine.execCosp h d a s
  | .tanh h d a => Sys2Proof.Machine.execTanh h d a s
  | .perm h d a b c => Sys2Proof.Machine.execPerm h d a b c s
  | .shfl h mode d a b => Sys2Proof.Machine.execShfl h mode d a b s
  | .rdstep h op d a k => Sys2Proof.Machine.execRdstep h op d a k s
  | .rdx h op d a => Sys2Proof.Machine.execRdx h op d a s
  | .scan h op excl d a => Sys2Proof.Machine.execScan h op excl d a s
  | .bcast h d a b => Sys2Proof.Machine.execBcast h d a b s
  | .ld h sz d addr off scope hint => Sys2Proof.Machine.execLd h sz d addr off scope hint s
  | .ldu h sz d addr off scope hint => Sys2Proof.Machine.execLdu h sz d addr off scope hint s
  | .ldk h sz d addr off => Sys2Proof.Machine.execLdk h sz d addr off s
  | .ldb h sz d addr off w c => Sys2Proof.Machine.execLdb h sz d addr off w c s
  | .ldl h sz d addr off => Sys2Proof.Machine.execLdl h sz d addr off s
  | .st h sz x addr off hint => Sys2Proof.Machine.execSt h sz x addr off hint s
  | .stu h sz x addr off hint => Sys2Proof.Machine.execStu h sz x addr off hint s
  | .stb h sz x addr off f => Sys2Proof.Machine.execStb h sz x addr off f s
  | .stl h sz x addr off => Sys2Proof.Machine.execStl h sz x addr off s
  | .pref h l2 addr off => Sys2Proof.Machine.execPref h l2 addr off s
  | .fillb h clear n addr off => Sys2Proof.Machine.execFillb h clear n addr off s
  | .atom h x => Sys2Proof.Machine.execAtom h x s
  | .atomb h x => Sys2Proof.Machine.execAtomb h x s
  | .red h x => Sys2Proof.Machine.execRed h x s
  | .ldsub h ring d addr off => Sys2Proof.Machine.execLdsub h ring d addr off s
  | .unsub h addr off => Sys2Proof.Machine.execUnsub h addr off s
  | .substat h d addr off => Sys2Proof.Machine.execSubstat h d addr off s
  | .copy h out ob k scope mask r c => Sys2Proof.Machine.execCopy h out ob k scope mask r c s
  | .copyl h scope r c => Sys2Proof.Machine.execCopyl h scope r c s
  | .copym h n4 k scope r c => Sys2Proof.Machine.execCopym h n4 k scope r c s
  | .ctradd h x => Sys2Proof.Machine.execCtradd h x s
  | .ctrwait h x => Sys2Proof.Machine.execCtrwait h x s
  | .ctrrd h x => Sys2Proof.Machine.execCtrrd h x s
  | .fork h r n1 => Sys2Proof.Machine.execFork h r n1 s
  | .rdv h r n1 => Sys2Proof.Machine.execRdv h r n1 s
  | .objreq h req scope r c => Sys2Proof.Machine.execObjreq h req scope r c s
  | .gang h k a => Sys2Proof.Machine.execGang h k a s
  | .rsv h k n => Sys2Proof.Machine.execRsv h k n s
  | .rsvrel h k => Sys2Proof.Machine.execRsvrel h k s
  | .obld h k x addr off scope => Sys2Proof.Machine.execObld h k x addr off scope s
  | .obst h k x addr off => Sys2Proof.Machine.execObst h k x addr off s
  | .mma h x => Sys2Proof.Machine.execMma h x s
  | .mmaz h x => Sys2Proof.Machine.execMmaz h x s
  | .accrd h form d r c t => Sys2Proof.Machine.execAccrd h form d r c t s
  | .accwr h raw t r c x => Sys2Proof.Machine.execAccwr h raw t r c x s
  | .accz h t => Sys2Proof.Machine.execAccz h t s
  | .buspub h hb kb mask n128 => Sys2Proof.Machine.execBuspub h hb kb mask n128 s
  | .bussub h c n => Sys2Proof.Machine.execBussub h c n s
  | .bar h gang => Sys2Proof.Machine.execBar h gang s
  | .bara h gang => Sys2Proof.Machine.execBara h gang s
  | .barw h gang => Sys2Proof.Machine.execBarw h gang s
  | .fence h u scope => Sys2Proof.Machine.execFence h u scope s
  | .pfence h mask scope => Sys2Proof.Machine.execPfence h mask scope s
  | .acq h k scope => Sys2Proof.Machine.execAcq h k scope s
  | .rel h scope => Sys2Proof.Machine.execRel h scope s
  | .sleep h a imm => Sys2Proof.Machine.execSleep h a imm s
  | .estream h j r c => Sys2Proof.Machine.execEstream h j r c s
  | .ereduce h ty d mask ctr => Sys2Proof.Machine.execEreduce h ty d mask ctr s
  | .ebcast h q mask ctr => Sys2Proof.Machine.execEbcast h q mask ctr s
  | .ecopy h d q ctr => Sys2Proof.Machine.execEcopy h d q ctr s
  | .egemv h bf r ctr => Sys2Proof.Machine.execEgemv h bf r ctr s
  | .routeCnt h r ctr => Sys2Proof.Machine.execRouteCnt h r ctr s
  | .routeScan h r ctr => Sys2Proof.Machine.execRouteScan h r ctr s
  | .routePlace h r ctr => Sys2Proof.Machine.execRoutePlace h r ctr s
  | .routeComb h r ctr => Sys2Proof.Machine.execRouteComb h r ctr s
  | .esig h code r => Sys2Proof.Machine.execEsig h code r s
  | .csrr h d csr => Sys2Proof.Machine.execCsrr h d csr s
  | .csrw h csr a => Sys2Proof.Machine.execCsrw h csr a s
  | .tlbinv h m => Sys2Proof.Machine.execTlbinv h m s
  | .rett h => Sys2Proof.Machine.execRett h s
  | .presp h a => Sys2Proof.Machine.execPresp h a s
  | .haltc h a => Sys2Proof.Machine.execHaltc h a s
  | .clauseFetch u => Sys2Proof.Machine.execClauseFetch u s
  | .clauseStart port => Sys2Proof.Machine.execClauseStart port s
  | .groupUrgent u => Sys2Proof.Machine.execGroupUrgent u s
  | .resultLands u tok => Sys2Proof.Machine.execResultLands u tok s
  | .storeAck u => Sys2Proof.Machine.execStoreAck u s
  | .groupExit u => Sys2Proof.Machine.execGroupExit u s
  | .slotFill core => Sys2Proof.Machine.execSlotFill core s
  | .joinerSaveRetry u => Sys2Proof.Machine.execJoinerSaveRetry u s
  | .joinComplete u => Sys2Proof.Machine.execJoinComplete u s
  | .publishObserved p n => Sys2Proof.Machine.execPublishObserved p n s
  | .publishPoll p n => Sys2Proof.Machine.execPublishPoll p n s
  | .publishTranslationRetry p n => Sys2Proof.Machine.execPublishTranslationRetry p n s
  | .dependenceSatisfied l j => Sys2Proof.Machine.execDependenceSatisfied l j s
  | .dependencePoll l j => Sys2Proof.Machine.execDependencePoll l j s
  | .conditionRead l => Sys2Proof.Machine.execConditionRead l s
  | .cellPlace p => Sys2Proof.Machine.execCellPlace p s
  | .launchRetire l => Sys2Proof.Machine.execLaunchRetire l s
  | .partitionOpen g p x => Sys2Proof.Machine.execPartitionOpen g p x s
  | .partitionClose g p x => Sys2Proof.Machine.execPartitionClose g p x s
  | .ilmapWrite g n x => Sys2Proof.Machine.execIlmapWrite g n x s
  | .illockSet g x => Sys2Proof.Machine.execIllockSet g x s
  | .launchListEnable g p n x => Sys2Proof.Machine.execLaunchListEnable g p n x s
  | .launchListDisable g p n x => Sys2Proof.Machine.execLaunchListDisable g p n x s
  | .bscWrite g src x => Sys2Proof.Machine.execBscWrite g src x s
  | .bsstatRefusedClear g stack x => Sys2Proof.Machine.execBsstatRefusedClear g stack x s
  | .ctxctlWrite g c x => Sys2Proof.Machine.execCtxctlWrite g c x s
  | .preemptSave g c x => Sys2Proof.Machine.execPreemptSave g c x s
  | .preemptResume g c x => Sys2Proof.Machine.execPreemptResume g c x s
  | .cellSave cell => Sys2Proof.Machine.execCellSave cell s
  | .cellRestore img => Sys2Proof.Machine.execCellRestore img s
  | .breakpointResume g c x => Sys2Proof.Machine.execBreakpointResume g c x s
  | .kill g c x => Sys2Proof.Machine.execKill g c x s
  | .killComplete c => Sys2Proof.Machine.execKillComplete c s
  | .prqEnable g f x => Sys2Proof.Machine.execPrqEnable g f x s
  | .evqEnable g p x => Sys2Proof.Machine.execEvqEnable g p x s
  | .tierpoolWrite g p d x => Sys2Proof.Machine.execTierpoolWrite g p d x s
  | .registerWrite g pa x => Sys2Proof.Machine.execRegisterWrite g pa x s
  | .translationWalk c va acc sup => Sys2Proof.Machine.execTranslationWalk c va acc sup s
  | .pageRequestRecord f => Sys2Proof.Machine.execPageRequestRecord f s
  | .parkedLaneReplay u tok => Sys2Proof.Machine.execParkedLaneReplay u tok s
  | .trapDeliver u => Sys2Proof.Machine.execTrapDeliver u s
  | .miggoWrite g p x => Sys2Proof.Machine.execMiggoWrite g p x s
  | .migrationComplete k => Sys2Proof.Machine.execMigrationComplete k s
  | .subscribeRecord die off => Sys2Proof.Machine.execSubscribeRecord die off s
  | .pushLand die off => Sys2Proof.Machine.execPushLand die off s
  | .unsubAck die off => Sys2Proof.Machine.execUnsubAck die off s
  | .fullEmptyWaitServe die granule => Sys2Proof.Machine.execFullEmptyWaitServe die granule s
  | .packetAccept src cls => Sys2Proof.Machine.execPacketAccept src cls s
  | .packetPerform home src k => Sys2Proof.Machine.execPacketPerform home src k s
  | .globalRoute k => Sys2Proof.Machine.execGlobalRoute k s
  | .linkFrameRetry stack port => Sys2Proof.Machine.execLinkFrameRetry stack port s
  | .linkFault stack port => Sys2Proof.Machine.execLinkFault stack port s
  | .boundViolation mech ns bound src => Sys2Proof.Machine.execBoundViolation mech ns bound src s
  | .copyExecute k => Sys2Proof.Machine.execCopyExecute k s
  | .copymOperationStart k => Sys2Proof.Machine.execCopymOperationStart k s
  | .copymSliceLand k j => Sys2Proof.Machine.execCopymSliceLand k j s
  | .cardListStart k => Sys2Proof.Machine.execCardListStart k s
  | .cardClose k => Sys2Proof.Machine.execCardClose k s
  | .engineAsyncComplete stack k => Sys2Proof.Machine.execEngineAsyncComplete stack k s
  | .engineTrap stack => Sys2Proof.Machine.execEngineTrap stack s
  | .tierRequest p => Sys2Proof.Machine.execTierRequest p s
  | .tierMoveComplete p k => Sys2Proof.Machine.execTierMoveComplete p k s
  | .tierAgeSample p k => Sys2Proof.Machine.execTierAgeSample p k s
  | .matrixOpComplete core => Sys2Proof.Machine.execMatrixOpComplete core s
  | .busStepDeliver core => Sys2Proof.Machine.execBusStepDeliver core s
  | .barrierWaveRelease cell b => Sys2Proof.Machine.execBarrierWaveRelease cell b s
  | .sleepExpire u => Sys2Proof.Machine.execSleepExpire u s
  | .cbalWindow die pair => Sys2Proof.Machine.execCbalWindow die pair s
  | .cbalHoldEnd die cluster => Sys2Proof.Machine.execCbalHoldEnd die cluster s
  | .boostInterval die => Sys2Proof.Machine.execBoostInterval die s
  | .retentionEnter die cluster => Sys2Proof.Machine.execRetentionEnter die cluster s
  | .retentionWake die cluster failed => Sys2Proof.Machine.execRetentionWake die cluster failed s
  | .eccCorrectable site => Sys2Proof.Machine.execEccCorrectable site s
  | .eccUncorrectable site => Sys2Proof.Machine.execEccUncorrectable site s
  | .patrolScrub pa => Sys2Proof.Machine.execPatrolScrub pa s
  | .timerDisciplineLost => Sys2Proof.Machine.execTimerDisciplineLost s
  | .packageReset => Sys2Proof.Machine.execPackageReset s
  | .getreport => Sys2Proof.Machine.execGetreport s
  | .loadimg pa => Sys2Proof.Machine.execLoadimg pa s
  | .diepowerOff die => Sys2Proof.Machine.execDiepowerOff die s
  | .diepowerOn die => Sys2Proof.Machine.execDiepowerOn die s
  | .readerr => Sys2Proof.Machine.execReaderr s
  | .setpatrol x => Sys2Proof.Machine.execSetpatrol x s
  | .reset => Sys2Proof.Machine.execReset s
  | .hostWrite g c addr bytes => Sys2Proof.Machine.execHostWrite g c addr bytes s
  | .izeusLinkFail port => Sys2Proof.Machine.execIzeusLinkFail port s
  | .izeusLinkTrain port => Sys2Proof.Machine.execIzeusLinkTrain port s

end Sys2Proof.Machine
end

