-- ==== Sys2Proof/Machine/Turns.lean ====
section
/-! DEFINITION. The model's schedule: the turn that an empty agenda takes (DESIGN CHOICE, log entry 2), and how an
instruction is laid before `step` as the next one. -/

namespace Sys2Proof.Machine

/-- A started clause whose group may issue, a waiting one apart. -/
def Group.running (g : Group) : Bool :=
  match g.clause with
  | some c => c.started && g.taking.isNone && g.wait == .no
  | none => false

/-- CTRWAIT or RDV waits and reads again. -/
def Group.rereads (g : Group) : Bool :=
  match g.wait with
  | .counter _ | .cards _ => g.taking.isNone
  | _ => false

/-- A pending instruction on which RESULT_LANDS has something to do: its result lands, or a lane can be performed. -/
def State.landable (s : State) (u : Nat) (g : Group) : Option Nat :=
  (g.pend.find? fun p =>
    (p.left == 0 && p.lanes.isEmpty) ||
      p.lanes.any fun l => l.st == .ready && s.laneReady u g p && s.laneClear u g p l && s.laneInOrder u g p l).map (·.tok)

/-- The first turn of a list that applies. -/
def firstTurn : List (Option Turn) → Turn
  | [] => .tick 1
  | some t :: _ => t
  | none :: l => firstTurn l

/-- The first group that a function gives a turn. -/
def State.groupTurn (s : State) (f : Nat → Group → Option Turn) : Option Turn := s.groups.findSome? fun x => f x.1 x.2

/-- The issuer `cur` while its clause runs. -/
def State.curTurn (s : State) : Option Turn :=
  match s.group? s.cur with
  | some g => if g.running && s.unitUp s.cur then some (.issue s.cur) else none
  | none => none

/-- No page request of an agent's wait is outstanding. -/
def State.reqsDone (s : State) (a : Await) : Bool := a.reqs.all fun r => !s.outstanding r

/-- A walk that a pending lane waits for (21 R378, R384). -/
def State.walkTurn (s : State) : Option Turn :=
  s.groupTurn fun _ g => (g.pend.findSome? fun p => (p.lanes.find? fun l => l.st == .walking).map fun l => (p, l)).map
    fun x => .event (.translationWalk g.ctx x.2.addr (parkedAcc x.1.ins) (s.groupPriv g))

/-- The pushes and subscriptions that can go on (09 R234, R245, R246). -/
def State.basinTurn (s : State) : Option Turn :=
  match s.subReqs.head? with
  | some q => some (.event (.subscribeRecord q.die q.off))
  | none =>
    match s.pushes.findSome? fun p =>
        match p.who with
        | .slot d o => if ((s.pushes.find? fun y => y.who == p.who).map (·.trip.way)) == some [] then some (d, o) else none
        | _ => none with
    | some x => some (.event (.pushLand x.1 x.2))
    | none => (s.slots.find? fun x => x.2.st == .removing).map fun x => .event (.unsubAck (x.1 / 2 ^ 28) (x.1 % 2 ^ 28))

/-- A full/empty wait that can be served (09 R231). -/
def State.waitTurn (s : State) : Option Turn :=
  s.full.findSome? fun g =>
    match basinOf (16 * g) with
    | some (d, _) => if (s.fullWaits d g).isEmpty then none else some (.event (.fullEmptyWaitServe d g))
    | none => none

/-- The copies, cards and engine instructions that can go on (11, 14). -/
def State.agentTurn (s : State) : Option Turn :=
  match s.copies.find? fun q => s.reqsDone q.aw with
  | some q => some (.event (.copyExecute q.id))
  | none =>
    match (s.cards.find? fun c => (s.cardEnd c).isSome && s.reqsDone c.aw).map (·.id) |>.or
        ((s.owed.find? fun x => s.reqsDone x.aw).map (·.id)) with
    | some k => some (.event (.cardClose k))
    | none =>
      match s.cards.find? fun c => !c.running && s.listReady c.list with
      | some c => some (.event (.cardListStart c.list))
      | none =>
        s.engines.findSome? fun e =>
          (e.2.work.find? fun w => s.reqsDone w.aw && (routeFormOf w.ins).isNone &&
            match w.ins with
            | .esig .. => (e.2.work.head?).map (·.id) == some w.id
            | _ => true).map fun w => .event (.engineAsyncComplete e.1 w.id)

/-- A trap of an engine program (14 R321). -/
def State.engineTurn (s : State) : Option Turn :=
  s.groupTurn fun u g => if g.isEngine && g.taking.isSome then some (.event (.engineTrap (u - 12288))) else none

/-- A sleeping cluster that an event wakes (21 R402). -/
def State.wakeTurn (s : State) : Option Turn :=
  s.clusters.findSome? fun x =>
    if x.2.asleep && s.wakes x.1 then some (.event (.retentionWake (x.1 / 12) (x.1 % 12) [])) else none

/-- The turn of an empty agenda: the fabric's channels, acknowledgments, packets, results, the clause in flight, the device's agents, starts and
fetches, each as soon as it may be, and otherwise time. In safe mode only Bilael runs (24 R428). -/
def State.defaultTurn (s : State) : Turn :=
  if s.safeMode then .tick 1 else
  firstTurn
    [ (s.trips.findSome? fun t => t.way.head?).map .cross,
      (s.acks.find? fun a => a.trip.way.isEmpty).map fun a => .event (.storeAck a.unit),
      (s.packets.find? fun p => s.performable p).map fun p => .event (.packetPerform p.home p.src 0),
      (s.packets.find? fun p => !p.accepted && s.acceptable p && s.packetClear p).map fun p =>
        .event (.packetAccept p.src p.cls.idx),
      (s.globals.find? fun q => (s.globalNext q).isSome).map fun q => .event (.globalRoute q.id),
      s.groupTurn fun u g => (s.landable u g).map fun t => .event (.resultLands u t),
      s.groupTurn fun u g =>
        if (g.taking.isSome && g.settled && !g.isEngine) || (g.late.isSome && g.taking.isNone && g.clause.all fun c => !c.started) then
          some (.event (.trapDeliver u))
        else none,
      s.curTurn,
      s.groupTurn fun u g => if g.running && s.unitUp u then some (.issue u) else none,
      s.walkTurn,
      s.engineTurn,
      s.basinTurn,
      s.waitTurn,
      s.agentTurn,
      s.groupTurn fun u g =>
        if s.ready g && s.unitUp u && (decide (12288 ≤ u) || !s.held (coreOf u)) then
          some (.event (.clauseStart (if u < 12288 then coreOf u else 384 + (u - 12288))))
        else none,
      s.groupTurn fun u g => if g.mayFetch && g.headAddr.isSome && s.unitUp u then some (.event (.clauseFetch u)) else none,
      s.groupTurn fun u g => if g.wait == .exit && g.unacked == 0 && !g.isEngine then some (.event (.groupExit u)) else none,
      s.wakeTurn,
      s.groupTurn fun u g => if g.rereads && s.draw % 2 == 0 then some (.issue u) else none ]

/-! ### Laying an instruction before `step` -/

/-- Where a laid instruction stands: slot 0 of core 0, or the weir engine of stack 0. -/
def laidUnit (w : Nat) : Nat :=
  match decodeWord (BitVec.ofNat 64 w) with
  | .ok i => if i.engineOnly then engineUnit 0 else 0
  | .error _ => 0

/-- The address at which a laid clause stands. -/
def laidAddr : Dword := 0x10000

/-- The group that holds a laid instruction in its clause in flight: the resident one, or a group of one lane. -/
def State.laidGroup (s : State) (u : Nat) (w : Nat) : Group :=
  let g := (s.group? u).getD
    { blankGroup with
      wids := [0], vr := 511, sr := 127, acct := 16, obuf := 512, tlsb := 4096
      pc := [(0, laidAddr)], region := ⟨[(0, laidAddr)], 0, false⟩, engine := if u = 0 then none else some 0 }
  { g with
    pc := if g.pc.isEmpty then [(0, laidAddr)] else g.pc
    clause := some ⟨(g.headAddr).getD laidAddr, 0, [BitVec.ofNat 64 w], [], true, 0, false⟩
    wait := .no
    taking := none
    latchOk := 15 }

/-- The cell and the engine that a laid instruction's group needs. -/
def State.laidHost (s : State) (u : Nat) (g : Group) : State :=
  if u = 0 then
    match s.cell? g.cell with
    | some _ => s
    | none => s.putCell g.cell (newCell 0 0 g.ctx none 1 512)
  else
    match aget s.engines 0 with
    | some _ => s
    | none => { s with engines := aput s.engines 0 ⟨0, [], [], 0, none, 0⟩ }

end Sys2Proof.Machine
end

