-- ==== Sys2Proof/Machine/Step.lean ====
section
/-! DEFINITION. One step of the package: the next turn of its schedule (log entry 2). -/

namespace Sys2Proof.Machine

/-- One instruction of a clause in flight, with its operands read in the state it issues in (05 R116); its charge and its
energy are counted first (23 R412, R421). -/
def stepIssue (u : Nat) (s : State) : Host.Outcome State Fault Refusal :=
  match s.issuing u with
  | .idle s' => .next s'
  | .run i s' => exec i (s'.chargeIssue u)

/-- An event of the table whose operands name something that exists; its energy is counted first (23 R421). -/
def stepEvent (i : Instr) (s : State) : Host.Outcome State Fault Refusal :=
  if i.isEvent && i.wf then exec i (s.chargeEvent i) else .next s

/-- One turn. In safe mode only Bilael runs (24 R428; 10 R255). -/
def stepTurn (t : Turn) (s : State) : Host.Outcome State Fault Refusal :=
  if s.safeMode && !t.isSafe then .next s
  else
    match t with
    | .event i => stepEvent i s
    | .issue u => stepIssue u s
    | .perform u tok lane => .next (s.turnPerform u tok lane)
    | .tick ns => .next (s.turnTick ns)
    | .estimate die k n => .next (s.turnEstimate die k n)
    | .charge c n => .next (s.turnCharge c n)
    | .house p n => .next (s.turnHouse p n)
    | .firmware a => .next (s.turnFirmware a)
    | .timer a => .next (s.turnTimer a)
    | .wiring bad => .next (s.turnWiring bad)
    | .cross chan => .next (s.turnCross chan)
    | .remote k ans => .next (s.turnRemote k ans)
    | .far data => .next (s.turnFar data)
    | .foreign port crossings addr src r => .next (s.turnForeign port crossings addr src r)

/-- One step: the head of the agenda, or the turn that an empty agenda takes. -/
def step (s : State) : Host.Outcome State Fault Refusal :=
  match s.agenda with
  | [] => stepTurn s.defaultTurn s
  | t :: rest => stepTurn t { s with agenda := rest }

/-- `s` with the instruction of bits `w` as the next one to run: it stands in the clause in flight of the group at the
first slot (or of the first weir engine), and the agenda issues it next (log entry 18). -/
def State.withFetchWord (s : State) (_nbits w : Nat) : State :=
  let u := laidUnit w
  let g := s.laidGroup u w
  let s := (s.putGroup u g).laidHost u g
  { s with agenda := .issue u :: s.agenda, cur := u }

end Sys2Proof.Machine
end

