-- ==== Sys2Proof/Safety.lean ====
section
/-! DEFINITION. The terms in which claims are stated: a state whose memory is canonical, an issuer about to issue an
instruction, what an instruction leaves alone, and what an instruction of kind F writes. -/

namespace Sys2Proof.Machine

/-- The memory is in its canonical form. -/
def State.MemOk (s : State) : Prop := Memory.wf s.blankEpoch s.mem = true

/-- A step goes on. -/
def SafeStep (s : State) : Prop := ∃ t, step s = .next t

/-! ### Issue -/

/-- The issuer `u` is the one to issue, its group `g` has a clause in flight, and the flag that head `h` names does not
stand at 63 (05 R116, R118). -/
structure State.Issues (s : State) (u : Nat) (g : Group) (h : Head) : Prop where
  cur : s.cur = u
  group : s.group? u = some g
  clause : g.clause.isSome = true
  room : ¬(h.setf.toNat ≤ 11 ∧ g.flag h.setf.toNat = 63 ∧ g.active h ≠ 0)

/-- The clause in flight has a further instruction. -/
def Group.More (g : Group) : Prop :=
  match g.clause with
  | some c => c.next + 1 < c.words.length
  | none => False

/-! ### Frames -/

/-- Between `s` and `t` nothing changed but the group of `u` and the counter of free values: every byte of memory, every
device register, every other group and every other agent is as it was. -/
def State.Around (s t : State) (u : Nat) : Prop :=
  { t with groups := s.groups, draw := s.draw } = s ∧ (∀ a, t.byte a = s.byte a) ∧ ∀ k, k ≠ u → t.group? k = s.group? k

/-- A pending instruction but for what has landed of it and waits for the flag. -/
def Pend.unlanded (p : Pend) : Pend := { p with writes := [] }

/-- A group's state but for its v, s, predicate and LSTAT registers, its latches, its PC table and the clause in flight:
flags, return stack, accumulators, barriers, trap state and all else are as they were. -/
def Group.Keeps (g g' : Group) : Prop :=
  { g' with
    vregs := g.vregs, sregs := g.sregs, preds := g.preds, lstat := g.lstat, latch := g.latch, latchOk := g.latchOk
    pc := g.pc, clause := g.clause, readyAt := g.readyAt, urgent := g.urgent, pend := g.pend } = g ∧
  g'.pend.map Pend.unlanded = g.pend.map Pend.unlanded

/-! ### Results of kind F (04 R92 to R94, R99; 06 R144, R147) -/

/-- The instruction completes: of the package, only the group `g` of `u` changes, to `g'`, which goes on behind the
instruction and keeps what `Keeps` names. -/
def Runs (i : Instr) (s : State) (u : Nat) (g : Group) (t : State) (g' : Group) : Prop :=
  exec i s = .next t ∧ s.Around t u ∧ t.group? u = some g' ∧ g.Keeps g' ∧ g'.pc = g.advance.pc ∧
  g'.clause = g.advance.clause

/-- The lane is active and the instruction writes its destination back. -/
def writesBack (h : Head) (g : Group) (L : Nat) : Prop := (g.active h).getLsbD L = true ∧ h.nwb = false

/-- The v registers behind a vector result `r`: D, or the D pair where `wide`, in the active lanes unless NWB. -/
def VecRegs (h : Head) (d : Nat) (wide : Bool) (r : Nat → Dword) (g g' : Group) : Prop :=
  g'.sregs = g.sregs ∧
  (∀ L, L < 64 → writesBack h g L →
    g'.vreg d L = lowWord (r L) ∧ (wide = true → g'.vreg (d + 1) L = highWord (r L))) ∧
  ∀ n L, L < 64 → ¬(writesBack h g L ∧ (n = d ∨ (wide = true ∧ n = d + 1))) → g'.vreg n L = g.vreg n L

/-- The latch of a vector result: the result in active lanes, 0 in the others. -/
def VecLatch (h : Head) (r : Nat → Dword) (g g' : Group) : Prop :=
  g.More → ∀ b L, L < 64 → g'.latchOf b L =
    if b = h.lat then (if (g.active h).getLsbD L = true then r L else 0) else g.latchOf b L

/-- LSTAT bits that an instruction sets in its active lanes. -/
def SetsLstat (h : Head) (bits : Nat → Word) (g g' : Group) : Prop :=
  ∀ L, L < 64 → g'.lstatOf L = if (g.active h).getLsbD L = true then g.lstatOf L ||| bits L else g.lstatOf L

/-- The s registers behind a scalar result: s(D), or the pair, unless NWB or no lane is active. -/
def ScaRegs (h : Head) (d : Nat) (wide : Bool) (r : Dword) (g g' : Group) : Prop :=
  g'.vregs = g.vregs ∧
  (g.active h ≠ 0 → h.nwb = false → g'.sreg d = lowWord r ∧ (wide = true → g'.sreg (d + 1) = highWord r)) ∧
  ∀ n, ¬(g.active h ≠ 0 ∧ h.nwb = false ∧ (n = d ∨ (wide = true ∧ n = d + 1))) → g'.sreg n = g.sreg n

/-- The latch of a scalar result: every lane holds it. With no lane active the latches are as they were, and one that held
nothing is left open (log entry 28). -/
def ScaLatch (h : Head) (r : Dword) (g g' : Group) : Prop :=
  g.More → ∀ b L, L < 64 → (b = h.lat → g.active h ≠ 0 ∨ g.latchOk.getLsbD b.toNat = true) →
    g'.latchOf b L = if b = h.lat ∧ g.active h ≠ 0 then r else g.latchOf b L

/-- The v or s registers of a form that is vector or scalar by FN[3] (06 R145). -/
def FormRegs (h : Head) (sc : Bool) (d : Nat) (wide : Bool) (r : Nat → Dword) (g g' : Group) : Prop :=
  if sc = true then ScaRegs h d wide (r (lowest (g.active h))) g g' else VecRegs h d wide r g g'

/-- Its latch. -/
def FormLatch (h : Head) (sc : Bool) (r : Nat → Dword) (g g' : Group) : Prop :=
  if sc = true then ScaLatch h (r (lowest (g.active h))) g g' else VecLatch h r g g'

/-- Its LSTAT bits: a scalar form sets those of its lowest active lane in every active lane. -/
def FormLstat (h : Head) (sc : Bool) (bits : Nat → Word) (g g' : Group) : Prop :=
  SetsLstat h (if sc = true then fun _ => bits (lowest (g.active h)) else bits) g g'

/-- A form that is scalar or vector completes with the result `r` and its LSTAT bits, lane by lane. -/
def FormDone (i : Instr) (h : Head) (sc : Bool) (d : Nat) (wide : Bool) (r : Nat → Dword × Word) (s : State) (u : Nat)
    (g : Group) : Prop :=
  ∃ t g', Runs i s u g t g' ∧ FormRegs h sc d wide (fun L => (r L).1) g g' ∧ FormLatch h sc (fun L => (r L).1) g g' ∧
    FormLstat h sc (fun L => (r L).2) g g' ∧ g'.preds = g.preds

/-- The same wherever the instruction issues. -/
def WritesD (i : Instr) (h : Head) (sc : Bool) (d : Nat) (wide : Bool) (f : State → Nat → Group → Nat → Dword × Word) :
    Prop :=
  ∀ s u g, s.Issues u g h → FormDone i h sc d wide (f s u g) s u g

/-- A predicate instruction completes: `f` gives the lanes in which the result is true. p(D) takes it in the active lanes
unless NWB or D is p7; the latch holds 1 for true; every other register is as it was. -/
def WritesP (i : Instr) (h : Head) (d : BitVec 3) (f : State → Nat → Group → Nat → Bool) : Prop :=
  ∀ s u g, s.Issues u g h →
    ∃ t g', Runs i s u g t g' ∧ g'.vregs = g.vregs ∧ g'.sregs = g.sregs ∧ g'.lstat = g.lstat ∧
      (∀ L, L < 64 → writesBack h g L → d ≠ 7 → (g'.pred d).getLsbD L = f s u g L) ∧
      (∀ n L, L < 64 → ¬(writesBack h g L ∧ n = d ∧ d ≠ 7) → (g'.pred n).getLsbD L = (g.pred n).getLsbD L) ∧
      VecLatch h (fun L => if f s u g L = true then 1 else 0) g g'

/-! ### Results as the spec writes them -/

/-- An exact result held between two bounds, with SAT where it was clamped (06 R149). -/
def clampTo (lo hi x : Int) : Word × Word :=
  (BitVec.ofInt 32 (max lo (min hi x)), if lo ≤ x ∧ x ≤ hi then 0 else lsSAT)

/-- A sum or a difference under MOD 0 wrap, 1 .sat and 2 .usat (06 R149). -/
def sumUnder (mod : BitVec 2) (op : Int → Int → Int) (a b : Word) : Word × Word :=
  if mod = 0 then (BitVec.ofInt 32 (op a.toInt b.toInt), 0)
  else if mod = 1 then clampTo (-2 ^ 31) (2 ^ 31 - 1) (op a.toInt b.toInt)
  else clampTo 0 (2 ^ 32 - 1) (op a.toNat b.toNat)

/-- |a| and −a: in wrap mode OV marks the value without a counterpart (06 R149). -/
def signUnder (mod : BitVec 2) (x : Int) : Word × Word :=
  if mod = 0 then (BitVec.ofInt 32 x, if x = 2 ^ 31 then lsOV else 0) else clampTo (-2 ^ 31) (2 ^ 31 - 1) x

/-- A word as an integer: unsigned under .n (06 R148). -/
def wordInt (uns : Bool) (a : Word) : Int := if uns then (a.toNat : Int) else a.toInt

/-- The quotient or remainder of R151 with its LSTAT bits. -/
def divResult (signed quot : Bool) (x y : Word) : Word × Word :=
  if y = 0 then
    (if quot = false then x else if signed = false then 0xFFFFFFFF else if x.toInt < 0 then 0x80000000 else 0x7FFFFFFF,
      lsDZ)
  else if signed = true ∧ x.toInt = -2 ^ 31 ∧ y.toInt = -1 then (if quot = true then 0x80000000 else 0, lsOV)
  else
    let q := (wordInt (!signed) x).tdiv (wordInt (!signed) y)
    (BitVec.ofInt 32 (if quot = true then q else wordInt (!signed) x - q * wordInt (!signed) y), 0)

/-- A division form with a lane that takes the arithmetic trap (06 R151): one that computes with a zero divisor. -/
def divTraps (s : State) (u : Nat) (g : Group) (h : Head) (x : Body2) : Prop :=
  x.mod = 1 ∧ ∃ L, L < 64 ∧ (g.active h).getLsbD L = true ∧ (x.sc = true → L = lowest (g.active h)) ∧
    srcI32 s u g L x.b = 0

/-- The exact rational of a finite value. -/
def FVal.rat : FVal → ℚ
  | .fin n m e => (if n then -1 else 1) * (m : ℚ) * 2 ^ e
  | _ => 0

/-- A finite value. -/
def FVal.finite : FVal → Bool
  | .fin .. => true
  | _ => false

/-- The condition of an ordered comparison on a sign of a − b (04 R102): EQ, NE, LT, LE, GT, GE. -/
def condHolds (c : BitVec 3) (d : Ordering) : Bool :=
  [d == .eq, d != .eq, d == .lt, d != .gt, d == .gt, d != .lt].getD c.toNat false

/-- A register index of MOVX is out of range in some active lane (06 R159). -/
def movxBad (s : State) (u : Nat) (g : Group) (h : Head) (a b : Src) : Prop :=
  ∃ L, L < 64 ∧ (g.active h).getLsbD L = true ∧ g.vr < (src32 s u g L a + src32 s u g L b).toNat

/-- Source A of a lane that a cross-lane form names, or the value that stands for a lane that is absent (06 R163). -/
def fromLane (s : State) (u : Nat) (g : Group) (a : Src) (j : Int) (other : Word) : Word :=
  if 0 ≤ j ∧ j < 64 ∧ g.present.getLsbD j.toNat = true then src32 s u g j.toNat a else other

/-- A bit of a string of two words, `lo` below `hi`. -/
def bitOf2 (hi lo : Word) (k : Nat) : Bool := if k < 32 then lo.getLsbD k else hi.getLsbD (k - 32)

/-- A field width or place of BFX and BFI (06 R154). -/
def fieldOf (x : Word) : Nat := min (x.toNat % 256) 32

/-- Bit j of the operand of BFX: past bit 31 the sign under .i, or 0 (06 R154). -/
def bfxBit (signed : Bool) (a : Word) (j : Nat) : Bool := if j < 32 then a.getLsbD j else signed && a.getLsbD 31

/-- Bit k of BFX's result. -/
def bfxOut (signed : Bool) (a b c : Word) (k : Nat) : Bool :=
  if k < fieldOf c then bfxBit signed a (fieldOf b + k)
  else signed && decide (0 < fieldOf c) && bfxBit signed a (fieldOf b + fieldOf c - 1)

/-- Bit k of BPERM's result (06 R156). -/
def bpermOut (a b c : Word) (k : Nat) : Bool :=
  let ctl := c.toNat / 2 ^ (8 * (k / 8)) % 256
  let j := 8 * (ctl % 8)
  match ctl / 8 % 4 with
  | 0 => bitOf2 b a (j + k % 8)
  | 1 => bitOf2 b a (j + 7)
  | 2 => false
  | _ => true

/-- An instruction whose 32-bit result has the bits `b`, in its form of D. -/
def WritesBits (i : Instr) (h : Head) (sc : Bool) (d : BitVec 9) (b : State → Nat → Group → Nat → Nat → Bool) : Prop :=
  WritesD i h sc d.toNat false fun s u g L => plain (BitVec.ofFnLE fun k : Fin 32 => b s u g L k)

/-- The lanes of Q (06 R162): active, with p[A] true. -/
def voters (g : Group) (h : Head) (a : BitVec 3) : List Nat :=
  (List.range 64).filter fun L => (g.active h).getLsbD L && (g.pred a).getLsbD L

/-- A comparison combined with p[CP] (06 R160). -/
def combined (g : Group) (L : Nat) (b : CmpB) (r : Bool) : Bool :=
  match b with
  | .i _ => r
  | .v _ k p =>
    if k = 0 then r
    else if k = 1 then r && (g.pred p).getLsbD L
    else if k = 2 then r || (g.pred p).getLsbD L
    else xor r ((g.pred p).getLsbD L)

/-- The order of two values that are not NaN. -/
def FVal.order (a b : FVal) : Ordering := if a.lt b = true then .lt else if b.lt a = true then .gt else .eq

/-- FCMP's condition (06 R160): 6 ORD, 7 UNO. -/
def fcmpHolds (c : BitVec 3) (a b : FVal) : Bool :=
  if a.isNan = true ∨ b.isNan = true then c == 1 || c == 7 else c == 6 || condHolds c (a.order b)

/-- An exact value rounded to an integer (07 R183 on integers; 08 R198, R208). -/
def roundRat (m : RMode) (x : ℚ) : ℤ :=
  match m with
  | .rz => if x < 0 then ⌈x⌉ else ⌊x⌋
  | .ru => ⌈x⌉
  | .rd => ⌊x⌋
  | .rne =>
    let f := ⌊x⌋
    if x - f < 1 / 2 then f else if 1 / 2 < x - f then f + 1 else if f % 2 = 0 then f else f + 1

/-- A floating-point result (08 R195): a NaN is canonical, with NV unless a NaN input alone made it. -/
def fpResult (F : Fmt) (m : RMode) (nanIn invalid : Bool) (v : FVal) : Nat × Word :=
  if v.isNan = true then (F.nanCode, if nanIn = true ∧ invalid = false then 0 else lsNV) else roundTo F m v

/-- a + b, a × b and a × b + c of one element (08 R195, R196). -/
def fpAdd (F : Fmt) (m : RMode) (a b : FVal) : Nat × Word :=
  fpResult F m (a.isNan || b.isNan) false (a.add (m == .rd) b)
def fpMul (F : Fmt) (m : RMode) (a b : FVal) : Nat × Word := fpResult F m (a.isNan || b.isNan) false (a.mul b)
def fpFma (F : Fmt) (m : RMode) (a b c : FVal) : Nat × Word :=
  fpResult F m (a.isNan || b.isNan || c.isNan) (a.zeroInf b) ((a.mul b).add (m == .rd) c)

/-- The class of an FP32 value (08 R199). -/
def classOfVal (v : FVal) : Nat :=
  match v with
  | .nan => 8
  | .inf n => if n then 0 else 7
  | .fin n m _ =>
    if m = 0 then (if n then 3 else 4)
    else if |v.rat| < 2 ^ (-126 : ℤ) then (if n then 2 else 5)
    else if n then 1 else 6

/-- The lesser or the greater of two values on codes, −0 below +0 and a NaN missing (08 R197). -/
def fpPick (F : Fmt) (mx : Bool) (x y : Nat) : Nat :=
  let a := F.decode x
  let b := F.decode y
  if a.isNan = true ∧ b.isNan = true then F.nanCode
  else if a.isNan = true then y
  else if b.isNan = true then x
  else
    let below := a.lt b = true ∨ (b.lt a = false ∧ a.sign = true ∧ b.sign = false)
    if below then (if mx = true then y else x) else if mx = true then x else y

/-- The formats of 07 that RoundToFormat has as a target, E8M0 apart. -/
def formats : List Fmt := [fp32, fp16, bf16, e4m3, e5m2, e3m2, e2m1, sd6, sd4, acc56, fp32p 12, fp32p 22]

/-- The value that the code above the largest finite magnitude would have if the exponent were not limited (07 R183). -/
def Fmt.beyond (F : Fmt) : ℚ :=
  ((2 ^ F.man + (F.maxCode + 1) % 2 ^ F.man : Nat) : ℚ) *
    2 ^ (((F.maxCode + 1) / 2 ^ F.man : Nat) - (F.bias : ℤ) - (F.man : ℤ))

/-- The rounded value exceeds the largest finite value (07 R183, steps 2 and 4). -/
def overflows (F : Fmt) (m : RMode) (v : FVal) : Prop :=
  let top := (F.decode F.maxCode).rat
  let mid := (top + F.beyond) / 2
  match m with
  | .rne => mid < |v.rat| ∨ (mid = |v.rat| ∧ F.maxCode % 2 = 1)
  | .rz => F.beyond ≤ |v.rat|
  | .ru => if v.sign = true then F.beyond ≤ |v.rat| else top < |v.rat|
  | .rd => if v.sign = true then top < |v.rat| else F.beyond ≤ |v.rat|

/-- The canonical tree of R170 over `2 ^ k` logical lanes from `lo`. -/
def treeOf (op : Word → Word → Word) (v : Nat → Option Word) : Nat → Nat → Option Word
  | 0, lo => v lo
  | k + 1, lo =>
    match treeOf op v k lo, treeOf op v k (lo + 2 ^ k) with
    | none, y => y
    | x, none => x
    | some x, some y => some (op x y)

/-- The fold of R171 from the left; `one` of no value. -/
def foldOf (op : Word → Word → Word) (one : Word) : List Word → Word
  | [] => one
  | x :: l => l.foldl op x

/-! ### Control (05 R113, R132 to R135) -/

/-- The lane is active. -/
def Group.acts (g : Group) (h : Head) (L : Nat) : Prop := (g.active h).getLsbD L = true

/-- A valid control target (05 R132): below 2^56 and aligned to 8. -/
def validTarget (t : Dword) : Prop := t.toNat < 2 ^ 56 ∧ t.toNat % 8 = 0

/-- The clause in flight of `g` ends in `g'`: each head-run lane holds the address that `t` gives, or leaves the table;
every other lane is where it was; beside the PC table only the latches and the readiness are new. -/
structure Group.Leaves (g g' : Group) (t : Nat → Option Dword) : Prop where
  ends : g'.clause = none
  lanes : ∀ L, aget g'.pc L = if g.headRun.getLsbD L = true then t L else aget g.pc L
  rest : { g' with
    pc := g.pc, clause := g.clause, latch := g.latch, latchOk := g.latchOk, readyAt := g.readyAt
    urgent := g.urgent } = g

/-- The instruction completes by a transfer of control: the lanes of `m` go to their targets, the other head-run lanes to
NextClause; nothing else of the package changes. -/
def Jumps (i : Instr) (s : State) (u : Nat) (g : Group) (m : Nat → Bool) (t : Nat → Dword) : Prop :=
  ∃ s' g', exec i s = .next s' ∧ s.Around s' u ∧ s'.group? u = some g' ∧
    g.Leaves g' fun L => some (if m L = true then t L else g.nextClause)

/-- Lane L is the lowest of the lanes of `m` whose target is not valid. -/
def firstBadTarget (m : Nat → Bool) (t : Nat → Dword) (L : Nat) : Prop :=
  L < 64 ∧ m L = true ∧ ¬validTarget (t L) ∧ ∀ K, K < L → m K = true → validTarget (t K)

/-- The lanes that BRA takes to its target (05 R134). -/
def takes (mode : BraMode) (g : Group) (h : Head) (L : Nat) : Bool :=
  match mode with
  | .plain => (g.active h).getLsbD L
  | .any => g.headRun.getLsbD L && g.active h != 0
  | .all => g.headRun.getLsbD L && g.active h == g.headRun

/-- The group's registers, predicates and LSTAT are the same. -/
def Group.SameRegs (g g' : Group) : Prop :=
  g'.vregs = g.vregs ∧ g'.sregs = g.sregs ∧ g'.preds = g.preds ∧ g'.lstat = g.lstat

/-- The memory and the device registers are the same. -/
def State.SameMem (s t : State) : Prop :=
  (∀ a, t.byte a = s.byte a) ∧ t.poison = s.poison ∧ t.full = s.full ∧ t.regs = s.regs

/-! ### Traps (21 R389, R394, R395) -/

/-- No arrival of the group stands open in a rendezvous of its cell. -/
def State.noArrival (s : State) (g : Group) : Prop :=
  ∀ c, s.cell? g.cell = some c → ∀ x ∈ c.rdv, ∀ m ∈ x.2.members, m.uid ≠ g.uid

/-- `g` has entered the handler as `g'`, from the region start `rg`: each lane of the region's PC table at `entry`, the
region start and the record in the shadow, TADDR, and a new region at the entry; registers, predicates, scratch and return
stacks are as they were. -/
structure Group.Enters (g g' : Group) (rg : Region) (r : TrapRec) (entry : Dword) : Prop where
  pc : ∀ L, aget g'.pc L = (aget rg.pcs L).map fun _ => entry
  shadow : g'.shadow = some (rg, r)
  taddr : g'.taddr = r.addr
  intrap : g'.intrap = true
  region : g'.region = ⟨g'.pc, 0, false⟩
  resume : g'.resume = none
  taking : g'.taking = none
  clause : g'.clause = none
  same : g.SameRegs g' ∧ g'.tscr = g.tscr ∧ g'.depth = g.depth ∧ g'.rstack = g.rstack ∧ g'.unacked = g.unacked

/-- The handler's address of a cause: TVEC base + 0x40 × cause (21 R394). -/
def trapEntry (s : State) (ctx cause : Nat) : Dword :=
  BitVec.ofNat 64 (bits (s.reg (.tvec ctx)) 55 12 * 2 ^ 12 + 0x40 * cause)

/-- A taken trap is delivered to a handler: it is not fatal, the group is in none, and TVEC is enabled. -/
def State.delivers (s : State) (g : Group) (r : TrapRec) : Prop :=
  fatalCause r.cause = false ∧ g.intrap = false ∧ (s.reg (.tvec g.ctx)).getLsbD 0 = true

/-- The record of a trap that ends its group: a second trap in a handler is a double trap (21 R395). -/
def endRec (g : Group) (r : TrapRec) : TrapRec :=
  if fatalCause r.cause = false ∧ g.intrap = true then { r with cause := causeDouble, info := BitVec.ofNat 64 r.cause }
  else r

/-- The instruction completes in its group once `s1`, the state after its shared effect, has been reached: beside `s1` only
the group changes, to `g'`, which goes on behind the instruction. -/
def RunsVia (i : Instr) (s s1 : State) (u : Nat) (g : Group) (t : State) (g' : Group) : Prop :=
  exec i s = .next t ∧ s1.Around t u ∧ t.group? u = some g' ∧ g.Keeps g' ∧ g'.pc = g.advance.pc ∧
  g'.clause = g.advance.clause

/-- The CSRs of a group (21 R403). -/
def csrOf (s : State) (g : Group) (n : Nat) : Dword :=
  let r := (g.shadow.map (·.2)).getD ⟨0, 0, 0, 0, 0⟩
  let idx := (g.shadow.map (·.1.index)).getD 0
  match n with
  | 0 => BitVec.ofNat 64 ((if s.groupPriv g = true then 1 else 0) + (if g.intrap = true then 2 else 0) + 2 ^ 8 * g.ctx)
  | 1 => BitVec.ofNat 64 r.cause
  | 2 => g.taddr
  | 3 => BitVec.ofNat 64 (r.idx + 2 ^ 4 * idx)
  | 4 => r.info
  | 5 => r.mask
  | 6 => 0
  | k => g.scratch (k - 16)

/-- An invalidation names the translation (21 R405). -/
def tlbNames (s : State) (g : Group) (m : TlbMode) (e : TlbEntry) : Prop :=
  let r (n : BitVec 7) : Nat := (g.sread s.draw n.toNat).toNat
  let p (n : BitVec 7) : Nat :=
    (g.sread s.draw n.toNat).toNat + 2 ^ 32 * (g.sread s.draw (n.toNat + 1)).toNat
  match m with
  | .page c a => e.ctx = r c ∧ e.region = p a / 2 ^ 16
  | .ctx c => e.ctx = r c
  | .gpa c a => e.ctx = r c ∧ p a / 2 ^ 16 ∈ e.gpas
  | .all => True

/-! ### Kind-A instructions (05 R117, R118; 09 R237 to R240) -/

/-- The instruction issues with its last effect to come: from `s` to `t`, which beside the group is `s1`; its group goes on
behind it with the flag raised, a pending entry of these lanes and `left` parts to come, and its registers as they
were. -/
def Posts (i : Instr) (h : Head) (s s1 : State) (u : Nat) (g : Group) (lanes : List LaneReq) (left : Nat) (t : State) :
    Prop :=
  exec i s = .next t ∧ s1.Around t u ∧
  ∃ g', t.group? u = some g' ∧ g.SameRegs g' ∧ g.Keeps { g' with flags := g.flags, pend := g.pend } ∧
    g'.pc = g.advance.pc ∧ g'.clause = g.advance.clause ∧
    (∀ n, g'.flag n = if h.setf.toNat = n ∧ n ≤ 11 then g.flag n + 1 else g.flag n) ∧
    g'.pend = g.pend ++ [⟨s.uid, flagOf h, i, g.clauseAddr, g.clauseIdx, g.active h, h.nwb, lanes, [], left, none⟩]

/-- The same of an access that commits its region before and makes the group wait until it has been performed (09 R224; 14
R319). -/
def PostsS (i : Instr) (h : Head) (s s1 : State) (u : Nat) (g : Group) (tok : Nat) (lanes : List LaneReq) (left : Nat)
    (t : State) : Prop :=
  exec i s = .next t ∧ s1.Around t u ∧ ∃ g1 g', s1.group? u = some g1 ∧ t.group? u = some g' ∧ g.SameRegs g' ∧
    { g' with flags := g1.flags, pend := g1.pend, wait := g1.wait, unacked := g1.unacked } = g1 ∧
    g1.buf = [] ∧ g1.pc = g.pc ∧ g1.clause = g.clause ∧ g'.wait = .drain tok ∧ g'.unacked = g1.unacked + left ∧
    (∀ n, g'.flag n = if h.setf.toNat = n ∧ n ≤ 11 then g1.flag n + 1 else g1.flag n) ∧
    g'.pend = g1.pend ++ [⟨tok, flagOf h, i, g.clauseAddr, g.clauseIdx, g.active h, h.nwb, lanes, [], left, none⟩]

/-- No lane raises a trap, and none reaches an S page. -/
def LanesPass (ls : List Lane) : Prop := ∀ l ∈ ls,
  match l.chk with
  | .ok ps => ∀ p ∈ ps, p.kind ≠ .s
  | .trap _ _ => False
  | .fault .. => True

/-- No lane meets a translation fault either. -/
def LanesClean (ls : List Lane) : Prop := LanesPass ls ∧ faultsOf ls = []

/-- What a lane becomes: pending on its pieces, with the bytes that its group has buffered for them where `own`, and away
where its address is another package's and `leaves`; or, after a translation fault, waiting for its walk to end (21 R384). -/
def laneWaits (g : Group) (own leaves : Bool) (st : Nat → LaneSt) (l : Lane) (q : LaneReq) : Prop :=
  q.lane = l.lane ∧ q.addr = l.addr ∧ q.aux = l.aux ∧
  match l.chk with
  | .ok ps => q.pieces = ps ∧ q.st = (if leaves = true ∧ (∃ p ∈ ps, p.glob = true) then .away else st l.lane) ∧
    ∀ a b, (a, b) ∈ q.own ↔
      own = true ∧ bufByte g.buf (ps.any (·.glob)) a = some b ∧ ∃ p ∈ ps, p.pa ≤ a ∧ a < p.pa + p.len
  | .fault .. => q.pieces = [] ∧ q.st = .walking ∧ ∀ a b, (a, b) ∈ q.own ↔ own = true ∧ bufByte g.buf false a = some b
  | .trap _ _ => False

/-- The lanes that are away have set out for the Izeus port at the entry stack of their address (10 R248, R259). -/
def setsOut (u : Nat) (g : Group) (tok : Nat) (lanes : List LaneReq) (new : List GlobPacket) : Prop :=
  List.Forall₂ (fun (q : LaneReq) (x : GlobPacket) =>
    x.addr = q.addr ∧ x.port = izeusOf (entryGlobal u q.addr) 8 ∧ x.crossings = 0 ∧ x.src = srcUnit u ∧ x.ctx = some g.ctx ∧
      x.home = none ∧ x.out = false ∧ x.what = .lane u g.uid tok q.lane)
    (lanes.filter fun q => q.st == .away) new

/-- The page requests of some translation faults, by stage, level, reason and address, are outstanding (21 R383). -/
def State.asksFor (t : State) (ctx : Nat) (faults : List (Nat × Nat × Nat × Nat)) (reqs : List Nat) : Prop :=
  let asks (id : Nat) (f : Nat × Nat × Nat × Nat) : Prop :=
    ∃ q ∈ t.requests, q.id = id ∧ q.ctx = ctx ∧ q.stage = f.1 ∧ q.region = f.2.2.2 / 65536
  (∀ f ∈ faults, ∃ id ∈ reqs, asks id f) ∧ ∀ id ∈ reqs, ∃ f ∈ faults, asks id f

/-- From `s1`, whose region has been committed where the instruction commits it, to `t`: a store-class access has met these
translation faults, by stage, level, reason and address (21 R385). The group of `u` stands at the start of its region with an
empty buffer and in no clause, and waits for the page request of each fault; nothing was stored and no register changed. -/
def Aborted (s1 t : State) (u : Nat) (faults : List (Nat × Nat × Nat × Nat)) : Prop :=
  ∃ g1 g' reqs, s1.group? u = some g1 ∧ t.group? u = some g' ∧ s1.SameMem t ∧ g1.SameRegs g' ∧ g'.buf = [] ∧
    g'.pc = g1.region.pcs ∧ g'.clause = none ∧
    g'.resume = (if g1.region.index = 0 ∧ g1.region.half = false then none else some (g1.region.index, g1.region.half)) ∧
    g'.wait = .fault reqs ∧ t.packets = s1.packets ∧ (∀ k, k ≠ u → t.group? k = s1.group? k) ∧ t.asksFor g1.ctx faults reqs

/-- An access of an engine program has met translation faults (14 R321): it waits for their page requests, to issue again. -/
def WaitsAgain (s t : State) (u : Nat) (g : Group) (faults : List (Nat × Nat × Nat × Nat)) : Prop :=
  State.Around { s with requests := t.requests, uid := t.uid } t u ∧
  ∃ reqs, t.group? u = some { g with wait := .fault reqs } ∧ t.asksFor g.ctx faults reqs

/-- The first trap of the lanes, in ascending lane order (09 R238). -/
def lowestTrap (ls : List Lane) (c : Nat) (i : Dword) : Prop :=
  ∃ pre l post, ls = pre ++ l :: post ∧ l.chk = .trap c i ∧ ∀ m ∈ pre, ∀ c' i', m.chk ≠ .trap c' i'

/-- The course of a load or another access with a result, with lanes active (05 R117, R118; 09 R224, R238, R239; 14 R319, R321;
21 R384): the lowest lane's trap; in an engine program the wait for page requests; otherwise the pending lanes, after which
the group goes on, or waits where a lane reaches an S page or the group is an engine's. `s0` is `s` with the places that
LDB.w takes. -/
def LoadCourse (i : Instr) (h : Head) (s s0 : State) (u : Nat) (g : Group) (own : Bool) (st : Nat → LaneSt) (rq : List Lane) :
    Prop :=
  (∀ k x, lowestTrap rq k x → exec i s = .next (s.trapAt u k x (g.active h))) ∧
  (firstTrap rq = none → g.isEngine = true → faultsOf rq ≠ [] →
    ∃ t, exec i s = .next t ∧ WaitsAgain s t u g (faultsOf rq)) ∧
  (firstTrap rq = none → g.isEngine = false ∨ faultsOf rq = [] → ∃ t ls new,
    List.Forall₂ (laneWaits g own true st) rq ls ∧ setsOut u g s.uid ls new ∧
    (g.isEngine = false → anyS rq = false → Posts i h s
      { s0 with tlb := t.tlb, objects := t.objects, uid := t.uid, globals := s.globals ++ new } u g ls 0 t) ∧
    (g.isEngine = true ∨ anyS rq = true → (∃ q ∈ ls, q.st.stays = false) → ∃ s1,
      s1 = State.commit { s0 with tlb := t.tlb, objects := t.objects, uid := s.uid + 1 } u g.clauseIdx false ∧
      PostsS i h s { s1 with uid := t.uid, globals := s1.globals ++ new } u g s.uid ls 0 t ∧ s.SameMem t))

/-- The word `k` of a load's result, of the number `x` that its bytes hold (09 R239; 04 R103). -/
def loadValue (sz : LdSize) (x k : Nat) : Word :=
  match sz with
  | .i8 => BitVec.ofInt 32 (if x < 2 ^ 7 then x else (x : Int) - 2 ^ 8)
  | .i16 => BitVec.ofInt 32 (if x < 2 ^ 15 then x else (x : Int) - 2 ^ 16)
  | _ => BitVec.ofNat 32 (x / 2 ^ (32 * k))

/-- Registers of a load's result. -/
def loadRegs : LdSize → Nat
  | .b64 => 2
  | .b128 => 4
  | _ => 1

/-- The byte that a lane stores to an address of this package, or of another where `glob`. -/
def laneStores (glob : Bool) (val : Nat → List Byte) (l : Lane) (a : Nat) : Option Byte :=
  ((l.pieces.flatMap fun p => (List.range p.len).map fun i => (p.glob, p.pa + i)).zip (val l.lane)).find?
    (fun x => x.1 == (glob, a)) |>.map (·.2)

/-- The byte that a store's lanes leave at an address: the highest lane's (09 R240). -/
def stored (glob : Bool) (val : Nat → List Byte) (ls : List Lane) (a : Nat) : Option Byte :=
  ls.foldl (fun r l => (laneStores glob val l a).or r) none

/-- The last lane that writes a granule stores poisoned bytes there (12 R306). -/
def poisonLeft (bad : Nat → Bool) (ls : List Lane) (k : Nat) : Bool :=
  ls.foldl (fun r l => if l.pieces.any fun p => granule p.pa == k then bad l.lane else r) false

/-- A store's entries in the buffer: bytes of one aligned block and of one kind each, as the lanes left them, the full bits of
their granules where `full`, and the poison of what the lanes of `bad` stored (05 R124; 09 R240; 12 R306). -/
def storeEntry (full : Bool) (bad : Nat → Bool) (val : Nat → List Byte) (ls : List Lane) (x : BufItem) : Prop :=
  ∃ glob kind data fs po, x = .bytes glob kind data fs po ∧ data ≠ [] ∧
    (∀ k, k ∈ po ↔ (∃ y ∈ data, granule y.1 = k) ∧ poisonLeft bad ls k = true) ∧
    (∃ l ∈ ls, ∃ p ∈ l.pieces, p.glob = glob ∧ p.kind = kind) ∧ (∀ y ∈ data, ∀ z ∈ data, y.1 / 64 = z.1 / 64) ∧
    (∀ y ∈ data, stored glob val ls y.1 = some y.2) ∧ ∀ k, k ∈ fs ↔ full = true ∧ ∃ y ∈ data, granule y.1 = k

/-- Every byte that a store leaves is on its way in a packet of its group. -/
def sentOut (t : State) (g : Group) (tok : Nat) (val : Nat → List Byte) (ls : List Lane) : Prop :=
  ∀ glob a b, stored glob val ls a = some b → ∃ p data fs po, p ∈ t.sent ∧ p.uid = g.uid ∧ p.tok = some tok ∧
    p.glob.isSome = glob ∧ p.body = .write data fs po ∧ (a, b) ∈ data

/-! ### Packets (05 R125; 10 R250, R251; 09 R229) -/

/-- The packet that an entry of the buffer becomes when it drains; none of a fence's marker. -/
def itemBody : BufItem → Option (PBody × OrdClass × Nat)
  | .bytes _ kind data full poison => some (.write data full poison, classOf kind, ((data.head?).map (·.1)).getD 0)
  | .fill start n set _ => some (.fill start n set, classOf .c, 16 * start)
  | .marker => none

/-- The entries of a buffer, each with the number of fences behind it. -/
def behind : List BufItem → List (BufItem × Nat)
  | [] => []
  | x :: t => (x, (t.filter fun y => y == .marker).length) :: behind t

/-- An entry holds bytes of another package. -/
def itemGlob : BufItem → Bool
  | .bytes glob _ _ _ _ => glob
  | _ => false

/-- A packet is what an entry of the buffer becomes: of the group, not yet accepted, toward the home of its address, and
released by the fences before it (17 R346). -/
def drained (s : State) (u : Nat) (g : Group) (x : BufItem × Nat) (p : Packet) : Prop :=
  itemBody x.1 = some (p.body, p.cls, p.pa) ∧ p.home = s.homeOf u p.pa ∧ p.src = srcUnit u ∧ p.unit = u ∧ p.uid = g.uid ∧
    p.accepted = false ∧ p.seq = none ∧ p.ctx = some g.ctx ∧ p.rel = none ∧
    p.glob = (if itemGlob x.1 = true then some (BitVec.ofNat 64 p.pa) else none) ∧
    p.rels = g.fences.take (g.fences.length - x.2)

/-- A packet for another package is on its way to the Izeus port at the entry stack of its address (10 R248, R259). -/
def bound (u : Nat) (g : Group) (p : Packet) (x : GlobPacket) : Prop :=
  x.what = .store p ∧ p.glob = some x.addr ∧ x.port = izeusOf (entryGlobal u x.addr) 8 ∧ x.crossings = 0 ∧ x.src = srcUnit u ∧
    x.ctx = some g.ctx ∧ x.home = none ∧ x.out = false

/-- The packets that drain from a buffer are those of its entries in program order; those for another package go to its
port, and fences send their markers between the others. -/
def drainsAs (s : State) (u : Nat) (g : Group) (items : List BufItem) (new : List Packet) (far : List GlobPacket) : Prop :=
  let l := (behind items).filter fun x => x.1 != .marker
  List.Forall₂ (drained s u g) (l.filter fun x => !itemGlob x.1) (new.filter fun p => p.body != .marker) ∧
  List.Forall₂ (fun x y => ∃ p, drained s u g x p ∧ bound u g p y) (l.filter fun x => itemGlob x.1) far ∧
  ∀ p ∈ new, p.body = .marker → p.unit = u ∧ p.uid = g.uid ∧ p.cls = .strict ∧ p.accepted = false

/-- What a byte of memory holds after a read-modify-write of `n` bytes at `pa`. -/
def rmwByte (s : State) (pa n : Nat) (new : Dword) (a : Nat) : Byte :=
  if pa ≤ a ∧ a < pa + n then BitVec.ofNat 8 (new.toNat / 2 ^ (8 * (a - pa))) else s.byte a

/-- The number that an atomic takes an operand as (09 R243). -/
def atomInt (b64 signed : Bool) (x : Dword) : Int :=
  if b64 then (if signed then x.toInt else x.toNat) else if signed then (lowWord x).toInt else (lowWord x).toNat

/-- The new value of an atomic of `op` (09 R243), on its 32 or 64 bits. -/
def atomResult (op : BitVec 4) (b64 : Bool) (old v w : Dword) : Int :=
  let s := atomInt b64 true
  let n := atomInt b64 false
  match op.toNat with
  | 0 => n old + n v
  | 1 => min (s old) (s v)
  | 2 => max (s old) (s v)
  | 3 => min (n old) (n v)
  | 4 => max (n old) (n v)
  | 5 => n (old &&& v)
  | 6 => n (old ||| v)
  | 7 => n (old ^^^ v)
  | 8 => n v
  | _ => if n old = n v then n w else n old

/-- The region that opens behind an instruction marked E (05 R126): at the next instruction of its clause, or at the start of
the clause that follows. -/
def Group.nextRegion (g : Group) : Region :=
  match g.clause with
  | some c => ⟨g.pc, c.next, c.half⟩
  | none => ⟨g.pc, 0, false⟩

/-- An instruction marked E issues (05 R125): `s1` has its region committed; behind it the group stands as `g'` in the region
that follows, with its registers as they were. -/
def GoesOnE (i : Instr) (s s1 : State) (u : Nat) (g : Group) (t : State) (g1 g' : Group) : Prop :=
  exec i s = .next t ∧ s1.group? u = some g1 ∧ t.group? u = some g' ∧ g.SameRegs g' ∧ g'.pc = g.advance.pc ∧
    g'.clause = g.advance.clause ∧ g'.region = g'.nextRegion

/-- The same with its last effect to come: the flag raised, and a pending entry. -/
def PostsE (i : Instr) (h : Head) (s s1 : State) (u : Nat) (g : Group) (lanes : List LaneReq) (left : Nat) (t : State) :
    Prop :=
  ∃ g1 g', GoesOnE i s s1 u g t g1 g' ∧ s1.Around t u ∧
    g1.Keeps { g' with flags := g1.flags, pend := g1.pend, region := g1.region } ∧
    (∀ n, g'.flag n = if h.setf.toNat = n ∧ n ≤ 11 then g1.flag n + 1 else g1.flag n) ∧
    g'.pend = g1.pend ++ [⟨s.uid, flagOf h, i, g.clauseAddr, g.clauseIdx, g.active h, h.nwb, lanes, [], left, none⟩]

/-- Without an active lane an instruction marked E commits its region and nothing else (05 R125). -/
def CommitsOnly (i : Instr) (s : State) (u : Nat) (g : Group) : Prop :=
  ∃ t g1 g', GoesOnE i s (s.commit u g.clauseIdx false) u g t g1 g' ∧ (s.commit u g.clauseIdx false).Around t u ∧
    g1.Keeps { g' with region := g1.region }

/-! ### The memory model (17 R344 to R350) -/

/-- A group's state but for what it holds of the memory model: what happens before its next access, the values that it has
returned, the releases that it has read from, its fences and what its PFENCEs cover. -/
def Group.KeepsBut (g g' : Group) : Prop :=
  g.Keeps { g' with
    view := g.view, viewU := g.viewU, reads := g.reads, heard := g.heard, jobs := g.jobs, fences := g.fences
    covers := g.covers, coversK := g.coversK }

/-- A group has acquired a release at a scope, where the two are in mutual scope (17 R341, R346, R350). -/
def Group.Took (g' : Group) (scope : Nat) (me : Party) (r : Rel) : Prop :=
  inMutual scope me r.scope r.who = true →
    (∀ w ∈ r.view.known, w ∈ g'.view.known) ∧ (∀ w ∈ r.view.read, w ∈ g'.view.read) ∧ (r.job ≠ 0 → r.job ∈ g'.jobs)

/-- A view has taken over a release at a scope, where the two are in mutual scope (17 R341, R346). -/
def View.Took (v : View) (scope : Nat) (me : Party) (r : Rel) : Prop :=
  inMutual scope me r.scope r.who = true → (∀ w ∈ r.view.known, w ∈ v.known) ∧ ∀ w ∈ r.view.read, w ∈ v.read

/-- A release or fence `r` of the group `g`: everything that the group has acquired and every write of its own before it, of
U pages where `uu`, happens before what it releases (17 R344, R346). -/
def Releases (s : State) (u : Nat) (g : Group) (scope : Nat) (uu : Bool) (r : Rel) : Prop :=
  r.who = g.party u ∧ r.scope = scope ∧ (∀ w ∈ g.view.known, w ∈ r.view.known) ∧ (∀ w ∈ g.view.read, w ∈ r.view.read) ∧
  ∀ o ∈ s.old, o.author.who.uid = some g.uid → (uu = true ∨ o.author.u = false) → o.author.prog < s.uid →
    o.stamp ∈ r.view.known

/-! ### Copies (11 R262 to R271) -/

/-- The lanes that an asynchronous instruction acts for: each active lane, or once where its block is in s registers (11
R265). -/
def blockLanes (r : Src) (act : Lanes) : List Nat :=
  match r with
  | .s _ => if act = 0 then [] else [lowest act]
  | _ => lanesList act

/-- An address of a copy whose form is illegal (09 R220). -/
def badForm (a : Dword) : Bool := !a.getLsbD 63 && (bits a 62 56 != 0 || decide (2 ^ 56 < a.toNat + 8))

/-- The first check that a lane's request fails (11 R267): its basin offset, its record's address, its counter's. -/
def requestBad (off : Option Word) (rec : Option Dword) (ctr : Dword) : Option (Nat × Dword) :=
  match off, rec with
  | some o, r =>
    if 0xA000000 ≤ o.toNat then some (causeBasin, o.setWidth 64)
    else if (r.map badForm).getD false = true then r.map fun a => (causeForm, a)
    else if badForm ctr = true then some (causeForm, ctr) else none
  | none, r =>
    if (r.map badForm).getD false = true then r.map fun a => (causeForm, a)
    else if badForm ctr = true then some (causeForm, ctr) else none

/-- The translation fault that an access of a group meets, by stage, level, reason and address. -/
def State.faultAt (s : State) (g : Group) (acc : Nat) (a : Dword) : Option (Nat × Nat × Nat × Nat) :=
  match s.chkVa g.ctx acc (s.groupPriv g) a 8 1 none with
  | .fault st l r x => some (st, l, r, x)
  | _ => none

/-- Those of some requests: their records, read, and then their counters, written. -/
def State.requestFaults (s : State) (g : Group) (lanes : List Nat) (rec : Nat → Option Dword) (ctr : Nat → Dword) :
    List (Nat × Nat × Nat × Nat) :=
  lanes.filterMap (fun L => (rec L).bind (s.faultAt g accLoad)) ++ lanes.filterMap fun L => s.faultAt g accStore (ctr L)

/-- The course of COPY, COPYL and COPYM at issue (11 R265 to R267; 21 R385): the handle and the counters' alignment in every
present lane before anything else; then the commit; the trap of the lowest lane that fails a check; the wait for the page
requests; and the requests, at which the flag has fallen. -/
def Requests (i : Instr) (s : State) (u : Nat) (g : Group) (h : Head) (handle : Option (BitVec 4)) (lanes : List Nat)
    (off : Nat → Option Word) (rec : Nat → Option Dword) (ctr : Nat → Dword) (new : State → Prop) : Prop :=
  let act := g.active h
  let bad (L : Nat) := requestBad (off L) (rec L) (ctr L)
  let faults := s.requestFaults g lanes rec ctr
  (∀ k, handle = some k → s.handle g.cell k.toNat = none → exec i s = .next (s.trapAt u causeHandle 0 act)) ∧
  ((∀ k, handle = some k → s.handle g.cell k.toNat ≠ none) →
    (∀ L, L < 64 → g.present.getLsbD L = true → (ctr L).toNat % 8 ≠ 0 →
      (∀ K, K < L → g.present.getLsbD K = true → (ctr K).toNat % 8 = 0) →
      exec i s = .next (s.trapAt u causeAlign (ctr L) act)) ∧
    ((∀ L, L < 64 → g.present.getLsbD L = true → (ctr L).toNat % 8 = 0) →
      (act = 0 → CommitsOnly i s u g) ∧
      (act ≠ 0 → ∀ L ∈ lanes, ∀ k x, bad L = some (k, x) → (∀ K ∈ lanes, K < L → bad K = none) →
        exec i s = .next ((s.commit u g.clauseIdx false).trapAt u k x act)) ∧
      (act ≠ 0 → (∀ L ∈ lanes, bad L = none) → faults ≠ [] → ∃ t, exec i s = .next t ∧
        Aborted (s.commit u g.clauseIdx false) t u faults ∧ t.copies = s.copies ∧ t.copyms = s.copyms) ∧
      (act ≠ 0 → (∀ L ∈ lanes, bad L = none) → faults = [] → ∃ (t s1 : State) (g1 g' : Group),
        s1 = State.commit { s with tlb := t.tlb, objects := t.objects } u g.clauseIdx false ∧
        GoesOnE i s s1 u g t g1 g' ∧ g'.flags = g1.flags ∧ g'.pend = g1.pend ∧ s.SameMem t ∧
        State.Around { s1 with copies := t.copies, copyms := t.copyms, uid := t.uid } t u ∧ new t)))

/-- A byte of a tile's image (11 R262, R263). Of a row it holds the bits of its elements that are in range, as the row's storage
has them (02 R45), and zeros; the rows are followed by zeros to a 16-byte boundary; and then come the scale bytes, neutral for a
block that holds no in-range element. `tensor` are the bytes from BASE on. -/
def imageByte (ws : List Dword) (org : List (BitVec 32)) (tensor : Nat → Byte) (i : Nat) : Byte :=
  let o : Int := (org.getD 0 0).toInt
  let n := layBits ws
  if i < tileRows ws * imgRow ws then
    let r := i / imgRow ws
    let k := i % imgRow ws
    let byte := tensor (rowOff ws org r + (o * (n : Int) / 8 + (k : Int)).toNat)
    BitVec.ofFnLE fun t : Fin 8 =>
      let e := o + ((8 * k + t) / n : Nat)
      rowValid ws org r && decide (0 ≤ e) && decide (e < layExt ws 0) && byte.getLsbD t
  else if i < imgScale ws then 0
  else
    let j := i - imgScale ws
    let r := j / imgRowScale ws
    let m := j % imgRowScale ws / layScale ws
    let e := o + (32 * m : Nat)
    if rowValid ws org r = true ∧ 0 ≤ e ∧ e < layExt ws 0 then
      tensor (laySoff ws + rowScaleOff ws org r + (e / 32).toNat * layScale ws + j % layScale ws)
    else 0x7F

/-- From `s` to `t`, memory holds `new` at its addresses and is otherwise as it was; so are the registers. -/
def State.Wrote (s t : State) (new : Nat → Option Byte) : Prop :=
  (∀ a, t.byte a = (new a).getD (s.byte a)) ∧ t.regs = s.regs

/-- The bytes of some pieces are memory of this package, not poisoned. -/
def State.plainMem (s : State) (ps : List Piece) : Prop :=
  ∀ x ∈ devAddrs ps, x.1 = false ∧ inRegs x.2 = false ∧ s.poisoned x.2 = false

/-- An engine of a stack with the fewest queued requests, and of several the one with the lowest index (11 R260). -/
def State.shortest (s : State) (stack e : Nat) : Prop :=
  e / 6 = stack ∧ ∀ j, j < 6 → s.queueAt e ≤ s.queueAt (6 * stack + j) ∧
    (6 * stack + j < e → s.queueAt e < s.queueAt (6 * stack + j))

/-- The stack that homes the byte at an address is `k` (01 R22). -/
def State.homedAt (s : State) (ctx acc : Nat) (priv : Bool) (a : Dword) (k : Nat) : Prop :=
  ∃ p, s.devRange ctx acc priv a 1 = .ok [p] ∧ p.glob = false ∧ inHbm p.pa = true ∧ s.stackOf p.pa = k

/-- A copy waits for the page requests of some faults. -/
def CopyWaits (s t : State) (q : CopyReq) (faults : List (Nat × Nat × Nat × Nat)) : Prop :=
  s.SameMem t ∧ ∃ reqs, t.asksFor q.ctx faults reqs ∧
    ∃ q', t.copies.find? (fun x => x.id == q.id) = some q' ∧ q'.aw = ⟨reqs, false⟩ ∧ { q' with aw := q.aw, words := q.words } = q

/-- A group of COPYM requests starts as an operation (11 R269): the request of each slice stands at an engine of the stack that
homes the tile's first byte (R260). -/
def State.CopymStarts (s t : State) (ms : List CopymReq) (n4 : Bool) (ws : List Dword) (err : Nat) : Prop :=
  t.copyms = s.copyms.filter (fun q => !ms.any fun m => m.id == q.id) ∧
  { t with copyms := s.copyms, copymOps := s.copymOps, uid := s.uid, draw := s.draw } = s ∧
  ∃ ls, t.copymOps = s.copymOps ++ [⟨s.uid, n4, ws, err, ls, [], []⟩] ∧
    List.Forall₂ (fun m l => { l with place := m.place } = { m with aw := noWait }) ms ls ∧
    ∀ m k, ms.head? = some m → ws ≠ [] → s.homedAt m.ctx accEngRead m.priv (tileFirst ws m.origin) k → ∀ l ∈ ls, l.place / 6 = k

/-! ### Cards (02 R47 to R49; 14 R312 to R321) -/

/-- Register `i` of a block in a lane, and a pair of it (11 R265). -/
def blockWord (s : State) (g : Group) (r : Src) (L i : Nat) : Word :=
  match r with
  | .v n => g.vread s.draw (n.toNat + i) L
  | .s n => g.sread s.draw (n.toNat + i)
  | _ => 0
def blockPtr (s : State) (g : Group) (r : Src) (L i : Nat) : Dword := blockWord s g r L (i + 1) ++ blockWord s g r L i

/-- The cards that FORK and RDV name, with the checks of each (14 R312). -/
def namedCards (s : State) (g : Group) (acc : Nat) (r : Src) (n : Nat) (act : Lanes) : List Lane :=
  (blockLanes r act).flatMap fun L => (List.range n).map fun i =>
    let a := blockPtr s g r L 0 + BitVec.ofNat 64 (128 * i)
    ⟨L, a, 0, s.chkVa g.ctx acc (s.groupPriv g) a 128 1 none, true⟩

/-- The sixteen words of a card. -/
def State.cardWords (s : State) (l : Lane) : List Dword := wordsOfBytes ((s.devRead l.pieces).map (·.1)) 16

/-- A card of a list breaks a check (14 R313): its own fields, a weir unit that another card of the list needs too, or a
byte that two of them share and one of them writes. -/
def breaks (l : List (List Dword)) (i : Nat) : Prop :=
  ∃ ws, l[i]? = some ws ∧ (cardOk ws = false ∨ ∃ j vs, j ≠ i ∧ l[j]? = some vs ∧
    ((cardKind ws = 1 ∧ cardKind vs = 1 ∧ cardStack ws = cardStack vs) ∨
      (i < j ∧ cardDepends ws vs = true) ∨ (j < i ∧ cardDepends vs ws = true)))

/-- The word of a card that holds POFF, ERR and STATE (02 R47). -/
def cardWord (state err poff : Nat) : Dword := BitVec.ofNat 64 (poff % 2 ^ 40 + 2 ^ 48 * err + 2 ^ 56 * state)

/-! ### Engine programs (14 R318 to R334) -/

/-- The sum of two elements of EREDUCE (14 R324). -/
def reduceSum (ty : BitVec 2) (x y : Nat) : Nat :=
  match ty.toNat with
  | 0 => (fpAdd fp32 .rne (fp32.decode x) (fp32.decode y)).1
  | 1 => (x + y) % 2 ^ 32
  | _ => (x + y) % 2 ^ 64

/-- Element `i` of `n` bytes of a range. -/
def State.elem (s : State) (n : Nat) (ps : List Piece) (i : Nat) : Nat :=
  leNat ((List.range n).map fun b => s.byte (((devAddrs ps)[n * i + b]?).map (·.2) |>.getD 0))

/-- An engine instruction is taken: it enters the work of its engine with the descriptors bound at the time, and its flag
rises (14 R322). -/
def Starts (i : Instr) (h : Head) (s : State) (u : Nat) (g : Group) (arg : Dword) (ctr : Option EngCtr)
    (words : List Dword → Prop) : Prop :=
  (g.active h = 0 → ∃ t g', Runs i s u g t g' ∧ g.SameRegs g') ∧
  ∀ k e, g.active h ≠ 0 → g.engine = some k → aget s.engines k = some e → ∃ t g' w,
    exec i s = .next t ∧ t.group? u = some g' ∧ g.SameRegs g' ∧ g'.pc = g.advance.pc ∧ g'.clause = g.advance.clause ∧
    State.Around { s with engines := t.engines, views := t.views, uid := t.uid } t u ∧
    aget t.engines k = some { e with work := e.work ++ [w] } ∧ (∀ j, j ≠ k → aget t.engines j = aget s.engines j) ∧
    w.ins = i ∧ w.streams = e.streams ∧ w.arg = arg ∧ w.ctr = ctr.map (fun x => (src64 s u g 0 x.c, x.scope)) ∧
    w.clause = g.clauseAddr ∧ w.fin = none ∧ words w.words ∧
    (∀ n, g'.flag n = if h.setf.toNat = n ∧ n ≤ 11 then g.flag n + 1 else g.flag n) ∧
    g'.pend.length = g.pend.length + (if h.setf.toNat ≤ 11 then 1 else 0) ∧
    (h.setf.toNat ≤ 11 → ∃ p, p ∈ g'.pend ∧ w.tok = some p.tok ∧ p.left = 1 ∧ p.ins = i) ∧ (11 < h.setf.toNat → w.tok = none)

/-! ### The matrix engine (12 R284 to R304) -/

/-- A matrix operand fits its reservation (12 R296): the last of its rows, and of its elements, lies within. -/
def fitsIn (r : BitVec 128) (rows : Nat) (kf : BitVec 12) : Prop :=
  rows * (kf.toNat / 512 + 1) ≤ resRows r ∧ (kf.toNat % 512 + 1) * classK (fmtClass (resFmt r)) ≤ 32 * resKrow r

/-- What an accumulator cell holds after an operation (12 R297; 07 R187 to R189): from the old value, or +0 for MMAZ, the exact
sum of the products of each group of positions is added in turn and rounded; a masked row adds nothing. -/
def tileResult (zero skip : Bool) (a b : Operand) (row col ka kb k gsz : Nat) (old : Acc56) : Acc56 :=
  let start := if zero = true then 0 else old
  if skip = true then start
  else (List.range (k / gsz)).foldl (fun (acc : Acc56) j =>
    BitVec.ofNat 56 (roundTo acc56 .rne ((acc56.decode acc.toNat).add false
      (sumProducts ((List.range gsz).map fun t => (a.value row (ka + j * gsz + t), b.value col (kb + j * gsz + t)))))).1) start

/-- The lanes that write an accumulator cell, and the value that the last of them leaves (12 R304). -/
def accWritten (idx : Nat → Option Nat) (val : Nat → Acc56) (lanes : List Nat) (k : Nat) : Option Acc56 :=
  lanes.foldl (fun r L => if idx L = some k then some (val L) else r) none

/-- A flag that an instruction names rises, and a pending entry with one part to come waits for it; `s1` is the state after the
commit, `g1` its group. -/
def Raises (i : Instr) (h : Head) (s1 : State) (g g1 g' : Group) : Prop :=
  (∀ n, g'.flag n = if h.setf.toNat = n ∧ n ≤ 11 then g1.flag n + 1 else g1.flag n) ∧
  g'.pend = g1.pend ++ if h.setf.toNat ≤ 11 then
    [⟨s1.uid, flagOf h, i, g.clauseAddr, g.clauseIdx, g.active h, h.nwb, [], [], 1, none⟩] else []

/-- The records that an arriving MMA and an open latch agree in (12 R291). -/
def Latch.Agrees (l : Latch) (v : BitVec 32) (zero : Bool) (x : BodyMma) : Prop :=
  l.value = v ∧ l.zero = zero ∧ l.x.g = x.g ∧ l.x.n128 = x.n128 ∧ l.x.bus = x.bus ∧ l.x.hb = x.hb ∧ l.x.kb = x.kb

/-- SPAWN goes on with its result pending (05 R117, R136): `r` for s(D) and the truth of p(PE), discarded under NWB. -/
def SpawnPosts (i : Instr) (h : Head) (d : BitVec 7) (pe : BitVec 3) (r : Word) (ok : Bool) (s s1 : State) (u : Nat)
    (g : Group) (kid : List Kid) (t : State) : Prop :=
  ∃ g1 g' tok, GoesOnE i s s1 u g t g1 g' ∧
    (∀ n, g'.flag n = if h.setf.toNat = n ∧ n ≤ 11 then g1.flag n + 1 else g1.flag n) ∧ g'.kids = g1.kids ++ kid ∧
    g'.pend = g1.pend ++ [⟨tok, flagOf h, i, g.clauseAddr, g.clauseIdx, g.active h, h.nwb, [],
      if h.nwb = true then [] else
        [⟨.s d.toNat, r, false⟩, ⟨.p pe.toNat, if ok = true then 1 else 0, false⟩], 0, none⟩]

/-- A child as it stands in its slot (02 R39; 05 R137): its 64 threads at the entry, the arguments and the image in s0 to s3,
and nothing else. -/
structure Group.Newborn (g : Group) (parent : Nat) (base : Dword) (ent q : Nat) (en : List Dword) (codeBase args kimg : Dword)
    (stores : List Nat) (v : View) : Prop where
  parent : g.parent = some parent
  seqNo : g.seqNo = q
  ent : g.ent = ent
  wids : g.wids = (List.range 64).map fun L => base + BitVec.ofNat 64 L
  pc : ∀ L, aget g.pc L = if L < 64 then some (codeBase + BitVec.ofNat 64 (field en 31 0)) else none
  region : g.region = ⟨g.pc, 0, false⟩
  sregs : ∀ n, g.sreg n = [lowWord args, highWord args, lowWord kimg, highWord kimg].getD n 0
  empty : g.vregs = [] ∧ g.preds = [] ∧ g.lstat = [] ∧ g.flags = [] ∧ g.buf = [] ∧ g.pend = [] ∧ g.clause = none ∧
    g.kids = [] ∧ g.depth = [] ∧ g.acc = [] ∧ g.unacked = 0 ∧ g.intrap = false
  demands : g.vr = field en 40 32 ∧ g.sr = field en 47 41 ∧ g.acct = field en 52 48 ∧ g.obuf = field en 79 64
  wait : g.wait = if stores = [] then .no else .stores stores
  view : g.view = v ∧ g.viewU = v

/-- A sequence number is among those that JOIN names (05 R138). -/
def inJoin (q n x : Nat) : Prop := n = 0 ∨ (x + 65536 - q) % 65536 < n

/-- The group `m` of an image has become resident as `g`: what its slot's bytes say, from `o` bytes on, or, where the slot does
not lie in memory, what was saved (21 R397, R398). -/
def State.FromImage (s : State) (i : SaveImg) (o : Nat) (m g : Group) : Prop :=
  let base := (s.reg (.savebase i.ctx)).toNat + i.slot * bits (s.reg (.savectl i.ctx)) 31 0 * 1024
  let there := s.slotThere base (i.groups.map (·.g))
  let num (k n : Nat) : Nat := leNat (s.bytes (base + o + k) n)
  g.uid = m.uid ∧ g.kids = m.kids ∧ g.bars = m.bars ∧ g.launch = m.launch ∧ g.index = m.index ∧ g.view = m.view ∧
  (there = false → m.SameRegs g ∧ g.pc = m.pc ∧ g.flags = m.flags ∧ g.rstack = m.rstack ∧ g.region = m.region ∧
    g.resume = m.resume) ∧
  (there = true →
    (∀ L, L < 64 → aget g.pc L = if num (256 + 16 * L) 7 = 2 ^ 56 - 1 then none
      else some (BitVec.ofNat 64 (num (256 + 16 * L) 7))) ∧
    (∀ (n : BitVec 3) L, n ≠ 7 → L < 64 → (g.pred n).getLsbD L = (num (263 + 16 * L) 1).testBit n.toNat) ∧
    (∀ L, L < 64 → g.lstatOf L = BitVec.ofNat 32 (num (264 + 16 * L) 4) ∧ g.depthOf L = num (268 + 16 * L) 4) ∧
    (∀ e L, L < 64 → e < 8 → agetD 0 g.rstack (64 * e + L) = BitVec.ofNat 64 (num (1280 + 64 * L + 8 * e) 8)) ∧
    (∀ n, n ≤ m.sr → g.sreg n = BitVec.ofNat 32 (num (5376 + 4 * n) 4)) ∧
    (∀ n L, L < 64 → n ≤ m.vr → g.vreg n L = BitVec.ofNat 32 (num (m.imageVregs + 4 * (64 * n + L)) 4)) ∧
    g.region = ⟨g.pc, m.region.index, m.region.half⟩ ∧
    ((∀ j, j < 256 → s.byte (base + o + j) = Config.freeImage i.id (o + j)) → g.flags = m.flags ∧ g.resume = m.resume))

/-- A child is named by JOIN (05 R138). -/
def joinNames (q n : Nat) (k : Kid) : Prop := inJoin q n k.seqNo

/-- A JOIN of `g` has completed as `g'`: it has acquired the exits of the children that it names, at core scope (05 R138). -/
def JoinTook (u q n : Nat) (g g' : Group) : Prop := ∀ x ∈ g.ended, inJoin q n x.1 → g'.Took 4 (g.party u) x.2

/-- From `s` to `t` one register changes, to `x`; nothing else of the package does. -/
def State.SetsReg (s t : State) (r : Reg) (x : Dword) : Prop :=
  t.reg r = x ∧ (∀ q : Reg, q.addr ≠ r.addr → t.reg q = s.reg q) ∧ { t with regs := s.regs } = s

/-- The register writes that are events of their own, each with its register. -/
def regEvents (a : Agent) (p n : Nat) (x : Dword) : List (Instr × Reg) :=
  [(.partitionOpen a p x, .partcfg p), (.partitionClose a p x, .partcfg p), (.ilmapWrite a n x, .ilmap n),
   (.illockSet a x, .illock), (.launchListEnable a p n x, .llctl p n), (.launchListDisable a p n x, .llctl p n),
   (.bscWrite a n x, .bsc n), (.bsstatRefusedClear a n x, .bsstat n), (.ctxctlWrite a n x, .ctxctl n),
   (.preemptSave a n x, .preempt n), (.preemptResume a n x, .preempt n), (.breakpointResume a n x, .bkres n),
   (.kill a n x, .kill n), (.prqEnable a n x, .prqctl n), (.evqEnable a p x, .evqctl p),
   (.tierpoolWrite a p n x, .tierpool p n), (.miggoWrite a p x, .miggo p)]

/-- Nothing of context `c` is left in `t`, and of the rest of `s` nothing went (21 R399). -/
def State.Killed (s t : State) (c : Nat) : Prop :=
  (∀ u g, t.group? u = some g ↔ s.group? u = some g ∧ g.ctx ≠ c) ∧
  t.saved = s.saved.filter (fun i => i.ctx != c) ∧ t.copies = s.copies.filter (fun q => q.ctx != c) ∧
  t.cards = s.cards.filter (fun q => q.ctx != c) ∧ t.routeJobs = s.routeJobs.filter (fun q => q.ctx != c) ∧
  t.copyms = s.copyms.filter (fun q => q.ctx != c) ∧ t.subReqs = s.subReqs.filter (fun q => q.ctx != c) ∧
  (∀ q ∈ t.launches, q.2.ctx ≠ c) ∧ (∀ q ∈ t.cells, q.2.ctx ≠ c) ∧ (∀ q ∈ t.slots, q.2.ctx ≠ c) ∧
  t.tierReqs = s.tierReqs.filter (fun q => q.ctx != c) ∧ t.owed = s.owed.filter (fun q => q.ctx != c) ∧
  t.farSubs = s.farSubs.filter (fun q => q.ctx != c) ∧ t.pushes = s.pushes.filter (fun q => !s.slotOf c q.who) ∧
  (∀ q ∈ t.subs, ∀ b ∈ q.2, s.slotOf c b.who = false) ∧ (∀ q ∈ t.copymOps, ∀ m ∈ q.members, m.ctx ≠ c) ∧
  (∀ k g, k < 16 → s.group? (engineUnit k) = some g → g.ctx = c → aget t.engines k = none) ∧
  (∀ k, (t.core k).ops = (s.core k).ops.filter (fun q => q.ctx != c) ∧
    (t.core k).steps = (s.core k).steps.filter (fun q => q.ctx != c) ∧
    (t.core k).bus = (s.core k).bus.filter (fun q => q.ctx != c)) ∧
  (∀ q ∈ t.requests, q.ctx ≠ c) ∧ t.packets = s.packets ∧ t.moves = s.moves ∧
  (∀ a, t.byte a = s.byte a) ∧ t.poison = s.poison ∧ t.full = s.full

/-- A byte after a frame of `size` bytes has moved from `old` to `new` (21 R387; 11 R281). -/
def State.movedByte (s : State) (old new size a : Nat) : Byte :=
  if new ≤ a ∧ a < new + size then s.byte (old + (a - new)) else s.byte a

/-- An 8-byte word of what a move leaves. -/
def State.movedWord (s : State) (old new size a : Nat) : Dword :=
  BitVec.ofNat 64 (leNat ((List.range 8).map fun i => s.movedByte old new size (a + i)))

/-- Two frames of `n` bytes do not overlap. -/
def apart (a b n : Nat) : Prop := a + n ≤ b ∨ b + n ≤ a

/-- From `s` to `t`, memory changed only in the 64-byte entry at `pa`, to these words there. -/
def State.EntryNow (s t : State) (pa : Nat) (w5 w6 w7 : Dword) : Prop :=
  (∀ a, a < pa + 40 ∨ pa + 64 ≤ a → t.byte a = s.byte a) ∧ t.word64 (pa + 40) = w5 ∧ t.word64 (pa + 48) = w6 ∧
  t.word64 (pa + 56) = w7

end Sys2Proof.Machine
end

