-- ==== Sys2Proof/Certificates/Slice0/Obligations.lean ====
section
/-! DEFINITION. The statements about this model. -/

open Sys2Proof Sys2Proof.Machine

/-! ### Families 0x1 and 0x2 -/

/-- IADD and ISUB under wrap, .sat and .usat, and IABS and INEG under wrap and .sat: the exact result, clamped or wrapped,
with SAT and OV (06 R149); IMIN, IMAX, UMIN, UMAX (06 R148). -/
def Obligations.AddSubtract : Prop :=
  (
  (∀ h x, x.mod ≠ 3 → WritesD (.iadd h x) h x.sc x.d.toNat false fun s u g L =>
    withBits (sumUnder x.mod (· + ·) (src32 s u g L x.a) (srcI32 s u g L x.b))) ∧
  (∀ h x, x.mod ≠ 3 → WritesD (.isub h x) h x.sc x.d.toNat false fun s u g L =>
    withBits (sumUnder x.mod (· - ·) (src32 s u g L x.a) (srcI32 s u g L x.b))) ∧
  (∀ h x, x.mod.toNat ≤ 1 → WritesD (.ineg h x) h x.sc x.d.toNat false fun s u g L =>
    withBits (signUnder x.mod (-(src32 s u g L x.a).toInt))) ∧
  ∀ h x, x.mod.toNat ≤ 1 → WritesD (.iabs h x) h x.sc x.d.toNat false fun s u g L =>
    withBits (signUnder x.mod |(src32 s u g L x.a).toInt|)) ∧
  (
  (∀ h x, WritesD (.imin h x) h x.sc x.d.toNat false fun s u g L =>
    plain (BitVec.ofInt 32 (min (src32 s u g L x.a).toInt (srcI32 s u g L x.b).toInt))) ∧
  (∀ h x, WritesD (.imax h x) h x.sc x.d.toNat false fun s u g L =>
    plain (BitVec.ofInt 32 (max (src32 s u g L x.a).toInt (srcI32 s u g L x.b).toInt))) ∧
  (∀ h x, WritesD (.umin h x) h x.sc x.d.toNat false fun s u g L =>
    plain (BitVec.ofNat 32 (min (src32 s u g L x.a).toNat (srcI32 s u g L x.b).toNat))) ∧
  ∀ h x, WritesD (.umax h x) h x.sc x.d.toNat false fun s u g L =>
    plain (BitVec.ofNat 32 (max (src32 s u g L x.a).toNat (srcI32 s u g L x.b).toNat)))

/-- The products and the 64-bit sums: IMUL, IMULH, IMAD, IMADW, IADD64, LEA (06 R148, R149). -/
def Obligations.Products : Prop :=
  (∀ h x, WritesD (.imul h x) h x.sc x.d.toNat false fun s u g L =>
    plain (BitVec.ofInt 32 ((src32 s u g L x.a).toInt * (srcI32 s u g L x.b).toInt))) ∧
  (∀ h x, WritesD (.imulh h x) h x.sc x.d.toNat false fun s u g L =>
    plain (BitVec.ofInt 32 (wordInt (x.mod == 1) (src32 s u g L x.a) * wordInt (x.mod == 1) (srcI32 s u g L x.b) / 2 ^ 32))) ∧
  (∀ h x, WritesD (.imad h x) h x.sc x.d.toNat false fun s u g L =>
    plain (BitVec.ofInt 32
      ((src32 s u g L x.a).toInt * (src32 s u g L x.b).toInt + (src32 s u g L x.c).toInt))) ∧
  (∀ h x, WritesD (.imadw h x) h x.sc x.d.toNat true fun s u g L =>
    (BitVec.ofInt 64 (wordInt (x.mod == 1) (src32 s u g L x.a) * wordInt (x.mod == 1) (src32 s u g L x.b) +
      (src64 s u g L x.c).toInt), 0)) ∧
  (∀ h x, WritesD (.iadd64 h x) h x.sc x.d.toNat true fun s u g L =>
    (BitVec.ofInt 64 ((src64 s u g L x.a).toInt + (srcI64 s u g L x.b).toInt), 0)) ∧
  ∀ h x, WritesD (.lea h x) h x.sc x.d.toNat true fun s u g L =>
    (BitVec.ofInt 64 ((src64 s u g L x.a).toInt + (leaIndex s u g L x.b).toInt * 2 ^ x.mod.toNat), 0)

/-- IADDC and ISUBB (06 R150): the 33-bit sum or difference with the carry-in of p[CI], or none with CIE = 0; p[CO] takes
the carry or borrow in the active lanes, and in every lane in a scalar form with a lane active, NWB or not (the model's
reading, log entry 25); a carry into p7 is discarded. -/
def Obligations.CarryForms : Prop :=
  ∀ (h : Head) (x : BodyC) (sub : Bool) (s : State) (u : Nat) (g : Group), s.Issues u g h →
    let ci (L : Nat) : Int := match x.b with
      | .v _ cie _ p => if cie = true ∧ (g.pred p).getLsbD L = true then 1 else 0
      | .i _ _ p => if (g.pred p).getLsbD L = true then 1 else 0
    let b (L : Nat) : Word := match x.b with
      | .v y _ _ _ => src32 s u g L y
      | .i imm _ _ => imm.signExtend 32
    let co : BitVec 3 := match x.b with
      | .v _ _ p _ => p
      | .i _ p _ => p
    let v (L : Nat) : Int :=
      if sub = true then ((src32 s u g L x.a).toNat : Int) - (b L).toNat - ci L
      else ((src32 s u g L x.a).toNat : Int) + (b L).toNat + ci L
    let out (L : Nat) : Bool := decide (if sub = true then v L < 0 else 2 ^ 32 ≤ v L)
    let r (L : Nat) : Dword := (BitVec.ofInt 32 (v L)).setWidth 64
    ∃ t g', Runs (if sub = true then .isubb h x else .iaddc h x) s u g t g' ∧ FormRegs h x.sc x.d.toNat false r g g' ∧
      FormLatch h x.sc r g g' ∧ g'.lstat = g.lstat ∧
      (∀ n L, L < 64 → (n ≠ co ∨ n = 7) → (g'.pred n).getLsbD L = (g.pred n).getLsbD L) ∧
      ∀ L, L < 64 → co ≠ 7 → (g'.pred co).getLsbD L =
        if x.sc = true then (if g.active h = 0 then (g.pred co).getLsbD L else out (lowest (g.active h)))
        else if (g.active h).getLsbD L = true then out L else (g.pred co).getLsbD L

/-- The four divisions (06 R151): where no lane takes the arithmetic trap they complete with the quotient or the remainder
and DZ or OV; where one does, the lanes that divided by zero set DZ and the trap is taken with nothing else written. -/
def Obligations.Divisions : Prop :=
  ∀ (h : Head) (x : Body2) (signed quot : Bool) (s : State) (u : Nat) (g : Group), s.Issues u g h → x.mod.toNat ≤ 1 →
    let i : Instr := match signed, quot with
      | true, true => .idiv h x
      | true, false => .irem h x
      | false, true => .udiv h x
      | false, false => .urem h x
    (¬divTraps s u g h x → FormDone i h x.sc x.d.toNat false (fun L =>
      withBits (divResult signed quot (src32 s u g L x.a) (srcI32 s u g L x.b))) s u g) ∧
    (divTraps s u g h x → ∃ g', g'.lstat.length ≤ g.lstat.length + 64 ∧
      exec i s = .next ((s.putGroup u g').trapAt u causeArith 0 (g.active h)) ∧ g.Keeps g' ∧ g'.vregs = g.vregs ∧
      g'.sregs = g.sregs ∧ g'.preds = g.preds ∧
      ∀ L, L < 64 → g'.lstatOf L =
        if (g.active h).getLsbD L = true ∧ (x.sc = true ∨ srcI32 s u g L x.b = 0) then g.lstatOf L ||| lsDZ
        else g.lstatOf L)



/-- AND, OR, XOR, ANDN, NOT bit by bit, LUT3's truth table, and MOV of a word and of a pair (06 R152, R155, R158). -/
def Obligations.BitwiseAndMoves : Prop :=
  (∀ h x, WritesBits (.and h x) h x.sc x.d fun s u g L k =>
    (src32 s u g L x.a).getLsbD k && (srcI32 s u g L x.b).getLsbD k) ∧
  (∀ h x, WritesBits (.or h x) h x.sc x.d fun s u g L k =>
    (src32 s u g L x.a).getLsbD k || (srcI32 s u g L x.b).getLsbD k) ∧
  (∀ h x, WritesBits (.xor h x) h x.sc x.d fun s u g L k =>
    xor ((src32 s u g L x.a).getLsbD k) ((srcI32 s u g L x.b).getLsbD k)) ∧
  (∀ h x, WritesBits (.andn h x) h x.sc x.d fun s u g L k =>
    (src32 s u g L x.a).getLsbD k && !(srcI32 s u g L x.b).getLsbD k) ∧
  (∀ h x, WritesBits (.not h x) h x.sc x.d fun s u g L k => !(src32 s u g L x.a).getLsbD k) ∧
  (∀ h x, WritesBits (.lut3 h x) h x.sc x.d fun s u g L k =>
    x.table.getLsbD (4 * ((oldD s g x.sc x.d L).getLsbD k).toNat + 2 * ((src32 s u g L x.a).getLsbD k).toNat +
      ((oldD s g x.sc x.z L).getLsbD k).toNat)) ∧
  (∀ h sc d a, WritesD (.mov h sc (.mov d a)) h sc d.toNat false fun s u g L => plain (srcI32 s u g L a)) ∧
  ∀ h sc d a, WritesD (.mov h sc (.mov64 d a)) h sc d.toNat true fun s u g L => (srcI64 s u g L a, 0)

/-- R157: SEL takes a where p[C[2:0]] is true and b elsewhere, a scalar form by the lowest active lane; C[9:3] is zero. -/
def Obligations.Select : Prop :=
  (∀ h x, WritesD (.sel h x) h x.sc x.d.toNat false fun s u g L =>
    plain (if (g.pred x.p).getLsbD L = true then src32 s u g L x.a else src32 s u g L x.b)) ∧
  ∀ w h x, decodeWord w = .ok (.sel h x) → w.extractLsb' 3 7 = 0 ∧ x.p = w.extractLsb' 0 3

/-- MOV from and to LSTAT (06 R158): the write is masked to the bits that exist, whatever NWB, in the active lanes. MOVX
(06 R159): the register that A + B names, read or written lane by lane; an index above VREGS in an active lane is the
register-index trap. -/
def Obligations.StatusAndIndexedMoves : Prop :=
  (
  (∀ h sc d, WritesD (.mov h sc (.fromLstat d)) h sc d.toNat false fun _ _ g L => plain (g.lstatOf L)) ∧
  ∀ h sc a s u g, s.Issues u g h →
    let v (L : Nat) : Word := src32 s u g L a &&& 0x1F07
    ∃ t g', Runs (.mov h sc (.toLstat a)) s u g t g' ∧ g'.vregs = g.vregs ∧ g'.sregs = g.sregs ∧ g'.preds = g.preds ∧
      FormLatch h sc (fun L => (v L).setWidth 64) g g' ∧
      ∀ L, L < 64 → g'.lstatOf L =
        if (g.active h).getLsbD L = true then v (if sc = true then lowest (g.active h) else L) else g.lstatOf L) ∧
  (
  (∀ h d a b s u g, s.Issues u g h → ¬movxBad s u g h a b → FormDone (.movxRd h d a b) h false d.toNat false
    (fun L => plain (g.vread s.draw (src32 s u g L a + src32 s u g L b).toNat L)) s u g) ∧
  (∀ h a b c s u g, s.Issues u g h → ¬movxBad s u g h a b →
    ∃ t g', Runs (.movxWr h a b c) s u g t g' ∧ g'.sregs = g.sregs ∧ g'.preds = g.preds ∧ g'.lstat = g.lstat ∧
      VecLatch h (fun L => (src32 s u g L c).setWidth 64) g g' ∧
      ∀ n L, L < 64 → g'.vreg n L =
        if (g.active h).getLsbD L = true ∧ h.nwb = false ∧ n = (src32 s u g L a + src32 s u g L b).toNat
        then src32 s u g L c else g.vreg n L) ∧
  ∀ h d a b c s u g, s.Issues u g h → movxBad s u g h a b →
    exec (.movxRd h d a b) s = .next (s.trapAt u causeRange 0 (g.active h)) ∧
    exec (.movxWr h a b c) s = .next (s.trapAt u causeRange 0 (g.active h)))

/-- The shifts (06 R153), bit by bit: amounts of 32 and more, rotation mod 32, and the funnel of {a, b}. -/
def Obligations.Shifts : Prop :=
  (∀ h x, WritesBits (.shl h x) h x.sc x.d fun s u g L k =>
    let n := (srcI32 s u g L x.b).toNat
    decide (n ≤ k) && (src32 s u g L x.a).getLsbD (k - n)) ∧
  (∀ h x, WritesBits (.shr h x) h x.sc x.d fun s u g L k =>
    (src32 s u g L x.a).getLsbD (k + (srcI32 s u g L x.b).toNat)) ∧
  (∀ h x, WritesBits (.sar h x) h x.sc x.d fun s u g L k =>
    (src32 s u g L x.a).getLsbD (min (k + (srcI32 s u g L x.b).toNat) 31)) ∧
  (∀ h x, WritesBits (.rotl h x) h x.sc x.d fun s u g L k =>
    (src32 s u g L x.a).getLsbD ((k + 32 - (srcI32 s u g L x.b).toNat % 32) % 32)) ∧
  ∀ h x, x.mod.toNat ≤ 1 → WritesBits (.fshf h x) h x.sc x.d fun s u g L k =>
    let n := (src32 s u g L x.c).toNat % 32
    bitOf2 (src32 s u g L x.a) (src32 s u g L x.b) (if x.mod = 0 then k + n else 32 + k - n)

/-- The bitfields (06 R152, R154, R156): BFX, BFI, BREV, POPC, CLZ, CTZ, BPERM. -/
def Obligations.Bitfields : Prop :=
  (∀ h x, x.mod.toNat ≤ 1 → WritesBits (.bfx h x) h x.sc x.d fun s u g L k =>
    bfxOut (x.mod == 1) (src32 s u g L x.a) (src32 s u g L x.b) (src32 s u g L x.c) k) ∧
  (∀ h x, WritesBits (.bfi h x) h x.sc x.d fun s u g L k =>
    let p := fieldOf (src32 s u g L x.b)
    if p ≤ k ∧ k < p + fieldOf (src32 s u g L x.c) then (src32 s u g L x.a).getLsbD (k - p)
    else (oldD s g x.sc x.d L).getLsbD k) ∧
  (∀ h x, WritesBits (.brev h x) h x.sc x.d fun s u g L k => (src32 s u g L x.a).getLsbD (31 - k)) ∧
  (∀ h x, WritesD (.popc h x) h x.sc x.d.toNat false fun s u g L =>
    plain (BitVec.ofNat 32 (∑ k ∈ Finset.range 32, ((src32 s u g L x.a).getLsbD k).toNat))) ∧
  (∀ h x, WritesD (.clz h x) h x.sc x.d.toNat false fun s u g L =>
    plain (BitVec.ofNat 32 ((List.range 32).countP fun k => src32 s u g L x.a >>> k == 0))) ∧
  (∀ h x, WritesD (.ctz h x) h x.sc x.d.toNat false fun s u g L =>
    plain (BitVec.ofNat 32 ((List.range 32).countP fun k => (src32 s u g L x.a).toNat % 2 ^ (k + 1) == 0))) ∧
  ∀ h x, WritesBits (.bperm h x) h x.sc x.d fun s u g L k =>
    bpermOut (src32 s u g L x.a) (src32 s u g L x.b) (src32 s u g L x.c) k



/-! ### Family 0x3 -/

/-- ICMP and FCMP (06 R160): signed, unsigned, 64-bit and FP32 comparisons, NaNs, and the combination with p[CP]. PAND,
POR, PXOR, PNOT, PMOV (06 R161) and the votes PCNT, PANY, PALL, LEAD (06 R162). -/
def Obligations.ComparisonsAndPredicates : Prop :=
  (
  (∀ h x, x.cond.toNat ≤ 5 → WritesP (.icmp h x) h x.d fun s u g L =>
    let b : SrcI := match x.b with
      | .v y _ _ => .src y
      | .i n => .imm n
    combined g L x.b (condHolds x.cond (
      if x.wide = true then
        (if x.uns = true then compare (src64 s u g L x.a).toNat (srcI64 s u g L b).toNat
          else compare (src64 s u g L x.a).toInt (srcI64 s u g L b).toInt)
      else compare (wordInt x.uns (src32 s u g L x.a)) (wordInt x.uns (srcI32 s u g L b))))) ∧
  ∀ h x, WritesP (.fcmp h x) h x.d fun s u g L =>
    let b : SrcI := match x.b with
      | .v y _ _ => .src y
      | .i n => .imm n
    combined g L x.b (fcmpHolds x.cond (f32 (srcF32 s u g L x.a)) (f32 (srcIF32 s u g L b)))) ∧
  (
  (∀ h x, WritesP (.pand h x) h x.d fun _ _ g L =>
    xor x.na ((g.pred x.a).getLsbD L) && xor x.nb ((g.pred x.b).getLsbD L)) ∧
  (∀ h x, WritesP (.por h x) h x.d fun _ _ g L =>
    xor x.na ((g.pred x.a).getLsbD L) || xor x.nb ((g.pred x.b).getLsbD L)) ∧
  (∀ h x, WritesP (.pxor h x) h x.d fun _ _ g L =>
    xor (xor x.na ((g.pred x.a).getLsbD L)) (xor x.nb ((g.pred x.b).getLsbD L))) ∧
  (∀ h x, WritesP (.pnot h x) h x.d fun _ _ g L => !xor x.na ((g.pred x.a).getLsbD L)) ∧
  (∀ h x, WritesP (.pmov h x) h x.d fun _ _ g L => xor x.na ((g.pred x.a).getLsbD L)) ∧
  (∀ h d a, WritesD (.pcnt h d a) h false d.toNat false fun _ _ g _ =>
    plain (BitVec.ofNat 32 (voters g h a).length)) ∧
  (∀ h d a, WritesP (.pany h d a) h d fun _ _ g _ => !(voters g h a).isEmpty) ∧
  (∀ h d a, WritesP (.pall h d a) h d fun _ _ g _ => decide (voters g h a = voters g h 7)) ∧
  ∀ h d a, WritesP (.lead h d a) h d fun _ _ g L => (voters g h a).head? == some L)



/-! ### Families 0x4 to 0x8 -/

/-- FADD, FSUB, FMUL, FFMA (08 R194 to R196): the negations of MOD, the exact sum or product rounded once under FN, NaN
results canonical, NV where an operation is invalid. -/
def Obligations.FloatArithmetic : Prop :=
  fp32.nanCode = 0x7FC00000 ∧
  (∀ h x, WritesD (.fadd h x) h false x.d.toNat false fun s u g L =>
    coded (fpAdd fp32 (rmode x.rm) (negIf (x.mod.getLsbD 0) (f32 (srcF32 s u g L x.a)))
      (negIf (x.mod.getLsbD 1) (f32 (srcIF32 s u g L x.b))))) ∧
  (∀ h x, WritesD (.fsub h x) h false x.d.toNat false fun s u g L =>
    coded (fpAdd fp32 (rmode x.rm) (negIf (x.mod.getLsbD 0) (f32 (srcF32 s u g L x.a)))
      (negIf (!x.mod.getLsbD 1) (f32 (srcIF32 s u g L x.b))))) ∧
  (∀ h x, WritesD (.fmul h x) h false x.d.toNat false fun s u g L =>
    coded (fpMul fp32 (rmode x.rm) (negIf (x.mod.getLsbD 0) (f32 (srcF32 s u g L x.a)))
      (negIf (x.mod.getLsbD 1) (f32 (srcIF32 s u g L x.b))))) ∧
  ∀ h x, WritesD (.ffma h x) h false x.d.toNat false fun s u g L =>
    coded (fpFma fp32 (rmode x.rm) (negIf (x.mod.getLsbD 0) (f32 (srcF32 s u g L x.a))) (f32 (srcF32 s u g L x.b))
      (negIf (x.mod.getLsbD 1) (f32 (srcF32 s u g L x.c))))

/-- Sums, products, negations and comparisons of finite values are exact (07 R183; 08 R195, R196). FMIN, FMAX, FSCALE, and
the properties of FRND and FEXP (08 R197, R198, R200, R201). -/
def Obligations.FloatExactAndMisc : Prop :=
  (
  ∀ x y : FVal, x.finite = true → y.finite = true →
    (∀ rd, (x.add rd y).finite = true ∧ (x.add rd y).rat = x.rat + y.rat) ∧
    ((x.mul y).finite = true ∧ (x.mul y).rat = x.rat * y.rat ∧ (x.mul y).sign = xor x.sign y.sign) ∧
    (x.neg.rat = -x.rat ∧ x.neg.sign = !x.sign) ∧ (x.lt y = true ↔ x.rat < y.rat)) ∧
  (
  (∀ h d a b, WritesD (.fmin h d a b) h false d.toNat false fun s u g L =>
    coded (fpPick fp32 false (srcF32 s u g L a).toNat (srcIF32 s u g L b).toNat, 0)) ∧
  (∀ h d a b, WritesD (.fmax h d a b) h false d.toNat false fun s u g L =>
    coded (fpPick fp32 true (srcF32 s u g L a).toNat (srcIF32 s u g L b).toNat, 0)) ∧
  (∀ h x, WritesD (.fscale h x) h false x.d.toNat false fun s u g L =>
    coded (roundTo fp32 (rmode x.rm) ((f32 (srcF32 s u g L x.a)).scaleBy (src32 s u g L x.b).toInt))) ∧
  (∃ f : BitVec 2 → Word → Word,
    (∀ h rm d a, WritesD (.frnd h rm d a) h false d.toNat false fun s u g L => plain (f rm (srcF32 s u g L a))) ∧
    ∀ rm x, match f32 x with
      | .nan => f rm x = 0x7FC00000
      | .inf _ => f rm x = x
      | .fin n m e => (f32 (f rm x)).finite = true ∧ (f32 (f rm x)).sign = n ∧
          (f32 (f rm x)).rat = roundRat (rmode rm) (FVal.fin n m e).rat) ∧
  ∃ f : Word → Word × Word,
    (∀ h d a, WritesD (.fexp h d a) h false d.toNat true fun s u g L =>
      (pairOf (f (srcF32 s u g L a)).1 (f (srcF32 s u g L a)).2, 0)) ∧
    ∀ x, match f32 x with
      | .nan => f x = (0x7FC00000, 0)
      | .inf _ => f x = (x, 0)
      | .fin n m e =>
        if m = 0 then f x = (x, 0)
        else (f32 (f x).1).sign = n ∧ 1 ≤ |(f32 (f x).1).rat| ∧ |(f32 (f x).1).rat| < 2 ∧
          (FVal.fin n m e).rat = (f32 (f x).1).rat * 2 ^ (f x).2.toInt)

/-- RoundToFormat (07 R183 to R185). Of a finite value without overflow the code decodes to a finite value q of its sign,
with Inexact where q differs and Underflow where q is below the smallest normal as well; under RNE no finite value of the
format is nearer, and where one is as near the code is even; under RZ none between 0 and the value is greater in magnitude,
under RU q is the least above and under RD the greatest below. Then the overflow, by R183's unlimited exponent and R184's
table, NaN and the infinities, and E8M0. -/
def Obligations.RoundToNearest : Prop :=
  (∀ F ∈ formats, ∀ (m : RMode) (v : FVal), v.finite = true → ¬overflows F m v →
    let q := F.decode (roundTo F m v).1
    q.finite = true ∧ q.sign = v.sign ∧
    (roundTo F m v).2 =
      (if q.rat = v.rat then 0 else if |q.rat| < 2 ^ (1 - (F.bias : ℤ)) then lsUF ||| lsNX else lsNX) ∧
    (m = .rz → |q.rat| ≤ |v.rat|) ∧ (m = .ru → v.rat ≤ q.rat) ∧ (m = .rd → q.rat ≤ v.rat) ∧
    ∀ c, (F.decode c).finite = true →
      (m = .rne → |q.rat - v.rat| ≤ |(F.decode c).rat - v.rat| ∧
        (|q.rat - v.rat| = |(F.decode c).rat - v.rat| → (F.decode c).rat ≠ q.rat → (roundTo F m v).1 % 2 = 0)) ∧
      (m = .rz → |(F.decode c).rat| ≤ |v.rat| → |(F.decode c).rat| ≤ |q.rat|) ∧
      (m = .ru → v.rat ≤ (F.decode c).rat → q.rat ≤ (F.decode c).rat) ∧
      (m = .rd → (F.decode c).rat ≤ v.rat → (F.decode c).rat ≤ q.rat)) ∧
  (∀ F ∈ formats, ∀ (m : RMode) (v : FVal), v.finite = true → overflows F m v →
    roundTo F m v = (F.signBit v.sign +
      (if F ∈ [e5m2, e4m3, e3m2, e2m1, sd6, sd4] ∨ m = .rz ∨ (m = .ru ∧ v.sign = true) ∨ (m = .rd ∧ v.sign = false)
        then F.maxCode else F.infCode), lsOF ||| lsNX)) ∧
  (∀ F ∈ formats, ∀ m, roundTo F m .nan = (F.nanCode, if F ∈ [e3m2, e2m1, sd6, sd4] then lsNV ||| lsNX else 0) ∧
    ∀ n, roundTo F m (.inf n) =
      if F ∈ [e4m3, e3m2, e2m1, sd6, sd4] then (F.signBit n + F.maxCode, lsNV ||| lsNX) else (F.signBit n + F.infCode, 0)) ∧
  [fp32, fp16, bf16, e5m2, e4m3, e3m2, e2m1].map Fmt.nanCode = [0x7FC00000, 0x7E00, 0x7FC0, 0x7E, 0x7F, 0, 0] ∧
  [fp32, fp16, bf16, e5m2, e4m3, e3m2, e2m1].map Fmt.maxCode = [0x7F7FFFFF, 0x7BFF, 0x7F7F, 0x7B, 0x7E, 0x1F, 7] ∧
  (∀ m, e8m0Round m .nan = (255, 0) ∧ ∀ n, e8m0Round m (.inf n) = (255, lsNV ||| lsNX)) ∧
  ∀ (m : RMode) (v : FVal), v.finite = true →
    (|v.rat| < 2 ^ (-127 : ℤ) → e8m0Round m v = (0, if v.rat = 0 then lsNX else lsUF ||| lsNX)) ∧
    ∀ e : ℤ, -127 ≤ e → 2 ^ e ≤ |v.rat| → |v.rat| < 2 ^ (e + 1) →
      let k : ℤ :=
        if |v.rat| = 2 ^ e ∨ m = .rz ∨ m = .rd then e
        else if m = .ru then e + 1
        else if |v.rat| < 3 / 2 * 2 ^ e then e
        else if 3 / 2 * 2 ^ e < |v.rat| then e + 1
        else if (e + 127) % 2 = 0 then e else e + 1
      e8m0Round m v =
        if 128 ≤ k then (0xFE, lsOF ||| lsNX) else ((k + 127).toNat, if v.rat = 2 ^ k then 0 else lsNX)



/-- R199: FCLASS sets the bit of a's class and no other; B, C and MOD are zero. -/
def Obligations.FloatClass : Prop :=
  (∀ h d a, WritesD (.fclass h d a) h false d.toNat false fun s u g L =>
    plain (BitVec.twoPow 32 (classOfVal (f32 (srcF32 s u g L a))))) ∧
  ∀ w h d a, decodeWord w = .ok (.fclass h d a) → w.extractLsb' 0 20 = 0 ∧ w.extractLsb' 39 2 = 0

/-- The packed halves (08 R202 to R204): two elements of FP16 or BF16, each by the FP32 forms' rules, and HDOT2's single
rounding into FP32. -/
def Obligations.PackedHalves : Prop :=
  (∀ h x F, ∀ bf : Bool, F = (if bf = true then bf16 else fp16) →
    (WritesD (if bf = true then .badd2 h x else .hadd2 h x) h false x.d.toNat false fun s u g L => packed fun i =>
      fpAdd F (rmode x.rm) (negIf (x.mod.getLsbD 0) (elemOf F (srcHalf F s u g L x.a) i))
        (negIf (x.mod.getLsbD 1) (elemOf F (srcHalf F s u g L x.b) i))) ∧
    WritesD (if bf = true then .bmul2 h x else .hmul2 h x) h false x.d.toNat false fun s u g L => packed fun i =>
      fpMul F (rmode x.rm) (negIf (x.mod.getLsbD 0) (elemOf F (srcHalf F s u g L x.a) i))
        (negIf (x.mod.getLsbD 1) (elemOf F (srcHalf F s u g L x.b) i))) ∧
  (∀ h x F, ∀ bf : Bool, F = (if bf = true then bf16 else fp16) →
    WritesD (if bf = true then .bfma2 h x else .hfma2 h x) h false x.d.toNat false fun s u g L => packed fun i =>
      fpFma F (rmode x.rm) (negIf (x.mod.getLsbD 0) (elemOf F (srcHalf F s u g L x.a) i))
        (elemOf F (srcHalf F s u g L x.b) i) (negIf (x.mod.getLsbD 1) (elemOf F (srcHalf F s u g L x.c) i))) ∧
  (∀ h mx bf d a b F, F = (if bf = true then bf16 else fp16) →
    WritesD (.hmnx2 h mx bf d a b) h false d.toNat false fun s u g L => packed fun i =>
      (fpPick F mx ((srcHalf F s u g L a).toNat / 2 ^ (16 * i) % 65536) ((srcHalf F s u g L b).toNat / 2 ^ (16 * i) % 65536), 0)) ∧
  ∀ h x F, F = (if x.mod.getLsbD 0 = true then bf16 else fp16) →
    WritesD (.hdot2 h x) h false x.d.toNat false fun s u g L =>
      let e (y : Src) (i : Nat) : FVal := elemOf F (srcHalf F s u g L y) i
      let p (i : Nat) : FVal := (e x.a i).mul (e x.b i)
      let c := f32 (srcF32 s u g L x.c)
      let v := ((p 0).add (rmode x.rm == .rd) (p 1)).add (rmode x.rm == .rd) c
      let inf (n : Bool) : Bool := p 0 == .inf n || p 1 == .inf n || c == .inf n
      coded (
        if (e x.a 0).zeroInf (e x.b 0) = true ∨ (e x.a 1).zeroInf (e x.b 1) = true ∨ (inf true && inf false) = true then
          (0x7FC00000, lsNV)
        else if v.isNan = true then (0x7FC00000, 0)
        else roundTo fp32 (rmode x.rm) v)

/-- F2I, I2F, F2F, I2I (08 R205 to R210). -/
def Obligations.Conversions : Prop :=
  (∀ h x, WritesD (.f2i h x) h false x.d.toNat (cvtWidth x.dt == 64) fun s u g L =>
    let v := cvtDecode x.st (cvtElement s u g L x)
    let n := roundRat (rmode x.rm) v.rat
    let r : Int × Word :=
      match v with
      | .nan => (0, lsNV)
      | .inf k => (if k then cvtLo x.dt else cvtHi x.dt, lsNV)
      | _ =>
        if n < cvtLo x.dt then (cvtLo x.dt, lsNV)
        else if cvtHi x.dt < n then (cvtHi x.dt, lsNV)
        else (n, if (n : ℚ) = v.rat then 0 else lsNX)
    (cvtPlace x.dt r.1, r.2)) ∧
  (∀ h x, WritesD (.i2f h x) h false x.d.toNat (cvtWidth x.dt == 64) fun s u g L =>
    coded (cvtRound x.dt (rmode x.rm) (ofInt (cvtInt x.st (cvtElement s u g L x))))) ∧
  (∀ h x, WritesD (.f2f h x) h false x.d.toNat (cvtWidth x.dt == 64) fun s u g L =>
    coded (cvtRound x.dt (rmode x.rm) (cvtDecode x.st (cvtElement s u g L x)))) ∧
  ∀ h x, WritesD (.i2i h x) h false x.d.toNat (cvtWidth x.dt == 64) fun s u g L =>
    let n := cvtInt x.st (cvtElement s u g L x)
    let r := if x.sat = true then max (cvtLo x.dt) (min (cvtHi x.dt) n) else n
    (cvtPlace x.dt r, if r = n then 0 else lsSAT)

/-- PACK8, PACK6, PACK4, UNPACK8, UNPACK4, SCALEQ, QUANT (08 R211 to R215), with the scales of the two example blocks of
08. -/
def Obligations.PackingAndScales : Prop :=
  (∀ h t d a b, WritesD (.pack8 h t d a b) h false d.toNat false fun s u g L =>
    let c (x : Word) := cvtRound t .rne (f32 x)
    let p := src64 s u g L a
    let q := src64 s u g L b
    coded ((c (lowWord p)).1 + 2 ^ 8 * ((c (highWord p)).1 + 2 ^ 8 * ((c (lowWord q)).1 + 2 ^ 8 * (c (highWord q)).1)),
      (c (lowWord p)).2 ||| ((c (highWord p)).2 ||| ((c (lowWord q)).2 ||| (c (highWord q)).2)))) ∧
  (∀ h d a b, WritesD (.pack6 h d a b) h false d.toNat false fun s u g L =>
    let c (x : Word) := roundTo e3m2 .rne (f32 x)
    let p := src64 s u g L a
    let q := src64 s u g L b
    coded ((c (lowWord p)).1 + 2 ^ 6 * ((c (highWord p)).1 + 2 ^ 6 * ((c (lowWord q)).1 + 2 ^ 6 * (c (highWord q)).1)),
      (c (lowWord p)).2 ||| ((c (highWord p)).2 ||| ((c (lowWord q)).2 ||| (c (highWord q)).2)))) ∧
  (∀ h sel d a b, sel.toNat ≤ 1 → WritesD (.pack4 h sel d a b) h false d.toNat false fun s u g L =>
    let c (x : Word) := roundTo e2m1 .rne (f32 x)
    let p := src64 s u g L a
    let q := src64 s u g L b
    let n := (c (lowWord p)).1 + 2 ^ 4 * ((c (highWord p)).1 + 2 ^ 4 * ((c (lowWord q)).1 + 2 ^ 4 * (c (highWord q)).1))
    let old := (g.vread s.draw d.toNat L).toNat
    coded (if sel = 0 then old / 2 ^ 16 * 2 ^ 16 + n else n * 2 ^ 16 + old % 2 ^ 16,
      (c (lowWord p)).2 ||| ((c (highWord p)).2 ||| ((c (lowWord q)).2 ||| (c (highWord q)).2)))) ∧
  (∀ h st dt sel d a, WritesD (.unpack8 h st dt sel d a) h false d.toNat true fun s u g L =>
    let e (i : Nat) : Nat := (cvtRound dt .rne (cvtDecode st ((src32 s u g L a).toNat / 2 ^ (8 * i) % 2 ^ 8))).1
    coded (if dt = 0 then e (2 * sel.toNat) + 2 ^ 32 * e (2 * sel.toNat + 1)
      else e (4 * sel.toNat) + 2 ^ 16 * e (4 * sel.toNat + 1) + 2 ^ 32 * e (4 * sel.toNat + 2) +
        2 ^ 48 * e (4 * sel.toNat + 3), 0)) ∧
  (∀ h dt sel d a, WritesD (.unpack4 h dt sel d a) h false d.toNat true fun s u g L =>
    let e (i : Nat) : Nat := (cvtRound dt .rne (e2m1.decode ((src32 s u g L a).toNat / 2 ^ (4 * i) % 2 ^ 4))).1
    coded (if dt = 0 then e (2 * sel.toNat) + 2 ^ 32 * e (2 * sel.toNat + 1)
      else e (4 * sel.toNat) + 2 ^ 16 * e (4 * sel.toNat + 1) + 2 ^ 32 * e (4 * sel.toNat + 2) +
        2 ^ 48 * e (4 * sel.toNat + 3), 0)) ∧
  (∀ h q d a, WritesD (.scaleq h q d a) h false d.toNat false fun s u g L =>
    let v (K : Nat) : FVal := f32 (src32 s u g K a)
    (BitVec.ofNat 64 (blockScale q (((lanesList (g.active h)).filter fun K => K / 32 == L / 32).map v)),
      if (v L).isNan = true ∨ (v L).isInf = true then lsNV else 0)) ∧
  (∀ h q d a b, WritesD (.quant h q d a b) h false d.toNat false fun s u g L =>
    coded (quantVal q (f32 (src32 s u g L a)) (src32 s u g L b))) ∧
  blockScale 3 [f32 0x41A00000, f32 0x3FA66666, f32 0xC0E00000, f32 0x3E800000, f32 0] = 0x81 ∧
  blockScale 6 [f32 0x42C00000, f32 0x3F800000, f32 0x3E99999A, f32 0xC2C80000, f32 0] = 0x857F ∧
  (quantVal 6 (f32 0x42C00000) 0x857F).1 = 0xB ∧ (quantVal 6 (f32 0x3E99999A) 0x857F) = (0x1, lsUF ||| lsNX) ∧
  (quantVal 6 (f32 0xC2C80000) 0x857F) = (0xF, lsNX)

/-- The special functions (08 R216 to R218): the special inputs of R218 with their conditions, and RCP, RSQ and SQRT on
finite values; RCP and SQRT are correctly rounded (R217): of the FP32⟨p⟩ values none is nearer to 1 / x, or to √x. -/
def Obligations.SpecialFunctions : Prop :=
  (
  (∀ h ap d a, WritesD (.rcp h ap d a) h false d.toNat false fun s u g L =>
    coded (rcp (if ap = true then 12 else 24) (f32 (srcF32 s u g L a)))) ∧
  (∀ h ap d a, WritesD (.rsq h ap d a) h false d.toNat false fun s u g L =>
    coded (rsq (if ap = true then 12 else 24) (f32 (srcF32 s u g L a)))) ∧
  (∀ h ap d a, WritesD (.sqrt h ap d a) h false d.toNat false fun s u g L =>
    coded (sqrtF (if ap = true then 12 else 24) (f32 (srcF32 s u g L a)))) ∧
  (∀ h d a, WritesD (.exp2 h d a) h false d.toNat false fun s u g L => coded (exp2F (f32 (srcF32 s u g L a)))) ∧
  (∀ h d a, WritesD (.log2 h d a) h false d.toNat false fun s u g L => coded (log2F (f32 (srcF32 s u g L a)))) ∧
  (∀ h d a, WritesD (.sinp h d a) h false d.toNat false fun s u g L => coded (sinpF (f32 (srcF32 s u g L a)))) ∧
  (∀ h d a, WritesD (.cosp h d a) h false d.toNat false fun s u g L => coded (cospF (f32 (srcF32 s u g L a)))) ∧
  (∀ h d a, WritesD (.tanh h d a) h false d.toNat false fun s u g L => coded (tanhF (f32 (srcF32 s u g L a)))) ∧
  (∀ p, p = 12 ∨ p = 24 → ∀ n e m, 0 < m →
    rcp p .nan = (0x7FC00000, 0) ∧ rcp p (.inf n) = (if n then 0x80000000 else 0, 0) ∧
    rcp p (.fin n 0 e) = (if n then 0xFF800000 else 0x7F800000, lsDZF) ∧
    rsq p .nan = (0x7FC00000, 0) ∧ rsq p (.inf true) = (0x7FC00000, lsNV) ∧ rsq p (.inf false) = (0, 0) ∧
    rsq p (.fin n 0 e) = (if n then 0xFF800000 else 0x7F800000, lsDZF) ∧ rsq p (.fin true m e) = (0x7FC00000, lsNV) ∧
    sqrtF p .nan = (0x7FC00000, 0) ∧ sqrtF p (.inf true) = (0x7FC00000, lsNV) ∧ sqrtF p (.inf false) = (0x7F800000, 0) ∧
    sqrtF p (.fin n 0 e) = (if n then 0x80000000 else 0, 0) ∧ sqrtF p (.fin true m e) = (0x7FC00000, lsNV)) ∧
  (∀ n m e, 0 < m →
    exp2F .nan = (0x7FC00000, 0) ∧ exp2F (.inf n) = (if n then 0 else 0x7F800000, 0) ∧
    exp2F (.fin n 0 e) = (0x3F800000, 0) ∧
    log2F .nan = (0x7FC00000, 0) ∧ log2F (.inf true) = (0x7FC00000, lsNV) ∧ log2F (.inf false) = (0x7F800000, 0) ∧
    log2F (.fin n 0 e) = (0xFF800000, lsDZF) ∧ log2F (.fin true m e) = (0x7FC00000, lsNV) ∧ log2F (f32 0x3F800000) = (0, 0) ∧
    sinpF .nan = (0x7FC00000, 0) ∧ sinpF (.inf n) = (0x7FC00000, lsNV) ∧
    ((∃ k : ℤ, (FVal.fin n m e).rat = k) → sinpF (.fin n m e) = (if n then 0x80000000 else 0, 0)) ∧
    sinpF (.fin n 0 e) = (if n then 0x80000000 else 0, 0) ∧
    cospF .nan = (0x7FC00000, 0) ∧ cospF (.inf n) = (0x7FC00000, lsNV) ∧ cospF (.fin n 0 e) = (0x3F800000, 0) ∧
    ((∃ k : ℤ, (FVal.fin n m e).rat = k + 1 / 2) → cospF (.fin n m e) = (0, 0)) ∧
    tanhF .nan = (0x7FC00000, 0) ∧ tanhF (.inf n) = (if n then 0xBF800000 else 0x3F800000, 0) ∧
    tanhF (.fin n 0 e) = (if n then 0x80000000 else 0, 0))) ∧
  (
  ∀ p, p = 12 ∨ p = 24 → ∀ x : Word, (f32 x).finite = true → (f32 x).rat ≠ 0 → ∀ c : Word, (f32 c).finite = true →
    c.toNat % 2 ^ (24 - p) = 0 →
    ((rcp p (f32 x)).2 &&& lsOF = 0 →
      |(fp32.decode (rcp p (f32 x)).1).rat - 1 / (f32 x).rat| ≤ |(f32 c).rat - 1 / (f32 x).rat|) ∧
    (0 < (f32 x).rat →
      |((fp32.decode (sqrtF p (f32 x)).1).rat : ℝ) - Real.sqrt (f32 x).rat| ≤ |((f32 c).rat : ℝ) - Real.sqrt (f32 x).rat|))



/-- SHFL, BCAST and RDSTEP (06 R163 to R165, R167, R169): which lane each active lane takes, and what stands for a lane
that is missing or absent. -/
def Obligations.LaneExchange : Prop :=
  (∀ h mode d a b, WritesD (.shfl h mode d a b) h false d.toNat false fun s u g L =>
    let o : Int := match b with
      | .imm i => if i.toInt < 0 then ((64 / 2 ^ i.toInt.natAbs : Nat) : Int) else i.toInt
      | y => (src32 s u g L y).toNat
    let j : Int :=
      if mode = 0 then L - o else if mode = 1 then L + o else if mode = 2 then ((L ^^^ o.toNat : Nat) : Int) else o
    plain (fromLane s u g a j (src32 s u g L a))) ∧
  (∀ h d a b, WritesD (.bcast h d a b) h false d.toNat false fun s u g _ =>
    plain (fromLane s u g a (src32 s u g (lowest (g.active h)) b).toNat 0)) ∧
  ∀ h op d a k, WritesD (.rdstep h op d a k) h false d.toNat false fun s u g L =>
    let w := 64 / 2 ^ (k.toNat + 1)
    let p := L ^^^ w
    plain (if w = 0 ∨ (g.active h).getLsbD p = false then crossSrc op s u g L a
      else crossOp op (crossSrc op s u g (min L p) a) (crossSrc op s u g (max L p) a))

/-- R166: PERM selects from 2W values, 0 for an absent lane; MOD is zero. -/
def Obligations.Permute : Prop :=
  (∀ h d a b c, WritesD (.perm h d a b c) h false d.toNat false fun s u g L =>
    let i := (src32 s u g L b).toNat % 128
    plain (if i < 64 then fromLane s u g a i 0 else fromLane s u g c (i - 64) 0)) ∧
  ∀ w h d a b c, decodeWord w = .ok (.perm h d a b c) → w.extractLsb' 39 2 = 0

/-- RDX's canonical tree and SCAN's left fold over the active lanes (06 R168, R170, R171), with the eleven operations, their
identities and their operand, FP32 under .fadd, .fmin and .fmax (04 R88), and the FP32 sums of R171's table. -/
def Obligations.Reductions : Prop :=
  (∀ h op d a, WritesD (.rdx h op d a) h false d.toNat false fun s u g _ =>
    plain ((treeOf (crossOp op)
      (fun L => if L < 64 ∧ (g.active h).getLsbD L = true then some (crossSrc op s u g L a) else none) 7 0).getD 0)) ∧
  (∀ h op excl d a, WritesD (.scan h op excl d a) h false d.toNat false fun s u g L =>
    plain (foldOf (crossOp op) (crossId op)
      (((lanesList (g.active h)).filter fun K => if excl = true then decide (K < L) else decide (K ≤ L)).map
        fun K => crossSrc op s u g K a))) ∧
  (∀ x y : Word, crossOp 0 x y = BitVec.ofNat 32 (x.toNat + y.toNat) ∧ crossOp 2 x y = BitVec.ofInt 32 (min x.toInt y.toInt) ∧
    crossOp 3 x y = BitVec.ofInt 32 (max x.toInt y.toInt) ∧ crossOp 4 x y = BitVec.ofNat 32 (min x.toNat y.toNat) ∧
    crossOp 5 x y = BitVec.ofNat 32 (max x.toNat y.toNat) ∧ crossOp 8 x y = x &&& y ∧ crossOp 9 x y = x ||| y ∧
    crossOp 10 x y = x ^^^ y ∧ crossOp 1 x y = BitVec.ofNat 32 (fpAdd fp32 .rne (f32 x) (f32 y)).1 ∧
    crossOp 6 x y = BitVec.ofNat 32 (fpPick fp32 false x.toNat y.toNat) ∧
    crossOp 7 x y = BitVec.ofNat 32 (fpPick fp32 true x.toNat y.toNat)) ∧
  (∀ op s u g L a, crossSrc op s u g L a = if op = 1 ∨ op = 6 ∨ op = 7 then srcF32 s u g L a else src32 s u g L a) ∧
  [0, 1, 2, 3, 4, 5, 6, 7, 8, 9, 10].map crossId =
    [0, 0x80000000, 0x7FFFFFFF, 0x80000000, 0xFFFFFFFF, 0, 0x7F800000, 0xFF800000, 0xFFFFFFFF, 0, 0] ∧
  crossOp 1 (crossOp 1 0x4B800000 0x3F800000) (crossOp 1 0x3F800000 0x3F800000) = 0x4B800001 ∧
  crossOp 1 (crossOp 1 (crossOp 1 0x4B800000 0x3F800000) 0x3F800000) 0x3F800000 = 0x4B800000

/-! ### Control, family 0x0 -/

/-- NOP, BRA, BRAX, YIELD (05 R113, R132 to R134, R139): where each lane goes, the control-target trap, and what they
leave alone. -/
def Obligations.Branches : Prop :=
  (∀ h s u g, s.Issues u g h → ∃ t g', Runs (.nop h) s u g t g' ∧ g.SameRegs g' ∧
    (g.More → ∀ b L, g'.latchOf b L = g.latchOf b L)) ∧
  (∀ h mode tgt s u g, s.Issues u g h →
    let a := g.clauseAddr + 8 * tgt.signExtend 64
    ((∀ L, L < 64 → takes mode g h L = true → validTarget a) →
      Jumps (.bra h mode tgt) s u g (takes mode g h) fun _ => a) ∧
    ((∃ L, L < 64 ∧ takes mode g h L = true) → ¬validTarget a →
      exec (.bra h mode tgt) s = .next (s.trapAt u causeTarget a (g.active h)))) ∧
  (∀ h a s u g, s.Issues u g h →
    ((∀ L, L < 64 → g.acts h L → validTarget (src64 s u g L a)) →
      Jumps (.brax h a) s u g (g.active h).getLsbD (src64 s u g · a)) ∧
    ∀ L, firstBadTarget (g.active h).getLsbD (src64 s u g · a) L →
      exec (.brax h a) s = .next (s.trapAt u causeTarget (src64 s u g L a) (g.active h))) ∧
  ∀ h s u g, s.Issues u g h → ∃ t g', exec (.yield h) s = .next t ∧ t.group? u = some g' ∧
    g.Leaves { g' with stamp := g.stamp } (fun _ => some g.nextClause) ∧
    (g.active h = 0 → g'.stamp = g.stamp ∧ t.cores = s.cores) ∧
    (g.active h ≠ 0 → g'.stamp = (s.core (coreOf u)).stamp ∧
      t.core (coreOf u) = { s.core (coreOf u) with stamp := g'.stamp + 1 } ∧
      ∀ c, c ≠ coreOf u → t.core c = s.core c) ∧
    { t with groups := s.groups, draw := s.draw, cores := s.cores } = s ∧ (∀ k, k ≠ u → t.group? k = s.group? k) ∧
    s.SameMem t

/-- CALL, CALLX and RET (05 R129, R130, R134): the depth, underflow and target traps; the pushes, with the oldest entry of
a lane at depth 8 and more stored at its place in thread-local memory; the pops, with the refill from there. They commit
the region that they end; a spill commits with it, and one to an S page goes out at once and makes the group wait (the
model's reading, log entry 13); a spill or refill that meets a translation fault aborts the region (21 R385). -/
def Obligations.CallReturn : Prop :=
  (∀ h tgt a s u g, s.Issues u g h → ∀ it : Instr × (Nat → Dword),
    it = (.call h tgt, fun _ => g.clauseAddr + 8 * tgt.signExtend 64) ∨ it = (.callx h a, (src64 s u g · a)) →
    let ls := ((lanesList (g.active h)).filter fun L => decide (8 ≤ g.depthOf L)).map fun L =>
      stackLane s u g accStore (g.depthOf L - 8) L
    let deepOk := ∀ L, L < 64 → g.acts h L → 8 ≤ g.depthOf L → 8 * (g.depthOf L - 7) ≤ g.tlsb
    (¬deepOk → exec it.1 s = .next (s.trapAt u causeDepth 0 (g.active h))) ∧
    (deepOk → ∀ L, firstBadTarget (g.active h).getLsbD it.2 L →
      exec it.1 s = .next (s.trapAt u causeTarget (it.2 L) (g.active h))) ∧
    (deepOk → (∀ L, L < 64 → g.acts h L → validTarget (it.2 L)) →
      (∀ c i, lowestTrap ls c i → exec it.1 s = .next (s.trapAt u c i (g.active h))) ∧
      (firstTrap ls = none → faultsOf ls ≠ [] → ∃ t, exec it.1 s = .next t ∧
        Aborted (if anyS ls = true then s.commit u g.clauseIdx false else s) t u (faultsOf ls)) ∧
      (firstTrap ls = none → faultsOf ls = [] → anyS ls = true →
        ∃ t g1 tok, exec it.1 s = .next t ∧ t.group? u = some g1 ∧ s.SameMem t ∧ g.SameRegs g1 ∧ g1.buf = [] ∧
          g1.clause = none ∧ g1.wait = .drain tok ∧
          (∀ L, aget g1.pc L = if g.headRun.getLsbD L = true then
            some (if (g.active h).getLsbD L = true then it.2 L else g.nextClause) else aget g.pc L) ∧
          (∀ L, L < 64 → (g.acts h L → g1.depthOf L = g.depthOf L + 1) ∧ (¬g.acts h L → g1.depthOf L = g.depthOf L)) ∧
          sentOut t g tok (fun L => natLE (g.stackAt L (g.depthOf L - 8)).toNat 8) ls)) ∧
    (deepOk → (∀ L, L < 64 → g.acts h L → validTarget (it.2 L)) → firstTrap ls = none → faultsOf ls = [] → anyS ls = false →
      ∀ b, bufStore g.buf (storeBytes (fun L => natLE (g.stackAt L (g.depthOf L - 8)).toNat 8) ls) [] [] = some b →
      ∃ g1, exec it.1 s =
          .next (((s.tlbFillLanes g.ctx accStore (s.groupPriv g) ls).putGroup u g1).commit u 0 false).drawn ∧
        g1.buf = b ∧
        g.Leaves { g1 with buf := g.buf, depth := g.depth, rstack := g.rstack }
          (fun L => some (if (g.active h).getLsbD L = true then it.2 L else g.nextClause)) ∧
        (∀ L, L < 64 → (g.acts h L → g1.depthOf L = g.depthOf L + 1) ∧ (¬g.acts h L → g1.depthOf L = g.depthOf L)) ∧
        ∀ L e, L < 64 → g1.stackAt L e =
          if (g.active h).getLsbD L = true ∧ e = g.depthOf L then g.nextClause
          else if (g.active h).getLsbD L = true ∧ 8 ≤ g.depthOf L ∧ e = g.depthOf L - 8 then 0
          else g.stackAt L e)) ∧
  ∀ h s u g, s.Issues u g h →
    let t (L : Nat) : Dword := g.stackAt L (g.depthOf L - 1)
    let refill (L : Nat) : Lane := stackLane s u g accLoad (g.depthOf L - 9) L
    let ls := ((lanesList (g.active h)).filter fun L => decide (9 ≤ g.depthOf L)).map refill
    let own := bufBytes g.buf false ((pieceBytes (ls.flatMap (·.pieces))).map (·.2.2))
    let full := ∀ L, L < 64 → g.acts h L → 0 < g.depthOf L
    (¬full → exec (.ret h) s = .next (s.trapAt u causeUnderflow 0 (g.active h))) ∧
    (full → ∀ L, firstBadTarget (g.active h).getLsbD t L →
      exec (.ret h) s = .next (s.trapAt u causeTarget (t L) (g.active h))) ∧
    (full → (∀ L, L < 64 → g.acts h L → validTarget (t L)) →
      (∀ c i, lowestTrap ls c i → exec (.ret h) s = .next (s.trapAt u c i (g.active h))) ∧
      (firstTrap ls = none → faultsOf ls ≠ [] → ∃ t, exec (.ret h) s = .next t ∧
        Aborted (if anyS ls = true then s.commit u g.clauseIdx false else s) t u (faultsOf ls))) ∧
    (full → (∀ L, L < 64 → g.acts h L → validTarget (t L)) → firstTrap ls = none → faultsOf ls = [] →
      (∀ k ∈ s.sent, ¬(k.unit = u ∧ k.uid = g.uid)) → (∀ l ∈ ls, (s.refillOf u g own l).2 = none) →
      ∃ g1, exec (.ret h) s =
          .next (((s.tlbFillLanes g.ctx accLoad (s.groupPriv g) ls).putGroup u g1).commit u 0 false).drawn ∧
        g.Leaves { g1 with depth := g.depth, rstack := g.rstack }
          (fun L => some (if (g.active h).getLsbD L = true then t L else g.nextClause)) ∧
        (∀ L, L < 64 → (g.acts h L → g1.depthOf L = g.depthOf L - 1) ∧ (¬g.acts h L → g1.depthOf L = g.depthOf L)) ∧
        ∀ L e, L < 64 → g1.stackAt L e =
          if (g.active h).getLsbD L = true ∧ e = g.depthOf L - 1 then 0
          else if (g.active h).getLsbD L = true ∧ 9 ≤ g.depthOf L ∧ e = g.depthOf L - 9 then
            (s.refillOf u g own (refill L)).1
          else g.stackAt L e)

/-- EXIT, TRAP, BKPT and the event GROUP_EXIT (05 R135, R140, R141): the active lanes leave the table and an empty table
ends the group once nothing is outstanding; TRAP commits and takes cause 9 behind itself; BKPT halts where breakpoints are
enabled and is a NOP elsewhere. -/
def Obligations.ExitsAndTraps : Prop :=
  (∀ h s u g, s.Issues u g h →
    let s1 := s.commit u g.clauseIdx false
    ∃ g1 g2, s1.group? u = some g1 ∧ exec (.exit h) s = .next (s1.putGroup u g2).drawn ∧
      g1.Leaves { g2 with region := g1.region, wait := g1.wait }
        (fun L => if (g.active h).getLsbD L = true then none else some g.nextClause) ∧
      g2.region = ⟨g2.pc, 0, false⟩ ∧ g2.wait = if g2.pc = [] then .exit else g1.wait) ∧
  (∀ h code s u g, s.Issues u g h →
    let s1 := s.commit u g.clauseIdx false
    ∃ g1 g2, s1.group? u = some g1 ∧
      g1.Leaves { g2 with region := g1.region } (fun _ => some g.nextClause) ∧ g2.region = ⟨g2.pc, 0, false⟩ ∧
      exec (.trap h code) s = .next (
        if g.active h = 0 then (s1.putGroup u g2).drawn
        else (s1.putGroup u g2).drawn.takeTrap u
          ⟨causeSoftware, g.clauseAddr, g.clauseIdx, BitVec.setWidth 64 code, g.active h⟩)) ∧
  (∀ h code s u g, s.Issues u g h →
    (g.active h ≠ 0 → s.ctxBpen g.ctx = true → g.wait ≠ .halted →
      exec (.bkpt h code) s = .next ((s.putGroup u { g with wait := .halted }).logCtx g.ctx (srcUnit u) 0x05
        (g.clauseAddr.toNat + 2 ^ 64 * code.toNat + 2 ^ 80 * unitSlot u))) ∧
    (g.active h = 0 ∨ s.ctxBpen g.ctx = false → ∃ t g', Runs (.bkpt h code) s u g t g' ∧ g.SameRegs g')) ∧
  ∀ s u g, s.group? u = some g →
    (g.wait = .exit → g.unacked = 0 → g.isEngine = false → g.atomicsOut = false →
      ∃ t, exec (.groupExit u) s = .next t ∧ t.group? u = none ∧ s.SameMem t ∧
        ∀ k x, g.launch = some k → aget s.launches k = some x →
          ∃ y, aget t.launches k = some y ∧ y = { x with live := x.live - 1 }) ∧
    (g.wait ≠ .exit ∨ g.unacked ≠ 0 ∨ g.isEngine = true ∨ g.atomicsOut = true → exec (.groupExit u) s = .next s)

/-! ### Traps and the privileged family, 0xF -/

/-- Taking a trap (21 R389, R394, R395): the open region is discarded with its stores, the region start and the record go to
the shadow, and the lanes to the handler; it waits while results are in flight (TRAP_DELIVER then delivers; one found elsewhere waits for
the clause in flight, 12 R303); a fatal
trap, a second trap in a handler or a disabled TVEC ends the group with its record. -/
def Obligations.TrapEntry : Prop :=
  (∀ (s : State) (u : Nat) (g : Group) (r : TrapRec), s.group? u = some g → g.isEngine = false → s.noArrival g →
    (s.delivers g r → g.restart.settled = true →
      ∃ g', (s.takeTrap u r).group? u = some g' ∧ g.Enters g' g.region r (trapEntry s g.ctx r.cause) ∧ g'.buf = [] ∧
        g'.wait = .no ∧ g'.late = g.late ∧
        ((∀ st n b k, BufItem.fill st n b (some k) ∉ g.buf) → g'.flags = g.flags ∧ g'.pend = g.pend) ∧
        (∀ k, k ≠ u → (s.takeTrap u r).group? k = s.group? k) ∧ { s.takeTrap u r with groups := s.groups } = s) ∧
    (fatalCause r.cause = false → g.restart.settled = false →
      ∃ g', (s.takeTrap u r).group? u = some g' ∧ g'.taking = some r ∧ g'.clause = none ∧ g'.pc = g.region.pcs ∧
        g'.buf = [] ∧ g'.wait = .no ∧ g.SameRegs g' ∧ { s.takeTrap u r with groups := s.groups } = s) ∧
    (¬s.delivers g r → fatalCause r.cause = true ∨ g.restart.settled = true →
      (s.takeTrap u r).group? u = none ∧
      ∃ g', s.takeTrap u r =
        ((s.putGroup u g').leave u true).logCtx g.ctx (srcUnit u) 0x06 (trapData u g.ctx (endRec g r)))) ∧
  ∀ (s : State) (u : Nat) (g : Group), s.group? u = some g →
    (∀ r, g.taking = some r → g.settled = true → g.isEngine = false → s.delivers g r → ∃ t g',
      exec (.trapDeliver u) s = .next t ∧ t.group? u = some g' ∧
      g.Enters { g' with clause := none }
        ⟨g.pc, (g.resume.map (·.1)).getD 0, (g.resume.map (·.2)).getD false⟩ r (trapEntry s g.ctx r.cause) ∧
      (∀ k, k ≠ u → t.group? k = s.group? k) ∧ { t with groups := s.groups } = s) ∧
    (∀ r, g.taking = some r → g.settled = true → g.isEngine = false → ¬s.delivers g r → ∃ t,
      exec (.trapDeliver u) s = .next t ∧ t.group? u = none ∧
      t = (s.leave u true).logCtx g.ctx (srcUnit u) 0x06 (trapData u g.ctx (endRec g r))) ∧
    (∀ r, g.taking = some r → g.settled = false ∨ g.isEngine = true → exec (.trapDeliver u) s = .next s) ∧
    (∀ r, g.taking = none → g.late = some r →
      ((∀ c, g.clause = some c → c.started = false) →
        exec (.trapDeliver u) s = .next ((s.putGroup u { g with late := none }).takeTrap u r)) ∧
      ((∃ c, g.clause = some c ∧ c.started = true) → exec (.trapDeliver u) s = .next s)) ∧
    (g.taking = none → g.late = none → exec (.trapDeliver u) s = .next s)

/-- The privileged family without supervisor privilege (21 R375, R388): every instruction takes the privileged-instruction
trap; HALTC. CSRR and CSRW (21 R403, R404): the trap state that they read, the scratch registers, and TADDR. -/
def Obligations.PrivilegeAndTrapState : Prop :=
  (
  (∀ i h s u g, s.Issues u g h → s.groupPriv g = false →
    (∃ d csr, i = .csrr h d csr) ∨ (∃ csr a, i = .csrw h csr a) ∨ (∃ m, i = .tlbinv h m) ∨ i = .rett h ∨
      (∃ a, i = .presp h a) ∨ (∃ a, i = .haltc h a) →
    exec i s = .next (s.trapAt u causePrivileged 0 (g.active h))) ∧
  ∀ h a s u g, s.Issues u g h → s.groupPriv g = true →
    (g.active h ≠ 0 →
      let r := (src32 s u g (lowest (g.active h)) a).setWidth 64
      exec (.haltc h a) s = .next (s.trapAt u causeHalt r (g.active h)) ∧
      (g.isEngine = false → (s.trapAt u causeHalt r (g.active h)).group? u = none)) ∧
    (g.active h = 0 → Jumps (.haltc h a) s u g (fun _ => false) fun _ => 0)) ∧
  (
  (∀ h d csr s u g, s.Issues u g h → s.groupPriv g = true →
    FormDone (.csrr h d csr) h true d.toNat true (fun _ => (csrOf s g csr.toNat, 0)) s u g) ∧
  ∀ h csr a s u g, s.Issues u g h → s.groupPriv g = true →
    let x := src64 s u g (lowest (g.active h)) a
    (g.active h = 0 → ∃ t g', Runs (.csrw h csr a) s u g t g' ∧ g.SameRegs g') ∧
    (g.active h ≠ 0 → ∃ t g', exec (.csrw h csr a) s = .next t ∧ s.Around t u ∧ t.group? u = some g' ∧
      g.Keeps { g' with taddr := g.taddr, shadow := g.shadow, tscr := g.tscr } ∧ g.SameRegs g' ∧
      g'.pc = g.advance.pc ∧ g'.clause = g.advance.clause ∧
      (16 ≤ csr.toNat → g'.taddr = g.taddr ∧ g'.shadow = g.shadow ∧ g'.scratch (csr.toNat - 16) = x ∧
        ∀ n, n ≠ csr.toNat - 16 → g'.scratch n = g.scratch n) ∧
      (csr = 2 → g'.tscr = g.tscr ∧ g'.taddr = x ∧
        (g.intrap = false → g'.shadow = g.shadow) ∧
        ∀ rg r, g.intrap = true → g.shadow = some (rg, r) →
          ((∀ y ∈ rg.pcs, y.2 ≠ r.addr) → g'.shadow = some (rg, { r with addr := x })) ∧
          ((∃ y ∈ rg.pcs, y.2 = r.addr) →
            g'.shadow = some (⟨rg.pcs.map fun y => if y.2 = r.addr then (y.1, x) else y, 0, false⟩, { r with addr := x })))))



/-- RETT, TLBINV and PRESP in supervisor privilege (21 R405 to R407): the return restores the region start that the shadow
holds, or traps; an invalidation drops exactly the translations that it names; a reply frees or cancels the request of its
tag. They wait for the group's stores. RETT with no lane active goes on (the model's reading, log entry 16). -/
def Obligations.TrapReturnAndReplies : Prop :=
  (∀ h s u g, s.Issues u g h → s.groupPriv g = true →
    (g.active h = 0 → Jumps (.rett h) s u g (fun _ => false) fun _ => 0) ∧
    (g.active h ≠ 0 → g.intrap = false → exec (.rett h) s = .next (s.trapAt u causeIllegal 0 (g.active h))) ∧
    (g.active h ≠ 0 → g.intrap = true → ¬validTarget g.taddr →
      exec (.rett h) s = .next (s.trapAt u causeTarget g.taddr (g.active h))) ∧
    ∀ rg r, g.active h ≠ 0 → g.intrap = true → validTarget g.taddr → g.shadow = some (rg, r) →
      let s1 := s.commit u g.clauseIdx false
      ∃ g1 g2, s1.group? u = some g1 ∧ exec (.rett h) s = .next (s1.putGroup u g2).drawn ∧ g2.pc = rg.pcs ∧
        g2.region = rg ∧ g2.resume = (if rg.index = 0 ∧ rg.half = false then none else some (rg.index, rg.half)) ∧
        g2.intrap = false ∧ g2.clause = none ∧
        { g2 with
          pc := g1.pc, region := g1.region, resume := g1.resume, intrap := g1.intrap, clause := g1.clause
          latch := g1.latch, latchOk := g1.latchOk, readyAt := g1.readyAt, urgent := g1.urgent } = g1) ∧
  (∀ h m s u g, s.Issues u g h → s.groupPriv g = true →
    (g.active h ≠ 0 → g.unacked ≠ 0 → exec (.tlbinv h m) s = .next s) ∧
    (g.active h = 0 → ∃ t g', Runs (.tlbinv h m) s u g t g' ∧ g.SameRegs g') ∧
    (g.active h ≠ 0 → g.unacked = 0 → ∃ t g', RunsVia (.tlbinv h m) s { s with tlb := t.tlb } u g t g' ∧ g.SameRegs g' ∧
      ∀ e, e ∈ t.tlb ↔ e ∈ s.tlb ∧ ¬tlbNames s g m e)) ∧
  ∀ h a s u g, s.Issues u g h → s.groupPriv g = true →
    let x := (src32 s u g (lowest (g.active h)) a).toNat
    let f := x / 2 ^ 16 % 2 ^ 6
    let status := x / 2 ^ 24 % 2 ^ 2
    let named (q : PageReq) : Bool := q.fn == f && q.tag == some (x % 2 ^ 16)
    (g.active h = 0 → ∃ t g', Runs (.presp h a) s u g t g' ∧ g.SameRegs g') ∧
    (g.active h ≠ 0 → f ≠ s.ctxFn g.ctx → s.ctxHyp g.ctx = false →
      exec (.presp h a) s = .next (s.trapAt u causePrivileged 0 (g.active h))) ∧
    (g.active h ≠ 0 → f = s.ctxFn g.ctx ∨ s.ctxHyp g.ctx = true →
      (g.unacked ≠ 0 → exec (.presp h a) s = .next s) ∧
      (g.unacked = 0 → 2 ≤ status ∨ 32 < f ∨ (∀ q ∈ s.requests, named q = false) →
        ∃ t g', Runs (.presp h a) s u g t g' ∧ g.SameRegs g') ∧
      ∀ q, g.unacked = 0 → status ≤ 1 → f ≤ 32 → s.requests.find? named = some q →
        ∃ s1 g', s1.group? u = some g' ∧ s.Around s1 u ∧ g.Keeps g' ∧ g.SameRegs g' ∧ g'.clause = g.advance.clause ∧
          exec (.presp h a) s = .next (if status = 0 then s1.freeRequest q else s1.cancelRequest q))

/-! ### Memory access, families 0x9 and 0xA -/

/-- The loads (05 R117, R118; 09 R219 to R225, R238, R239; 21 R384): addresses and checks of each form, the trap of the
lowest lane that raises one, and otherwise the pending lanes: those whose translation faults wait for their walk, and those
to another package set out for its port (10 R257, R259); LDB.w takes its places in the controller's order. An access to an S
page, and every one of an engine program, commits its region and makes the group wait (09 R224; 14 R319, R321). -/
def Obligations.LoadsIssue : Prop :=
  ∀ (h : Head) (sz : LdSize) (d : BitVec 9) (ds : BitVec 7) (addr : Src) (off : BitVec 14) (scope : BitVec 4)
    (hint : BitVec 2) (w c : Bool) (s : State) (u : Nat) (g : Group), s.Issues u g h → g.wait = .no →
    let lanes := lanesList (g.active h)
    let va (acc : Nat) (L : Nat) : Lane :=
      let ea := src64 s u g L addr + off.signExtend 64
      ⟨L, ea, 0, s.chkVa g.ctx acc (s.groupPriv g) ea sz.bytes 1 none, true⟩
    let ldb (L : Nat) : Lane :=
      let bo := src32 s u g L addr + off.signExtend 32
      ⟨L, bo.setWidth 64, 0, chkBasin u bo.toNat sz.bytes sz.bytes, false⟩
    let ldl (L : Nat) : Lane :=
      let o : Int := ((src32 s u g L addr).toNat : Int) + off.toInt
      let ea := tlBase u g L + BitVec.ofInt 64 o
      let out := if o < 0 ∨ (g.tlsb : Int) < o + sz.bytes then some (causeTls, BitVec.ofInt 64 o) else none
      ⟨L, ea, 0, s.chkVa g.ctx accLoad (s.groupPriv g) ea sz.bytes 1 out, true⟩
    let place (L : Nat) : LaneSt := if w = true then .full ((s.die (unitDie u)).ticket + L) else .ready
    ∀ f : Instr × List Lane × (Nat → LaneSt) × State × Bool,
      f ∈ [(.ld h sz d addr off scope hint, lanes.map (va accLoad), fun _ => .ready, s, true),
        (.ldk h sz d addr off, lanes.map (va accLoad), fun _ => .ready, s, true),
        (.ldl h sz d addr off, lanes.map ldl, fun _ => .ready, s, true),
        (.ldb h sz d addr off w c, lanes.map ldb, place, if w = true then s.takeTickets (unitDie u) else s, true),
        (.ldu h sz ds addr off scope hint, [va g.loadAcc (lowest (g.active h))], fun _ => .ready, s, !g.isEngine)] →
      let (i, rq, st, s0, own) := f
      (g.active h = 0 → ∃ t g', Runs i s u g t g' ∧ g.SameRegs g') ∧
      (g.active h ≠ 0 → LoadCourse i h s s0 u g own st rq)

/-- A load's result lands with its flag (05 R117, R118; 09 R239): with nothing in its way, the bytes of memory at its address,
little-endian, extended as the size says, in D or nowhere under NWB; nothing else of the registers, and no memory,
changes. -/
def Obligations.LoadsLand : Prop :=
  ∀ (h : Head) (sz : LdSize) (d : BitVec 9) (ds : BitVec 7) (addr : Src) (off : BitVec 14) (scope : BitVec 4)
    (hint : BitVec 2) (s : State) (u : Nat) (g : Group) (p : Pend) (l : LaneReq) (pa : Nat) (k : PageKind),
    s.group? u = some g → (∀ n, g.wait ≠ .drain n) → g.pend.find? (fun q => q.tok == p.tok) = some p → p.lanes = [l] →
    l.lane < 64 → l.st = .ready → p.left = 0 → p.writes = [] → p.poison = none → l.own = [] →
    l.pieces = [⟨pa, sz.bytes, false, k⟩] → s.laneClear u g p l = true →
    s.laneInOrder u g p l = true → s.physOk pa sz.bytes = true → pa + sz.bytes ≤ 2 ^ 63 → s.old = [] →
    (s.core (coreOf u)).l1 = [] → (s.core (coreOf u)).kcache = [] →
    (∀ i, i < sz.bytes → inRegs (pa + i) = false ∧ s.poisoned (pa + i) = false) →
    let x := leNat (s.bytes pa sz.bytes)
    let lands (t : State) (g' : Group) : Prop :=
      exec (.resultLands u p.tok) s = .next t ∧ t.group? u = some g' ∧ s.SameMem t ∧
      { t with
        groups := s.groups, draw := s.draw, cores := s.cores, seqs := s.seqs, done := s.done, buckets := s.buckets } = s ∧
      (∀ n, n ≠ u → t.group? n = s.group? n) ∧
      (∀ n, g'.flag n = if p.flag = some n then g.flag n - 1 else g.flag n) ∧ g'.preds = g.preds ∧ g'.lstat = g.lstat ∧
      g'.pend.map Pend.unlanded = (g.pend.filter fun q => q.tok != p.tok).map Pend.unlanded ∧ g'.clause = g.clause ∧
      g'.pc = g.pc
    (p.ins = .ld h sz d addr off scope hint ∨ p.ins = .ldk h sz d addr off ∨ p.ins = .ldl h sz d addr off →
      ∃ t g', lands t g' ∧ g'.sregs = g.sregs ∧
        ∀ n L, L < 64 → g'.vreg n L =
          if p.nwb = false ∧ L = l.lane ∧ d.toNat ≤ n ∧ n < d.toNat + loadRegs sz then loadValue sz x (n - d.toNat)
          else g.vreg n L) ∧
    (p.ins = .ldu h sz ds addr off scope hint →
      ∃ t g', lands t g' ∧ g'.vregs = g.vregs ∧
        ∀ n, g'.sreg n =
          if p.nwb = false ∧ ds.toNat ≤ n ∧ n < ds.toNat + loadRegs sz then loadValue sz x (n - ds.toNat)
          else g.sreg n)

/-- The stores (05 R124; 09 R240; 21 R385): their bytes enter the group's buffer, the highest lane's last, in one entry for
each aligned block and kind, with the full bits that STB.f marks, and no memory changes; the trap of the lowest lane, a
translation fault that aborts the region, and a full buffer. A store to an S page, and every one of an engine program,
commits its region and goes out at once, and the group waits (09 R224; 14 R319, R321). -/
def Obligations.StoresIssue : Prop :=
  ∀ (h : Head) (sz : StSize) (x : BitVec 9) (xs : BitVec 7) (addr : Src) (off : BitVec 14) (hint : BitVec 2) (full : Bool)
    (s : State) (u : Nat) (g : Group), s.Issues u g h →
    let lanes := lanesList (g.active h)
    let va (acc : Nat) (L : Nat) : Lane :=
      let ea := src64 s u g L addr + off.signExtend 64
      ⟨L, ea, 0, s.chkVa g.ctx acc (s.groupPriv g) ea sz.bytes 1 none, true⟩
    let stb (L : Nat) : Lane :=
      let bo := src32 s u g L addr + off.signExtend 32
      ⟨L, bo.setWidth 64, 0, chkBasin u bo.toNat sz.bytes sz.bytes, false⟩
    let stl (L : Nat) : Lane :=
      let o : Int := ((src32 s u g L addr).toNat : Int) + off.toInt
      let ea := tlBase u g L + BitVec.ofInt 64 o
      let out := if o < 0 ∨ (g.tlsb : Int) < o + sz.bytes then some (causeTls, BitVec.ofInt 64 o) else none
      ⟨L, ea, 0, s.chkVa g.ctx accStore (s.groupPriv g) ea sz.bytes 1 out, true⟩
    let vec (L : Nat) : List Byte := storeData sz (fun n => g.vread s.draw n L) x.toNat
    let sca (_ : Nat) : List Byte := storeData sz (g.sread s.draw) xs.toNat
    ∀ f : Instr × List Lane × (Nat → List Byte) × Bool,
      f ∈ [(.st h sz x addr off hint, lanes.map (va accStore), vec, false), (.stl h sz x addr off, lanes.map stl, vec, false),
        (.stb h sz x addr off full, lanes.map stb, vec, full),
        (.stu h sz xs addr off hint, [va (if g.isEngine then accEngWrite else accStore) (lowest (g.active h))], sca, false)] →
      let (i, rq, val, fulls) := f
      let n := (storeBlocks (storeBytes val rq)).length
      (g.active h = 0 → ∃ t g', Runs i s u g t g' ∧ g.SameRegs g') ∧
      (g.active h ≠ 0 → ∀ k x, lowestTrap rq k x → exec i s = .next (s.trapAt u k x (g.active h))) ∧
      (g.active h ≠ 0 → firstTrap rq = none → faultsOf rq ≠ [] → ∃ t, exec i s = .next t ∧
        (g.isEngine = false → Aborted (if anyS rq = true then s.commit u g.clauseIdx false else s) t u (faultsOf rq)) ∧
        (g.isEngine = true → WaitsAgain s t u g (faultsOf rq))) ∧
      (g.active h ≠ 0 → g.isEngine = false → LanesClean rq →
        (Config.bufferEntries < bufUsed g.buf + n →
          ∃ t : State, exec i s = .next (t.trapAt u causeOverflow 0 (g.active h)) ∧
            { t with tlb := s.tlb, objects := s.objects } = s) ∧
        (bufUsed g.buf + n ≤ Config.bufferEntries →
          ∃ t g' new, exec i s = .next t ∧ State.Around { s with tlb := t.tlb, objects := t.objects } t u ∧
            t.group? u = some g' ∧ g.SameRegs g' ∧ g.Keeps { g' with buf := g.buf } ∧ g'.pc = g.advance.pc ∧
            g'.clause = g.advance.clause ∧ g'.buf = g.buf ++ new ∧ new.length = n ∧ (∀ y ∈ new, storeEntry fulls (fun _ => false) val rq y) ∧
            ∀ glob a, bufByte g'.buf glob a = (stored glob val rq a).or (bufByte g.buf glob a))) ∧
      (g.active h ≠ 0 → g.isEngine = true ∨ anyS rq = true → firstTrap rq = none → faultsOf rq = [] → ∃ t s1,
        s1 = State.commit { s with tlb := t.tlb, objects := t.objects } u g.clauseIdx false ∧
        PostsS i h s { s1 with uid := t.uid, packets := t.packets, globals := t.globals } u g s1.uid [] n t ∧ s.SameMem t ∧
        sentOut t g s1.uid val rq)

/-- FILLB and PREF (05 R124; 09 R221, R241, R242): the checks of FILLB, its one buffer entry and its flag; PREF changes
nothing but a cache. -/
def Obligations.FillAndPrefetch : Prop :=
  (∀ h clear n addr off s u g, s.Issues u g h →
    let bo := (src32 s u g (lowest (g.active h)) addr + off.signExtend 32).toNat
    let k := (g.sread s.draw n.toNat).toNat
    let i := Instr.fillb h clear n addr off
    (g.active h = 0 → ∃ t g', Runs i s u g t g' ∧ g.SameRegs g') ∧
    (g.active h ≠ 0 → bo % 16 ≠ 0 → exec i s = .next (s.trapAt u causeAlign (BitVec.ofNat 64 bo) (g.active h))) ∧
    (g.active h ≠ 0 → bo % 16 = 0 → Config.basinSize < bo + 16 * k →
      exec i s = .next (s.trapAt u causeBasin (BitVec.ofNat 64 bo) (g.active h))) ∧
    (g.active h ≠ 0 → bo % 16 = 0 → bo + 16 * k ≤ Config.basinSize → Config.bufferEntries < bufUsed g.buf + 1 →
      exec i s = .next (s.trapAt u causeOverflow 0 (g.active h))) ∧
    (g.active h ≠ 0 → bo % 16 = 0 → bo + 16 * k ≤ Config.basinSize → bufUsed g.buf + 1 ≤ Config.bufferEntries →
      ∃ t g', exec i s = .next t ∧ s.fresh.Around t u ∧ t.group? u = some g' ∧ g.SameRegs g' ∧
        g'.buf = g.buf ++ [.fill ((windowBase (unitDie u) + bo) / 16) k (!clear) ((flagOf h).map fun _ => s.uid)] ∧
        g'.pc = g.advance.pc ∧ g'.clause = g.advance.clause ∧
        g.Keeps { g' with buf := g.buf, flags := g.flags, pend := g.pend } ∧
        (∀ m, g'.flag m = if h.setf.toNat = m ∧ m ≤ 11 then g.flag m + 1 else g.flag m) ∧
        g'.pend.length = g.pend.length + (if h.setf.toNat ≤ 11 then 1 else 0))) ∧
  ∀ h l2 addr off s u g, s.Issues u g h →
    ∃ t g', RunsVia (.pref h l2 addr off) s { s with cores := t.cores } u g t g' ∧ g.SameRegs g' ∧
      ∀ c, { t.core c with l1 := [] } = { s.core c with l1 := [] }

/-- A commit (05 R123 to R126): the buffer's entries leave for their homes in program order, those for other packages for
their ports, each counted as unacknowledged; a new region opens; the registers are as they were, and no memory changes yet. -/
def Obligations.Commit : Prop :=
  ∀ (s : State) (u : Nat) (g : Group) (i : Nat) (half : Bool), s.group? u = some g →
    ∃ g' new far, (s.commit u i half).group? u = some g' ∧ g'.buf = [] ∧ g'.ldbc = false ∧ g'.region = ⟨g.pc, i, half⟩ ∧
      g'.unacked = g.unacked + bufUsed g.buf ∧
      { g' with
        buf := g.buf, ldbc := g.ldbc, region := g.region, unacked := g.unacked, fenceSet := g.fenceSet } = g ∧
      (s.commit u i half).packets = s.packets ++ new ∧ (s.commit u i half).globals = s.globals ++ far ∧
      drainsAs s u g g.buf new far ∧ s.SameMem (s.commit u i half) ∧
      (∀ k, k ≠ u → (s.commit u i half).group? k = s.group? k) ∧
      { s.commit u i half with
        groups := s.groups, packets := s.packets, globals := s.globals, uid := s.uid, cores := s.cores } = s

/-- Packets (09 R229, R230, R240, R242, R243; 10 R248 to R252; 21 R400): the oldest acceptable one takes the next number of
its source toward its target, modulo 2^16, pays its contract and sets out on its way; a performed one leaves its bytes in
memory, its full bits and its poison, or the result of RED's operation, frees its place, and its acknowledgment sets out,
which lowers the group's count when it has arrived. -/
def Obligations.Packets : Prop :=
  (∀ src cls s p, s.packets.find? (fun q =>
      q.src == src && q.cls.idx == cls && !q.accepted && s.acceptable q && s.packetClear q) = some p →
    ∃ t, exec (.packetAccept src cls) s = .next t ∧ s.SameMem t ∧ t.groups = s.groups ∧
      let n := agetD 0 s.seqs (p.src * 32 + p.home)
      let numbered := p.cls ≠ .bulk ∧ p.home ≠ homeOwn
      t.packets = modifyFirst (fun q => q.stamp == p.stamp)
        (fun q => { q with
          accepted := true, seq := if numbered then some n else none
          trip := ⟨wayTo p.body.msg p.unit p.home, s.uid⟩ }) s.packets ∧
      (numbered → agetD 0 t.seqs (p.src * 32 + p.home) = (n + 1) % 2 ^ 16) ∧ (¬numbered → t.seqs = s.seqs) ∧
      (p.home ≠ homeOwn → (s.contract p.src p.cls).1 ≠ 0 → p.body.size ≠ 0 →
        t.bucket p.src p.cls = s.bucket p.src p.cls - 4 * (p.body.size : Int))) ∧
  (∀ src cls s, s.packets.find? (fun q =>
      q.src == src && q.cls.idx == cls && !q.accepted && s.acceptable q && s.packetClear q) = none →
    exec (.packetAccept src cls) s = .next s) ∧
  (∀ home src k s, (s.performables home src)[k]? = none → exec (.packetPerform home src k) s = .next s) ∧
  (∀ home src k s p, (s.performables home src)[k]? = some p → inRegs p.pa = false →
    ∃ t, exec (.packetPerform home src k) s = .next t ∧ t.groups = s.groups ∧ t.regs = s.regs ∧
      t.packets = s.packets.filter (fun q => q.stamp != p.stamp) ∧
      (p.body ≠ .marker → ∃ e, t.acks = s.acks ++ [⟨p.stamp, p.unit, p.uid, p.tok, p.ctx, ⟨wayBack p.unit p.home, e⟩⟩]) ∧
      (p.body = .marker → t.acks = s.acks ∧ s.SameMem t) ∧
      (p.seq ≠ none →
        agetD 0 t.done (p.src * 32 + p.home) = (agetD 0 s.done (p.src * 32 + p.home) + 1) % 2 ^ 16) ∧
      (p.glob = none → s.physOk p.pa 1 = false → s.SameMem t) ∧
      (s.physOk p.pa 1 = true →
        (∀ data full poison, p.body = .write data full poison → (data.map (·.1)).Nodup → (∀ x ∈ data, x.1 < 2 ^ 63) →
          (∀ x ∈ data, t.byte x.1 = x.2) ∧ (∀ a, (∀ x ∈ data, x.1 ≠ a) → t.byte a = s.byte a) ∧
          (∀ g, t.isFull g = (s.isFull g || full.elem g)) ∧
          ∀ g, t.poison.elem g =
            if (∃ x ∈ data, x.1 / 16 = g) ∧ g ∈ poison then true
            else if ∀ i, i < 16 → ∃ x ∈ data, x.1 = 16 * g + i then false else s.poison.elem g) ∧
        (∀ start n set, p.body = .fill start n set → (∀ a, t.byte a = s.byte a) ∧ t.poison = s.poison ∧
          ∀ g, t.isFull g = if start ≤ g ∧ g < start + n then set else s.isFull g) ∧
        ∀ op b64 v w, p.body = .rmw op b64 v w → p.pa + 8 ≤ 2 ^ 63 →
          let n := if b64 = true then 8 else 4
          let old : Dword := BitVec.ofNat 64 (leNat (s.bytes p.pa n))
          t.poison = s.poison ∧ t.full = s.full ∧
          (op.toNat ≤ 9 → ∀ a, t.byte a = rmwByte s p.pa n (BitVec.ofInt 64 (atomResult op b64 old v w)) a) ∧
          (op = 10 → ∀ a, t.byte a = rmwByte s p.pa n
            (BitVec.ofNat 64 (fpAdd fp32 .rne (f32 (lowWord old)) (f32 (lowWord v))).1) a))) ∧
  ∀ (u : Nat) (s : State),
    ((∀ a ∈ s.acks, ¬(a.unit = u ∧ a.trip.way = [])) → exec (.storeAck u) s = .next s) ∧
    ∀ pre a post g, s.acks = pre ++ a :: post → (∀ b ∈ pre, ¬(b.unit = u ∧ b.trip.way = [])) → a.unit = u → a.trip.way = [] →
      s.group? u = some g →
      ∃ t, exec (.storeAck u) s = .next t ∧ t.acks = pre ++ post ∧ s.SameMem t ∧
        (a.uid = g.uid → ∃ g', t.group? u = some g' ∧ g'.unacked = g.unacked - 1 ∧ g.SameRegs g' ∧ g'.flags = g.flags ∧
          ∀ p, g.pend.find? (fun q => some q.tok == a.tok) = some p →
            g'.pend.find? (fun q => some q.tok == a.tok) = some { p with left := p.left - 1 })

/-- ATOM, ATOMB and RED at their issue (05 R125; 09 R237, R243, R244; 21 R385): ATOM and RED commit the region, faults abort it,
and every lane's operation is pending or on its way, to its home or to the port of another package; an S page makes the
group wait (09 R224). -/
def Obligations.AtomicsIssue : Prop :=
  ∀ (h : Head) (x : BodyAtom) (s : State) (u : Nat) (g : Group), s.Issues u g h → g.wait = .no →
    let n := if x.b64 = true then 8 else 4
    let lanes := lanesList (g.active h)
    let r (L k : Nat) : Word := g.vread s.draw (x.d.toNat + k) L
    let pair (L k : Nat) : Dword := if x.b64 = true then pairOf (r L (2 * k)) (r L (2 * k + 1)) else (r L k).setWidth 64
    let aux (L : Nat) : BitVec 128 := (if x.op = 9 then pair L 1 else 0#64) ++ pair L 0
    let va (L : Nat) : Lane :=
      let ea := src64 s u g L x.addr + x.off.signExtend 64
      ⟨L, ea, aux L, s.chkVa g.ctx accAtomic (s.groupPriv g) ea n n none, true⟩
    let bo (L : Nat) : Lane :=
      let o := src32 s u g L x.addr + x.off.signExtend 32
      ⟨L, o.setWidth 64, aux L, chkBasin u o.toNat n n, false⟩
    (g.active h = 0 → CommitsOnly (.atom h x) s u g ∧ CommitsOnly (.red h x) s u g ∧
      ∃ t g', Runs (.atomb h x) s u g t g' ∧ g.SameRegs g') ∧
    (g.active h ≠ 0 → ∀ k i, lowestTrap (lanes.map va) k i →
      exec (.atom h x) s = .next ((s.commit u g.clauseIdx false).trapAt u k i (g.active h)) ∧
      exec (.red h x) s = .next ((s.commit u g.clauseIdx false).trapAt u k i (g.active h))) ∧
    (g.active h ≠ 0 → ∀ k i, lowestTrap (lanes.map bo) k i →
      exec (.atomb h x) s = .next (s.trapAt u k i (g.active h))) ∧
    (g.active h ≠ 0 → firstTrap (lanes.map va) = none → faultsOf (lanes.map va) ≠ [] →
      ∀ i, i = .atom h x ∨ i = .red h x → ∃ t, exec i s = .next t ∧
        Aborted (s.commit u g.clauseIdx false) t u (faultsOf (lanes.map va))) ∧
    (g.active h ≠ 0 → LanesClean (lanes.map bo) → g.isEngine = false → ∃ t ls,
      Posts (.atomb h x) h s { s with uid := t.uid } u g ls 0 t ∧
      List.Forall₂ (laneWaits g false true fun _ => .ready) (lanes.map bo) ls) ∧
    (g.active h ≠ 0 → firstTrap (lanes.map va) = none → faultsOf (lanes.map va) = [] → g.isEngine = false →
      let s0 := s.tlbFillLanes g.ctx accAtomic (s.groupPriv g) (lanes.map va)
      let isGlob (L : Nat) : Bool := (va L).pieces.any (·.glob)
      let op (L : Nat) (p : Packet) : Prop := p.body = .rmw x.op x.b64 (pair L 0) 0 ∧
        (va L).pieces.head?.map (·.pa) = some p.pa ∧ p.unit = u ∧ p.uid = g.uid ∧ p.accepted = false ∧
        p.rel = if x.ord.getLsbD 1 = true then some x.scope.toNat else none
      (∃ t ls new s1, s1 = s0.fresh.commit u g.clauseIdx false ∧
        (anyS (lanes.map va) = false →
          PostsE (.atom h x) h s { s1 with uid := t.uid, globals := s1.globals ++ new } u g ls 0 t) ∧
        (anyS (lanes.map va) = true →
          PostsS (.atom h x) h s { s1 with uid := t.uid, globals := s1.globals ++ new } u g s.uid ls 0 t) ∧
        List.Forall₂ (laneWaits g false true fun _ => .ready) (lanes.map va) ls ∧ setsOut u g s.uid ls new) ∧
      let s1 := s0.commit u g.clauseIdx false
      ∃ t new far, s.SameMem t ∧ t.packets = s1.packets ++ new ∧ t.globals = s1.globals ++ far ∧
        List.Forall₂ op (lanes.filter fun L => !isGlob L) new ∧
        List.Forall₂ (fun L y => ∃ p, op L p ∧ bound u g p y) (lanes.filter isGlob) far ∧
        (anyS (lanes.map va) = true → PostsS (.red h x) h s
          { s1 with uid := t.uid, packets := t.packets, globals := t.globals } u g s1.uid [] lanes.length t) ∧
        (anyS (lanes.map va) = false → ∃ g1 g', GoesOnE (.red h x) s s1 u g t g1 g' ∧
          g'.unacked = g1.unacked + lanes.length ∧
          (∀ m, g'.flag m = if h.setf.toNat = m ∧ m ≤ 11 then g1.flag m + 1 else g1.flag m) ∧
          g'.pend.length = g1.pend.length + (if h.setf.toNat ≤ 11 then 1 else 0)))

/-- A lane of ATOM or ATOMB is performed and lands (09 R243): memory takes the operation's result, no other byte changes, and D
receives the old value; NWB discards it. -/
def Obligations.AtomicsLand : Prop :=
  ∀ (h : Head) (x : BodyAtom) (s : State) (u : Nat) (g : Group) (p : Pend) (l : LaneReq) (pa : Nat) (k : PageKind)
    (v w : Dword), s.group? u = some g → (∀ n, g.wait ≠ .drain n) → p.ins = .atom h x ∨ p.ins = .atomb h x →
    g.pend.find? (fun q => q.tok == p.tok) = some p → p.lanes = [l] → l.lane < 64 → l.st = .ready → p.left = 0 →
    p.writes = [] → p.poison = none → l.aux = w ++ v → s.laneClear u g p l = true →
    s.laneInOrder u g p l = true → pa + 8 ≤ 2 ^ 63 →
    let n := if x.b64 = true then 8 else 4
    l.pieces = [⟨pa, n, false, k⟩] → s.physOk pa n = true → inRegs pa = false → s.poisoned pa = false →
    let old : Dword := BitVec.ofNat 64 (leNat (s.bytes pa n))
    ∃ t g', exec (.resultLands u p.tok) s = .next t ∧ t.group? u = some g' ∧
      (∀ m, m ≠ u → t.group? m = s.group? m) ∧ t.poison = s.poison ∧ t.full = s.full ∧ t.regs = s.regs ∧
      (x.op.toNat ≤ 9 → ∀ a, t.byte a = rmwByte s pa n (BitVec.ofInt 64 (atomResult x.op x.b64 old v w)) a) ∧
      (x.op = 10 → ∀ a, t.byte a = rmwByte s pa n
        (BitVec.ofNat 64 (fpAdd fp32 .rne (f32 (lowWord old)) (f32 (lowWord v))).1) a) ∧
      (∀ m, g'.flag m = if p.flag = some m then g.flag m - 1 else g.flag m) ∧ g'.sregs = g.sregs ∧ g'.preds = g.preds ∧
      g'.lstat = g.lstat ∧
      ∀ m L, L < 64 → g'.vreg m L =
        if p.nwb = false ∧ L = l.lane ∧ m = x.d.toNat then lowWord old
        else if p.nwb = false ∧ L = l.lane ∧ x.b64 = true ∧ m = x.d.toNat + 1 then highWord old
        else g.vreg m L

/-! ### Standing loads, full bits and counters -/

/-- LDSUB, UNSUB and SUBSTAT at their issue (09 R236, R238, R245 to R247). -/
def Obligations.SubscriptionsIssue : Prop :=
  ∀ (h : Head) (ring : Bool) (d : BitVec 9) (addr : Src) (off : BitVec 14) (s : State) (u : Nat) (g : Group),
    s.Issues u g h → g.wait = .no → g.isEngine = false →
    let lanes := lanesList (g.active h)
    let bo (L : Nat) : Nat := (src32 s u g L addr + off.signExtend 32).toNat
    let subLs := markShared ring (lanes.map (ldsubLane s u g ring d addr off))
    let boLs := lanes.map fun L => (⟨L, BitVec.ofNat 64 (bo L), 0, chkBasin u (bo L) 16 16, false⟩ : Lane)
    let statLs := boLs.map fun l => { l with chk := LaneChk.ok [] }
    (g.active h = 0 → CommitsOnly (.ldsub h ring d addr off) s u g ∧ CommitsOnly (.unsub h addr off) s u g ∧
      ∃ t g', Runs (.substat h d addr off) s u g t g' ∧ g.SameRegs g') ∧
    (g.active h ≠ 0 → ∀ k i, lowestTrap subLs k i →
      exec (.ldsub h ring d addr off) s = .next ((s.commit u g.clauseIdx false).trapAt u k i (g.active h))) ∧
    (g.active h ≠ 0 → ∀ k i, lowestTrap boLs k i →
      exec (.unsub h addr off) s = .next ((s.commit u g.clauseIdx false).trapAt u k i (g.active h)) ∧
      exec (.substat h d addr off) s = .next (s.trapAt u k i (g.active h))) ∧
    (g.active h ≠ 0 → firstTrap subLs = none → ∃ t ls,
      let s1 := (s.tlbFillLanes g.ctx accLoad (s.groupPriv g) subLs).fresh.commit u g.clauseIdx false
      (anyS subLs = false → PostsE (.ldsub h ring d addr off) h s s1 u g ls 0 t) ∧
      (anyS subLs = true → PostsS (.ldsub h ring d addr off) h s s1 u g s.uid ls 0 t) ∧
      List.Forall₂ (laneWaits g true false fun _ => .ready) subLs ls) ∧
    (∀ L, L ∈ lanes → (ldsubLane s u g ring d addr off L).aux = BitVec.ofNat 128 (g.vread s.draw d.toNat L).toNat ∧
      (ldsubLane s u g ring d addr off L).addr = src64 s u g L addr + off.signExtend 64) ∧
    (g.active h ≠ 0 → firstTrap boLs = none →
      (∃ t ls, Posts (.substat h d addr off) h s { s with uid := t.uid } u g ls 0 t ∧
        List.Forall₂ (laneWaits g true true fun _ => .ready) statLs ls) ∧
      let n := (lanes.filter fun L => (aget s.slots (slotKey (unitDie u) (bo L))).isSome).length
      ∃ t g1 g', GoesOnE (.unsub h addr off) s (s.commit u g.clauseIdx false) u g t g1 g' ∧ s.SameMem t ∧
        (∀ k, aget s.slots k = none → aget t.slots k = none) ∧
        (∀ k r, aget s.slots k = some r → ∃ r', aget t.slots k = some r' ∧ { r' with st := r.st, unsub := r.unsub } = r ∧
          r'.st = if ∃ L ∈ lanes, slotKey (unitDie u) (bo L) = k then SlotSt.removing else r.st) ∧
        (∀ m, g'.flag m = if n ≠ 0 ∧ h.setf.toNat = m ∧ m ≤ 11 then g1.flag m + 1 else g1.flag m) ∧
        g'.pend.map (·.left) = g1.pend.map (·.left) ++ if n ≠ 0 ∧ h.setf.toNat ≤ 11 then [n] else [])

/-- Subscriptions at the die and the home (09 R230, R233, R234, R236, R245 to R247): the statuses of LDSUB, the slot's record
and cleared bits, the request to the home, through a port where the home is another package's, the home's record and first
push, where each push lands, once it has come to the die, with its bytes, full bit, WIDX and overruns, the removal, and the
word that SUBSTAT reads. -/
def Obligations.Subscriptions : Prop :=
  (∀ (h : Head) (ring : Bool) (d : BitVec 9) (addr : Src) (off : BitVec 14) (s : State) (u : Nat) (g : Group) (p : Pend)
    (l : LaneReq), s.group? u = some g → (∀ n, g.wait ≠ .drain n) →
    g.pend.find? (fun q => q.tok == p.tok) = some p → p.lanes = [l] → l.lane < 64 → l.st = .ready → p.left = 0 →
    p.writes = [] → p.poison = none → s.laneClear u g p l = true → s.laneInOrder u g p l = true →
    s.piecesOk l.pieces = true →
    let die := unitDie u
    let lands (t : State) (x : Word) : Prop :=
      exec (.resultLands u p.tok) s = .next t ∧ s.SameMem t ∧ t.slots = s.slots ∧ t.subReqs = s.subReqs ∧
      ∃ g', t.group? u = some g' ∧ g'.sregs = g.sregs ∧ g'.preds = g.preds ∧ g'.lstat = g.lstat ∧
        (∀ m, g'.flag m = if p.flag = some m then g.flag m - 1 else g.flag m) ∧
        ∀ m L, L < 64 → g'.vreg m L =
          if p.nwb = false ∧ m = d.toNat ∧ L = l.lane then x else g.vreg m L
    (p.ins = .ldsub h ring d addr off →
      let bo := l.aux.toNat % 2 ^ 32
      let pa := (l.pieces.head?.map (·.pa)).getD hbmEnd
      let shares := l.aux.getLsbD 32 = true ∨ ∃ x ∈ s.dieSlots die, slotsMeet bo ring x.1 x.2.ring = true
      let there := (if 2 ^ 63 ≤ pa then pa % 2 ^ 45 else pa) < hbmEnd
      (¬there → ∃ t, lands t 4) ∧ (there → shares → ∃ t, lands t 3) ∧
      (there → ¬shares → 8192 ≤ (s.dieSlots die).length → ∃ t, lands t 2) ∧
      (there → ¬shares → (s.dieSlots die).length < 8192 →
        ∃ t g', exec (.resultLands u p.tok) s = .next t ∧ t.group? u = some g' ∧ g.SameRegs g' ∧ g'.flags = g.flags ∧
          (∀ a, t.byte a = s.byte a) ∧
          (∀ k, aget t.slots k = if k = slotKey die bo then some ⟨ring, pa / 16, g.ctx, .awaiting, 0, 0, []⟩
            else aget s.slots k) ∧
          (∀ k, t.isFull k = (s.isFull k && !(slotRange die bo ring).elem k)) ∧
          ∃ prev, (∀ k, k ∈ prev ↔ k ∈ slotRange die bo ring ∧ s.isFull k = true) ∧
            let q : SubReq := ⟨die, bo, pa / 16, prev, g.ctx, u, g.uid, p.tok, l.lane⟩
            (pa < 2 ^ 63 → t.subReqs = s.subReqs ++ [q] ∧ t.globals = s.globals) ∧
            (2 ^ 63 ≤ pa → t.subReqs = s.subReqs ∧ ∃ y, t.globals = s.globals ++ [y] ∧ y.what = .sub q ∧
              y.addr = BitVec.ofNat 64 pa ∧ y.port = izeusOf (entryGlobal u l.addr) 8 ∧ y.crossings = 0 ∧ y.home = none))) ∧
    (p.ins = .substat h d addr off → ∃ t x, lands t x ∧
      (aget s.slots (slotKey die l.addr.toNat) = none → x = 0) ∧
      ∀ r, aget s.slots (slotKey die l.addr.toNat) = some r → r.widx < 4 → r.ovr < 2 ^ 23 →
        x.toNat / 2 ^ 30 = (match r.st with
          | .awaiting => 1
          | .active => 2
          | .removing => 3) ∧
        x.getLsbD 29 = r.ring ∧ x.toNat / 2 ^ 27 % 4 = (if r.ring = true then r.widx else 0) ∧
        x.toNat % 2 ^ 23 = r.ovr ∧
        ∀ k, k < slotGranules r.ring → x.getLsbD (23 + k) = s.isFull ((windowBase die + l.addr.toNat) / 16 + k))) ∧
  (∀ die off s, (∀ q ∈ s.subReqs, ¬(q.die = die ∧ q.off = off)) → exec (.subscribeRecord die off) s = .next s) ∧
  (∀ die off s pre q post, s.subReqs = pre ++ q :: post → (∀ r ∈ pre, ¬(r.die = die ∧ r.off = off)) → q.die = die →
    q.off = off → 16 * q.granule + 16 ≤ 2 ^ 63 →
    let home := s.stackOf (16 * q.granule)
    let l := agetD [] s.subs home
    ∃ t, exec (.subscribeRecord die off) s = .next t ∧ t.subReqs = pre ++ post ∧ (∀ a, t.byte a = s.byte a) ∧
      (programUsed l < 61440 → (∀ k, agetD [] t.subs k =
          if k = home then l ++ [⟨q.granule, .slot die off, q.ctx⟩] else agetD [] s.subs k) ∧ t.slots = s.slots ∧
        t.full = s.full ∧ ∃ y, t.pushes = s.pushes ++ [y] ∧ y.who = .slot die off ∧ y.data = s.bytes (16 * q.granule) 16 ∧
          y.bad = s.poison.elem q.granule) ∧
      (61440 ≤ programUsed l → t.subs = s.subs ∧ t.pushes = s.pushes ∧ aget t.slots (slotKey die off) = none ∧
        ∀ k, t.isFull k = (s.isFull k || q.prev.elem k)) ∧
      ∀ g p h ring d addr o, s.group? q.unit = some g → g.uid = q.uid → (∀ n, g.wait ≠ .drain n) →
        g.pend.find? (fun r => r.tok == q.tok) = some p → p.ins = .ldsub h ring d addr o → p.nwb = false →
        (∀ r, aget s.slots (slotKey die off) = some r → r.unsub = []) →
        ∃ g' p', t.group? q.unit = some g' ∧ g'.pend.find? (fun r => r.tok == q.tok) = some p' ∧
          p'.lanes = p.lanes.filter (fun m => m.lane != q.lane) ∧
          p'.writes = p.writes ++ [⟨.v d.toNat q.lane, if programUsed l < 61440 then 0 else 1, false⟩]) ∧
  (∀ die off s, (∀ y ∈ s.pushes, y.who ≠ .slot die off) → exec (.pushLand die off) s = .next s) ∧
  (∀ die off s pre y post, s.pushes = pre ++ y :: post → (∀ z ∈ pre, z.who ≠ .slot die off) → y.who = .slot die off →
    (y.trip.way ≠ [] → exec (.pushLand die off) s = .next s) ∧
    (y.trip.way = [] → windowBase die + off + 64 ≤ 2 ^ 63 → ∃ t, exec (.pushLand die off) s = .next t ∧
      (aget s.slots (slotKey die off) = none → t = { s with pushes := pre ++ post }) ∧
      ∀ r, aget s.slots (slotKey die off) = some r → y.data.length = 16 → r.widx < 4 →
        let base := (windowBase die + off) / 16
        let was := s.isFull (base + if r.ring = true then r.widx else 0)
        let i := if r.ring = true then (if was = true then (r.widx + 3) % 4 else r.widx) else 0
        (∀ j, j < 16 → y.data[j]? = some (t.byte (16 * (base + i) + j))) ∧
        (∀ a, a / 16 ≠ base + i → t.byte a = s.byte a) ∧
        (∀ k, t.isFull k = (s.isFull k || k == base + i)) ∧
        t.poison.elem (base + i) = y.bad ∧
        ∀ k, aget t.slots k = if k = slotKey die off then
            some { r with
              st := if r.st = .removing then .removing else .active
              widx := if r.ring = true ∧ was = false then (r.widx + 1) % 4 else r.widx
              ovr := if was = true then min (r.ovr + 1) (2 ^ 23 - 1) else r.ovr }
          else aget s.slots k)) ∧
  ∀ die off s,
    let w : Watcher := .slot die off
    (∀ r, aget s.slots (slotKey die off) = some r → r.st = .removing → s.subscribing die off = false →
      ∃ t, exec (.unsubAck die off) s = .next t ∧ s.SameMem t ∧
        (∀ k b, (∃ x ∈ t.subs, x.1 = k ∧ b ∈ x.2) ↔ (∃ x ∈ s.subs, x.1 = k ∧ b ∈ x.2) ∧ b.who ≠ w) ∧
        t.farSubs = s.farSubs.filter (fun b => b.who != w) ∧
        ((∃ y ∈ s.pushes, y.who = w) → t.slots = s.slots ∧ t.groups = s.groups) ∧
        ((∀ y ∈ s.pushes, y.who ≠ w) → (∀ k, aget t.slots k = if k = slotKey die off then none else aget s.slots k) ∧
          ∀ v uid tok g p, r.unsub = [(v, uid, tok)] → s.group? v = some g → g.uid = uid →
            g.pend.find? (fun q => q.tok == tok) = some p →
            ∃ g', t.group? v = some g' ∧ g'.pend.find? (fun q => q.tok == tok) = some { p with left := p.left - 1 })) ∧
    (∀ r, aget s.slots (slotKey die off) = some r → r.st ≠ .removing ∨ s.subscribing die off = true →
      exec (.unsubAck die off) s = .next s) ∧
    (aget s.slots (slotKey die off) = none → exec (.unsubAck die off) s = .next s)

/-- LDB on full bits (09 R230, R231, R239): .c empties the granule with the read; the first waiter of .w in the controller's
order, and that one alone, is served when the granule is full, and under .wc empties it. -/
def Obligations.FullEmptyWaits : Prop :=
  (∀ die gr s, s.isFull gr = false ∨ s.fullWaits die gr = [] → exec (.fullEmptyWaitServe die gr) s = .next s) ∧
  (∀ (h : Head) (sz : LdSize) (d : BitVec 9) (addr : Src) (off : BitVec 14) (w c : Bool) (die gr : Nat) (s : State) (u : Nat)
    (g : Group) (p : Pend) (l : LaneReq) (n pa : Nat),
    s.isFull gr = true → s.group? u = some g → (∀ n, g.wait ≠ .drain n) → g.pend.find? (fun q => q.tok == p.tok) = some p →
    p.lanes.find? (fun m => m.lane == l.lane) = some l → p.ins = .ldb h sz d addr off w c → w = true →
    l.pieces = [⟨pa, sz.bytes, false, .c⟩] → l.own = [] → pa + sz.bytes ≤ 2 ^ 63 →
    (∀ i, i < sz.bytes → inRegs (pa + i) = false ∧ s.poisoned (pa + i) = false) → pa / 16 = gr →
    (⟨n, u, p.tok, l.lane⟩ : FullWait) ∈ s.fullWaits die gr →
    (∀ v ∈ s.fullWaits die gr, v ≠ ⟨n, u, p.tok, l.lane⟩ → n < v.ticket) →
    ∃ t g' p', exec (.fullEmptyWaitServe die gr) s = .next t ∧ t.group? u = some g' ∧
      (∀ k, k ≠ u → t.group? k = s.group? k) ∧ g.SameRegs g' ∧ g'.flags = g.flags ∧ g'.ldbc = (g.ldbc || c) ∧
      (∀ a, t.byte a = s.byte a) ∧ (∀ k, t.isFull k = (s.isFull k && !(c && k == gr))) ∧
      (t.core (coreOf u)).l1 = [] ∧ g'.pend.find? (fun q => q.tok == p.tok) = some p' ∧
      p'.lanes = p.lanes.filter (fun m => m.lane != l.lane) ∧
      p'.writes = (if p.nwb = true then p.writes else p.writes ++ (List.range (loadRegs sz)).map fun k =>
        ⟨.v (d.toNat + k) l.lane, loadValue sz (leNat (s.bytes pa sz.bytes)) k, false⟩)) ∧
  ∀ (h : Head) (sz : LdSize) (d : BitVec 9) (addr : Src) (off : BitVec 14) (c : Bool) (s : State) (u : Nat)
    (g : Group) (p : Pend) (l : LaneReq) (pa : Nat),
    s.group? u = some g → (∀ n, g.wait ≠ .drain n) → g.pend.find? (fun q => q.tok == p.tok) = some p → p.lanes = [l] →
    l.lane < 64 → l.st = .ready → p.left = 0 → p.writes = [] → p.poison = none → l.own = [] →
    p.ins = .ldb h sz d addr off false c → l.pieces = [⟨pa, sz.bytes, false, .c⟩] → s.laneClear u g p l = true →
    s.laneInOrder u g p l = true → s.physOk pa sz.bytes = true → pa + sz.bytes ≤ 2 ^ 63 → s.old = [] → (∀ i, i < sz.bytes → inRegs (pa + i) = false ∧ s.poisoned (pa + i) = false) →
    ∃ t g', exec (.resultLands u p.tok) s = .next t ∧ t.group? u = some g' ∧ (∀ a, t.byte a = s.byte a) ∧
      (∀ k, t.isFull k = (s.isFull k && !(c && k == pa / 16))) ∧ g'.ldbc = (g.ldbc || c) ∧ g'.sregs = g.sregs ∧
      (∀ m, g'.flag m = if p.flag = some m then g.flag m - 1 else g.flag m) ∧
      ∀ m L, L < 64 → g'.vreg m L =
        if p.nwb = false ∧ L = l.lane ∧ d.toNat ≤ m ∧ m < d.toNat + loadRegs sz
        then loadValue sz (leNat (s.bytes pa sz.bytes)) (m - d.toNat) else g.vreg m L

/-- The counters (11 R275; 14 R319, R321; 17 R344, R353, R357): the alignment trap in any present lane; CTRADD commits, waits
for the earlier accesses that return a value and for the stores, and sends its additions, those for another package to its
port; CTRWAIT goes on once every counter has reached its target; CTRRD reads into its pair. A poisoned counter of CTRWAIT is the model's choice (log entry 10). -/
def Obligations.Counters : Prop :=
  (∀ (h : Head) (x : BodyCtr) (s : State) (u : Nat) (g : Group), s.Issues u g h →
    let a (L : Nat) : Dword := src64 s u g L x.addr + x.off.signExtend 64
    let acts := if x.sreg = true then [lowest (g.active h)] else lanesList (g.active h)
    let ls (acc : Nat) : List Lane := acts.map fun L =>
      ⟨L, a L, 0, s.chkVa g.ctx acc (s.groupPriv g) (a L) 8 8 none, true⟩
    let data (L : Nat) : Dword :=
      if x.sreg = true then pairOf (g.sread s.draw x.d.toNat) (g.sread s.draw (x.d.toNat + 1))
      else pairOf (g.vread s.draw x.d.toNat L) (g.vread s.draw (x.d.toNat + 1) L)
    let aligned := ∀ L, L < 64 → g.present.getLsbD L = true → (a L).toNat % 8 = 0
    let rd := ls g.loadAcc
    (∀ L, L < 64 → g.present.getLsbD L = true → (a L).toNat % 8 ≠ 0 →
      (∀ K, K < L → g.present.getLsbD K = true → (a K).toNat % 8 = 0) →
      ∀ i ∈ [Instr.ctradd h x, .ctrwait h x, .ctrrd h x], exec i s = .next (s.trapAt u causeAlign (a L) (g.active h))) ∧
    (aligned → g.active h = 0 → CommitsOnly (.ctradd h x) s u g ∧
      (∃ t g', Runs (.ctrwait h x) s u g t g' ∧ g.SameRegs g') ∧ ∃ t g', Runs (.ctrrd h x) s u g t g' ∧ g.SameRegs g') ∧
    (aligned → g.active h ≠ 0 →
      (∀ k i, lowestTrap (ls accAtomic) k i →
        exec (.ctradd h x) s = .next ((s.commit u g.clauseIdx false).trapAt u k i (g.active h))) ∧
      (firstTrap (ls accAtomic) = none → faultsOf (ls accAtomic) ≠ [] → ∃ t, exec (.ctradd h x) s = .next t ∧
        (g.isEngine = false → Aborted (s.commit u g.clauseIdx false) t u (faultsOf (ls accAtomic))) ∧
        (g.isEngine = true → WaitsAgain s t u g (faultsOf (ls accAtomic)))) ∧
      (firstTrap (ls accAtomic) = none → faultsOf (ls accAtomic) = [] →
        let s1 := s.commit u g.clauseIdx false
        let waits (g1 : Group) : Prop := (∃ p ∈ g1.pend, isRead p.ins = true) ∨ g1.unacked ≠ 0
        let op (glob : Bool) (L : Nat) (p : Packet) : Prop := p.body = .rmw 0 true (data L) 0 ∧ p.unit = u ∧ p.uid = g.uid ∧
          p.rel = some x.scope.toNat ∧ p.accepted = false ∧
          ∃ k, s.chkVa g.ctx accAtomic (s.groupPriv g) (a L) 8 8 none = .ok [⟨p.pa, 8, glob, k⟩]
        let isGlob (L : Nat) : Bool := (a L).getLsbD 63 && !s.isHere (a L)
        ∃ g1, s1.group? u = some g1 ∧ (waits g1 → exec (.ctradd h x) s = .next (s1.sendMarkers u)) ∧
          (¬waits g1 → ∃ t g' new far, exec (.ctradd h x) s = .next t ∧ t.group? u = some g' ∧ g.SameRegs g' ∧ s.SameMem t ∧
            t.packets = s1.packets ++ new ∧ List.Forall₂ (op false) (acts.filter fun L => !isGlob L) new ∧
            t.globals = s1.globals ++ far ∧
            List.Forall₂ (fun L y => ∃ p, op true L p ∧ bound u g p y) (acts.filter isGlob) far ∧
            g'.unacked = acts.length ∧
            (∀ m, g'.flag m = if h.setf.toNat = m ∧ m ≤ 11 then g1.flag m + 1 else g1.flag m) ∧
            (g.isEngine = false → anyS (ls accAtomic) = false → GoesOnE (.ctradd h x) s s1 u g t g1 g') ∧
            (g.isEngine = true ∨ anyS (ls accAtomic) = true →
              g'.wait = .drain s1.uid ∧ g'.pc = g.pc ∧ g'.clause = g.clause))) ∧
      (∀ k i, lowestTrap rd k i → exec (.ctrwait h x) s = .next (s.trapAt u k i (g.active h))) ∧
      (firstTrap rd = none → faultsOf rd ≠ [] → ∃ t, exec (.ctrwait h x) s = .next t ∧ WaitsAgain s t u g (faultsOf rd)) ∧
      (∀ pre l post, rd = pre ++ l :: post → firstTrap rd = none → faultsOf rd = [] → (∀ m ∈ pre, s.unrouted u m = false) →
        s.unrouted u l = true → exec (.ctrwait h x) s = .next (s.trapAt u causePhys l.addr (g.active h))) ∧
      ((∀ l ∈ rd, s.unrouted u l = false ∧ ∃ pa gl k, l.chk = .ok [⟨pa, 8, gl, k⟩] ∧ inRegs pa = false ∧
          s.homePoison (pa / 16) = false ∧ s.ownClear u g.uid pa 8 = true) →
        let reached := ∀ L ∈ acts, ∀ pa gl k, s.chkVa g.ctx g.loadAcc (s.groupPriv g) (a L) 8 8 none = .ok [⟨pa, 8, gl, k⟩] →
          (data L).toNat ≤ (s.homeWord pa).toNat
        (reached → ∃ t g', exec (.ctrwait h x) s = .next t ∧ t.group? u = some g' ∧ g.SameRegs g' ∧ s.SameMem t ∧
          g'.flags = g.flags ∧ g'.wait = .no ∧ g'.pc = g.advance.pc ∧ g'.clause = g.advance.clause ∧
          (4 ≤ x.scope.toNat → (t.core (coreOf u)).l1 = [])) ∧
        (¬reached → ∃ t, exec (.ctrwait h x) s = .next t ∧ s.SameMem t ∧
          t.group? u = some { g with wait := .counter (.ctrwait h x) })) ∧
      (g.wait = .no → LoadCourse (.ctrrd h x) h s s u g (!g.isEngine) (fun _ => .ready) rd))) ∧
  ∀ (h : Head) (x : BodyCtr) (s : State) (u : Nat) (g : Group) (p : Pend) (l : LaneReq) (pa : Nat) (k : PageKind),
    s.group? u = some g → (∀ n, g.wait ≠ .drain n) → p.ins = .ctrrd h x →
    g.pend.find? (fun q => q.tok == p.tok) = some p → p.lanes = [l] → l.lane < 64 → l.st = .ready → p.left = 0 →
    p.writes = [] → p.poison = none → l.pieces = [⟨pa, 8, false, k⟩] → inRegs pa = false → s.poisoned pa = false →
    s.laneClear u g p l = true → s.laneInOrder u g p l = true → s.physOk pa 8 = true → pa + 8 ≤ 2 ^ 63 →
    ∃ t g', exec (.resultLands u p.tok) s = .next t ∧ t.group? u = some g' ∧ s.SameMem t ∧
      (∀ m, g'.flag m = if p.flag = some m then g.flag m - 1 else g.flag m) ∧
      (x.sreg = true → g'.vregs = g.vregs ∧ ∀ m, g'.sreg m =
        if p.nwb = false ∧ m = x.d.toNat then lowWord (s.word64 pa)
        else if p.nwb = false ∧ m = x.d.toNat + 1 then highWord (s.word64 pa) else g.sreg m) ∧
      (x.sreg = false → g'.sregs = g.sregs ∧ ∀ m L, L < 64 → g'.vreg m L =
        if p.nwb = false ∧ L = l.lane ∧ m = x.d.toNat then lowWord (s.word64 pa)
        else if p.nwb = false ∧ L = l.lane ∧ m = x.d.toNat + 1 then highWord (s.word64 pa) else g.vreg m L)

/-! ### The machine: reset, decode, the step, memory -/

/-- What a package reset leaves, as the spec gives it (01 R24, R26; 03 R50, R52, R54; 09 R230; 10 R253; 11 R277; 21 R374,
R382; 23 R414, R417, R418; 24 R426, R431, R436): no full bit set, every measurement register zero, no partition open, every
list and queue disabled at its smallest ring, contexts disabled and on the physical function, and the interleave unlocked
and fine. That memory then has its canonical form is the model's own. -/
def Obligations.ResetValues : Prop :=
  let s := State.reset
  s.MemOk ∧ (∀ k, s.isFull k = false) ∧ (∀ i, agetD 0 s.mr i = 0) ∧
  (∀ n, s.reg (.ilmap n) = 0) ∧ s.reg .illock = 0 ∧ (∀ pa, pa < hbmEnd → s.setClass (pa / 2 ^ 37) = 0) ∧
  s.reg .patrol = 86400 ∧ s.reg .bmstat = 0 ∧
  (∀ p, s.reg (.partcfg p) = 0 ∧ s.partOpen p = false ∧ s.reg (.evqbase p) = 0 ∧ s.reg (.evqhead p) = 0 ∧
    bits (s.reg (.evqctl p)) 0 0 = 0 ∧ bits (s.reg (.evqctl p)) 5 1 = 6 ∧ bits (s.reg (.evqctl p)) 63 32 = 0) ∧
  (∀ p n, s.reg (.llbase p n) = 0 ∧ s.reg (.llhm p n) = 0 ∧ bits (s.reg (.llctl p n)) 0 0 = 0 ∧
    bits (s.reg (.llctl p n)) 5 1 = 6 ∧ bits (s.reg (.llctl p n)) 63 32 = 0) ∧
  (∀ p d, s.reg (.tierpool p d) = 0 ∧ s.reg (.errcnt p d) = 0) ∧
  (∀ f, s.reg (.prqbase f) = 0 ∧ s.reg (.prqhead f) = 0 ∧ bits (s.reg (.prqctl f)) 0 0 = 0 ∧
    bits (s.reg (.prqctl f)) 5 1 = 6 ∧ bits (s.reg (.prqctl f)) 63 32 = 0) ∧
  (∀ c, s.ctxEn c = false ∧ s.ctxSup c = false ∧ s.ctxBpen c = false ∧ s.ctxGuest c = false ∧ s.ctxHyp c = false ∧
    s.ctxFn c = 32 ∧ s.ctxHypFn c = 32 ∧ s.reg (.eacct c) = 0) ∧
  (∀ k, s.reg (.bsc k) = 0 ∧ s.reg (.bsstat k) = 0) ∧ (∀ d, s.reg (.pool d) = 64 ∧ (s.die d).permits = 64 ∧
    (s.die d).ptr = 0 ∧ s.reg (.boost d) = 0 ∧ s.reg (.retctl d) = 0) ∧
  (∀ d k, bits (s.reg (.cbal d k)) 7 0 = 32 ∧ bits (s.reg (.cbal d k)) 23 16 = 16 ∧ bits (s.reg (.cbal d k)) 39 24 = 0) ∧
  ∀ u, s.group? u = none

/-- A step issues what it decodes (04 R83, R97, R98; 05 R115, R116; 09 R224): the next word of the clause in flight, or a
trap for a word that decodes to nothing or reads a latch without a result, or the end of the clause; a device event of the
table is its own meaning. What is charged for it (23 R412, R421) changes estimates and energy alone. In safe mode no
instruction issues (24 R428). An instruction whose flag stands at 63 waits (05 R118). -/
def Obligations.StepRunsDecoded : Prop :=
  (∀ (s : State) (u : Nat) (rest : List Turn) (g : Group) (c : Clause), s.agenda = .issue u :: rest →
    s.group? u = some g → g.clause = some c → c.started = true → g.mayIssue = true → s.unitUp u = true →
    s.safeMode = false →
    let s1 : State := { s with agenda := rest }
    let s2 : State := { s1 with cur := u }
    (∀ w i, c.words[c.next]? = some w → decodeWord w = .ok i →
      ((∀ b ∈ i.latchReads, g.latchOk.getLsbD b.toNat = true) →
        step s = exec i (s2.chargeIssue u)) ∧
      ((∃ b ∈ i.latchReads, g.latchOk.getLsbD b.toNat = false) → step s = .next (s2.trapAt u causeStale 0 g.headRun))) ∧
    (∀ w e, c.words[c.next]? = some w → decodeWord w = .error e →
      step s = .next (s2.trapAt u causeIllegal 0 g.headRun)) ∧
    (c.words[c.next]? = none → ∃ t g', step s = .next t ∧ s1.Around t u ∧ t.group? u = some g' ∧
      g.Leaves g' fun _ => some g.nextClause)) ∧
  (∀ (s : State) (i : Instr) (rest : List Turn), s.agenda = .event i :: rest → i.isEvent = true → i.wf = true →
    s.safeMode = false → step s = exec i (State.chargeEvent { s with agenda := rest } i)) ∧
  (∀ s u, { State.chargeIssue s u with clusters := s.clusters, energy := s.energy } = s) ∧
  (∀ s i, { State.chargeEvent s i with energy := s.energy } = s) ∧
  (∀ (s : State) (u : Nat) (rest : List Turn), s.safeMode = true → s.agenda = .issue u :: rest →
    step s = .next { s with agenda := rest }) ∧
  (∀ i h s u g, i.head? = some h → s.cur = u → s.group? u = some g → g.clause.isSome = true → h.setf.toNat ≤ 11 →
    g.flag h.setf.toNat = 63 → g.active h ≠ 0 → exec i s = .next s) ∧
  ∀ (s : State) (n w : Nat) (i : Instr), decodeTableWord n w = some i → s.safeMode = false →
    (laidUnit w = 0 → s.coreUp 0 = true) →
    ∃ s', (∀ a, s'.byte a = s.byte a) ∧ s'.cur = laidUnit w ∧ (∃ g', s'.group? (laidUnit w) = some g' ∧
      g'.clause.isSome = true) ∧ step (s.withFetchWord n w) = exec i s'

/-- One word of each family that the spec's examples write out decodes to its instruction (02 to 22). -/
def Obligations.DecodeWords : Prop :=
  let h : Head := ⟨false, 7, 15, false, 0⟩
  let on (n : BitVec 4) : Head := { h with setf := n }
  ∀ x : Dword × Instr, x ∈ ([
    (0x0109F00000000005, .bra { h with gn := true, gp := 1 } .plain 5),
    (0x1307F08280B03000, .idiv h ⟨false, 1, 10, .v 11, .src (.v 12)⟩),
    (0x16C7F001A0400100, .iadd64 h ⟨true, 0, 6, .s 4, .imm 0x100⟩),
    (0x2247F001005006CA, .lut3 h ⟨false, 4, .v 5, 0xCA, 6⟩),
    (0x4207F20100200C00, .fmul { h with lat := 1 } ⟨0, 0, 4, .v 2, .src (.v 3)⟩),
    (0x4307F00168101A84, .ffma h ⟨0, 0, 5, .b 1, .v 6, .lit 0⟩),
    (0x6207F00180500030, .f2f h ⟨0, false, 0, 3, 0, 6, .v 5⟩),
    (0x7117F00481100000, .rsq h true 18 (.v 17)),
    (0x8117F002009DFC00, .shfl h 1 8 (.v 9) (.imm 0xFF)),
    (0x9037301402001060, .ld (on 3) .b64 20 (.v 8) 16 6 0),
    (0x9441F00C09800000, .st { h with gp := 1 } .b128 12 (.v 38) 0 0),
    (0xA097100482800884, .atom (on 1) ⟨9, false, 1, 4, .s 10, 8, 8⟩),
    (0xB001F00842893800, .copy { h with gp := 1 } false true 2 7 false (.v 16) (.s 20)),
    (0xB307F01482000081, .ctradd h ⟨true, 20, .s 8, 0, 8⟩),
    (0xC547F00028201001, .mma h ⟨2, false, 0, 0, 1, false, true, 0, 0x201, 1⟩),
    (0xD217F00000000800, .barw h (some 2)),
    (0xE007F10B43C00001, .estream h 1 (.s 22) (.s 30)),
    (0xF107F00021400010, .csrw h 0x10 (.s 20))] : List (Dword × Instr)) →
    decodeWord x.1 = .ok x.2

/-- Every legal instruction has one word, and the decoder reads it back with every operand (04 R83 to R91, R97). -/
def Obligations.DecodeEncode : Prop :=
  ∀ i : Instr, i.wf = true → i.isEvent = false → ∃ w, encode i = [w] ∧ decodeWord w = .ok i

/-- A word that decodes is that of a legal instruction: every bit of it is one of the instruction's fields or zero, and no
reserved encoding passes (04 R83, R85, R97). -/
def Obligations.DecodeSound : Prop :=
  ∀ (w : Dword) (i : Instr), decodeWord w = .ok i → i.wf = true ∧ i.isEvent = false ∧ encode i = [w]

/-- Every step keeps the canonical form of memory: equal memories are equal data (the model's own invariant). -/
def Obligations.MemoryKept : Prop := ∀ s t : State, s.MemOk → step s = .next t → t.MemOk

/-! ### Asynchronous work, family 0xB -/

/-- COPY, COPYL and COPYM at issue (11 R265 to R269): what each request holds. -/
def Obligations.CopiesIssue : Prop :=
  ∀ (h : Head) (r c : Src) (s : State) (u : Nat) (g : Group), s.Issues u g h →
    let lanes := blockLanes r (g.active h)
    let reg (L i : Nat) : Word := match r with
      | .v n => g.vread s.draw (n.toNat + i) L
      | .s n => g.sread s.draw (n.toNat + i)
      | _ => 0
    let pair (L i : Nat) : Dword := (reg L (i + 1)) ++ (reg L i)
    let org (L : Nat) : List (BitVec 32) := [reg L 2, reg L 3, reg L 4, reg L 5, reg L 6]
    let ctr (L : Nat) : Dword := src64 s u g L c
    (∀ (out ob mask : Bool) (k scope : BitVec 4),
      Requests (.copy h out ob k scope mask r c) s u g h (if ob = true then some k else none) lanes
        (fun L => if ob = true then none else some (reg L 7)) (fun L => some (pair L 0)) ctr fun t =>
          t.copyms = s.copyms ∧ ∃ new, t.copies = s.copies ++ new ∧ List.Forall₂ (fun L (q : CopyReq) =>
            { q with id := 0 } =
              { id := 0, ctx := g.ctx, core := coreOf u, record := some (pair L 0), out := out, origin := org L
                img := if ob = true then .ob g.cell k.toNat (reg L 7).toNat else .basin (unitDie u) (reg L 7).toNat
                src := 0, len := 0, mask := mask, handle := if ob = true then s.handle g.cell k.toNat else none
                ctr := some (ctr L), scope := scope, card := none, priv := s.groupPriv g, rels := g.fences, words := []
                place := none, fin := none, aw := noWait }) lanes new) ∧
    (∀ scope : BitVec 4, Requests (.copyl h scope r c) s u g h none lanes (fun _ => none) (fun _ => none) ctr fun t =>
      t.copyms = s.copyms ∧ ∃ new, t.copies = s.copies ++ new ∧ List.Forall₂ (fun L (q : CopyReq) =>
        { q with id := 0 } =
          { id := 0, ctx := g.ctx, core := coreOf u, record := none, out := false, origin := [], img := .va (pair L 2)
            src := pair L 0, len := pair L 4, mask := false, handle := none, ctr := some (ctr L), scope := scope
            card := none, priv := s.groupPriv g, rels := g.fences, words := [], place := none, fin := none
            aw := noWait }) lanes new) ∧
    ∀ (n4 : Bool) (k scope : BitVec 4),
      Requests (.copym h n4 k scope r c) s u g h (some k) lanes (fun _ => none) (fun L => some (pair L 0)) ctr fun t =>
        t.copies = s.copies ∧ ∃ new, t.copyms = s.copyms ++ new ∧ List.Forall₂ (fun L (q : CopymReq) =>
          { q with id := 0 } =
            { id := 0, ctx := g.ctx, core := coreOf u, n4 := n4, k := k, record := pair L 0, origin := org L
              off := (reg L 7).toNat, cell := g.cell, handle := (s.handle g.cell k.toNat).getD 0, ctr := ctr L
              scope := scope, priv := s.groupPriv g, rels := g.fences, place := 0, aw := noWait, caw := noWait
              landed := [] }) lanes new

/-- A tile's image and mask (11 R262 to R264, R269): the tensor's elements and zeros outside it, for elements of whole bytes and of
fewer bits, with the scale bytes of a block format and their neutral values; a mask bit for each valid row; and the slices of
COPYM, which part the image. -/
def Obligations.TileImages : Prop :=
  (∀ (ws : List Dword) (org : List (BitVec 32)) (tensor : Nat → Byte) (i : Nat), layoutOk ws = true →
    originOk ws org = true → i < imgSize ws →
    (tileImage ws org ((tileSegs ws org).map fun g =>
      (g, (List.range g.len).map fun k => (tensor (g.off + k), false))))[i]? = some (imageByte ws org tensor i, false)) ∧
  (∀ ws org r, (tileMask ws org).testBit r = (decide (r < tileRows ws) && rowValid ws org r)) ∧
  ∀ (ws : List Dword) (n i : Nat), layoutOk ws = true → n = 2 ∨ n = 4 → i < imgSize ws →
    ∃ j, j < n ∧ inSlice ws j n i = true ∧ ∀ k, k < n → inSlice ws k n i = true → k = j

/-- Copies as their engines perform them (11 R260, R261, R267 to R269, R271): the record read once, and the engine of the stack
to which a request passes; the bytes and the count of a linear copy and of a tile copy, its status, and its counter, to which it
adds as a release; COPYM with its set of cores, its start when every core has issued, the reasons for which all of it fails, and
a slice that lands. -/
def Obligations.CopyWork : Prop :=
  (
  (∀ k s, (∀ q ∈ s.copies, q.id ≠ k) → exec (.copyExecute k) s = .next s) ∧
  (∀ (s : State) (q : CopyReq), s.copies.find? (fun x => x.id == q.id) = some q →
    ((∃ r ∈ q.aw.reqs, s.outstanding r = true) → exec (.copyExecute q.id) s = .next s) ∧
    ((∀ r ∈ q.aw.reqs, s.outstanding r = false) →
      (∀ f, q.fin = some f → exec (.copyExecute q.id) s = .next (s.closeCopy q f q.aw.dead).drawn) ∧
      (q.fin = none →
        let at_ := q.place.getD (s.recordPlace q)
        let fails (e : Nat) : Prop := exec (.copyExecute q.id) s =
          .next ((s.copyError q.ctx at_ q.named e (s.copyCtr q)).closeCopy q ⟨at_, e, 2 ^ 63, none, 0⟩ false).drawn
        let passes (k : Nat) (ws : List Dword) : Prop := ∃ e, s.shortest k e ∧ exec (.copyExecute q.id) s =
          .next (s.onCopy q.id fun x => { x with words := ws, place := some e, aw := noWait }).drawn
        (q.aw.dead = true → fails 2) ∧
        (q.aw.dead = false → q.place = none → q.words = [] →
          (q.record = none → ∀ k, q.len = 0 ∧ k = 0 ∨ q.len ≠ 0 ∧ s.homedAt q.ctx accEngRead q.priv q.src k → passes k []) ∧
          (∀ rec, q.record = some rec → rec.toNat % 64 ≠ 0 → fails 1) ∧
          (∀ rec ws, q.record = some rec → rec.toNat % 64 = 0 → s.planRecord q.ctx q.priv 0 8 rec 8 = .ok ws →
            (¬(layoutOk ws = true ∧ originOk ws q.origin = true) → fails 1) ∧
            (layoutOk ws = true → originOk ws q.origin = true → ∀ k,
              s.homedAt q.ctx (if q.out = true then accEngWrite else accEngRead) q.priv (tileFirst ws q.origin) k →
              passes k ws)) ∧
          (∀ rec e, q.record = some rec → rec.toNat % 64 = 0 → s.planRecord q.ctx q.priv 0 8 rec 8 = .error (.fail e) →
            fails e) ∧
          (∀ rec acc l, q.record = some rec → rec.toNat % 64 = 0 →
            s.planRecord q.ctx q.priv 0 8 rec 8 = .error (.faults acc l) →
            ∃ t, exec (.copyExecute q.id) s = .next t ∧ CopyWaits s t q l)) ∧
        ∀ place, q.aw.dead = false → q.place = some place →
          let ends (s1 : State) (n : Dword) : Prop := exec (.copyExecute q.id) s =
            .next (s1.closeCopy q ⟨place, 0, n, none, 0⟩ false).drawn
          (∀ rec cell k off, q.record = some rec → q.out = false → q.img = .ob cell k off →
            16 * resLen (q.handle.getD 0) < off + imgSize q.words → fails 6) ∧
          (∀ e, s.planCopy q (place / 6) = .error (.fail e) → fails e) ∧
          (∀ acc l, s.planCopy q (place / 6) = .error (.faults acc l) →
            ∃ t, exec (.copyExecute q.id) s = .next t ∧ CopyWaits s t q l) ∧
          (∀ dst sp dp, q.record = none → q.img = .va dst → s.devRange q.ctx accEngRead q.priv q.src q.len.toNat = .ok sp →
            s.devRange q.ctx accEngWrite q.priv dst q.len.toNat = .ok dp → s.plainMem sp →
            (∀ x ∈ devAddrs dp, x.1 = false ∧ inRegs x.2 = false) → (devAddrs dp).Nodup →
            ∃ s1 : State, ends s1 q.len ∧
              s.Wrote s1 (fun a => (((devAddrs dp).zip (devAddrs sp)).find? fun x => x.1.2 == a).map fun x => s.byte x.2.2) ∧
              s1.copies = s.copies ∧ s1.groups = s.groups ∧ s1.cells = s.cells ∧
              ∀ k, s1.isFull k = (s.isFull k || (basinOf (16 * k)).isSome && (devAddrs dp).any fun x => x.2 / 16 == k)) ∧
          (∀ rec cell k off c ps, q.record = some rec → q.out = false → q.img = .ob cell k off →
            off + imgSize q.words ≤ 16 * resLen (q.handle.getD 0) → s.cell? cell = some c → q.card = none →
            List.Forall₂ (fun (x : Seg) p => s.devRange q.ctx accEngRead q.priv (x.addr q.words) x.len = .ok p)
              (tileSegs q.words q.origin) ps → s.plainMem ps.flatten →
            let base := 16 * resOff (q.handle.getD 0) + off
            let img := tileImage q.words q.origin ((tileSegs q.words q.origin).zip (ps.map s.devRead))
            ∃ (s1 : State) (c' : CellSt), ends s1 (BitVec.ofNat 64 (imgSize q.words)) ∧ s.SameMem s1 ∧ s1.groups = s.groups ∧
              s1.copies = s.copies ∧ s1.cell? cell = some c' ∧ (∀ j, j ≠ cell → s1.cell? j = s.cell? j) ∧
              (∀ o, c'.byte o = if base ≤ o ∧ o < base + imgSize q.words then (img.getD (o - base) (0, false)).1 else c.byte o) ∧
              (∀ m, agetD (BitVec.allOnes 256) c'.masks m = if m = resMslot (q.handle.getD 0) then
                BitVec.ofNat 256 (tileMask q.words q.origin) else agetD (BitVec.allOnes 256) c.masks m)))) ∧
    ∀ f dead, (∀ k, q.card = some k → s.closeCopy q f dead = (s.cardCopied k f).dropCopy q.id) ∧
      (∀ ctr, q.card = none → q.ctr = some ctr → dead = true ∨ ctr.toNat % 8 ≠ 0 →
        s.closeCopy q f dead = (s.copyError q.ctx f.place q.named 11 ctr).dropCopy q.id) ∧
      ∀ ctr pa k, q.card = none → q.ctr = some ctr → dead = false → ctr.toNat % 8 = 0 →
        s.devRange q.ctx accEngWrite q.priv ctr 8 = .ok [⟨pa, 8, false, k⟩] → inRegs pa = false →
        let t := s.closeCopy q f dead
        t.word64 pa = s.word64 pa + f.count ∧ (∀ a, a < pa ∨ pa + 8 ≤ a → t.byte a = s.byte a) ∧ t.regs = s.regs ∧
        t.groups = s.groups ∧ t.cells = s.cells ∧ t.copies = s.copies.filter (fun x => x.id != q.id) ∧
        ∃ o, t.old = s.old ++ [o] ∧ o.data.map (·.1) = (List.range 8).map (pa + ·) ∧
          ∃ r, o.author.rels = [r] ∧ r.who = agent (srcCopy 0 f.place) ∧ r.scope = q.scope.toNat ∧ r.job = q.id + 1 ∧
            ∀ w ∈ s.old, w.author.job = q.id + 1 → w.stamp ∈ r.view.known)) ∧
  (
  (∀ k s, (∀ q ∈ s.copyms, q.id ≠ k) → exec (.copymOperationStart k) s = .next s) ∧
  (∀ (s : State) (q : CopymReq), s.copyms.find? (fun x => x.id == q.id) = some q →
    let n := if q.n4 = true then 4 else 2
    let first := q.core / 48 * 48 + q.core % 48 / n * n
    ((∃ i, i < n ∧ ∀ x ∈ s.copyms, ¬(x.core = first + i ∧ x.n4 = q.n4)) → exec (.copymOperationStart q.id) s = .next s) ∧
    ∀ ms : List CopymReq, List.Forall₂ (fun i m => s.copyms.find? (fun x => x.core == first + i && x.n4 == q.n4) = some m)
        (List.range n) ms →
      ((∀ m ∈ ms, m.id ≠ q.id) → exec (.copymOperationStart q.id) s = .next s) ∧
      ((∃ m ∈ ms, ∃ r ∈ m.aw.reqs, s.outstanding r = true) → exec (.copymOperationStart q.id) s = .next s) ∧
      (q ∈ ms → (∀ m ∈ ms, ∀ r ∈ m.aw.reqs, s.outstanding r = false) →
        let live := ∀ m ∈ ms, m.aw.dead = false
        let same (m : CopymReq) : Prop := m.record = q.record ∧ m.origin = q.origin ∧ m.off = q.off ∧ m.k = q.k ∧
          m.scope = q.scope
        let starts (ws : List Dword) (err : Nat) : Prop :=
          ∃ t, exec (.copymOperationStart q.id) s = .next t ∧ s.CopymStarts t ms q.n4 ws err
        ((∃ m ∈ ms, m.aw.dead = true) → starts [] 2) ∧
        (live → (∃ m ∈ ms, ¬same m) → starts [] 7) ∧
        (live → (∀ m ∈ ms, same m) → (q.record.toNat % 64 ≠ 0 → starts [] 1) ∧
          ∀ ws, q.record.toNat % 64 = 0 → s.planRecord q.ctx q.priv 0 8 q.record 8 = .ok ws →
            starts ws (if ¬(layoutOk ws = true ∧ originOk ws q.origin = true) then 1
              else if ∃ m ∈ ms, 16 * resLen m.handle < m.off + imgSize ws then 6 else 0)))) ∧
  (∀ k j s, (∀ o ∈ s.copymOps, o.id ≠ k) → exec (.copymSliceLand k j) s = .next s) ∧
  ∀ (s : State) (o : CopymOp) (j : Nat) (m : CopymReq), s.copymOps.find? (fun x => x.id == o.id) = some o →
    o.members.find? (fun x => x.core % o.n == j) = some m → j ∉ o.moved → (∀ r ∈ m.aw.reqs, s.outstanding r = false) →
    let moves (s1 : State) (o1 : CopymOp) : Prop := s1.copymOps.find? (fun x => x.id == o.id) = some o1 ∧
      exec (.copymSliceLand o.id j) s = .next ((o1.members.foldl (fun s m => s.countSlice o1 j m) s1).endCopym o.id).drawn
    (o.err ≠ 0 ∨ m.aw.dead = true → ∃ s1 o1, moves s1 o1 ∧ s1.cells = s.cells ∧ j ∈ o1.failed ∧ o1.members = o.members ∧
      o1.sliceCount j = 2 ^ 63) ∧
    ∀ ps, o.err = 0 → m.aw.dead = false → j ∉ o.failed → (o.members.map (·.cell)).Nodup → (∀ x ∈ o.members, (s.cell? x.cell).isSome = true) →
      List.Forall₂ (fun (x : Seg) p => s.devRange m.ctx accEngRead m.priv (x.addr o.words) x.len = .ok p)
        ((tileSegs o.words m.origin).filter fun x => inSlice o.words j o.n x.img) ps → s.plainMem ps.flatten →
      let img := tileImage o.words m.origin
        (((tileSegs o.words m.origin).filter fun x => inSlice o.words j o.n x.img).zip (ps.map s.devRead))
      ∃ s1 o1, moves s1 o1 ∧ s.SameMem s1 ∧ o1.members = o.members ∧ o1.failed = o.failed ∧ j ∈ o1.moved ∧
        o1.sliceCount j = ((List.range (imgSize o.words)).filter (inSlice o.words j o.n)).length ∧
        ∀ x ∈ o.members, ∀ c, s.cell? x.cell = some c → ∃ c', s1.cell? x.cell = some c' ∧
          let at_ := 16 * resOff x.handle + x.off
          (∀ i, c'.byte i = if at_ ≤ i ∧ i < at_ + imgSize o.words ∧ inSlice o.words j o.n (i - at_) = true then
            (img.getD (i - at_) (0, false)).1 else c.byte i) ∧
          agetD (BitVec.allOnes 256) c'.masks (resMslot x.handle) = BitVec.ofNat 256 (tileMask o.words m.origin))



/-- Job cards (02 R47 to R49; 11 R282; 14 R312 to R321): FORK's checks and the lists that it hands over, the judgement of a
list, RDV, OBJREQ, what each kind of card starts, the word and the counter that a card's close writes, and the end of an
engine program by a trap. That FORK translates a card for writing too, and when OBJREQ's flag falls, are the model's
readings (log entries 14 and 15). -/
def Obligations.Cards : Prop :=
  (∀ (h : Head) (r : Src) (n1 : BitVec 4) (s : State) (u : Nat) (g : Group), s.Issues u g h →
    let act := g.active h
    let a (L : Nat) := blockPtr s g r L 0
    let rd := namedCards s g accLoad r (n1.toNat + 1) act
    let wr := namedCards s g accStore r (n1.toNat + 1) act
    (∀ L, L < 64 → g.present.getLsbD L = true → (a L).toNat % 128 ≠ 0 →
      (∀ K, K < L → g.present.getLsbD K = true → (a K).toNat % 128 = 0) →
      ∀ i ∈ [Instr.fork h r n1, .rdv h r n1], exec i s = .next (s.trapAt u causeAlign (a L) act)) ∧
    ((∀ L, L < 64 → g.present.getLsbD L = true → (a L).toNat % 128 = 0) →
      (act = 0 → CommitsOnly (.fork h r n1) s u g ∧ ∃ t g', Runs (.rdv h r n1) s u g t g' ∧ g.SameRegs g') ∧
      (act ≠ 0 → ∀ k x, lowestTrap rd k x → exec (.fork h r n1) s = .next ((s.commit u g.clauseIdx false).trapAt u k x act) ∧
        exec (.rdv h r n1) s = .next (s.trapAt u k x act)) ∧
      (act ≠ 0 → firstTrap rd = none → faultsOf rd ≠ [] →
        (∃ t, exec (.fork h r n1) s = .next t ∧ Aborted (s.commit u g.clauseIdx false) t u (faultsOf rd) ∧ t.cards = s.cards) ∧
        ∃ t, exec (.rdv h r n1) s = .next t ∧ WaitsAgain s t u g (faultsOf rd)) ∧
      (act ≠ 0 → firstTrap rd = none → faultsOf rd = [] → faultsOf wr ≠ [] →
        ∃ t, exec (.fork h r n1) s = .next t ∧ Aborted (s.commit u g.clauseIdx false) t u (faultsOf wr) ∧ t.cards = s.cards) ∧
      (act ≠ 0 → firstTrap rd = none → faultsOf rd = [] → faultsOf wr = [] →
        ∃ (s1 s2 : State) (g1 g' : Group) (tl : List TlbEntry) (ob : List Object),
          s1 = State.commit { s with tlb := tl, objects := ob } u g.clauseIdx false ∧
          s1.group? u = some g1 ∧ s1.Around s2 u ∧ s2.group? u = some g' ∧ g.SameRegs g' ∧ g'.flags = g1.flags ∧
          g'.pc = g.advance.pc ∧ g'.clause = g.advance.clause ∧ g'.region = g'.nextRegion ∧ s.SameMem s2 ∧
          exec (.fork h r n1) s = .next (((blockLanes r act).map fun L => (rd.filter fun l => l.lane == L).map fun l =>
            (l.addr, s.cardWords l)).foldl (fun s l => s.submit (coreOf u) g.ctx g1.fences l) s2).drawn) ∧
      (act ≠ 0 → firstTrap rd = none → faultsOf rd = [] →
        let done := ∀ l ∈ rd, let st := field (s.cardWords l) 447 440; st = 3 ∨ st = 4 ∨ st = 5
        (done → ∃ t g', exec (.rdv h r n1) s = .next t ∧ t.group? u = some g' ∧ g.SameRegs g' ∧ s.SameMem t ∧
          g'.wait = .no ∧ g'.pc = g.advance.pc ∧ g'.clause = g.advance.clause ∧
          ((∃ l ∈ rd, 4 ≤ cardScope (s.cardWords l)) → (t.core (coreOf u)).l1 = []) ∧
          ∀ l ∈ rd, ∀ p, l.pieces.head? = some p → ∀ x ∈ s.newestRels (p.pa + 48),
            inMutual (cardScope (s.cardWords l)) (g.party u) x.scope x.who = true →
            (∀ w ∈ x.view.known, w ∈ g'.view.known) ∧ (x.job ≠ 0 → x.job ∈ g'.jobs)) ∧
        (¬done → ∃ t, exec (.rdv h r n1) s = .next t ∧ s.SameMem t ∧
          t.group? u = some { g with wait := .cards (.rdv h r n1) })))) ∧
  (∀ (h : Head) (req : BitVec 2) (scope : BitVec 4) (r c : Src) (s : State) (u : Nat) (g : Group), s.Issues u g h →
    let act := g.active h
    let ctr (L : Nat) := src64 s u g L c
    (∀ L, L < 64 → g.present.getLsbD L = true → (ctr L).toNat % 8 ≠ 0 →
      (∀ K, K < L → g.present.getLsbD K = true → (ctr K).toNat % 8 = 0) →
      exec (.objreq h req scope r c) s = .next (s.trapAt u causeAlign (ctr L) act)) ∧
    ((∀ L, L < 64 → g.present.getLsbD L = true → (ctr L).toNat % 8 = 0) → ∃ t g' new,
      exec (.objreq h req scope r c) s = .next t ∧ t.group? u = some g' ∧ g.SameRegs g' ∧ g'.flags = g.flags ∧
      g'.pc = g.advance.pc ∧ g'.clause = g.advance.clause ∧ State.Around { s with tierReqs := t.tierReqs, views := t.views, uid := t.uid } t u ∧
      t.tierReqs = s.tierReqs ++ new ∧ List.Forall₂ (fun L (q : TierReq) => { q with id := 0 } =
        { id := 0, part := (s.partOfCtx g.ctx).getD 8, ctx := g.ctx, entry := blockPtr s g r L 0
          kind := if req = 0 then .promote else if req = 1 then .demote else .touch
          ctr := some (ctr L), scope := scope, card := none, priv := s.groupPriv g, t0 := none, age := 0
          fin := none, aw := noWait }) (lanesList act) new)) ∧
  (∀ (s : State) (core ctx : Nat) (rels : List Rel) (l : List (Dword × List Dword)),
    ((∀ i, ¬breaks (l.map (·.2)) i) →
      s.submit core ctx rels l = l.foldl (fun t x => t.acceptCard core ctx s.uid rels x.1 x.2) s.fresh) ∧
    ((∃ i, breaks (l.map (·.2)) i) → ∃ codes : List Nat, (∀ i, i < l.length → ∃ e, codes[i]? = some e ∧
        (breaks (l.map (·.2)) i → e = 9) ∧ (¬breaks (l.map (·.2)) i → e = 10)) ∧
      s.submit core ctx rels l = (l.zip codes).foldl (fun s x => s.rejectCard core ctx x.1.1 x.1.2 x.2) s)) ∧
  (∀ (s : State) (core ctx list : Nat) (rels : List Rel) (va : Dword) (ws : List Dword),
    (∀ ps, s.devRange ctx accEngWrite (s.ctxSup ctx) (va + 48) 8 = .ok ps → ∀ x ∈ devAddrs ps, inRegs x.2 = false) →
    ∃ c : Card, (s.acceptCard core ctx list rels va ws).cards = s.cards ++ [c] ∧ c.va = va ∧ c.words = ws ∧ c.ctx = ctx ∧
      c.core = core ∧ c.list = list ∧ c.rels = rels ∧ c.running = false ∧ c.err = 0 ∧ c.inc = ws.getD 3 0 ∧ c.fin = none ∧
      c.deps = (s.cards.filter fun y => y.core == core && y.list != list && cardDepends y.words ws).map (·.id)) ∧
  (∀ (s : State) (core ctx : Nat) (va : Dword) (ws : List Dword) (err pa pc : Nat) (k j : PageKind),
    s.devRange ctx accEngWrite (s.ctxSup ctx) (va + 48) 8 = .ok [⟨pa, 8, false, k⟩] → inRegs pa = false →
    (cardCtr ws).toNat % 8 = 0 →
    (s.cardState ctx core [agentRel (srcCore core) (cardScope ws) noView] va 5 err 0).devRange ctx accEngWrite (s.ctxSup ctx)
      (cardCtr ws) 8 = .ok [⟨pc, 8, false, j⟩] → inRegs pc = false → pa + 8 ≤ pc ∨ pc + 8 ≤ pa →
    let t := s.rejectCard core ctx va ws err
    t.word64 pa = cardWord 5 err 0 ∧ t.word64 pc = s.word64 pc + 2 ^ 63 ∧ t.cards = s.cards ∧ t.groups = s.groups ∧
      ∀ a, (a < pa ∨ pa + 8 ≤ a) → (a < pc ∨ pc + 8 ≤ a) → t.byte a = s.byte a) ∧
  (∀ (s : State) (ctx core : Nat) (rels : List Rel) (va : Dword) (state err poff pa : Nat) (k : PageKind),
    s.devRange ctx accEngWrite (s.ctxSup ctx) (va + 48) 8 = .ok [⟨pa, 8, false, k⟩] → inRegs pa = false →
    let t := s.cardState ctx core rels va state err poff
    t.word64 pa = cardWord state err poff ∧ (∀ a, a < pa ∨ pa + 8 ≤ a → t.byte a = s.byte a) ∧ t.cards = s.cards ∧
      t.groups = s.groups ∧ t.regs = s.regs) ∧
  (∀ k s, s.listReady k = false → exec (.cardListStart k) s = .next s) ∧
  (∀ k s, s.listReady k = true →
    (s.cards.any fun c => c.list == k) = true ∧
    (∀ c ∈ s.cards, c.list = k → c.running = false ∧ (∀ d ∈ c.deps, ∀ x ∈ s.cards, x.id ≠ d) ∧
      (cardKind c.words = 1 → aget s.engines (cardStack c.words) = none) ∧
      (cardKind c.words = 3 → (s.routeJobs.filter fun j => j.stack == cardStack c.words).length < 4)) ∧
    (∀ c ∈ s.cards, c.list < k → c.running = false → s.listCan c.list = false) ∧
    let l := s.cards.filter fun c => c.list == k
    (s.stateFaults l = [] → exec (.cardListStart k) s = .next (l.foldl State.startCard
      ((l.foldl (fun s c => s.cardState c.ctx c.core [] c.va 2 0 0) s).markRunning k)).drawn) ∧
    (s.stateFaults l ≠ [] → (s.cards.map (·.id)).Nodup → ∃ t, exec (.cardListStart k) s = .next t ∧ s.SameMem t ∧
      t.groups = s.groups ∧ t.engines = s.engines ∧ t.copies = s.copies ∧ t.routeJobs = s.routeJobs ∧ t.tierReqs = s.tierReqs ∧
      (∀ c ∈ t.cards, c.list = k → c.running = false) ∧
      ∀ x ∈ s.stateFaults l, ∃ c ∈ t.cards, ∃ reqs, c = { x.1 with aw := ⟨reqs, false⟩ } ∧ t.asksFor c.ctx [x.2] reqs)) ∧
  (∀ (s : State) (k : Nat), let t := s.markRunning k
    { t with cards := s.cards } = s ∧ List.Forall₂ (fun (c d : Card) =>
      d = if c.list = k then { c with running := true, work := true, aw := noWait } else c) s.cards t.cards) ∧
  (∀ (s : State) (c : Card), let t := s.startCard c
    let ws := c.words
    (cardKind ws = 1 → ∃ g, t.group? (engineUnit (cardStack ws)) = some g ∧ g.engine = some (cardStack ws) ∧ g.ctx = c.ctx ∧
      g.pc = [(0, cardProg ws)] ∧ g.wids.length = 1 ∧ (g.sreg 1 ++ g.sreg 0 : Dword) = c.va ∧
      g.sreg 2 = BitVec.ofNat 32 (cardArg0 ws) ∧ (g.sreg 5 ++ g.sreg 4 : Dword) = cardArg1 ws ∧
      (g.sreg 7 ++ g.sreg 6 : Dword) = cardArg2 ws ∧ g.sreg 8 = BitVec.ofNat 32 (cardStack ws) ∧
      (∀ n, n = 3 ∨ 9 ≤ n → g.sreg n = 0) ∧ g.flags = [] ∧ g.preds = [] ∧
      ∃ e, aget t.engines (cardStack ws) = some e ∧ e.card = c.id ∧ e.streams = [] ∧ e.work = [] ∧ e.err = 0) ∧
    (cardKind ws = 2 → ∃ q, t.copies = s.copies ++ [q] ∧ q.card = some c.id ∧ q.ctx = c.ctx ∧ q.ctr = none ∧ q.fin = none ∧
      q.rels = c.rels ∧ q.place = none ∧ q.out = (cardArg0 ws / 2 ^ 28 == 2) ∧
      (cardArg0 ws / 2 ^ 28 = 0 → q.record = none ∧ q.src = cardProg ws ∧ q.img = .va (cardArg1 ws) ∧ q.len = cardArg2 ws) ∧
      (cardArg0 ws / 2 ^ 28 ≠ 0 → q.record = some (cardProg ws) ∧ q.img = .va (cardArg2 ws) ∧
        q.origin = [lowWord (cardArg1 ws), highWord (cardArg1 ws), (BitVec.ofNat 28 (cardArg0 ws)).signExtend 32, 0, 0])) ∧
    (cardKind ws = 3 → ∃ j, t.routeJobs = s.routeJobs ++ [j] ∧ j.stack = cardStack ws ∧ j.ctx = c.ctx ∧ j.record = cardProg ws ∧
      j.forms = (if cardArg0 ws % 4 = 0 then [0, 1, 2] else [3]) ∧ j.card = some c.id) ∧
    (cardKind ws = 4 → ∃ q, t.tierReqs = s.tierReqs ++ [q] ∧ q.entry = cardProg ws ∧ q.card = some c.id ∧ q.ctx = c.ctx ∧
      q.kind = (match cardArg0 ws % 4 with | 0 => .promote | 1 => .demote | _ => .touch))) ∧
  (∀ k s, (∀ c ∈ s.cards, c.id ≠ k) →
    ((∀ x ∈ s.owed, x.id ≠ k) → exec (.cardClose k) s = .next s) ∧
    ∀ x, s.owed.find? (fun y => y.id == k) = some x →
      ((∃ r ∈ x.aw.reqs, s.outstanding r = true) → exec (.cardClose k) s = .next s) ∧
      ((∀ r ∈ x.aw.reqs, s.outstanding r = false) →
        let rest : State := { s with owed := s.owed.filter fun y => y.id != k }
        (x.aw.dead = true ∨ x.ctr.toNat % 8 ≠ 0 →
          exec (.cardClose k) s = .next (rest.cardRecord x.core x.ctx x.va x.err).drawn) ∧
        ∀ pa j, x.aw.dead = false → x.ctr.toNat % 8 = 0 →
          s.devRange x.ctx accEngWrite (s.ctxSup x.ctx) x.ctr 8 = .ok [⟨pa, 8, false, j⟩] → inRegs pa = false →
          ∃ t, exec (.cardClose k) s = .next t ∧ t.owed = rest.owed ∧ t.word64 pa = s.word64 pa + 2 ^ 63 ∧
            (∀ a, a < pa ∨ pa + 8 ≤ a → t.byte a = s.byte a) ∧ t.cards = s.cards ∧ t.groups = s.groups)) ∧
  (∀ (s : State) (c : Card), s.cards.find? (fun x => x.id == c.id) = some c →
    (s.cardEnd c = none → exec (.cardClose c.id) s = .next s) ∧
    (cardKind c.words ≠ 1 → s.cardEnd c = if c.running = true ∧ c.work = false then some (c.err, c.poff, c.pbytes) else none) ∧
    ((∃ r ∈ c.aw.reqs, s.outstanding r = true) → exec (.cardClose c.id) s = .next s) ∧
    ∀ err poff pbytes, s.cardEnd c = some (err, poff, pbytes) → (∀ r ∈ c.aw.reqs, s.outstanding r = false) →
      let done (e : Nat) (x : Card) : Card := { x with fin := some e, aw := noWait }
      let closes (s1 : State) (e : Nat) : Prop := exec (.cardClose c.id) s =
        .next ((s1.onCard c.id (done e)).closeCard (done e c) e poff pbytes).drawn
      (∀ e, c.fin = some e → exec (.cardClose c.id) s = .next (s.closeCard c e poff pbytes).drawn) ∧
      (c.fin = none → c.aw.dead = true ∨ (cardCtr c.words).toNat % 8 ≠ 0 →
        closes (s.lostCard c) (if cardKind c.words % 2 = 0 ∨ err = 0 then 11 else err)) ∧
      ∀ pa k, c.fin = none → c.aw.dead = false → (cardCtr c.words).toNat % 8 = 0 →
        s.devRange c.ctx accEngWrite (s.ctxSup c.ctx) (cardCtr c.words) 8 = .ok [⟨pa, 8, false, k⟩] → inRegs pa = false →
        ∃ s1 : State, closes s1 err ∧ s1.word64 pa = s.word64 pa + (if err = 0 then c.inc else 2 ^ 63) ∧
          (∀ a, a < pa ∨ pa + 8 ≤ a → s1.byte a = s.byte a) ∧ s1.cards = s.cards ∧ s1.groups = s.groups ∧
          ∃ o r, s1.old = s.old ++ [o] ∧ o.author.rels = [r] ∧ r.scope = cardScope c.words ∧ r.job = c.id + 1 ∧
            ∀ w ∈ s.old, w.author.job = c.id + 1 → w.stamp ∈ r.view.known) ∧
  (∀ (s : State) (c : Card) (err : Nat) (poff : Option Nat) (pbytes : Nat),
    let t := s.closeCard c err poff pbytes
    let chk := s.devRange c.ctx accEngWrite (s.ctxSup c.ctx) (c.va + 48) 16
    (c.aw.dead = true → t = s.dropCard c) ∧
    (c.aw.dead = false → (∀ st l r x, chk ≠ .fault st l r x) →
      t = (s.writeCardEnd c (if err ≠ 0 then 5 else if pbytes ≠ 0 then 4 else 3) err poff pbytes).dropCard c) ∧
    ∀ st l r x, c.aw.dead = false → chk = .fault st l r x → s.cards.find? (fun y => y.id == c.id) = some c →
      s.SameMem t ∧ ∃ reqs, t.cards.find? (fun y => y.id == c.id) = some { c with aw := ⟨reqs, false⟩ } ∧
        t.asksFor c.ctx [(st, l, r, x)] reqs) ∧
  (∀ (s : State) (c : Card) (state err : Nat) (poff : Option Nat) (pbytes pa pb : Nat) (k j : PageKind),
    s.devRange c.ctx accEngWrite (s.ctxSup c.ctx) (c.va + 56) 8 = .ok [⟨pb, 8, false, j⟩] →
    let t1 := (s.touchAll [⟨pb, 8, false, j⟩]).devPut .d (srcCore c.core) 0 (s.ctxFn c.ctx) false [⟨pb, 8, false, j⟩]
      ((natLE pbytes 8).map fun b => (b, false))
    t1.devRange c.ctx accEngWrite (s.ctxSup c.ctx) (c.va + 48) 8 = .ok [⟨pa, 8, false, k⟩] →
    inRegs pa = false → inRegs pb = false → pa + 8 ≤ pb ∨ pb + 8 ≤ pa →
    let t := s.writeCardEnd c state err poff pbytes
    t.word64 pa = cardWord state err (poff.getD 0) ∧ t.word64 pb = BitVec.ofNat 64 pbytes ∧
      (∀ a, (a < pa ∨ pa + 8 ≤ a) → (a < pb ∨ pb + 8 ≤ a) → t.byte a = s.byte a) ∧
      ∃ o r, t.old.getLast? = some o ∧ o.author.rels = [r] ∧ r.who = agent (srcCore c.core) ∧
        r.scope = cardScope c.words ∧ r.job = c.id + 1) ∧
  (∀ (s : State) (c : Card), let t := s.dropCard c
    t.cards = s.cards.filter (fun x => x.id != c.id) ∧
    (cardKind c.words = 1 → aget t.engines (cardStack c.words) = none ∧ t.group? (engineUnit (cardStack c.words)) = none) ∧
    (cardKind c.words ≠ 1 → t.engines = s.engines ∧ t.groups = s.groups)) ∧
  (∀ stack s, (∀ g, s.group? (engineUnit stack) = some g → g.taking = none) → exec (.engineTrap stack) s = .next s) ∧
  ∀ (stack : Nat) (s : State) (g : Group) (r : TrapRec) (e : EngineSt), s.group? (engineUnit stack) = some g →
    g.taking = some r → aget s.engines stack = some e →
    let code := if r.cause = causeFetch ∨ r.cause = causeIllegal then 1
      else if r.cause = causeCancel then 2
      else if r.cause = causeAlign then 4
      else if r.cause = causePhys then (if r.info.getLsbD 63 = true ∧ s.isHere r.info = false then 3 else 5)
      else 8
    ∃ t g', exec (.engineTrap stack) s = .next t ∧ t.group? (engineUnit stack) = some g' ∧ g'.wait = .exit ∧ g'.pc = [] ∧
      g'.clause = none ∧ g'.taking = none ∧
      (∀ p, p ∈ g'.pend ↔ p ∈ g.pend ∧ ∃ w ∈ e.work, w.tok = some p.tok) ∧
      aget t.engines stack = some { e with err := if e.err = 0 then code else e.err } ∧
      (∀ k, k ≠ engineUnit stack → t.group? k = s.group? k) ∧ s.SameMem t

/-! ### Weir engines, family 0xE -/

/-- The weir engines (14 R318 to R331): descriptors and asynchronous instructions at issue, and at completion the bytes of
copies and broadcasts, the sums of EREDUCE in the order of the sources' stacks, EGEMV's reading of its records, signals, waits
for page requests, failures with their codes, and the counts, offsets and places of the route forms, of which rows alone set
full bits (09 R230). -/
def Obligations.Engines : Prop :=
  (∀ (h : Head) (j : BitVec 3) (r c : Src) (s : State) (u : Nat) (g : Group), s.Issues u g h →
    (g.active h = 0 → ∃ t g', Runs (.estream h j r c) s u g t g' ∧ g.SameRegs g') ∧
    ∀ k e, g.active h ≠ 0 → g.engine = some k → aget s.engines k = some e → ∃ t g',
      RunsVia (.estream h j r c) s { s with engines := t.engines } u g t g' ∧ g.SameRegs g' ∧
      (∀ i, i ≠ k → aget t.engines i = aget s.engines i) ∧ ∃ e', aget t.engines k = some e' ∧
        { e' with streams := e.streams } = e ∧
        ∀ i, aget e'.streams i = if i = j.toNat then some (src64 s u g 0 r, src64 s u g 0 c) else aget e.streams i) ∧
  (∀ (h : Head) (ty : BitVec 2) (d q : BitVec 3) (m : BitVec 8) (bf : Bool) (code : BitVec 16) (r : Src) (ctr : Option EngCtr)
    (s : State) (u : Nat) (g : Group), s.Issues u g h →
    Starts (.ereduce h ty d m ctr) h s u g 0 ctr (· = []) ∧ Starts (.ebcast h q m ctr) h s u g 0 ctr (· = []) ∧
    Starts (.ecopy h d q ctr) h s u g 0 ctr (· = []) ∧
    Starts (.esig h code r) h s u g (src64 s u g 0 r) none (· = []) ∧
    (g.active h = 0 → ∃ t g', Runs (.egemv h bf r ctr) s u g t g' ∧ g.SameRegs g') ∧
    (∀ k e, g.engine = some k → aget s.engines k = some e → g.active h ≠ 0 →
      let got := s.gemvRead g.ctx (s.groupPriv g) k (src64 s u g 0 r) []
      ((∀ c, got.2 ≠ some (.fail c)) → Starts (.egemv h bf r ctr) h s u g (src64 s u g 0 r) ctr (· = got.1)) ∧
      ∀ c, got.2 = some (.fail c) → (∀ w ∈ e.work, w.id < s.uid) → ∃ t g' e' w,
        exec (.egemv h bf r ctr) s = .next t ∧ t.group? u = some g' ∧ g.SameRegs g' ∧ g'.pc = g.advance.pc ∧
        g'.clause = g.advance.clause ∧ (∀ n, n ≠ u → t.group? n = s.group? n) ∧ aget t.engines k = some e' ∧
        e'.err = (if e.err = 0 then c else e.err) ∧ e'.work = e.work ++ [w] ∧ w.ins = .egemv h bf r ctr ∧
        w.fin = some ⟨k, c, 2 ^ 63, none, 0⟩) ∧
    ∀ i ∈ [Instr.routeCnt h r ctr, .routeScan h r ctr, .routePlace h r ctr, .routeComb h r ctr],
      Starts i h s u g (src64 s u g 0 r) ctr (· = [])) ∧
  (∀ stack k s, (∀ w ∈ (s.engineSt stack).work, w.id ≠ k) → (∀ j ∈ s.routeJobs, ¬(j.id = k ∧ j.stack = stack)) →
    exec (.engineAsyncComplete stack k) s = .next s) ∧
  (∀ (s : State) (stack : Nat) (e : EngineSt) (g : Group) (w : EngAsync), aget s.engines stack = some e →
    e.work.find? (fun x => x.id == w.id) = some w → s.group? (engineUnit stack) = some g →
    let priv := s.ctxSup g.ctx
    let i := Instr.engineAsyncComplete stack w.id
    let bound (j : Nat) (x : Dword × Nat) : Prop := ∃ n, aget w.streams j = some (x.1, n) ∧ n.toNat = x.2
    let ends (s1 : State) (n : Nat) : Prop :=
      exec i s = .next (s1.closeWork g.ctx priv stack w ⟨stack, 0, BitVec.ofNat 64 n, none, 0⟩ false).drawn
    let fails (c : Nat) : Prop := exec i s = .next (s.failWork g.ctx priv stack w (srcWeir stack) c).drawn
    ((∃ r ∈ w.aw.reqs, s.outstanding r = true) → exec i s = .next s) ∧
    ((∀ r ∈ w.aw.reqs, s.outstanding r = false) →
      (∀ f, w.fin = some f → exec i s = .next (s.closeWork g.ctx priv stack w f w.aw.dead).drawn) ∧
      (w.fin = none →
        (∀ h code r, w.ins = .esig h code r →
          (e.work.head?.map (·.id) = some w.id → exec i s = .next ((s.logCtx g.ctx (srcWeir stack) 0x0A
            (w.arg.toNat + 2 ^ 64 * code.toNat)).dropWork stack w.id w.tok).drawn) ∧
          (e.work.head?.map (·.id) ≠ some w.id → exec i s = .next s.drawn)) ∧
        (routeFormOf w.ins = none → (∀ h code r, w.ins ≠ .esig h code r) → w.aw.dead = true → fails 2) ∧
        (∀ (h : Head) (d q : BitVec 3) (m : BitVec 8) ctr (js : List Nat), w.aw.dead = false → w.words = [] →
          (w.ins = .ecopy h d q ctr ∧ js = [d.toNat]) ∨
            (w.ins = .ebcast h q m ctr ∧ js = (List.range 8).filter fun j => m.getLsbD j) →
          ((∃ j ∈ q.toNat :: js, aget w.streams j = none) → fails 4) ∧
          ∀ (a : Dword) (n : Nat) (ds : List (Dword × Nat)) (sp : List Piece) (dps : List (List Piece)),
            bound q.toNat (a, n) → List.Forall₂ bound js ds →
            ((∃ x ∈ ds, x.2 ≠ n) → fails 4) ∧
            ((∀ x ∈ ds, x.2 = n) → s.devRange g.ctx accEngRead priv a n = .ok sp → s.plainMem sp →
              List.Forall₂ (fun (x : Dword × Nat) p => s.devRange g.ctx accEngWrite priv x.1 x.2 = .ok p) ds dps →
              (∀ x ∈ devAddrs dps.flatten, x.1 = false ∧ inRegs x.2 = false) → (devAddrs dps.flatten).Nodup →
              ∃ s1 : State, ends s1 (n * js.length) ∧
                (∀ dp ∈ dps, ∀ (b : Nat) (x y : Bool × Nat), (devAddrs dp)[b]? = some x → (devAddrs sp)[b]? = some y →
                  s1.byte x.2 = s.byte y.2) ∧
                (∀ b, (false, b) ∉ devAddrs dps.flatten → s1.byte b = s.byte b) ∧ s1.regs = s.regs ∧
                ∀ b, (s1.isFull b = (s.isFull b ||
                  (basinOf (16 * b)).isSome && (devAddrs dps.flatten).any fun x => x.2 / 16 == b)))) ∧
        (w.aw.dead = false → w.words = [] → routeFormOf w.ins = none → (∀ h code r, w.ins ≠ .esig h code r) →
          (∀ h bf r ctr, w.ins ≠ .egemv h bf r ctr) → ∀ acc l, s.planWork g.ctx priv stack w = .error (.faults acc l) →
          ∃ t reqs e', exec i s = .next t ∧ s.SameMem t ∧ t.asksFor g.ctx l reqs ∧ aget t.engines stack = some e' ∧
            e'.work.find? (fun x => x.id == w.id) = some { w with aw := ⟨reqs, false⟩ }) ∧
        (∀ (h : Head) (ty : BitVec 2) (d : BitVec 3) (m : BitVec 8) ctr, w.aw.dead = false → w.words = [] →
          w.ins = .ereduce h ty d m ctr → ty.toNat ≤ 2 →
          let js := (List.range 8).filter fun j => m.getLsbD j
          let sz := if ty = 2 then 8 else 4
          ((∃ j ∈ d.toNat :: js, aget w.streams j = none) → fails 4) ∧
          ∀ (q : Dword) (n : Nat) (srcs : List (Dword × Nat)) (dp : List Piece) (sps : List (List Piece)),
            bound d.toNat (q, n) → List.Forall₂ bound js srcs →
            ((∃ x ∈ srcs, x.2 ≠ n) → fails 4) ∧
            ((∀ x ∈ srcs, x.2 = n) → (n % sz ≠ 0 ∨ ∃ x ∈ (q, n) :: srcs, x.1.toNat % sz ≠ 0) → fails 4) ∧
            ((∀ x ∈ srcs, x.2 = n) → n % sz = 0 → (∀ x ∈ (q, n) :: srcs, x.1.toNat % sz = 0) → js ≠ [] →
              List.Forall₂ (fun (x : Dword × Nat) p => s.devRange g.ctx accEngRead priv x.1 x.2 = .ok p) srcs sps →
              s.plainMem sps.flatten → s.devRange g.ctx accEngWrite priv q n = .ok dp →
              (∀ x ∈ devAddrs dp, x.1 = false ∧ inRegs x.2 = false) → (devAddrs dp).Nodup →
              ∃ s1 : State, ends s1 n ∧ s1.regs = s.regs ∧ (∀ b, (false, b) ∉ devAddrs dp → s1.byte b = s.byte b) ∧
                ∀ x, x < n / sz → ∃ y l, (sortBy s.streamKey sps).map (fun p => s.elem sz p x) = y :: l ∧
                  s1.elem sz dp x = l.foldl (reduceSum ty) y)) ∧
        (∀ h bf r ctr, w.aw.dead = false → w.ins = .egemv h bf r ctr → w.arg.toNat % 32 ≠ 0 → fails 4) ∧
        (∀ h bf r ctr p, w.aw.dead = false → w.ins = .egemv h bf r ctr → 20 ≤ w.words.length → w.arg.toNat % 32 = 0 →
          (gemvA w.words).toNat % 64 = 0 → (gemvB w.words).toNat % 64 = 0 →
          s.planGemv g.ctx priv stack bf w.words = .ok p →
          ends (s.runEngine g.ctx stack e.card w.id p) p.count ∧
          p.count = layExt (gemvLayA w.words) 1 * layExt (gemvLayB w.words) 1 * (if bf = true then 2 else 4) ∧
          p.outs.length = layExt (gemvLayA w.words) 1 ∧
          ∀ r x, p.outs[r]? = some x → x.1 = gemvY w.words + BitVec.ofNat 64 (r * gemvStr w.words) ∧
            x.2.2.length = layExt (gemvLayB w.words) 1 * (if bf = true then 2 else 4)) ∧
        (∀ form, routeFormOf w.ins = some form → (∀ j ∈ s.routeJobs, j.eng ≠ some w.id) →
          (4 ≤ (s.routeJobs.filter fun j => j.stack == stack).length → exec i s = .next s.drawn) ∧
          ((s.routeJobs.filter fun j => j.stack == stack).length < 4 →
            let j : RouteJob := ⟨s.uid, stack, g.ctx, w.arg, [form], [], none, some w.id, noWait⟩
            let s1 : State := { s.fresh with routeJobs := s.routeJobs ++ [j] }
            exec i s = .next (s1.runEngineRoute g.ctx priv stack w form j).drawn)) ∧
        ∀ form j, routeFormOf w.ins = some form → s.routeJobs.find? (fun x => x.eng == some w.id) = some j →
          exec i s = .next (s.runEngineRoute g.ctx priv stack w form j).drawn))) ∧
  (∀ (s : State) (j : RouteJob) (job : Nat) (priv : Bool) (p : RoutePlan) (t : State) (first : Option Nat) (n : Nat),
    p.rows = 0 → p.sync = false → (∀ o ∈ p.outs, ∀ x ∈ devAddrs o.2.1, inRegs x.2 = false) →
    s.runRoute j job priv p = .done t first n → t.full = s.full) ∧
  (∀ (s : State) (c : RouteCtx) (rec : Nat) (ws : List Dword) (i lo hi : Nat) (p : RoutePlan) (ch : List Nat),
    s.rtChoices c ws lo hi = .ok ch → s.planCnt c rec ws i lo hi = .ok (some p) → p.sync = true ∧ p.rows = 0 ∧
    ∃ x, p.outs = [x] ∧ x.1 = BitVec.ofNat 64 (rtPart ws + 4 * i * rtE ws) ∧ x.2.2.length = 4 * rtE ws ∧
      ∀ e, e < rtE ws → (ch.filter (· == e)).length < 2 ^ 32 →
        leNat (((x.2.2.drop (4 * e)).take 4).map (·.1)) = (ch.filter (· == e)).length) ∧
  (∀ (cap : Nat) (tot : List Nat) (e : Nat), e < tot.length →
    (rtOffsets cap tot 0)[e]? = some (((tot.take e).map fun x => min x cap).foldl (· + ·) 0)) ∧
  ∀ (ws : List Dword) (off xb : List Nat) (p : PlaceSt) (t r e : Nat),
    let q := placeOne ws off xb p (t, r, e)
    let k := p.n.getD e 0
    (rtE ws ≤ e → q = { p with inv := p.inv ++ [0xFFFFFFFF] }) ∧
    (e < rtE ws → k < rtC ws → q.n = p.n.set e (k + 1) ∧ q.d = p.d ∧ q.drops = p.drops ∧
      q.inv = p.inv ++ [(off.getD e 0 + k) % 2 ^ 32] ∧
      q.rows = p.rows ++ [(rtTok ws + t * rtRb ws, xb.getD e 0 + k * rtRb ws)]) ∧
    (e < rtE ws → rtC ws ≤ k → q.n = p.n.set e (k + 1) ∧ q.d = p.d + 1 ∧ q.inv = p.inv ++ [0xFFFFFFFF] ∧ q.rows = p.rows ∧
      (rtDcap ws ≤ p.d → q.drops = p.drops) ∧
      (p.d < rtDcap ws → ∃ bs, q.drops = p.drops ++ [(rtDrop ws + 8 * p.d, bs)] ∧
        (e < 2 ^ 16 → r < 2 ^ 16 → t < 2 ^ 32 → leNat (bs.map (·.1)) = t + 2 ^ 32 * e + 2 ^ 48 * r)))

/-! ### Synchronisation, family 0xD, and the cell's registers -/

/-- Barriers and waits (17 R352, R357; 18 R358 to R367): an arrival with its checks, the wait, the opening of a phase with its
waves, the fences with what they wait for, what they invalidate, what they take over from releases and what they release (17
R344 to R350), and SLEEP. How happens-before is kept is the model's own (log entry 82). -/
def Obligations.BarriersAndWaits : Prop :=
  (∀ (h : Head) (gang : Option (BitVec 3)) (waits : Bool) (s : State) (u : Nat) (g : Group), s.Issues u g h →
    (waits = true → (g.clause.map (·.half)).getD false = false) →
    let i : Instr := if waits = true then .bar h gang else .bara h gang
    let b := (gang.map BitVec.toNat).getD 8
    let s1 := s.commit u g.clauseIdx false
    (g.active h = 0 → CommitsOnly i s u g) ∧
    ∀ c, g.active h ≠ 0 → s.cell? g.cell = some c →
      let x := c.barrier b
      let v : BitVec 32 := match gang with
        | some k => c.gang k.toNat
        | none => c.all
      ∃ g1, s1.group? u = some g1 ∧
        let mine := ∃ r, aget g1.bars b = some r ∧ r.phase = x.phase
        let clear := g1.unacked = 0 ∧ ∀ p ∈ g1.pend, isRead p.ins = false
        let clean := s1.putGroup u { g1 with bars := adel g1.bars b }
        let bad := (x.arrived ≠ 0 ∧ v ≠ x.captured) ∨ ((List.range 32).filter fun j => v.getLsbD j).length < 2 ∨
          ∃ j, c.ngroup ≤ j ∧ v.getLsbD j = true
        (¬clear ∨ mine → exec i s = .next s1.drawn) ∧
        (clear → ¬mine → gang.isSome = true → v.getLsbD g.index = false →
          exec i s = .next (clean.trapAt u causeGang (v.setWidth 64) (g.active h)).drawn) ∧
        (clear → ¬mine → gang.isSome = true → v.getLsbD g.index = true → bad →
          exec i s = .next ((clean.gangFail g.cell b v).trapAt u causeGang (v.setWidth 64) (g.active h)).drawn) ∧
        (clear → ¬mine → gang.isSome = false ∨ (v.getLsbD g.index = true ∧ ¬bad) → ∃ (s2 : State) (g2 : Group) (c2 : CellSt),
          exec i s = .next (s2.openPhase g.cell b).drawn ∧ s2.group? u = some g2 ∧
          (∀ k, k ≠ u → s2.group? k = s.group? k) ∧ { s2 with groups := s1.groups, cells := s1.cells } = s1 ∧ s.SameMem s2 ∧
          s2.cell? g.cell = some c2 ∧ (∀ k, k ≠ g.cell → s2.cell? k = s.cell? k) ∧ { c2 with barriers := c.barriers } = c ∧
          (∀ j, c2.barrier j = if j = b then
            { x with arrived := x.arrived ||| BitVec.ofNat 32 (2 ^ g.index), captured := v
                     rels := x.rels ++ [s1.relOf u g1 (if b = 8 then 3 else 2) false s1.uid] } else c.barrier j) ∧
          g.SameRegs g2 ∧ g2.flags = g.flags ∧
          (∀ j, aget g2.bars j = if j = b then some ⟨x.phase, g.clauseAddr, g.clauseIdx, g.active h, []⟩ else aget g.bars j) ∧
          (waits = true → g2.wait = .barrier b none ∧ g2.pc = g.pc ∧ g2.region = ⟨g.pc, g.clauseIdx, true⟩ ∧
            g2.clause = g.clause.map fun k => { k with half := true }) ∧
          (waits = false → g2.wait = g.wait ∧ g2.pc = g.advance.pc ∧ g2.clause = g.advance.clause ∧ g2.region = g2.nextRegion))) ∧
  (∀ (h : Head) (gang : Option (BitVec 3)) (s : State) (u : Nat) (g : Group) (c : CellSt), s.Issues u g h →
    s.cell? g.cell = some c →
    let b := (gang.map BitVec.toNat).getD 8
    let mine := ∃ r, aget g.bars b = some r ∧ r.phase = (c.barrier b).phase
    ∀ i : Instr, i = .barw h gang ∨ (i = .bar h gang ∧ (g.clause.map (·.half)).getD false = true) →
      (g.active h = 0 → ∃ t g', Runs i s u g t g' ∧ g.SameRegs g') ∧
      (g.active h ≠ 0 → mine → exec i s = .next (s.putGroup u { g with wait := .barrier b none }).drawn) ∧
      (g.active h ≠ 0 → ¬mine → ∃ t g', exec i s = .next t ∧ s.Around t u ∧ t.group? u = some g' ∧
        g.KeepsBut { g' with wait := g.wait, bars := g.bars } ∧ g.SameRegs g' ∧ g'.wait = .no ∧ g'.pc = g.advance.pc ∧
        g'.clause = g.advance.clause ∧ (∀ j, aget g'.bars j = if j = b then none else aget g.bars j) ∧
        ∀ x, aget g.bars b = some x → ∀ r ∈ x.rels, g'.Took (if b = 8 then 3 else 2) (g.party u) r)) ∧
  (∀ (s : State) (k b : Nat), s.cell? k = none → s.openPhase k b = s) ∧
  (∀ (s : State) (k b : Nat) (c : CellSt), s.cell? k = some c →
    let x := c.barrier b
    let part := if b = 8 then c.all else x.captured
    let full := x.arrived ≠ 0 ∧ ∀ j, part.getLsbD j = true → x.arrived.getLsbD j = true ∨ c.exited.getLsbD j = true
    let t := s.openPhase k b
    (¬full → t = s) ∧
    let opens (g : Group) (bs : Assoc BarRec) : Prop := ∀ j, aget bs j = (aget g.bars j).map fun r =>
      if g.cell = k ∧ j = b ∧ r.phase = x.phase then { r with rels := x.rels } else r
    (full → { t with groups := s.groups, cells := s.cells, saved := s.saved } = s ∧ (∀ j, j ≠ k → t.cell? j = s.cell? j) ∧
      (∃ c', t.cell? k = some c' ∧ { c' with barriers := c.barriers } = c ∧
        ∀ j, c'.barrier j = if j = b then { x with phase := x.phase + 1, arrived := 0, rels := [] } else c.barrier j) ∧
      let ws := (s.cellUnits k).eraseDups.filter fun u => match s.group? u with
        | some g => g.wait == .barrier b none && (aget g.bars b).map (·.phase) == some x.phase
        | none => false
      let core := c.core.getD 0
      let w := s.reg (.slope (core / 48) (core % 48 / 4))
      let wave := bits w 4 0 + 1
      (∀ u, s.group? u = none → t.group? u = none) ∧
      (∀ u g, u ∉ ws → s.group? u = some g → ∃ g', t.group? u = some g' ∧ { g' with bars := g.bars } = g ∧ opens g g'.bars) ∧
      ∀ i u g, ws[i]? = some u → s.group? u = some g →
        (i < wave → ∃ g', t.group? u = some g' ∧ g.SameRegs g' ∧ g'.wait = .no ∧ g'.pc = g.advance.pc ∧
          g'.clause = g.advance.clause ∧ (∀ j, aget g'.bars j = if j = b then none else aget g.bars j) ∧
          (g.cell = k → ∀ r ∈ x.rels, g'.Took (if b = 8 then 3 else 2) (g.party u) r)) ∧
        (wave ≤ i → ∃ g', t.group? u = some g' ∧ { g' with wait := g.wait, bars := g.bars } = g ∧ opens g g'.bars ∧
          g'.wait = .barrier b (some (s.cycles core + i / wave * bits w 15 8))))) ∧
  (∀ (cell b : Nat) (s : State), ∃ t, exec (.barrierWaveRelease cell b) s = .next t ∧ { t with groups := s.groups } = s ∧
    ∀ u, (∀ g, s.group? u = some g →
        let due := u ∈ s.cellUnits cell ∧ ∃ n, g.wait = .barrier b (some n) ∧ n ≤ s.cycles (coreOf u)
        (due → ∃ g', t.group? u = some g' ∧ g.SameRegs g' ∧ g'.wait = .no ∧ g'.pc = g.advance.pc ∧
          g'.clause = g.advance.clause ∧ ∀ j, aget g'.bars j = if j = b then none else aget g.bars j) ∧
        (¬due → t.group? u = some g)) ∧ (s.group? u = none → t.group? u = none)) ∧
  (∀ (h : Head) (uu k : Bool) (scope : BitVec 4) (mask : BitVec 5) (s : State) (u : Nat) (g : Group), s.Issues u g h →
    let core := coreOf u
    let clear := g.unacked = 0 ∧ ∀ p ∈ g.pend, isRead p.ins = false
    (∀ i ∈ [Instr.fence h uu scope, .pfence h mask scope, .acq h k scope],
      (g.active h = 0 → ∃ t g', Runs i s u g t g' ∧ g.SameRegs g')) ∧
    (g.active h = 0 → CommitsOnly (.rel h scope) s u g) ∧
    (g.active h ≠ 0 → ¬clear → exec (.fence h uu scope) s = .next s ∧ exec (.pfence h mask scope) s = .next s) ∧
    (g.active h ≠ 0 → clear →
      (∃ t g' r, exec (.fence h uu scope) s = .next t ∧ t.group? u = some g' ∧
        g.KeepsBut { g' with buf := g.buf } ∧ g.SameRegs g' ∧ g'.pc = g.advance.pc ∧ g'.clause = g.advance.clause ∧
        g'.buf = (if g.buf = [] then [] else g.buf ++ [.marker]) ∧ s.SameMem t ∧ (4 ≤ scope.toNat → (t.core core).l1 = []) ∧
        { t with groups := s.groups, draw := s.draw, cores := s.cores, fences := s.fences } = s ∧
        t.fences = s.fences ++ [r] ∧ g'.fences = g.fences ++ [r] ∧ g'.view = r.view ∧ (uu = true → g'.viewU = r.view) ∧
        Releases s u g scope.toNat uu r ∧ (∀ f ∈ s.fences, g'.Took scope.toNat (g.party u) f) ∧
        ∀ x ∈ g.heard, uu = true ∨ x.1 = false → g'.Took scope.toNat (g.party u) x.2) ∧
      ∃ t g', exec (.pfence h mask scope) s = .next t ∧ t.group? u = some g' ∧ g.KeepsBut g' ∧
        g.SameRegs g' ∧ g'.pc = g.advance.pc ∧ g'.clause = g.advance.clause ∧ s.SameMem t ∧
        { t with groups := s.groups, draw := s.draw, cores := s.cores } = s ∧
        (mask.getLsbD 0 = true → (t.core core).l1 = []) ∧ (mask.getLsbD 4 = true → (t.core core).icache = []) ∧
        (∀ x ∈ g.covers, x ∈ g'.covers) ∧
        ∀ o ∈ s.old, o.stamp ∈ (s.viewOf g false s.uid).known → mask.getLsbD o.author.path.idx = true →
          inScope scope.toNat (g.party u) o.author.who = true → ∀ y : Path, mask.getLsbD y.idx = true → y ≠ o.author.path →
          (y ≠ .k → (o.stamp, y) ∈ g'.covers) ∧ (y = .k → (o.stamp, y) ∈ g'.coversK)) ∧
    (g.active h ≠ 0 → (∃ p ∈ g.pend, isRead p.ins = true) → exec (.acq h k scope) s = .next s) ∧
    (g.active h ≠ 0 → (∀ p ∈ g.pend, isRead p.ins = false) → ∃ t g', exec (.acq h k scope) s = .next t ∧
      t.group? u = some g' ∧ g.KeepsBut g' ∧ g.SameRegs g' ∧ g'.pc = g.advance.pc ∧
      g'.clause = g.advance.clause ∧ s.SameMem t ∧ { t with groups := s.groups, draw := s.draw, cores := s.cores } = s ∧
      (4 ≤ scope.toNat → (t.core core).l1 = []) ∧ (k = true → (t.core core).kcache = [] ∧ ∀ x ∈ g.coversK, x ∈ g'.covers) ∧
      (∀ x ∈ g.heard, x.1 = false → g'.Took scope.toNat (g.party u) x.2) ∧
      ∀ x ∈ g.reads, x.u = false → x.key ∈ g'.view.read) ∧
    (g.active h ≠ 0 → let s1 := s.commit u g.clauseIdx false
      ∃ g1, s1.group? u = some g1 ∧
        ((∃ p ∈ g1.pend, isRead p.ins = true) ∨ g1.unacked ≠ 0 → exec (.rel h scope) s = .next (s1.sendMarkers u)) ∧
        ((∀ p ∈ g1.pend, isRead p.ins = false) → g1.unacked = 0 → ∃ t g' r, GoesOnE (.rel h scope) s s1 u g t g1 g' ∧
          s1.Around t u ∧ g1.KeepsBut { g' with region := g1.region } ∧ s.SameMem t ∧ g'.fences = g1.fences ++ [r] ∧
          g'.view = r.view ∧ g'.viewU = g1.viewU ∧ Releases s1 u g1 scope.toNat false r))) ∧
  (∀ (h : Head) (a : Src) (imm : BitVec 20) (s : State) (u : Nat) (g : Group), s.Issues u g h →
    let n : Int := (src32 s u g (lowest (g.active h)) a).toInt + imm.toInt
    (g.active h = 0 ∨ n ≤ 0 → ∃ t g', Runs (.sleep h a imm) s u g t g' ∧ g.SameRegs g') ∧
    (g.active h ≠ 0 → 0 < n → ∃ t, exec (.sleep h a imm) s = .next t ∧ s.Around t u ∧
      t.group? u = some { g with wait := .sleep (s.now + n.toNat) })) ∧
  (∀ u s, (∀ g, s.group? u = some g → ∀ n, g.wait ≠ .sleep n) → exec (.sleepExpire u) s = .next s) ∧
  ∀ (u : Nat) (s : State) (g : Group) (n : Nat), s.group? u = some g → g.wait = .sleep n →
    (s.now < n → exec (.sleepExpire u) s = .next s) ∧
    (n ≤ s.now → ∃ t g', exec (.sleepExpire u) s = .next t ∧ s.Around t u ∧ t.group? u = some g' ∧
      g.Keeps { g' with wait := g.wait } ∧ g.SameRegs g' ∧ g'.wait = .no ∧ g'.pc = g.advance.pc ∧ g'.clause = g.advance.clause)

/-! ### Matrix, family 0xC -/

/-- GANG, RSV and RSVREL (12 R283 to R290): the cell's gang registers and handles, the check of a reservation record whatever
the guard, and the stall while a handle is in use. -/
def Obligations.GangsAndReservations : Prop :=
  ∀ (h : Head) (s : State) (u : Nat) (g : Group) (c : CellSt), s.Issues u g h → s.cell? g.cell = some c →
    let act := g.active h
    let only (t : State) (c' : CellSt) : Prop := t.cell? g.cell = some c' ∧ ∀ j, j ≠ g.cell → t.cell? j = s.cell? j
    (∀ (k : BitVec 3) (a : Src),
      (act = 0 → ∃ t g', Runs (.gang h k a) s u g t g' ∧ g.SameRegs g') ∧
      (act ≠ 0 → ∃ t g' c', RunsVia (.gang h k a) s { s with cells := t.cells } u g t g' ∧ g.SameRegs g' ∧ only t c' ∧
        { c' with gangs := c.gangs } = c ∧
        ∀ j, c'.gang j = if j = k.toNat then src32 s u g (lowest act) a else c.gang j)) ∧
    (∀ (k : BitVec 4) (n : BitVec 7),
      let r : BitVec 128 := g.sread s.draw (n.toNat + 3) ++ g.sread s.draw (n.toNat + 2) ++ g.sread s.draw (n.toNat + 1) ++
        g.sread s.draw n.toNat
      let ok := resOk r (64 * c.obuf * c.ngroup) = true
      (¬ok → exec (.rsv h k n) s = .next (s.trapAt u causeRecord 0 act)) ∧
      (ok → act = 0 → ∃ t g', Runs (.rsv h k n) s u g t g' ∧ g.SameRegs g') ∧
      (ok → act ≠ 0 → s.inUse g.cell k.toNat = true → exec (.rsv h k n) s = .next s) ∧
      (ok → act ≠ 0 → s.inUse g.cell k.toNat = false → ∃ t g' c',
        RunsVia (.rsv h k n) s { s with cells := t.cells } u g t g' ∧ g.SameRegs g' ∧ only t c' ∧
        { c' with handles := c.handles } = c ∧ ∀ j, aget c'.handles j = if j = k.toNat then some r else aget c.handles j)) ∧
    (∀ k : BitVec 4,
      (act = 0 → ∃ t g', Runs (.rsvrel h k) s u g t g' ∧ g.SameRegs g') ∧
      (act ≠ 0 → s.inUse g.cell k.toNat = true → exec (.rsvrel h k) s = .next s) ∧
      (act ≠ 0 → s.inUse g.cell k.toNat = false → ∃ t g' c',
        RunsVia (.rsvrel h k) s { s with cells := t.cells } u g t g' ∧ g.SameRegs g' ∧ only t c' ∧
        { c' with handles := c.handles } = c ∧ ∀ j, aget c'.handles j = if j = k.toNat then none else aget c.handles j)) ∧
    (∀ r share, resOk r share = true → 1 ≤ resFmt r ∧ resFmt r ≤ 10 ∧ resOff r + resLen r ≤ share ∧ resLen r ≠ 0 ∧
      resRows r * resKrow r * 4 * fmtBits (resFmt r) ≤ 16 * resLen r ∧
      (fmtScale (resFmt r) = 0 → resScoff r = 0 ∧ resE2off r = 0) ∧
      (fmtScale (resFmt r) ≠ 0 → resRows r * resKrow r * 4 * fmtBits (resFmt r) ≤ 16 * resScoff r)) ∧
    ∀ k : Nat, s.inUse g.cell k = true ↔
      (∃ x ∈ s.cores, ∃ o ∈ x.2.ops, o.cell = g.cell ∧
        ((∃ m ∈ o.members, m.x.ha.toNat = k) ∨ (o.x.bus = false ∧ o.x.hb.toNat = k))) ∨
      (∃ l ∈ c.rdv, ∃ m ∈ l.2.members, m.x.ha.toNat = k ∨ (m.x.bus = false ∧ m.x.hb.toNat = k)) ∨
      (∃ x ∈ s.cores, ∃ b ∈ x.2.steps, b.cell = g.cell ∧ b.hb.toNat = k) ∨
      (∃ q ∈ s.copies, ∃ o, q.img = .ob g.cell k o) ∨ (∃ q ∈ s.copyms, q.cell = g.cell ∧ q.k.toNat = k) ∨
      (∃ o ∈ s.copymOps, ∃ q ∈ o.members, q.cell = g.cell ∧ q.k.toNat = k) ∨
      ∃ x ∈ s.groups, x.2.cell = g.cell ∧ ∃ p ∈ x.2.pend, ∃ hd j v a o sc, p.ins = .obld hd j v a o sc ∧ j.toNat = k

/-- Accumulators and the operand buffer (12 R284, R298, R304 to R306): ACCRD, ACCWR and ACCZ with their checks and what each
leaves, OBLD and OBST with the bytes that they move between memory and the cell's share. -/
def Obligations.AccumulatorsAndBuffers : Prop :=
  (∀ (h : Head) (form : BitVec 2) (raw : Bool) (d : BitVec 9) (r c x : Src) (t4 : BitVec 4) (s : State) (u : Nat) (g : Group),
    s.Issues u g h →
    let act := g.active h
    let lanes := lanesList act
    let idx (L : Nat) : Option Nat :=
      if (src32 s u g L r).toNat ≤ 31 ∧ (src32 s u g L c).toNat ≤ 127 then
        some (4096 * t4.toNat + 128 * (src32 s u g L r).toNat + (src32 s u g L c).toNat) else none
    let busy := (∃ o ∈ (s.core (coreOf u)).ops, o.id < s.uid ∧ ∃ m ∈ o.members, m.uid = g.uid ∧ m.x.acc.toNat = t4.toNat) ∨
      ∃ p ∈ g.pend, ∃ hd f dd a b, p.ins = .accrd hd f dd a b t4 ∧ p.lanes ≠ []
    (g.acct ≤ t4.toNat → ∀ i ∈ [Instr.accrd h form d r c t4, .accwr h raw t4 r c x, .accz h t4],
      exec i s = .next (s.trapAt u causeTile 0 act)) ∧
    (t4.toNat < g.acct →
      (act = 0 → ∀ i ∈ [Instr.accrd h form d r c t4, .accwr h raw t4 r c x, .accz h t4],
        ∃ t g', Runs i s u g t g' ∧ g.SameRegs g') ∧
      (act ≠ 0 → (∃ L ∈ lanes, idx L = none) → exec (.accrd h form d r c t4) s = .next (s.trapAt u causeAccIndex 0 act) ∧
        exec (.accwr h raw t4 r c x) s = .next (s.trapAt u causeAccIndex 0 act)) ∧
      (act ≠ 0 → g.isEngine = false → g.wait = .no → (∀ L ∈ lanes, idx L ≠ none) → ∃ t ls,
        Posts (.accrd h form d r c t4) h s { s with uid := t.uid } u g ls 0 t ∧
        List.Forall₂ (fun L (q : LaneReq) => q.lane = L ∧ some q.aux.toNat = idx L ∧ q.st = .ready) lanes ls) ∧
      (act ≠ 0 → (∀ L ∈ lanes, idx L ≠ none) → busy → exec (.accwr h raw t4 r c x) s = .next s) ∧
      (act ≠ 0 → busy → exec (.accz h t4) s = .next s) ∧
      (act ≠ 0 → ¬busy →
        let s1 := s.commit u g.clauseIdx false
        let does (i : Instr) (cell : Nat → Option Acc56) : Prop := ∃ t g1 g', GoesOnE i s s1 u g t g1 g' ∧ s1.Around t u ∧
          s.SameMem t ∧ g'.flags = g1.flags ∧ g'.pend = g1.pend ∧
          ∀ k, g'.accCell k = (cell k).getD (g.accCell k) ∧
            g'.accBad k = ((cell k).isNone && g.accBad k)
        ((∀ L ∈ lanes, idx L ≠ none) → does (.accwr h raw t4 r c x) (accWritten idx (fun L =>
          if raw = true then (src64 s u g L x).setWidth 56
          else BitVec.ofNat 56 (roundTo acc56 .rne (fp32.decode (src32 s u g L x).toNat)).1) lanes)) ∧
        does (.accz h t4) fun k => if k / 4096 = t4.toNat then some 0 else none))) ∧
  (∀ (h : Head) (form : BitVec 2) (d : BitVec 9) (r c : Src) (t4 : BitVec 4) (s : State) (u : Nat) (g : Group) (p : Pend)
    (l : LaneReq), s.group? u = some g → (∀ n, g.wait ≠ .drain n) → g.pend.find? (fun q => q.tok == p.tok) = some p →
    p.lanes = [l] → l.lane < 64 → l.st = .ready → p.left = 0 → p.writes = [] → p.poison = none → p.ins = .accrd h form d r c t4 →
    l.pieces = [] → s.laneClear u g p l = true →
    (∀ o ∈ (s.core (coreOf u)).ops, o.id < p.tok → ∀ m ∈ o.members, ¬(m.uid = g.uid ∧ m.x.acc.toNat = t4.toNat)) →
    g.accBad l.aux.toNat = false →
    let x := g.accCell l.aux.toNat
    let v := acc56.decode x.toNat
    let words : List Word := if form = 0 then [BitVec.ofNat 32 (fpResult fp32 .rne true false v).1]
      else if form = 1 then [BitVec.ofNat 32 (fpResult bf16 .rne true false v).1]
      else [x.setWidth 32, (x >>> 32).setWidth 32]
    ∃ t g', exec (.resultLands u p.tok) s = .next t ∧ t.group? u = some g' ∧ s.SameMem t ∧ g'.acc = g.acc ∧
      g'.sregs = g.sregs ∧ (∀ n, g'.flag n = if p.flag = some n then g.flag n - 1 else g.flag n) ∧
      ∀ n L, L < 64 → g'.vreg n L =
        if p.nwb = false ∧ L = l.lane ∧ d.toNat ≤ n ∧ n < d.toNat + words.length then words.getD (n - d.toNat) 0
        else g.vreg n L) ∧
  (∀ (h : Head) (k : BitVec 4) (x : BitVec 9) (addr : Src) (off : BitVec 14) (scope : BitVec 4) (s : State) (u : Nat)
    (g : Group) (c : CellSt), s.Issues u g h → s.cell? g.cell = some c →
    let act := g.active h
    (aget c.handles k.toNat = none → exec (.obld h k x addr off scope) s = .next (s.trapAt u causeHandle 0 act) ∧
      exec (.obst h k x addr off) s = .next (s.trapAt u causeHandle 0 act)) ∧
    ∀ r, aget c.handles k.toNat = some r →
      let o (L : Nat) : Nat := (g.vread s.draw x.toNat L).toNat
      let lane (acc L : Nat) : Lane :=
        let ea := src64 s u g L addr + off.signExtend 64
        let early := if o L % 16 ≠ 0 then some (causeAlign, BitVec.ofNat 64 (o L))
          else if 16 * resLen r < o L + 16 then some (causeObRange, 0) else none
        ⟨L, ea, BitVec.ofNat 128 (16 * resOff r + o L), s.chkVa g.ctx acc (s.groupPriv g) ea 16 16 early, true⟩
      let rd := (lanesList act).map (lane accLoad)
      let wr := (lanesList act).map (lane accStore)
      let val (L : Nat) : List Byte := (List.range 16).map fun i => c.byte (16 * resOff r + o L + i)
      (act = 0 → (∃ t g', Runs (.obld h k x addr off scope) s u g t g' ∧ g.SameRegs g') ∧
        ∃ t g', Runs (.obst h k x addr off) s u g t g' ∧ g.SameRegs g') ∧
      (act ≠ 0 → g.wait = .no → LoadCourse (.obld h k x addr off scope) h s s u g true (fun _ => .ready) rd) ∧
      (act ≠ 0 → ∀ n i, lowestTrap wr n i → exec (.obst h k x addr off) s = .next (s.trapAt u n i act)) ∧
      (act ≠ 0 → g.isEngine = false → firstTrap wr = none → faultsOf wr ≠ [] → ∃ t, exec (.obst h k x addr off) s = .next t ∧
        Aborted (if anyS wr = true then s.commit u g.clauseIdx false else s) t u (faultsOf wr)) ∧
      let n := (storeBlocks (storeBytes val wr)).length
      let bad (L : Nat) : Bool := c.poisoned (16 * resOff r + o L)
      (act ≠ 0 → g.isEngine = false → LanesClean wr →
        (Config.bufferEntries < bufUsed g.buf + n →
          ∃ t : State, exec (.obst h k x addr off) s = .next (t.trapAt u causeOverflow 0 act) ∧
            { t with tlb := s.tlb, objects := s.objects } = s) ∧
        (bufUsed g.buf + n ≤ Config.bufferEntries → ∃ t g' new, exec (.obst h k x addr off) s = .next t ∧
          State.Around { s with tlb := t.tlb, objects := t.objects } t u ∧ t.group? u = some g' ∧ g.SameRegs g' ∧
          g.Keeps { g' with buf := g.buf } ∧ g'.pc = g.advance.pc ∧ g'.clause = g.advance.clause ∧ g'.buf = g.buf ++ new ∧
          new.length = n ∧ (∀ y ∈ new, storeEntry false bad val wr y) ∧
          ∀ glob a, bufByte g'.buf glob a = (stored glob val wr a).or (bufByte g.buf glob a))) ∧
      (act ≠ 0 → g.isEngine = false → anyS wr = true → firstTrap wr = none → faultsOf wr = [] → ∃ t s1,
        s1 = State.commit { s with tlb := t.tlb, objects := t.objects } u g.clauseIdx false ∧
        PostsS (.obst h k x addr off) h s { s1 with uid := t.uid, packets := t.packets, globals := t.globals } u g s1.uid [] n
          t ∧ s.SameMem t ∧ sentOut t g s1.uid val wr)) ∧
  ∀ (h : Head) (k : BitVec 4) (x : BitVec 9) (addr : Src) (off : BitVec 14) (scope : BitVec 4) (s : State) (u : Nat) (g : Group)
    (c : CellSt) (p : Pend) (l : LaneReq) (pa : Nat) (kd : PageKind), s.group? u = some g → s.cell? g.cell = some c →
    (∀ n, g.wait ≠ .drain n) → g.pend.find? (fun q => q.tok == p.tok) = some p → p.lanes = [l] → l.st = .ready →
    p.left = 0 → p.writes = [] → p.poison = none → p.ins = .obld h k x addr off scope →
    l.pieces = [⟨pa, 16, false, kd⟩] → s.laneClear u g p l = true → s.laneInOrder u g p l = true →
    s.physOk pa 16 = true → pa + 16 ≤ 2 ^ 63 → s.old = [] → (s.core (coreOf u)).l1 = [] →
    (∀ i, i < 16 → inRegs (pa + i) = false ∧ s.poisoned (pa + i) = false) →
    ∃ t g' c', exec (.resultLands u p.tok) s = .next t ∧ t.group? u = some g' ∧ g.SameRegs g' ∧ s.SameMem t ∧
      (∀ n, g'.flag n = if p.flag = some n then g.flag n - 1 else g.flag n) ∧ t.cell? g.cell = some c' ∧
      ∀ i, c'.byte i = if l.aux.toNat ≤ i ∧ i < l.aux.toNat + 16 then
        ((l.own.find? fun y => y.1 == pa + (i - l.aux.toNat)).map (·.2)).getD (s.byte (pa + (i - l.aux.toNat))) else c.byte i

/-- MMA, MMAZ, the bus and the engine (12 R286, R291 to R303): the checks at issue whatever the guard, the arrival at a
rendezvous with its gang traps, the operation that starts with its last member, what it leaves in every member's tile, BUSPUB
and BUSSUB, and a step of B at its delivery. -/
def Obligations.MatrixEngine : Prop :=
  (∀ (h : Head) (x : BodyMma) (zero : Bool) (s : State) (u : Nat) (g : Group) (c : CellSt), s.Issues u g h →
    s.cell? g.cell = some c →
    let i : Instr := if zero = true then .mmaz h x else .mma h x
    let act := g.active h
    let ra := aget c.handles x.ha.toNat
    let rb := aget c.handles x.hb.toNat
    let traps (k : Nat) : Prop := exec i s = .next (s.trapAt u k 0 act)
    (ra = none ∨ (x.bus = false ∧ rb = none) → traps causeHandle) ∧
    ∀ a b, ra = some a → (x.bus = true ∨ rb = some b) →
      let fits := fitsIn a 32 x.ka ∧ (x.bus = false →
        fitsIn b (if x.n128 = true then 128 else 64) x.kb ∧ fmtClass (resFmt a) = fmtClass (resFmt b))
      (g.acct ≤ x.acc.toNat → traps causeTile) ∧
      (x.acc.toNat < g.acct → ¬fits → traps causeOperand) ∧
      (x.acc.toNat < g.acct → fits → act = 0 → ∃ t g', Runs i s u g t g' ∧ g.SameRegs g') ∧
      (x.acc.toNat < g.acct → fits → act ≠ 0 →
        let s1 := s.commit u g.clauseIdx false
        let v := c.gang x.gsel.toNat
        let named := ((List.range 32).filter fun j => v.getLsbD j).length
        let bad := v.getLsbD g.index = false ∨ named ≠ x.g.toNat
        let l := (aget c.rdv x.gsel.toNat).getD ⟨v, zero, x, []⟩
        let ms := l.members ++ [⟨u, g.uid, g.index, x, a, (flagOf h).map fun _ => s1.uid, g.clauseAddr, g.clauseIdx, act⟩]
        (bad → exec i s = .next (s1.trapAt u causeGang (v.setWidth 64) act).drawn) ∧
        (¬bad → ¬l.Agrees v zero x → exec i s = .next (((l.members.foldl (fun s m => s.rendezvousTrap m v)
          (s1.putCell g.cell { c with rdv := adel c.rdv x.gsel.toNat })).trapAt u causeGang (v.setWidth 64) act).drawn)) ∧
        (¬bad → l.Agrees v zero x → ms.length ≠ named → ∃ t g1 g' c', exec i s = .next t ∧ s1.group? u = some g1 ∧
          t.group? u = some g' ∧ State.Around { s1 with cells := t.cells, uid := t.uid } t u ∧ Raises i h s1 g g1 g' ∧
          g'.wait = .rendezvous x.gsel.toNat ∧ { g' with wait := g1.wait, flags := g1.flags, pend := g1.pend } = g1 ∧
          t.cell? g.cell = some c' ∧ (∀ j, j ≠ g.cell → t.cell? j = s.cell? j) ∧ { c' with rdv := c.rdv } = c ∧
          ∀ j, aget c'.rdv j = if j = x.gsel.toNat then some { l with members := ms } else aget c.rdv j) ∧
        (¬bad → l.Agrees v zero x → ms.length = named → (ms.map (·.unit)).Nodup → ∃ t g1 g' c' o,
          GoesOnE i s s1 u g t g1 g' ∧ Raises i h s1 g g1 g' ∧ g'.wait = .no ∧ s.SameMem t ∧
          g1.Keeps { g' with flags := g1.flags, pend := g1.pend, region := g1.region, wait := g1.wait } ∧
          { t with
            groups := s1.groups, cells := s1.cells, cores := s1.cores, uid := s1.uid, draw := s1.draw } = s1 ∧
          t.cell? g.cell = some c' ∧ (∀ j, j ≠ g.cell → t.cell? j = s.cell? j) ∧ { c' with rdv := c.rdv } = c ∧
          (∀ j, aget c'.rdv j = if j = x.gsel.toNat then none else aget c.rdv j) ∧
          (∀ j, t.core j = if j = coreOf u then { s1.core j with ops := (s1.core j).ops ++ [o] } else s1.core j) ∧
          o.cell = g.cell ∧ o.ctx = c.ctx ∧ o.value = v ∧ o.zero = zero ∧ o.x = l.x ∧ o.members.Perm ms ∧
          o.members.Pairwise (fun m n => m.gi ≤ n.gi) ∧ o.hb = (if x.bus = true then none else some b) ∧ o.step = none ∧
          (∀ j, (∀ m ∈ ms, m.unit ≠ j) → t.group? j = s.group? j) ∧
          ∀ m ∈ l.members, ∀ k, s.group? m.unit = some k → k.uid = m.uid → ∃ k', t.group? m.unit = some k' ∧
            k.SameRegs k' ∧ k'.wait = .no ∧ k'.pc = k.advance.pc ∧ k'.clause = k.advance.clause ∧
            k'.region = k'.nextRegion ∧ k'.flags = k.flags ∧ k'.pend = k.pend))) ∧
  (∀ (s : State) (m : Member) (v : BitVec 32) (g : Group), s.group? m.unit = some g → g.uid = m.uid →
    s.rendezvousTrap m v = State.takeTrap
      (s.putGroup m.unit ((m.tok.map fun t => g.dropTok t).getD g)) m.unit ⟨causeGang, m.addr, m.idx, v.setWidth 64, m.act⟩) ∧
  (∀ (h : Head) (hb : BitVec 4) (kb : BitVec 12) (mask : BitVec 4) (n128 : Bool) (s : State) (u : Nat) (g : Group)
    (c : CellSt), s.Issues u g h → s.cell? g.cell = some c →
    let i := Instr.buspub h hb kb mask n128
    let s1 := s.commit u g.clauseIdx false
    (aget c.handles hb.toNat = none → exec i s = .next (s.trapAt u causeHandle 0 (g.active h))) ∧
    ∀ r, aget c.handles hb.toNat = some r →
      let fits := fitsIn r (if n128 = true then 128 else 64) kb
      (¬fits → exec i s = .next (s.trapAt u causeOperand 0 (g.active h))) ∧
      (fits → g.active h = 0 → ∃ t g', Runs i s u g t g' ∧ g.SameRegs g') ∧
      (fits → g.active h ≠ 0 → 4 ≤ (s.core (coreOf u)).steps.length → exec i s = .next s) ∧
      (fits → g.active h ≠ 0 → (s.core (coreOf u)).steps.length < 4 → ∃ t g1 g', GoesOnE i s s1 u g t g1 g' ∧
        State.Around { s1 with cores := t.cores, uid := t.uid } t u ∧ s.SameMem t ∧ Raises i h s1 g g1 g' ∧
        g1.Keeps { g' with flags := g1.flags, pend := g1.pend, region := g1.region } ∧
        ∀ j, t.core j = if j = coreOf u then
          { s1.core j with
            steps := (s1.core j).steps ++
              [⟨s1.uid, g.cell, g.uid, (flagOf h).map fun _ => s1.uid, r, hb, kb, mask, n128, g.ctx⟩] } else s1.core j)) ∧
  (∀ (h : Head) (ch : BitVec 2) (n : BitVec 12) (s : State) (u : Nat) (g : Group), s.Issues u g h →
    let i := Instr.bussub h ch n
    let s1 := s.commit u g.clauseIdx false
    (g.active h = 0 → ∃ t g', Runs i s u g t g' ∧ g.SameRegs g') ∧
    (g.active h ≠ 0 → 4 ≤ (s.core (coreOf u)).bus.length → exec i s = .next s) ∧
    (g.active h ≠ 0 → (s.core (coreOf u)).bus.length < 4 → ∃ t g1 g', GoesOnE i s s1 u g t g1 g' ∧
      State.Around { s1 with cores := t.cores, uid := t.uid } t u ∧ s.SameMem t ∧ Raises i h s1 g g1 g' ∧
      g1.Keeps { g' with flags := g1.flags, pend := g1.pend, region := g1.region } ∧
      ∀ j, t.core j = if j = coreOf u then
        { s1.core j with
          bus := (s1.core j).bus ++ [⟨ch.toNat, n.toNat, g.uid, (flagOf h).map fun _ => s1.uid, g.ctx⟩] } else s1.core j)) ∧
  (∀ (k : Nat) (s : State), (s.core k).ops = [] → exec (.matrixOpComplete k) s = .next s) ∧
  (∀ (k : Nat) (s : State) (o : MatOp) (rest : List MatOp) (c : CellSt), (s.core k).ops = o :: rest →
    s.cell? o.cell = some c →
    (o.step = none → (o.x.bus = true ∨ o.hb = none) → exec (.matrixOpComplete k) s = .next s) ∧
    ∀ (rb : BitVec 128) (kbf : BitVec 12) (sh : Assoc Byte) (po : List Nat),
      ((∃ b, o.step = some b ∧ rb = b.record ∧ kbf = b.kb ∧ sh = o.bshare ∧ po = o.bpoison) ∨
        (o.step = none ∧ o.x.bus = false ∧ o.hb = some rb ∧ kbf = o.x.kb ∧ sh = c.share ∧ po = c.sharePoison)) →
      let reads := ∃ m ∈ o.members, ∃ q, s.group? m.unit = some q ∧ q.uid = m.uid ∧
        ∃ p ∈ q.pend, ∃ hd f d a b, p.ins = .accrd hd f d a b m.x.acc ∧ p.tok < o.id ∧ p.lanes ≠ []
      (reads → exec (.matrixOpComplete k) s = .next s) ∧
      (¬reads → (o.members.map (·.unit)).Nodup → ∃ t, exec (.matrixOpComplete k) s = .next t ∧
        { t with groups := s.groups, cores := s.cores } = s ∧
        (∀ j, t.core j = if j = k then { s.core j with ops := rest } else s.core j) ∧
        (∀ j, (∀ m ∈ o.members, m.unit ≠ j) → t.group? j = s.group? j) ∧
        ∀ m ∈ o.members, ∀ q, s.group? m.unit = some q → q.uid = m.uid → ∃ q', t.group? m.unit = some q' ∧
          { q' with acc := q.acc, accPoison := q.accPoison, pend := q.pend } = q ∧
          (∀ p, q.pend.find? (fun y => some y.tok == m.tok) = some p →
            q'.pend.find? (fun y => some y.tok == m.tok) = some { p with left := p.left - 1 }) ∧
          let A := operandOf m.record c.share c.sharePoison
          let B := operandOf rb sh po
          let nn := if m.x.n128 = true then 128 else 64
          let kk := classK (fmtClass (resFmt m.record))
          let gsz := if resFmt m.record ≤ 2 ∨ resFmt rb ≤ 2 then 8 else 32
          let ka := m.x.ka.toNat % 512 * kk
          let kb := kbf.toNat % 512 * kk
          1 ≤ resFmt m.record → 1 ≤ resFmt rb → ∀ y,
            let row := 32 * (m.x.ka.toNat / 512) + y / 128 % 32
            let col := nn * (kbf.toNat / 512) + y % 128
            let hit := y / 4096 = m.x.acc.toNat ∧ y % 128 < nn
            let skip := m.x.msk && !(agetD (BitVec.allOnes 256) c.masks (resMslot m.record)).getLsbD row
            (¬hit → q'.accCell y = q.accCell y ∧ q'.accBad y = q.accBad y) ∧
            (hit → q'.accCell y = tileResult o.zero skip A B row col ka kb kk gsz (q.accCell y) ∧
              (q'.accBad y = true ↔ (o.zero = false ∧ q.accBad y = true) ∨ (skip = false ∧ (A.rowBad row ka kk = true ∨
                ∃ j, j < nn ∧ B.rowBad (nn * (kbf.toNat / 512) + j) kb kk = true)))))) ∧
  (∀ (o : Operand) (row k : Nat), 1 ≤ resFmt o.r → resFmt o.r ≤ 10 →
    let b := (32 * resKrow o.r * row + k) * fmtBits (resFmt o.r)
    (∀ j, (o.code row k).testBit j = (decide (j < fmtBits (resFmt o.r)) && (o.byte ((b + j) / 8)).getLsbD ((b + j) % 8))) ∧
    ∀ n, k % 32 = 0 → (o.rowBad row k n = true ↔
      (∃ i, b / 8 ≤ i ∧ 8 * i < (32 * resKrow o.r * row + (k + n)) * fmtBits (resFmt o.r) ∧ o.bad i = true) ∨
      (fmtScale (resFmt o.r) ≠ 0 ∧ ∃ e, k ≤ e ∧ e < k + n ∧ (o.bad (scaleAt o.r row e false) = true ∨
        (9 ≤ resFmt o.r ∧ o.bad (scaleAt o.r row e true) = true))))) ∧
  (∀ (c ts : Nat) (sc : Bool → Nat),
    (∀ f ∈ [(1, fp16), (2, bf16)], elemValue f.1 c ts sc = f.2.decode c) ∧
    (∀ f ∈ [(3, e4m3), (4, e5m2)], (ts = 255 → elemValue f.1 c ts sc = .nan) ∧
      (ts ≠ 255 → (f.2.decode c).finite = true →
        (elemValue f.1 c ts sc).rat = (f.2.decode c).rat * 2 ^ ((ts : ℤ) - 127))) ∧
    ∀ f ∈ [(5, e4m3), (6, e3m2), (7, e2m1)], (sc false = 255 → elemValue f.1 c ts sc = .nan) ∧
      (sc false ≠ 255 → (f.2.decode c).finite = true →
        (elemValue f.1 c ts sc).rat = (f.2.decode c).rat * 2 ^ ((sc false : ℤ) - 127))) ∧
  ∀ (k : Nat) (s : State), ((s.core k).steps = [] → exec (.busStepDeliver k) s = .next s) ∧
    ∀ b rest, (s.core k).steps = b :: rest →
      let takers (j : Nat) : Prop := ∃ i, i < 4 ∧ b.mask.getLsbD i = true ∧ j = k / 4 * 4 + i
      let ready (j : Nat) : Prop := (∃ q r, (s.core j).bus = q :: r ∧ q.chan = k % 4) ∧
        ∃ o, (s.core j).ops.find? (fun o => o.x.bus) = some o ∧ o.step = none
      ((∃ j, takers j ∧ ¬ready j) → exec (.busStepDeliver k) s = .next s) ∧
      ((∀ j, takers j → ready j) →
        (∀ j, takers j → ∀ o, (s.core j).ops.find? (fun o => o.x.bus) = some o → (o.members.map (·.unit)).Nodup ∧
          ∀ m ∈ o.members, coreOf m.unit = j ∧ ∃ q, s.group? m.unit = some q ∧ q.uid = m.uid) →
        let others (y : Group) : Prop := ∀ j, takers j → ∀ q r, (s.core j).bus = q :: r → q.uid ≠ y.uid
        ∃ t, exec (.busStepDeliver k) s = .next t ∧ { t with groups := s.groups, cores := s.cores, saved := s.saved } = s ∧
          (∀ v y n p f, s.group? v = some y → y.uid = b.uid → b.tok = some n → y.pend.find? (fun z => z.tok == n) = some p →
            p.flag = some f → others y →
            (∀ j, takers j → ∀ o, (s.core j).ops.find? (fun o => o.x.bus) = some o → ∀ m ∈ o.members, m.unit ≠ v) →
            ∃ y', t.group? v = some y' ∧ y'.flag f = y.flag f - 1 ∧ y.SameRegs y') ∧
          (t.core k).steps = rest ∧ (∀ j, ¬takers j → j ≠ k → t.core j = s.core j) ∧
          ∀ j, takers j → ∀ q r o, (s.core j).bus = q :: r → (s.core j).ops.find? (fun o => o.x.bus) = some o →
            let same := o.x.n128 = b.n128 ∧ ∀ m ∈ o.members, fmtClass (resFmt m.record) = fmtClass (resFmt b.record)
            (t.core j).bus = (if q.count ≤ 1 then r else { q with count := q.count - 1 } :: r) ∧
            (same → ∃ o', (t.core j).ops = modifyFirst (fun y => y.id == o.id) (fun _ => o') (s.core j).ops ∧
              o'.step = some b ∧ { o' with step := o.step, bshare := o.bshare, bpoison := o.bpoison } = o ∧
              ∀ c, s.cell? b.cell = some c → ∀ a, 16 * resOff b.record ≤ a →
                a < 16 * resOff b.record + 16 * resLen b.record → agetD 0 o'.bshare a = c.byte a) ∧
            (¬same → (t.core j).ops = (s.core j).ops.filter (fun y => y.id != o.id) ∧
              ∀ m ∈ o.members, ∀ y, s.group? m.unit = some y → ∃ y', t.group? m.unit = some y' ∧
                y'.late = y.late.or (some ⟨causeBus, m.addr, m.idx, o.value.setWidth 64, m.act⟩) ∧ y.SameRegs y' ∧
                y'.acc = y.acc ∧ ∀ n p f, y.uid ≠ b.uid → others y → m.tok = some n → y.pend.find? (fun z => z.tok == n) = some p →
                  p.flag = some f → y'.flag f = y.flag f - 1))

/-! ### Clauses and children -/

/-- SPAWN, JOIN and the slots of a core (03 R65 to R68; 05 R136 to R138; 21 R397, R398), and clauses (04 R77, R98; 05 R115, R119
to R121): SPAWN's failure, the child in its slot and the child in the overflow ring, the landing of its result; JOIN's end, its wait,
and the save of the joiner; a slot filled by a joiner or a queued child; the fetch of a clause, which group the port starts and
what that leaves. -/
def Obligations.SpawnAndClauses : Prop :=
  (∀ (h : Head) (d : BitVec 7) (pe : BitVec 3) (a : Src) (ent : BitVec 8) (s : State) (u : Nat) (g : Group),
    s.Issues u g h → u < 12288 →
    let i := Instr.spawn h d pe a ent
    let s1 := (s.commit u g.clauseIdx false).settle (coreOf u)
    let base := src64 s u g (lowest (g.active h)) a
    let core := coreOf u
    let q := (s1.core core).spawn
    let stores := (s1.packets.filter fun p => p.unit == u && p.uid == g.uid).map (·.stamp) ++
      ((s1.globals.filterMap GlobPacket.packet).filter fun p => p.unit == u && p.uid == g.uid).map (·.stamp)
    let sec := s1.codeSection g
    (g.active h = 0 → CommitsOnly i s u g) ∧
    (g.active h ≠ 0 → g.nent ≤ ent.toNat → ∃ t, SpawnPosts i h d pe 0xFFFFFFFF false s s1 u g [] t) ∧
    ∀ en, g.active h ≠ 0 → ent.toNat < g.nent → s1.fresh.readEntry g.ctx (s1.fresh.groupPriv g) g.kimg ent.toNat = some en →
      let d' := demandOf en
      (entryOk en sec.2 = false → ∃ t, SpawnPosts i h d pe 0xFFFFFFFF false s s1 u g [] t) ∧
      (entryOk en sec.2 = true → ∀ slot, s1.freeSlot core = some slot → s1.fits core 1 d'.vr d'.acct d'.obuf = true →
        ∃ t k c, SpawnPosts i h d pe (BitVec.ofNat 32 q) true s s1 u g [⟨q, s1.uid, false⟩] t ∧ s1.SameMem t ∧
          t.group? (unitOf core slot) = some k ∧ k.uid = s1.uid ∧ k.ctx = g.ctx ∧
          k.Newborn g.uid base ent.toNat q en sec.1 g.args g.kimg stores k.view ∧ (∀ w ∈ g.view.known, w ∈ k.view.known) ∧
          (∀ w ∈ g.view.read, w ∈ k.view.read) ∧ (∀ w ∈ stores, w ∈ k.view.known) ∧
          (∀ o ∈ s1.old, o.author.who.uid = some g.uid → o.author.prog < s1.uid → o.stamp ∈ k.view.known) ∧
          t.cell? k.cell = some c ∧ c.core = some core ∧ c.ngroup = 1 ∧ c.handles = [] ∧ c.share = [] ∧
          (t.core core).spawn = (q + 1) % 65536 ∧
          ∀ j, j ≠ u → j ≠ unitOf core slot → t.group? j = s1.group? j) ∧
      (entryOk en sec.2 = true → ¬(∃ slot, s1.freeSlot core = some slot ∧ s1.fits core 1 d'.vr d'.acct d'.obuf = true) →
        ∀ l n kids, g.launch = some l → (aget (s1.core core).rings l).getD (0, []) = (n, kids) →
          let ovf := s1.overflow g
          (ovf.2 ≤ kids.length → ∃ t, SpawnPosts i h d pe 0xFFFFFFFF false s s1 u g [] t) ∧
          (kids.length < ovf.2 → ∃ e, n ≤ e ∧ (∀ c ∈ kids, c.entry % ovf.2 ≠ e % ovf.2) ∧
            (∀ m, n ≤ m → m < e → ∃ c ∈ kids, c.entry % ovf.2 = m % ovf.2) ∧ ∀ pa kd,
            s1.fresh.devRange g.ctx accStore (s1.fresh.groupPriv g) (BitVec.ofNat 64 (ovf.1 + 64 * (ovf.2 * core + e % ovf.2))) 64 =
              .ok [⟨pa, 64, false, kd⟩] →
            (∀ j, j < 64 → inRegs (pa + j) = false) →
            ∃ t, SpawnPosts i h d pe (BitVec.ofNat 32 q) true s s1 u g [⟨q, s1.uid, true⟩] t ∧
              (t.core core).spawn = (q + 1) % 65536 ∧
              aget (t.core core).rings l = some (e + 1, kids ++
                [⟨e, s1.uid, g.uid, unitSlot u, q, stores, g.cellNo, base, ent.toNat⟩]) ∧
              (∀ j, j ≠ u → t.group? j = s1.group? j) ∧
              ∀ x, t.byte x = if pa ≤ x ∧ x < pa + 64 then BitVec.ofNat 8 ((1 + 2 ^ 32 * unitSlot u + 2 ^ 38 * g.prio +
                2 ^ 40 * ent.toNat + 2 ^ 48 * q + 2 ^ 64 * base.toNat) / 2 ^ (8 * (x - pa))) else s1.byte x))) ∧
  (∀ (h : Head) (d : BitVec 7) (pe : BitVec 3) (a : Src) (ent : BitVec 8) (s : State) (u : Nat) (g : Group) (p : Pend)
    (r : Word) (ok : Bool), s.group? u = some g → (∀ n, g.wait ≠ .drain n) →
    g.pend.find? (fun q => q.tok == p.tok) = some p → p.ins = .spawn h d pe a ent → p.lanes = [] → p.left = 0 → p.poison = none →
    p.writes = [⟨.s d.toNat, r, false⟩, ⟨.p pe.toNat, if ok = true then 1 else 0, false⟩] →
    ∃ t g', exec (.resultLands u p.tok) s = .next t ∧ s.Around t u ∧ t.group? u = some g' ∧ g'.vregs = g.vregs ∧
      g'.lstat = g.lstat ∧ (∀ n, g'.sreg n = if n = d.toNat then r else g.sreg n) ∧
      (pe ≠ 7 → g'.pred pe = if ok = true then BitVec.allOnes 64 else 0) ∧ (∀ n, n ≠ pe → g'.pred n = g.pred n) ∧
      ∀ n, g'.flag n = if p.flag = some n then g.flag n - 1 else g.flag n) ∧
  (∀ (h : Head) (a b : Src) (s : State) (u : Nat) (g : Group), s.Issues u g h → g.isEngine = false →
    let i := Instr.join h a b
    let s1 := s.commit u g.clauseIdx false
    let q := (src32 s u g (lowest (g.active h)) a).toNat % 65536
    let n := (src32 s u g (lowest (g.active h)) b).toNat % 65536
    (g.active h = 0 → CommitsOnly i s u g) ∧
    (g.active h ≠ 0 → (∀ k ∈ g.kids, ¬joinNames q n k) → ∃ t g1 g', GoesOnE i s s1 u g t g1 g' ∧ g'.wait = .no ∧
      JoinTook u q n g g' ∧ (t.core (coreOf u)).l1 = [] ∧ g'.kids = g.kids ∧ s.SameMem t ∧ ∀ j, j ≠ u → t.group? j = s.group? j) ∧
    (g.active h ≠ 0 → (∃ k ∈ g.kids, joinNames q n k) → ∃ t g1, exec i s = .next (t.tryJoiner u) ∧ s1.group? u = some g1 ∧
      s1.Around t u ∧ t.group? u = some { g1 with wait := .join q n })) ∧
  (∀ (s : State) (u : Nat) (g : Group), s.group? u = some g →
    ((∀ q n, g.wait ≠ .join q n) → exec (.joinComplete u) s = .next s ∧ s.tryJoiner u = s) ∧
    (exec (.joinerSaveRetry u) s = .next (if aget s.joinTries g.uid = some false then s else s.tryJoiner u)) ∧
    ∀ q n, g.wait = .join q n →
      ((∃ k ∈ g.kids, joinNames q n k) → exec (.joinComplete u) s = .next s) ∧
      ((∀ k ∈ g.kids, ¬joinNames q n k) → ∃ t g', exec (.joinComplete u) s = .next t ∧ t.group? u = some g' ∧
        s.SameMem t ∧ (∀ j, j ≠ u → t.group? j = s.group? j) ∧ g.SameRegs g' ∧ g'.wait = .no ∧ g'.pc = g.advance.pc ∧
        JoinTook u q n g g' ∧ g'.clause = g.advance.clause ∧ g'.region = g'.nextRegion ∧ (t.core (coreOf u)).l1 = [] ∧
        t.joinTries = adel s.joinTries g.uid) ∧
      let due := (∃ k ∈ g.kids, joinNames q n k ∧ k.queued = true) ∧ g.mayLeave = true ∧ s.engineIdle u g = true
      let refused := s.freeSave g.ctx = none ∨ s.slotsz g.ctx < imageKiB [g]
      let told := s.logCtx g.ctx (srcUnit u) 0x0D (g.ctx + 2 ^ 8 * 3 + 2 ^ 16 * imageKiB [g] + 2 ^ 48 * unitDie u +
        2 ^ 51 * unitCore u + 2 ^ 57 * unitSlot u)
      (¬due → s.tryJoiner u = s) ∧
      (due → refused → aget s.joinTries g.uid = none → s.tryJoiner u = { told with joinTries := aput told.joinTries g.uid false }) ∧
      (due → refused → aget s.joinTries g.uid ≠ none →
        s.tryJoiner u = { s with joinTries := aput s.joinTries g.uid false }) ∧
      ∀ k, due → s.freeSave g.ctx = some k → imageKiB [g] ≤ s.slotsz g.ctx → ∃ (t : State) (m : Group) (c : CellSt),
        s.tryJoiner u = (t.fillRings (coreOf u) (unitSlot u) (t.ringKeys (coreOf u))).1 ∧ t.group? u = none ∧
        (∀ j, j ≠ u → t.group? j = s.group? j) ∧ t.joinTries = adel s.joinTries g.uid ∧
        t.saved = s.saved ++ [⟨s.uid, g.ctx, k, coreOf u, none, [⟨m, unitSlot u⟩], some s.now, none, (s.core (coreOf u)).spawn⟩] ∧
        m.wait = .join q n ∧ g.SameRegs m ∧ m.pc = g.region.pcs ∧ m.region = g.region ∧ m.kids = g.kids ∧ m.buf = [] ∧
        m.clause = none ∧
        ∀ c0, s.cell? g.cell = some c0 → t.cell? g.cell = some c ∧ { c with core := c0.core } = c0 ∧
          c.core = if ∃ x ∈ t.groups, x.2.cell = g.cell then c0.core else none) ∧
  (∀ (core : Nat) (s : State),
    (s.coreUp core = false ∨ s.freeSlot core = none → exec (.slotFill core) s = .next s.drawn) ∧
    (exec (.slotFill core) s = .next (s.fillOne core).1.drawn ∧
      s.settle core = ((List.range 32).foldl (fun (x : State × Bool) _ => if x.2 = true then x.1.fillOne core else x) (s, true)).1) ∧
    (∀ slot, s.coreUp core = true → s.freeSlot core = some slot → s.nextJoiner core = none →
      exec (.slotFill core) s = .next (s.fillRings core slot (s.ringKeys core)).1.drawn) ∧
    (∀ slot i m sl, s.coreUp core = true → s.freeSlot core = some slot → s.nextJoiner core = some i → i.groups = [⟨m, sl⟩] →
      i.cell = none →
      ∃ t g', exec (.slotFill core) s = .next t ∧ t.group? (unitOf core slot) = some g' ∧ s.FromImage i (imageHead [m]) m g' ∧
        g'.wait = .no ∧ (t.core core).l1 = [] ∧ (∀ x ∈ t.saved, x.id ≠ i.id) ∧
        ∀ c, t.cell? m.cell = some c → c.core = some core) ∧
    (∀ slot k n c kids more l ws en, (s.core core).rings = (k, (n, c :: kids)) :: more →
      aget s.launches k = some l → (∀ x ∈ kids, x.uid ≠ c.uid) →
      s.readWords l.ctx (s.ctxSup l.ctx) (ringAddr l.overflow core c.entry) 8 = some ws → field ws 0 0 = 1 →
      field ws 47 40 < l.nent → s.readEntry l.ctx (s.ctxSup l.ctx) (recKimg l.words) (field ws 47 40) = some en →
      entryOk en l.codeSz = true → s.fits core 1 (field en 40 32) (field en 52 48) (field en 79 64) = true →
      ∀ pa kd, s.devRange l.ctx accStore (s.ctxSup l.ctx) (ringAddr l.overflow core c.entry) 8 = .ok [⟨pa, 8, false, kd⟩] →
      (∀ j, j < 8 → inRegs (pa + j) = false) →
      ∃ t g', s.fillRings core slot (s.ringKeys core) = (t, true) ∧ t.group? (unitOf core slot) = some g' ∧ g'.uid = c.uid ∧
        g'.Newborn c.parent (BitVec.ofNat 64 (field ws 127 64)) (field ws 47 40) (field ws 63 48) en l.codeBase
          (BitVec.ofNat 64 (field l.words 247 192)) (recKimg l.words) c.stores (s.jobView (c.uid + 1)) ∧
        g'.prio = field ws 39 38 ∧ aget (t.core core).rings k = some (n, kids) ∧
        (∀ x, t.byte x = if x = pa then s.byte x &&& 0xFE else s.byte x) ∧
        ∀ j p, j ≠ unitOf core slot → s.group? j = some p → ∃ p', t.group? j = some p' ∧ { p' with kids := p.kids } = p ∧
          p'.kids = p.kids.map fun x => if x.uid = c.uid then { x with queued := false } else x)) ∧
  (∀ (u : Nat) (s : State),
    (s.group? u = none → exec (.clauseFetch u) s = .next s ∧ exec (.groupUrgent u) s = .next s) ∧
    ∀ g, s.group? u = some g →
      (g.headAddr = none ∨ g.mayFetch = false ∨ s.unitUp u = false → exec (.clauseFetch u) s = .next s) ∧
      (∀ a, g.headAddr = some a → g.mayFetch = true → s.unitUp u = true →
        ∀ (st : Nat → State) (bs : Nat → List Byte), st 0 = s →
          let word (j : Nat) : Dword := BitVec.ofNat 64 (leNat (bs j))
          let hdr := word 0
          let n := 2 + hdrCount hdr + hdrLit hdr
          let at' (k : Nat) : Dword := a + BitVec.ofNat 64 (8 * k)
          let read (k : Nat) : Prop := ∀ j, j < k → (st j).fetchBytes u g (at' j) 8 = .bytes (st (j + 1)) (bs j)
          let words := (List.range (hdrCount hdr + 1)).map fun j => word (j + 1)
          (∀ k, (k = 0 ∨ k < n) → read k → (st k).fetchBytes u g (at' k) 8 = .trap → exec (.clauseFetch u) s =
            .next ((st (min k 1)).takeTrap u ⟨causeFetch, a, (k + 15) % 16, at' k, g.headRun⟩).drawn) ∧
          (∀ k t1 g1 reqs, (k = 0 ∨ k < n) → read k → (st k).fetchBytes u g (at' k) 8 = .wait t1 reqs →
            t1.group? u = some g1 → g1.uid = g.uid →
            ∃ t, exec (.clauseFetch u) s = .next t ∧ t1.Around t u ∧ t.group? u = some { g1 with wait := .fault reqs }) ∧
          (read n → ∀ e, clauseError g.isEngine ((st n).groupPriv g) g.vr g.sr hdr words = some e →
            exec (.clauseFetch u) s = .next ((st n).takeTrap u ⟨e.cause, a, e.idx, 0, g.headRun⟩).drawn) ∧
          (read n → clauseError g.isEngine ((st n).groupPriv g) g.vr g.sr hdr words = none →
            ∀ g1, (st n).group? u = some g1 → g1.uid = g.uid → ∃ t, exec (.clauseFetch u) s = .next t ∧ (st n).Around t u ∧
            t.group? u = some { g1 with
              clause := some ⟨a, hdr, words, (List.range (hdrLit hdr)).map fun j => word (hdrCount hdr + 2 + j), false, 0,
                false⟩ })) ∧
      (s.ready g = true ↔ (∃ c, g.clause = some c ∧ c.started = false ∧
          ∀ n, n < 12 → c.hdr.getLsbD (40 + n) = true → g.flag n = 0) ∧ g.taking = none ∧ g.late = none ∧
        (g.wait = .no ∨ ∃ l, g.wait = .stores l ∧ ∀ k ∈ l, (∀ p ∈ s.packets, p.stamp ≠ k) ∧ ∀ x ∈ s.globals, x.id ≠ k)) ∧
      let urgent := g.urgent = true ∨ ∃ n, g.readyAt = some n ∧ n + 128 ≤ s.cycles (coreOf u)
      (s.ready g = true → urgent → ∃ t, exec (.groupUrgent u) s = .next t ∧ s.Around t u ∧
        t.group? u = some { g with urgent := true }) ∧
      (¬(s.ready g = true ∧ urgent) → exec (.groupUrgent u) s = .next s)) ∧
  (∀ (s : State) (u : Nat) (g : Group) (a : Dword) (n pa : Nat) (k : PageKind), g.isEngine = false →
    s.chkFetch g a n = .ok [⟨pa, n, false, k⟩] → (s.core (coreOf u)).icache = [] → s.old = [] →
    (∀ i, i < n → inRegs (pa + i) = false ∧ s.poisoned (pa + i) = false) →
    ∃ t, s.fetchBytes u g a n = .bytes t (s.bytes pa n) ∧ s.SameMem t ∧ t.groups = s.groups) ∧
  ∀ (port : Nat) (s : State),
    let live := s.held port = false ∧ s.coreUp port = true
    (port < 384 → (¬live ∨ ∀ x ∈ s.coreGroups port, s.ready x.2 = false) → exec (.clauseStart port) s = .next s) ∧
    (∀ u g, s.chosen port = some (u, g) → (∀ x ∈ s.coreGroups port, x.2.stamp < 2 ^ 64) →
      (u, g) ∈ s.coreGroups port ∧ s.ready g = true ∧ ∀ x ∈ s.coreGroups port, s.ready x.2 = true →
        let now := s.cycles port
        (g.isUrgent now = false → x.2.isUrgent now = false ∧ (g.prio < x.2.prio ∨ (g.prio = x.2.prio ∧ g.stamp ≤ x.2.stamp))) ∧
        (g.isUrgent now = true → x.2.isUrgent now = true → g.readyAt.getD now ≤ x.2.readyAt.getD now)) ∧
    ∀ u g c, (port < 384 ∧ live ∧ s.chosen port = some (u, g)) ∨
        (384 ≤ port ∧ u = engineUnit (port - 384) ∧ s.group? u = some g ∧ s.ready g = true) →
      g.clause = some c →
      let r := g.resume.getD (0, false)
      let s1 := s.putGroup u { g with
        clause := some { c with started := true, next := r.1, half := r.2 }, resume := none, wait := .no, readyAt := none
        urgent := false, latch := [], latchOk := 0 }
      exec (.clauseStart port) s =
        .next (if c.hdr.getLsbD 53 = true ∧ g.resume = none then s1.commit u 0 false else s1)

/-! ### The dispatcher -/

/-- The dispatcher (02 R35 to R43; 03 R54 to R63, R70 to R76; 24 R424): a list's publish word, pushed or polled, the consumption of
its record and the launch that it becomes; dependences, conditions and retirement with the additions to COMPCTR; and the deal of a
cell to the first core in turn that has room, with the WIDs of its groups. -/
def Obligations.Dispatcher : Prop :=
  (∀ (p n : Nat) (s : State),
    let x := s.listSt p n
    let head := bits (s.reg (.llctl p n)) 63 32
    let slot := (s.reg (.llbase p n)).toNat + 64 * (head % 2 ^ bits (s.reg (.llctl p n)) 5 1)
    let full := Config.pendingSet ≤ (s.launches.filter fun l => l.2.part == p && l.2.st != .running).length
    let ctx := bits (s.reg (.llcx p n)) 7 0
    let me := agent (srcDispatcher p)
    let word? := s.wordPa ctx (BitVec.ofNat 64 (slot + 56))
    (s.listOn p n = true ↔ s.partOpen p = true ∧ (s.reg (.llctl p n)).getLsbD 0 = true ∧
      (s.reg (.ctxstat ctx)).getLsbD 0 = false) ∧
    (s.listOn p n = false → exec (.publishObserved p n) s = .next s ∧ exec (.publishPoll p n) s = .next s ∧
      exec (.publishTranslationRetry p n) s = .next s) ∧
    (s.listOn p n = true →
      (∀ pre y post, s.pushes = pre ++ y :: post → (∀ z ∈ pre, z.who ≠ .publish p n) → y.who = .publish p n →
        let s' := { s with pushes := pre ++ post }
        let v := leNat ((y.data.drop 8).take 8)
        (v ≠ head + 1 → exec (.publishObserved p n) s = .next s') ∧
        (v = head + 1 → full ∨ s.higherWaits p n = true → exec (.publishObserved p n) s = .next s) ∧
        (v = head + 1 → ¬full → s.higherWaits p n = false → ∃ view,
          exec (.publishObserved p n) s = .next (s'.consume p n view) ∧
          ∀ r ∈ s.relsSeen y.wrote (word?.getD 0), view.Took 8 me r)) ∧
      ((∀ z ∈ s.pushes, z.who ≠ .publish p n) →
        (s.watching (.publish p n) = true ∨ x.poll = true ∨ x.faulted = true → exec (.publishObserved p n) s = .next s) ∧
        (s.watching (.publish p n) = false → x.poll = false → x.faulted = false →
          exec (.publishObserved p n) s = .next (s.watchList p n))) ∧
      exec (.publishTranslationRetry p n) s = .next (if x.faulted = true then s.watchList p n else s) ∧
      (x.poll = false → exec (.publishPoll p n) s = .next s) ∧
      (x.poll = true → ((s.watchList p n).listSt p n).poll = false →
        exec (.publishPoll p n) s = .next (s.watchList p n)) ∧
      (x.poll = true → ((s.watchList p n).listSt p n).poll = true → ∀ pa, word? = some pa →
        let v := (s.homeWord pa).toNat
        let s' := s.touchVa ctx (s.ctxSup ctx) (BitVec.ofNat 64 (slot + 56)) 8
        (v ≠ head + 1 ∨ full ∨ s.higherWaits p n = true → exec (.publishPoll p n) s = .next s') ∧
        (v = head + 1 → ¬full → s.higherWaits p n = false → ∃ view,
          exec (.publishPoll p n) s = .next (s'.consume p n view) ∧ ∀ r ∈ s.newestRels pa, view.Took 8 me r))) ∧
    (s.higherWaits p n = true ↔ ∃ m, m < n ∧ s.listOn p m = true ∧
      ((∃ y ∈ s.pushes, y.who = .publish p m ∧
        leNat ((y.data.drop 8).take 8) = bits (s.reg (.llctl p m)) 63 32 + 1) ∨
      ((s.listSt p m).poll = true ∧ ∃ pa, s.wordPa (bits (s.reg (.llcx p m)) 7 0) (BitVec.ofNat 64
          ((s.reg (.llbase p m)).toNat + 64 * (bits (s.reg (.llctl p m)) 63 32 % 2 ^ bits (s.reg (.llctl p m)) 5 1) + 56)) =
            some pa ∧
        (s.homeWord pa).toNat = bits (s.reg (.llctl p m)) 63 32 + 1))) ∧
    (word? = none → s.watchList p n =
      if x.faulted = true then s else (s.launchError p (slot + 56) 14).putList p n ⟨x.noMirror, true, false⟩) ∧
    (∀ pa, word? = some pa →
      (∀ t, s.addWatch (.publish p n) ctx pa = some t →
        s.watchList p n = t.putList p n ⟨x.noMirror, false, false⟩) ∧
      (s.addWatch (.publish p n) ctx pa = none →
        s.watchList p n = s.putList p n ⟨x.noMirror, false, true⟩)) ∧
    ∀ ws sd hd en view, s.ctxEn ctx = true → s.ctxFn ctx = s.partFn p →
      s.readWords ctx (s.ctxSup ctx) (BitVec.ofNat 64 slot) 8 = some ws → s.readSide ctx ws = some sd →
      s.readImageHead ctx ws = some (hd, en) →
      let s0 := s.touchVa ctx (s.ctxSup ctx) (BitVec.ofNat 64 slot) 64
      let s1 := (s0.touchVa ctx (s.ctxSup ctx) (BitVec.ofNat 64 (recXaddr ws)) 128).touchVa ctx (s.ctxSup ctx) (recKimg ws) 64
      (∀ k, recordCheck ws sd hd en = some k →
        s.takeRecord p n head slot view = (s0.launchError p slot k).addCompctr p ctx slot ws view 1) ∧
      (recordCheck ws sd hd en = none → s.reg (.llhm p n) = 0 → ∃ l : Launch,
        s.consume p n view = State.watchList (State.dropWatch (State.setReg { s1 with
            uid := s.uid + 1, launches := aput s.launches s.uid l }
          (.llctl p n) (setBits (s.reg (.llctl p n)) 63 32 ((head + 1) % 2 ^ 32))) fun w => w == .publish p n) p n ∧
        l.part = p ∧ l.list = n ∧ l.seq = head ∧ l.ctx = ctx ∧ l.record = slot ∧ l.words = ws ∧ l.side = sd ∧ l.sat = 0 ∧
        l.nextCell = 0 ∧ l.live = 0 ∧ l.ended = 0 ∧ l.codeBase = recKimg ws + BitVec.ofNat 64 (field hd 127 96) ∧
        l.start = l.codeBase + BitVec.ofNat 64 (field en 31 0) ∧ l.vr = field en 40 32 ∧ l.obuf = field en 79 64 ∧
        l.st = (if 0 < recNdep ws then .pending else if recCond ws = true then .ready else .placing) ∧
        (∀ w ∈ view.known, w ∈ l.view.known) ∧
        (recNdep ws = 0 → l.readyAt = s.now ∧ (recCond ws = true →
          l.cond = (s.wordPa ctx (BitVec.ofNat 64 (field ws 439 384))).map s.homeWord)))) ∧
  (∀ ws sd hd en, recordCheck ws sd hd en = none → recBase ws 6 ≤ 64 ∧ (∀ i, i < 6 → recWidth ws i ≤ 32) ∧
    field ws 127 64 < 2 ^ recBase ws 6 ∧ recCell ws ≠ 7 ∧ recNdep ws ≤ 4 ∧ field ws 55 0 % 256 = 0 ∧ recXaddr ws % 128 = 0 ∧
    cellGroups ws ≤ 32 ∧ recEntry ws < field hd 47 40) ∧
  (∀ (s : State) (w : Watcher) (ctx pa : Nat),
    (s.addWatch w ctx pa = none ↔ inHbm pa = false ∨ Config.reservedRecords ≤ reservedUsed (agetD [] s.subs (s.stackOf pa))) ∧
    ∀ t, s.addWatch w ctx pa = some t → (∀ port slot, w ≠ .far port slot) → (∃ y, t.pushes = s.pushes ++ [y] ∧ y.who = w ∧
        y.data = s.bytes (16 * (pa / 16)) 16) ∧
      (∀ k, agetD [] t.subs k = agetD [] s.subs k ++ if k = s.stackOf pa then [⟨pa / 16, w, ctx⟩] else []) ∧
      { t with pushes := s.pushes, subs := s.subs, uid := s.uid, buckets := s.buckets } = s) ∧
  (∀ (k j : Nat) (s : State),
    (s.depOpen k j = none → exec (.dependenceSatisfied k j) s = .next s ∧ exec (.dependencePoll k j) s = .next s) ∧
    (∀ l, s.depOpen k j = some l ↔
      aget s.launches k = some l ∧ l.st = .pending ∧ j < recNdep l.words ∧ l.sat.getLsbD j = false) ∧
    ∀ l, s.depOpen k j = some l →
      let addr := l.side.getD (2 * j) 0
      let target := (l.side.getD (2 * j + 1) 0).toNat
      let sat (rs : List Rel) (s t : State) : Prop := ∃ l', t.launches = aput s.launches k l' ∧ l'.sat = l.sat ||| (1#4 <<< j) ∧
        l'.words = l.words ∧ l'.poll.getLsbD j = false ∧ (∀ w ∈ l.view.known, w ∈ l'.view.known) ∧
        (∀ r ∈ rs, l'.view.Took 8 (agent (srcDispatcher l.part)) r) ∧
        (l'.st = .ready → l'.cond = (s.wordPa l.ctx (BitVec.ofNat 64 (field l.words 439 384))).map s.homeWord) ∧
        l'.st = (if ∀ i, i < recNdep l.words → l'.sat.getLsbD i = true then
          (if recCond l.words = true then .ready else .placing) else .pending) ∧
        s.SameMem t ∧ ∀ q ∈ t.subs, ∀ b ∈ q.2, b.who ≠ .dep k j
      (∀ pre y post, s.pushes = pre ++ y :: post → (∀ z ∈ pre, z.who ≠ .dep k j) → y.who = .dep k j →
        let v := leNat ((y.data.drop (addr.toNat % 16)).take 8)
        (v < target → exec (.dependenceSatisfied k j) s = .next { s with pushes := pre ++ post }) ∧
        (target ≤ v → ∃ t, exec (.dependenceSatisfied k j) s = .next t ∧
          sat (s.relsSeen y.wrote ((s.wordPa l.ctx addr).getD 0)) s t)) ∧
      ((∀ z ∈ s.pushes, z.who ≠ .dep k j) → s.watching (.dep k j) = true ∨ l.poll.getLsbD j = true →
        exec (.dependenceSatisfied k j) s = .next s) ∧
      (l.poll.getLsbD j = false → exec (.dependencePoll k j) s = .next s) ∧
      let wants (i : Instr) : Prop :=
        (s.wordPa l.ctx addr = none → exec i s = .next ((s.dropLaunch k).failRecord l.part l.ctx l.record l.words (s.launchView k l) 9)) ∧
        ∀ pa, s.wordPa l.ctx addr = some pa → ∀ t, s.addWatch (.dep k j) l.ctx pa = some t →
          exec i s = .next { t with
            launches := aput t.launches k { l with poll := l.poll &&& ~~~(1#4 <<< j) } }
      ((∀ z ∈ s.pushes, z.who ≠ .dep k j) → s.watching (.dep k j) = false → l.poll.getLsbD j = false →
        wants (.dependenceSatisfied k j) ∧ ∀ pa, s.wordPa l.ctx addr = some pa → s.addWatch (.dep k j) l.ctx pa = none →
          exec (.dependenceSatisfied k j) s = .next { s with
            launches := aput s.launches k { l with poll := l.poll ||| (1#4 <<< j) } }) ∧
      (l.poll.getLsbD j = true → wants (.dependencePoll k j) ∧
        ∀ pa, s.wordPa l.ctx addr = some pa → s.addWatch (.dep k j) l.ctx pa = none →
          ((s.homeWord pa).toNat < target → exec (.dependencePoll k j) s = .next (s.touch pa)) ∧
          (target ≤ (s.homeWord pa).toNat → ∃ t, exec (.dependencePoll k j) s = .next t ∧ sat (s.newestRels pa) s t))) ∧
  (∀ (k : Nat) (s : State),
    (aget s.launches k = none → exec (.conditionRead k) s = .next s ∧ exec (.launchRetire k) s = .next s) ∧
    ∀ l, aget s.launches k = some l →
      (l.st ≠ .ready → exec (.conditionRead k) s = .next s) ∧
      (l.st = .ready →
        (l.cond = none → exec (.conditionRead k) s =
          .next ((s.dropLaunch k).failRecord l.part l.ctx l.record l.words (s.launchView k l) 10)) ∧
        ∀ w, l.cond = some w →
          let runs := (w ≠ 0 ∧ field l.words 440 440 = 0) ∨ (w = 0 ∧ field l.words 440 440 = 1)
          (runs → exec (.conditionRead k) s = .next { s with launches := aput s.launches k { l with st := .placing } }) ∧
          (¬runs → exec (.conditionRead k) s =
            .next ((s.dropLaunch k).addCompctr l.part l.ctx l.record l.words (s.launchView k l) 1))) ∧
      (l.st ≠ .running ∨ l.live ≠ 0 → exec (.launchRetire k) s = .next s) ∧
      (l.st = .running → l.live = 0 → l.ended = 0 →
        exec (.launchRetire k) s = .next ((s.dropLaunch k).addCompctr l.part l.ctx l.record l.words (s.launchView k l) 1)) ∧
      (l.st = .running → l.live = 0 → l.ended ≠ 0 → exec (.launchRetire k) s =
        .next (((s.dropLaunch k).logPart l.part (srcDispatcher l.part) 0x02 (l.record % 2 ^ 56 + 2 ^ 64 * (l.ended % 2 ^ 32))).addCompctr
          l.part l.ctx l.record l.words (s.launchView k l) (2 ^ 63 + 1))) ∧
      (∀ w ∈ l.view.known ++ (s.jobView (k + 1)).known, w ∈ (s.launchView k l).known) ∧
      aget (s.dropLaunch k).launches k = none ∧ (∀ j, j ≠ k → aget (s.dropLaunch k).launches j = aget s.launches j) ∧
      (∀ c, aget ((s.dropLaunch k).core c).rings k = none) ∧
      (∀ q ∈ (s.dropLaunch k).subs, ∀ b ∈ q.2, ∀ j, b.who ≠ .dep k j) ∧ s.SameMem (s.dropLaunch k)) ∧
  (∀ (s : State) (p ctx rec n : Nat) (ws : List Dword) (v : View) (pa : Nat) (kd : PageKind),
    (recCompctr ws).toNat % 8 = 0 → s.devRange ctx accEngWrite (s.ctxSup ctx) (recCompctr ws) 8 = .ok [⟨pa, 8, false, kd⟩] →
    inRegs pa = false → s.poisoned pa = false →
    let t := s.addCompctr p ctx rec ws v n
    (∀ a, t.byte a = rmwByte s pa 8 (s.word64 pa + BitVec.ofNat 64 n) a) ∧
    ∃ o, t.old.getLast? = some o ∧ o.author.rels = [⟨agent (srcDispatcher p), recCscope ws, v, 0⟩]) ∧
  (∀ (p : Nat) (s : State),
    (s.partOpen p = false ∨ (∀ k, s.firstItem p ≠ some (.inl k)) → exec (.cellPlace p) s = .next s) ∧
    ∀ k l0, s.partOpen p = true → s.firstItem p = some (.inl k) → aget s.launches k = some l0 →
      let s1 := s.settlePart p
      (l0.st ≠ .placing → exec (.cellPlace p) s = .next s) ∧ ∀ l, l0.st = .placing → aget s1.launches k = some l →
      (emptyLimit l = 0 ∨ s1.positions l.part = [] → exec (.cellPlace p) s =
        .next ((s1.dropLaunch k).failRecord l.part l.ctx l.record l.words (s1.launchView k l) 11)) ∧
      (emptyLimit l ≠ 0 → s1.positions l.part ≠ [] → recClus l.words ≠ 0 →
        (∀ i ∈ s1.clusterOrder l.part, (s1.clusterCores i).length * emptyLimit l < batchCells l.words) →
        exec (.cellPlace p) s =
          .next ((s1.dropLaunch k).failRecord l.part l.ctx l.record l.words (s1.launchView k l) 12)) ∧
      (emptyLimit l ≠ 0 → recClus l.words = 0 → l.waiting = [] → l.nextCell < cellCount l.words → s1.affinity l l.nextCell = none →
        s1.positions l.part ≠ [] → (l.skipped = true ∨ ∀ d, s1.deadEntries d = []) →
        let ps := s1.positions l.part
        let order := ps.drop l.turn ++ ps.take l.turn
        let n := l.nextCell
        let last := n + 1 = cellCount l.words
        ((∀ c ∈ order, s1.room l c = false) → exec (.cellPlace p) s = .next { s1 with
          launches := aput s1.launches k { l with nextCell := n + 1, waiting := [n], skipped := true } }) ∧
        ∀ pre c post, order = pre ++ c :: post → (∀ x ∈ pre, s1.room l x = false) → s1.room l c = true →
          ((s1.cluster (clusterOf c)).asleep = true → exec (.cellPlace p) s =
            .next { s1 with launches := aput s1.launches k { l with skipped := true } }) ∧
          ((s1.cluster (clusterOf c)).asleep = false → ∃ t, exec (.cellPlace p) s = .next t ∧ s1.SameMem t ∧
            (∃ l' : Launch, aget t.launches k = some l' ∧ l'.nextCell = n + 1 ∧ l'.live = l.live + cellGroups l.words ∧
              l'.st = (if last then .running else l.st)) ∧
            (∀ u g, s1.group? u = some g → t.group? u = some g) ∧
            ∀ i, i < cellGroups l.words → ∃ u g, s1.group? u = none ∧ t.group? u = some g ∧ coreOf u = c ∧ g.index = i ∧
              g.launch = some k ∧ g.ctx = l.ctx ∧ g.cellNo = BitVec.ofNat 64 n ∧ g.prio = l.list ∧ g.vr = l.vr ∧ g.view = l.view ∧
              (∀ L, g.wids[L]? = if L < 64 ∧ 64 * i + L < cellThreads l.words then
                some (recWid l.words n (64 * i + L)) else none) ∧
              (∀ L, aget g.pc L = if L < g.wids.length then some l.start else none) ∧
              (∀ m, g.sreg m = [lowWord g.args, highWord g.args, lowWord g.kimg, highWord g.kimg].getD m 0) ∧
              g.args = BitVec.ofNat 64 (field l.words 247 192) ∧ g.kimg = recKimg l.words))) ∧
  ∀ ws n t i, recBase ws 6 ≤ 64 → recCell ws ≤ 6 → i < 6 → recWidth ws i ≠ 0 →
    (recWid ws n t).toNat / 2 ^ recBase ws i % 2 ^ recWidth ws i =
      if i < recCell ws then t / extentsOf ws 0 i % recExtent ws i else n / extentsOf ws (recCell ws) i % recExtent ws i

/-! ### Device registers, pre-emption and kills -/

/-- The register writes and what they do (01 R24 to R27; 03 R52, R54; 10 R254; 11 R277; 21 R374, R382, R386, R390, R396, R399; 24
R426): who may write, the opening and the closing of a partition, ILMAP and ILLOCK, launch lists, contracts, contexts, breakpoints,
queues, tier pools, migration commands; the save and the restore of a cell, and the kill with its end. -/
def Obligations.RegistersAndSaving : Prop :=
  (∀ (a : Agent) (p n : Nat) (x : Dword) (s : State), ∀ y ∈ regEvents a p n x,
    exec y.1 s = .next (if s.mayWrite a y.2 = true then s.writeReg a y.2 x else s)) ∧
  (∀ (a : Agent) (pa : Nat) (x : Dword) (s : State),
    (regAt pa = none → exec (.registerWrite a pa x) s = .next s) ∧
    ∀ r, regAt pa = some r →
      exec (.registerWrite a pa x) s = .next (if s.mayWrite a r = true then s.writeReg a r x else s)) ∧
  (∀ (s : State) (p n c f : Nat),
    (s.mayWrite .pf (.ilmap n) = false ∧ s.mayWrite (.vf f) (.partcfg p) = false ∧ s.mayWrite .pf (.bsc n) = false) ∧
    s.mayWrite .pf (.partcfg p) = true ∧ s.mayWrite .pf (.ctxctl c) = true ∧
    (s.mayWrite .fw (.ilmap n) = true ↔ s.fwUp = true ∧ s.safeMode = false) ∧
    (s.mayWrite .fw (.partcfg p) = true ↔ s.fwUp = true ∧ s.safeMode = false) ∧ s.mayWrite .bilael (.partcfg p) = false ∧
    (s.mayWrite (.vf f) (.ctxctl c) = true ↔ s.ctxFn c = f) ∧
    (s.mayWrite (.vf f) (.llctl p n) = true ↔ s.partOfFn f = some p) ∧ (s.mayWrite (.vf f) (.prqctl n) = true ↔ f = n) ∧
    ∀ a, s.mayWrite a .patrol = false ∧ s.mayWrite a (.pool n) = false ∧ s.mayWrite a (.ctxstat c) = false) ∧
  (∀ (a : Agent) (s : State) (x : Dword) (d i c p : Nat), ∀ y ∈ [(Reg.boost d, (0xFFF : Dword)),
      (.retctl d, 0xFFFFFFFF00000FFF), (.lpt d i, 0xBFBFBFBFBFBFBFBF), (.slope d i, 0xFF1F), (.route d i, 0x9F9F9F9F9F9F9F9F),
      (.tvec c, 0xFFFFFFFFFFF001), (.savebase c, 0x1FFFFFFFF000), (.savectl c, 0xFFFFFFFFFFFF), (.llcx p i, 0xFF),
      (.evqhead p, 0xFFFFFFFF), (.prqhead i, 0xFFFFFFFF)], s.SetsReg (s.writeReg a y.1 x) y.1 (x &&& y.2)) ∧
  (∀ (a : Agent) (s : State) (p : Nat) (x : Dword), p < 8 →
    let t := s.writeReg a (.partcfg p) x
    let dies := bits x 7 0
    let fn := bits x 21 16
    let ok := s.safeMode = false ∧ (s.reg .illock).getLsbD 0 = true ∧ dies ≠ 0 ∧ fn ≤ 32 ∧
      (∀ q, q < 8 → s.partOpen q = true → q ≠ p → s.partDies q &&& dies = 0 ∧ s.partFn q ≠ fn) ∧
      ∀ d, d < 8 → dies.testBit d = true → (s.die d).power = true
    (s.partOpen p = false → x.getLsbD 23 = true → ¬ok → t = s) ∧
    (s.partOpen p = false → x.getLsbD 23 = true → ok → t.reg (.partcfg p) = x &&& 0xBF00FF ∧
      (∀ r ∈ partBlock p, t.reg r = r.resetVal) ∧ t.mem = s.mem ∧ t.groups = s.groups ∧ t.timerSet = true ∧
      ∀ r : Reg, r ≠ .partcfg p → r.addr ≠ (Reg.partcfg p).addr → (∀ q ∈ partBlock p, q.addr ≠ r.addr) → t.reg r = s.reg r) ∧
    (s.partOpen p = false → x.getLsbD 23 = false → s.SetsReg t (.partcfg p) (x &&& 0xBF00FF)) ∧
    (s.partOpen p = true → x.getLsbD 23 = true ∨ (∃ c, c < 256 ∧ s.ctxFn c = s.partFn p ∧ s.ctxEn c = true) → t = s) ∧
    (s.partOpen p = true → x.getLsbD 23 = false → (∀ c, c < 256 → s.ctxFn c = s.partFn p → s.ctxEn c = false) →
      t.reg (.partcfg p) = s.reg (.partcfg p) &&& 0x3F00FF ∧ (∀ q ∈ t.launches, q.2.part ≠ p) ∧
      (∀ q ∈ t.moves, q.part ≠ p) ∧ t.mem = s.mem ∧ t.groups = s.groups)) ∧
  (∀ (a : Agent) (s : State) (n : Nat) (x : Dword),
    let t := s.writeReg a (.ilmap n) x
    let l := s.writeReg a .illock x
    ((s.reg .illock).getLsbD 0 = true → t = s ∧ l = s) ∧
    ((s.reg .illock).getLsbD 0 = false → n < 4 → t.reg (.ilmap n) = x ∧
      (∀ q : Reg, q.addr ≠ (Reg.ilmap n).addr → t.reg q = s.reg q) ∧ t.groups = s.groups ∧
      ∀ b, 2 ^ 40 ≤ b ∨ t.setClass (b / 2 ^ 37) = s.setClass (b / 2 ^ 37) → t.byte b = s.byte b) ∧
    ((s.reg .illock).getLsbD 0 = false → (x.getLsbD 0 = false → l = s) ∧
      (x.getLsbD 0 = true → l.reg .illock = 1 ∧ (∀ q : Reg, q.addr ≠ Reg.illock.addr → l.reg q = s.reg q) ∧
        { l with regs := s.regs, mr := s.mr } = s ∧ (a ≠ .fw → l.mr = s.mr)))) ∧
  (∀ (a : Agent) (s : State) (p n : Nat) (x : Dword),
    let old := s.reg (.llctl p n)
    let t := s.writeReg a (.llctl p n) x
    let logn := if 6 ≤ bits x 5 1 ∧ bits x 5 1 ≤ 16 then bits x 5 1 else 6
    (old.getLsbD 0 = true → x.getLsbD 0 = true → t = s) ∧
    (old.getLsbD 0 = true → x.getLsbD 0 = false → t.reg (.llctl p n) = old &&& ~~~1#64 ∧ s.launches = t.launches ∧
      ∀ q ∈ t.subs, ∀ b ∈ q.2, b.who ≠ .publish p n) ∧
    (old.getLsbD 0 = false → x.getLsbD 0 = true → t.reg (.llctl p n) = BitVec.ofNat 64 (2 * logn + 1) ∧
      t.listSt p n = ⟨false, false, false⟩ ∧ { t with regs := s.regs, lists := s.lists } = s) ∧
    (old.getLsbD 0 = false → x.getLsbD 0 = false →
      s.SetsReg t (.llctl p n) (BitVec.ofNat 64 (2 * logn + 2 ^ 32 * bits old 63 32))) ∧
    ∀ r ∈ [Reg.llbase p n, .llhm p n], (old.getLsbD 0 = true → s.writeReg a r x = s) ∧
      (old.getLsbD 0 = false → s.SetsReg (s.writeReg a r x) r (x &&& (if r = .llbase p n then 0xFFFFFFFFFFFFC0 else 0xFFFFFFFFFFFFFF)))) ∧
  (∀ (a : Agent) (s : State) (src k : Nat) (x : Dword), src < 0x10000 → k < 16 →
    let old := s.reg (.bsc src)
    let t := s.writeReg a (.bsc src) x
    let worse (j : Nat) : Prop := j ∈ chargedTo src ∧ rateSum old < rateSum x ∧ 1024 < s.admitted j - rateSum old + rateSum x
    ((∀ j, ¬worse j) → t.reg (.bsc src) = x ∧ (∀ q : Reg, q.addr ≠ (Reg.bsc src).addr → t.reg q = s.reg q)) ∧
    ((∃ j, worse j) → t.reg (.bsc src) = old) ∧ (worse k → t.reg (.bsstat k) = 1) ∧
    (x.getLsbD 0 = true → s.SetsReg (s.writeReg a (.bsstat k) x) (.bsstat k) 0) ∧
    (x.getLsbD 0 = false → s.writeReg a (.bsstat k) x = s)) ∧
  (∀ (a : Agent) (s : State) (c : Nat) (x : Dword), c < 256 →
    let old := s.reg (.ctxctl c)
    let t := s.writeReg a (.ctxctl c) x
    let v := t.reg (.ctxctl c)
    let busy := (∃ g ∈ s.groups, g.2.ctx = c) ∨ (∃ i ∈ s.saved, i.ctx = c) ∨ (∃ q ∈ s.cards, q.ctx = c) ∨
      ∃ q ∈ s.slots, q.2.ctx = c
    (old.getLsbD 0 = true → x.getLsbD 0 = false → busy → t = s) ∧
    (¬(old.getLsbD 0 = true ∧ x.getLsbD 0 = false ∧ busy) → t.mem = s.mem ∧ t.groups = s.groups ∧
      v.getLsbD 0 = x.getLsbD 0 ∧ v.getLsbD 2 = x.getLsbD 2 ∧
      (∀ f, a = .vf f → ∀ i, i ≠ 0 → i ≠ 2 → v.getLsbD i = old.getLsbD i) ∧
      ((∀ f, a ≠ .vf f) → v.getLsbD 1 = x.getLsbD 1 ∧ v.getLsbD 4 = x.getLsbD 4 ∧
        (old.getLsbD 0 = true → v.getLsbD 3 = old.getLsbD 3 ∧ bits v 31 16 = bits old 31 16) ∧
        (old.getLsbD 0 = false → v.getLsbD 3 = x.getLsbD 3 ∧
          bits v 23 16 = (if bits x 23 16 ≤ 32 then bits x 23 16 else bits old 23 16) ∧
          bits v 31 24 = (if bits x 31 24 ≤ 32 then bits x 31 24 else bits old 31 24)))) ∧
    (∀ r ∈ [Reg.ttb1 c, .ttb2 c], (old.getLsbD 0 = true → s.writeReg a r x = s) ∧
      (old.getLsbD 0 = false → s.SetsReg (s.writeReg a r x) r (x &&& 0xFFFFFFFFFFC000)))) ∧
  (∀ (a : Agent) (s : State) (c : Nat) (x : Dword),
    let t := s.writeReg a (.preempt c) x
    t.mem = s.mem ∧ t.groups = s.groups ∧
    (x.getLsbD 0 = true → ∀ k q, s.cell? k = some q →
      t.cell? k = some { q with wantSave := q.wantSave || q.ctx == c }) ∧
    (x.getLsbD 0 = false → t.cells = s.cells) ∧
    t.saved = if x.getLsbD 1 = true then s.saved.map (fun i =>
      if i.ctx = c ∧ i.joiner = none ∧ i.go = none then { i with go := some s.now } else i) else s.saved) ∧
  (∀ (a : Agent) (s : State) (c : Nat) (x : Dword),
    let u := 32 * (48 * bits x 13 11 + bits x 10 5) + bits x 4 0
    let t := s.writeReg a (.bkres c) x
    (∀ g, s.group? u = some g → g.ctx = c → g.wait = .halted → bits x 10 5 < 48 → ∃ g', s.Around t u ∧ t.group? u = some g' ∧
      g.SameRegs g' ∧ g'.wait = .no ∧ g'.pc = g.advance.pc ∧ g'.clause = g.advance.clause) ∧
    ((∀ g, s.group? u = some g → g.ctx ≠ c ∨ g.wait ≠ .halted) → t = s)) ∧
  (∀ (a : Agent) (s : State) (c : Nat) (x : Dword), c < 256 →
    let t := s.writeReg a (.kill c) x
    (x.getLsbD 0 = false ∨ (s.reg (.ctxstat c)).getLsbD 0 = true → t = s) ∧
    (x.getLsbD 0 = true → (s.reg (.ctxstat c)).getLsbD 0 = false →
      s.SetsReg { s with regs := t.regs } (.ctxstat c) (s.reg (.ctxstat c) ||| 1) ∧ ((s.groups.map (·.1)).Nodup → s.Killed t c)) ∧
    let w := s.reg (.ctxstat c)
    let sent := (∃ p ∈ s.packets, p.ctx = some c) ∨ (∃ p ∈ s.acks, p.ctx = some c) ∨ ∃ p ∈ s.globals, p.ctx = some c
    (w.getLsbD 0 = false ∨ w.getLsbD 1 = true ∨ sent → exec (.killComplete c) s = .next s) ∧
    (w.getLsbD 0 = true → w.getLsbD 1 = false → ¬sent → ∃ t, exec (.killComplete c) s = .next t ∧
      t.reg (.ctxstat c) = w ||| 2 ∧
      t = (s.setReg (.ctxstat c) (w ||| 2)).logCtx c (srcDispatcher ((s.partOfCtx c).getD 0)) 0x0E c)) ∧
  (∀ (a : Agent) (s : State) (x : Dword) (n : Nat), ∀ y ∈ [(Reg.prqctl n, Reg.prqbase n, 14, bits x 4 1), (Reg.evqctl n, Reg.evqbase n, 16, bits x 5 1)],
    let old := s.reg y.1
    let v := (s.writeReg a y.1 x).reg y.1
    let logn := if 6 ≤ y.2.2.2 ∧ y.2.2.2 ≤ y.2.2.1 then y.2.2.2 else 6
    (∃ z, s.SetsReg (s.writeReg a y.1 x) y.1 z) ∧ bits v 63 32 = bits old 63 32 ∧
    (old.getLsbD 0 = true → v = if x.getLsbD 0 = true then old else old &&& ~~~1#64) ∧
    (old.getLsbD 0 = false → bits v 31 1 = logn ∧
      (v.getLsbD 0 = true ↔ x.getLsbD 0 = true ∧ (s.reg y.2.1).toNat + 32 * 2 ^ logn ≤ 2 ^ 40)) ∧
    (old.getLsbD 0 = true → s.writeReg a y.2.1 x = s) ∧
    (old.getLsbD 0 = false → s.SetsReg (s.writeReg a y.2.1 x) y.2.1 (x &&& 0x1FFFFFFFFFE0))) ∧
  (∀ (a : Agent) (s : State) (p d : Nat) (x : Dword),
    let moving := ∃ o ∈ s.objects, o.part = p ∧ (o.st = .promoting ∨ o.st = .demoting)
    (moving → s.writeReg a (.tierpool p d) x = s) ∧
    (¬moving → s.SetsReg (s.writeReg a (.tierpool p d) x) (.tierpool p d)
      (BitVec.ofNat 64 (bits x 15 0 + 2 ^ 16 * if bits x 15 0 + bits x 31 16 ≤ 2560 then bits x 31 16 else 0)))) ∧
  (∀ (a : Agent) (s : State) (p : Nat) (x : Dword),
    let t := s.writeReg a (.miggo p) x
    let pa := x.toNat
    (s.partOpen p = false ∨ pa % 8 ≠ 0 ∨ 2 ^ 40 < pa + 32 → s.SetsReg t (.miggo p) x) ∧
    (s.partOpen p = true → pa % 8 = 0 → pa + 32 ≤ 2 ^ 40 →
      let ws := s.words64 pa 4
      let old := field ws 31 0 * 8192
      let new := field ws 63 32 * 8192
      let n := if field ws 83 64 = 0 then 0x10000 else 0x2000000
      field ws 83 64 ≤ 1 → field ws 127 84 = 0 → old % n = 0 → new % n = 0 → old + n ≤ 2 ^ 40 → new + n ≤ 2 ^ 40 →
      t.moves = s.moves ++ [⟨s.uid, p, old, new, n, field ws 191 128, field ws 255 192, none⟩] ∧ t.mem = s.mem ∧
      t.groups = s.groups)) ∧
  (∀ (k : Nat) (s : State),
    (∀ c, s.cell? k = some c → c.core = none ∨ c.wantSave = false) → exec (.cellSave k) s = .next s) ∧
  (∀ (k : Nat) (s : State), (s.groups.map (·.1)).Nodup →
    (∀ x ∈ s.groups, x.2.cell = k → ∀ j, x.2.wait ≠ .rendezvous j) → s.withdrawCell k = s) ∧
  (∀ (k : Nat) (s : State) (c c' : CellSt) (core : Nat), s.cell? k = some c → c.core = some core → c.wantSave = true →
    let s' := s.withdrawCell k
    let us := s'.cellUnits k
    let gs := us.filterMap s'.group?
    let ready := ∀ u ∈ us, ∀ g, s'.group? u = some g → g.mayLeave = true ∧ s'.engineIdle u g = true
    (s'.groups.map (·.1)).Nodup → s'.cell? k = some c' →
    (¬ready → exec (.cellSave k) s = .next s) ∧
    (ready → s.freeSave c.ctx = none → exec (.cellSave k) s = .next (s.saveRefused k c 1 (imageKiB gs))) ∧
    ∀ slot, ready → s.freeSave c.ctx = some slot →
      (s.slotsz c.ctx < imageKiB gs → exec (.cellSave k) s = .next (s.saveRefused k c 2 (imageKiB gs))) ∧
      (imageKiB gs ≤ s.slotsz c.ctx → ∃ t i, exec (.cellSave k) s = .next t ∧ t.cell? k = none ∧
        (∀ j, j ≠ k → t.cell? j = s'.cell? j) ∧ (∀ u, t.group? u = if u ∈ us then none else s'.group? u) ∧
        t.saved = s'.saved ++ [i] ∧ i.ctx = c'.ctx ∧ i.slot = slot ∧ i.core = core ∧ i.joiner = none ∧ i.spawn = (s'.core core).spawn ∧
        i.cell = some { c' with core := none, wantSave := false } ∧
        List.Forall₂ (fun u (y : SavedGroup) => y.slot = unitSlot u ∧ ∃ g, s'.group? u = some g ∧ g.SameRegs y.g ∧
          y.g.pc = g.region.pcs ∧ y.g.region = g.region ∧ y.g.buf = [] ∧ y.g.clause = none ∧ y.g.rstack = g.rstack ∧
          y.g.acc = g.acc ∧ y.g.bars = g.bars) us i.groups)) ∧
  (∀ (img : Nat) (s : State), s.saved.find? (fun i => i.id == img) = none → exec (.cellRestore img) s = .next s) ∧
  ∀ (img : Nat) (s : State) (i : SaveImg) (p : Nat) (c : CellSt), s.saved.find? (fun i => i.id == img) = some i →
    s.partOfCtx i.ctx = some p → i.cell = some c →
    (s.firstItem p ≠ some (.inr img) → exec (.cellRestore img) s = .next s) ∧
    ∀ y rest, s.firstItem p = some (.inr img) → i.groups = y :: rest →
      let s1 := s.settlePart p
      let room (core : Nat) := s1.usable core && s1.fits core i.groups.length y.g.vr y.g.acct (c.obuf * c.ngroup)
      let base := (s1.reg (.savebase i.ctx)).toNat + i.slot * bits (s1.reg (.savectl i.ctx)) 31 0 * 1024
      let gs := i.groups.map (·.g)
      let there := s1.slotThere base gs
      ((∀ core ∈ s1.positions p, room core = false) → exec (.cellRestore img) s = .next s1) ∧
      ∀ pre core post, s1.positions p = pre ++ core :: post → (∀ x ∈ pre, room x = false) → room core = true →
        ((s1.cluster (clusterOf core)).asleep = true → exec (.cellRestore img) s = .next s1) ∧
        ((s1.cluster (clusterOf core)).asleep = false → ∃ t c', exec (.cellRestore img) s = .next t ∧
          t.cell? c.uid = some c' ∧ c'.core = some core ∧ c'.wantSave = false ∧ c'.handles = c.handles ∧
          (there = false → { c' with core := c.core, wantSave := c.wantSave } = c) ∧
          (there = true → ∀ o, o < 1024 * c.obuf * gs.length → agetD 0 c'.share o = s1.byte (base + 1024 + o)) ∧
          t.saved = s1.saved.filter (fun x => x.id != i.id) ∧
          (t.core core).spawn = (if s1.coreGroups core = [] then i.spawn else (s1.core core).spawn) ∧
          ((∀ d, s1.deadEntries d = []) → s1.SameMem t) ∧ (t.core core).l1 = [] ∧ (t.core core).kcache = [] ∧
          (∀ u g, s1.group? u = some g → t.group? u = some g) ∧
          ∀ j z, i.groups[j]? = some z → ∃ u g, s1.group? u = none ∧ coreOf u = core ∧ t.group? u = some g ∧
            s1.FromImage i ((gs.take j).foldl (fun n x => n + x.imageBytes) (imageHead gs)) z.g g ∧
            (z.g.wait = .no → g.wait = .no) ∧ (there = false → g.acc = z.g.acc) ∧
            (there = true → ∀ k, k < 4096 * z.g.acct → g.accCell k = BitVec.ofNat 56 (leNat (s1.bytes (base + 1024 +
              1024 * c.obuf * gs.length + (gs.take j).foldl (fun n x => n + 28672 * x.acct) 0 + 7 * k) 7))))

/-! ### Translation, migration and the tier agents -/

/-- Translation (21 R376 to R385): a step of the walk with its tests, what a walk ahead of use leaves in the TLB, the record of a
page request, the replay of a parked lane; a page migration (R387); and the tier agents (11 R276 to R281): the requests on an
object, the end of a move, and the age. That a TLB leads to a basin while an object is there, and that a refusal of an entry's
size, base or alignment carries ERR 4, are the model's readings (log entries 21 and 22). -/
def Obligations.TranslationAndTiers : Prop :=
  (∀ (s : State) (c va : Nat) (need : Perm) (priv : Bool) (leaves gpas : List Nat) (l : Nat) (ls : List Nat) (from_ table : Nat),
    l < 4 → s.ctxGuest c = false →
    let region := va / 65536 * 65536
    let lo := [45, 33, 25, 16].getD l 0
    let n := [11, 12, 8, 9].getD l 0
    let ea := table + 8 * (va / 2 ^ lo % 2 ^ n)
    let w := s.word64 ea
    let walk := s.walk1 c va need priv leaves gpas (l :: ls) from_ table
    let next := bits w 44 12 * 4096
    let bad := bits w 55 45 ≠ 0 ∨ (w.getLsbD 62 = true ∧ (l = 0 ∨ next % 2 ^ lo ≠ 0)) ∨
      (w.getLsbD 62 = false ∧ (l = 3 ∨ bits w 61 56 ≠ 0 ∨ next % (max 4096 (8 * 2 ^ [11, 12, 8, 9].getD (l + 1) 9)) ≠ 0))
    let leaf := w.getLsbD 63 = true ∧ ¬bad ∧ w.getLsbD 62 = true
    (inHbm table = false → walk = .fault 1 from_ 5 region) ∧
    (inHbm table = true →
      (w.getLsbD 63 = false → walk = .fault 1 l 0 region) ∧
      (w.getLsbD 63 = true → bad → walk = .fault 1 l 5 region) ∧
      (w.getLsbD 63 = true → ¬bad → w.getLsbD 62 = false →
        walk = s.walk1 c va need priv leaves gpas ls l next) ∧
      (leaf → bits w 61 60 = 3 → walk = .fault 1 l 6 region) ∧
      (leaf → bits w 61 60 ≠ 3 → w.getLsbD 56 = true → priv = false → walk = .fault 1 l 4 region) ∧
      (leaf → bits w 61 60 ≠ 3 → (w.getLsbD 56 = false ∨ priv = true) →
        (need.r = true → w.getLsbD 59 = false → walk = .fault 1 l 1 region) ∧
        (need.w = true → w.getLsbD 58 = false → (need.r = true → w.getLsbD 59 = true) → walk = .fault 1 l 2 region) ∧
        ((need.r = true → w.getLsbD 59 = true) → (need.w = true → w.getLsbD 58 = true) →
          (need.x = true → w.getLsbD 57 = true) → ∃ k p lv gp,
          walk = .ok (next + va % 2 ^ lo / 65536 * 65536) k p (w.getLsbD 56) lv gp ∧
          (bits w 61 60 = 0 → k = .c) ∧ (bits w 61 60 = 1 → k = .s) ∧ (bits w 61 60 = 2 → k = .u) ∧
          p = ⟨w.getLsbD 59, w.getLsbD 58, w.getLsbD 57⟩ ∧ ea ∈ lv)))) ∧
  (∀ (s : State) (c : Nat) (va : Dword) (acc : Nat) (sup : Bool),
    let region := va.toNat / 65536
    let i := Instr.translationWalk c va acc sup
    let t0 := s.tlbFill c va.toNat (s.walk c va.toNat acc sup)
    (∀ st l r a, s.walk c va.toNat acc sup = .fault st l r a → t0 = s) ∧
    (∀ base k p sp lv gp, s.walk c va.toNat acc sup = .ok base k p sp lv gp →
      { t0 with tlb := s.tlb, objects := s.objects } = s ∧ t0.objects = (s.touch base).objects ∧
      ⟨c, region, base, k, p.r, p.w, p.x, sp, lv, gp⟩ ∈ t0.tlb ∧ (∀ e ∈ s.tlb, e ∈ t0.tlb) ∧
      ∀ e ∈ t0.tlb, e ∈ s.tlb ∨ e = ⟨c, region, base, k, p.r, p.w, p.x, sp, lv, gp⟩) ∧
    let waits (p : Pend) (l : LaneReq) : Prop := l.st = .walking ∧
      (l.addr.toNat / 65536 = region ∨ (l.addr.toNat + accessBytes p.ins - 1) / 65536 = region)
    ((∀ x ∈ s.groups, x.2.ctx = c → ∀ p ∈ x.2.pend, ∀ l ∈ p.lanes, ¬waits p l) → exec i s = .next t0) ∧
    ∀ u g p l, s.groups = [(u, g)] → g.ctx = c → g.pend = [p] → p.lanes = [l] → waits p l →
      exec i s = .next (t0.replayAll u p.tok p [l])) ∧
  (∀ (s : State) (pa : Nat), { s.touch pa with objects := s.objects } = s ∧
    (s.touch pa).objects = s.objects.map fun o =>
      if o.st = .basin ∧ windowBase o.die + o.off ≤ pa ∧ pa < windowBase o.die + o.off + o.size ∧
        o.sampled ≠ s.now / 1000 + 1 then { o with age := s.now, sampled := s.now / 1000 + 1, due := true } else o) ∧
  (∀ (f : Nat) (s : State),
    (s.requests.find? (fun q => q.fn == f && q.tag.isSome && !q.written) = none →
      exec (.pageRequestRecord f) s = .next s) ∧
    ∀ q, s.requests.find? (fun q => q.fn == f && q.tag.isSome && !q.written) = some q →
      let ctl := s.reg (.prqctl f)
      let n := 2 ^ bits ctl 4 1
      let tail := bits ctl 63 32
      let off := ctl.getLsbD 0 = false ∨ (tail + 2 ^ 32 - bits (s.reg (.prqhead f)) 31 0) % 2 ^ 32 = n
      let at_ := (s.reg (.prqbase f)).toNat + 32 * (tail % n)
      let rec_ := s.now % 2 ^ 64 + 2 ^ 140 * q.acc + 2 ^ 144 * q.reason + 2 ^ 148 * q.level + 2 ^ 150 * q.stage +
        2 ^ 152 * q.srcfn + 2 ^ 160 * q.tag.getD 0 + 2 ^ 176 * q.ctx + 2 ^ 192 * (q.region * 65536)
      (off → exec (.pageRequestRecord f) s = .next s) ∧
      (¬off → ∃ t, exec (.pageRequestRecord f) s = .next t ∧ t.groups = s.groups ∧
        (∀ a, t.byte a = if at_ ≤ a ∧ a < at_ + 32 then BitVec.ofNat 8 (rec_ / 2 ^ (8 * (a - at_))) else s.byte a) ∧
        bits (t.reg (.prqctl f)) 63 32 = (tail + 1) % 2 ^ 32 ∧ bits (t.reg (.prqctl f)) 31 0 = bits ctl 31 0 ∧
        t.requests = modifyFirst (fun r => r.id == q.id) (fun r => { r with written := true }) s.requests)) ∧
  (∀ (u tok : Nat) (s : State),
    (∀ g p, s.group? u = some g → g.pend.find? (fun p => p.tok == tok) = some p →
      ∀ l ∈ p.lanes, ∀ r, l.st = .parked r → s.outstanding r = true) → exec (.parkedLaneReplay u tok) s = .next s) ∧
  (∀ (u tok : Nat) (s : State) (g : Group) (p : Pend) (l : LaneReq) (r : Nat), s.group? u = some g →
    g.pend.find? (fun p => p.tok == tok) = some p → p.lanes = [l] → l.st = .parked r → s.outstanding r = false →
    exec (.parkedLaneReplay u tok) s = .next (s.replayAll u tok p [l]).drawn) ∧
  (∀ (u tok : Nat) (s : State) (g : Group) (p : Pend) (l : LaneReq), s.group? u = some g →
    g.pend.find? (fun p => p.tok == tok) = some p → p.lanes = [l] →
    let chk := s.chkVa g.ctx (parkedAcc p.ins) (s.groupPriv g) l.addr (accessBytes p.ins) 1 none
    (∀ ps, chk = .ok ps →
      let s1 := s.tlbFill g.ctx l.addr.toNat (s.translate g.ctx l.addr.toNat (parkedAcc p.ins) (s.groupPriv g))
      ∃ own, (∀ x, x ∈ own ↔ x ∈ l.own ∧ (∃ q ∈ ps, q.pa ≤ x.1 ∧ x.1 < q.pa + q.len) ∧ bufBytes g.buf false [x.1] ≠ []) ∧
        let s2 := s1.putGroup u (g.putLane tok { l with st := .ready, pieces := ps, own := own })
        ((∀ q ∈ ps, q.kind ≠ .s) → s.replayAll u tok p [l] = s2.tryLanes u tok [l.lane]) ∧
        ((∃ q ∈ ps, q.kind = .s) → g.taking = none → g.resume = none → ∃ s3 g3, s.replayAll u tok p [l] = s3.tryLanes u tok [l.lane] ∧
          (s2.drain u).Around s3 u ∧ s3.group? u = some g3 ∧ g3.buf = [] ∧ g.SameRegs g3 ∧ g3.pc = g.pc ∧
          g3.clause = g.clause ∧ g3.region = g3.nextRegion)) ∧
    (∀ st lv re a, chk = .fault st lv re a → ∃ t q g', s.replayAll u tok p [l] = t ∧ q ∈ t.requests ∧
      q.ctx = g.ctx ∧ q.stage = st ∧ q.region = a / 65536 ∧ t.group? u = some g' ∧ g.SameRegs g' ∧ g'.flags = g.flags ∧
      g'.pend.find? (fun p => p.tok == tok) = some { p with lanes := [{ l with st := .parked q.id }] } ∧ s.SameMem t) ∧
    (∀ c i, chk = .trap c i → g.taking = none → g.wait ≠ .exit → s.replayAll u tok p [l] =
      State.takeTrap (s.putGroup u (g.dropLane tok l.lane)) u ⟨causePhys, p.addr, p.idx, i, p.act⟩)) ∧
  (∀ (k : Nat) (s : State), s.moves.find? (fun m => m.id == k && m.object.isNone) = none →
    exec (.migrationComplete k) s = .next s) ∧
  (∀ (k : Nat) (s : State) (m : Move), s.moves.find? (fun m => m.id == k && m.object.isNone) = some m →
    let e := relocate m.old m.new m.size m.ptea
    let c := relocate m.old m.new m.size m.ctr
    let word := s.movedWord m.old m.new m.size
    (s.moveBlocked m = true → exec (.migrationComplete k) s = .next s) ∧
    (s.moveBlocked m = false → apart m.old m.new m.size → m.old % 16 = 0 → m.new % 16 = 0 → m.size % 16 = 0 →
      m.ptea % 8 = 0 → e + 8 ≤ 2 ^ 40 → c % 8 = 0 → c + 8 ≤ 2 ^ 40 → apart e c 8 →
      ∃ t, exec (.migrationComplete k) s = .next t ∧
        t.word64 e = setBits (word e) 44 12 (m.new / 4096) ∧ t.word64 c = word c + 1 ∧
        (∀ a, (a < e ∨ e + 8 ≤ a) → (a < c ∨ c + 8 ≤ a) → t.byte a = s.movedByte m.old m.new m.size a) ∧
        t.objects = s.objects.map (fun o => { o with entry := relocate m.old m.new m.size o.entry }) ∧
        t.moves = s.moves.filter (fun x => x.id != k) ∧ (∀ x ∈ t.tlb, m.ptea ∉ x.leaves ∧ e ∉ x.leaves) ∧
        List.Forall₂ (fun (p q : Packet) => p.glob = none → q.pa = relocate m.old m.new m.size p.pa ∧ q.stamp = p.stamp ∧
          q.seq = p.seq) s.packets t.packets)) ∧
  (∀ (p : Nat) (s : State), (∀ r ∈ s.tierReqs, r.part ≠ p ∨ ∃ q ∈ r.aw.reqs, s.outstanding q = true) →
    exec (.tierRequest p) s = .next s) ∧
  (∀ (s : State) (r : TierReq) (pa : Nat) (kd : PageKind), s.tierReqs = [r] → r.aw.reqs = [] → r.fin = none → r.card = none →
    r.ctr = none → r.t0 = none → r.entry.toNat % 64 = 0 →
    s.devRange r.ctx accEngWrite r.priv r.entry 64 = .ok [⟨pa, 64, false, kd⟩] →
    s.planRanges r.ctx accEngWrite r.priv 0 8 [(r.entry, 64)] = .ok [[⟨pa, 64, false, kd⟩]] → pa + 64 ≤ 2 ^ 40 →
    let ws := s.words64 pa 8
    let d := field ws 3 0
    let size := field ws 255 192
    let hpa := field ws 127 64
    let w (i : Nat) := s.word64 (pa + 8 * i)
    let state (n e : Nat) := setBits (setBits (w 6) 63 56 n) 55 48 e
    let err := bits (w 6) 55 48
    let here := s.objectAt r.part pa
    let bad := here = none ∧ (field ws 63 4 ≠ 0 ∨ field ws 319 256 ≠ 0 ∨ field ws 431 356 ≠ 0 ∨ 8 ≤ d ∨
      (s.partDies r.part).testBit d = false ∨ size = 0 ∨ size % 65536 ≠ 0 ∨ hpa % 65536 ≠ 0 ∨ field ws 191 128 % 65536 ≠ 0 ∨
      2 ^ 40 < hpa + size ∨ bits (s.reg (.tierpool r.part d)) 31 16 < size / 65536)
    let watched (a n : Nat) : Prop := ∃ q ∈ s.subs, ∃ b ∈ q.2, a / 16 ≤ b.granule ∧ b.granule < (a + n) / 16
    let held := (here = none ∧ watched hpa size) ∨ ∃ o, here = some o ∧ o.st = .promoting ∧ watched o.hpa o.size
    let i := Instr.tierRequest r.part
    (bad → ∃ t, exec i s = .next t ∧ t.tierReqs = [] ∧ s.EntryNow t pa (w 5) (state 0 4) (w 7)) ∧
    (¬bad → held → ∃ t, exec i s = .next t ∧ t.tierReqs = [] ∧ t.moves = s.moves ∧
      s.EntryNow t pa (w 5) (state (if here = none then 0 else 1) 5) (w 7)) ∧
    (¬bad → ¬held → (∀ o, here = some o → o.st ≠ .demoting) → r.kind = .touch → ∃ t, exec i s = .next t ∧
      t.tierReqs = [] ∧ s.EntryNow t pa (w 5) (w 6) (BitVec.ofNat 64 s.now) ∧ t.objects = s.objects.map fun o =>
        if o.part = r.part ∧ o.entry = pa then { o with age := s.now, due := false } else o) ∧
    (¬bad → ¬held → here = none → r.kind = .demote → ∃ t, exec i s = .next t ∧ t.tierReqs = [] ∧ s.SameMem t ∧
      t.moves = s.moves) ∧
    (∀ o, ¬held → here = some o → o.st = .basin → r.kind = .demote → ∃ t id, exec i s = .next t ∧
      t.tierReqs = [r] ∧ s.EntryNow t pa (w 5) (state 3 err) (w 7) ∧
      t.moves = s.moves ++ [⟨id, r.part, windowBase o.die + o.off, o.hpa, o.size, 0, 0, some pa⟩] ∧
      { o with st := .demoting } ∈ t.objects) ∧
    (∀ o, ¬held → here = some o → o.st = .basin → r.kind = .promote → ∃ t, exec i s = .next t ∧ t.tierReqs = [] ∧
      s.EntryNow t pa (w 5) (w 6) (BitVec.ofNat 64 s.now) ∧ t.moves = s.moves ∧ { o with age := s.now, due := false } ∈ t.objects) ∧
    ∀ u, ¬bad → ¬held → here = none → r.kind = .promote → s.poolFit r.part d (size / 65536) (fun _ => false) = some u →
      ∃ t id, exec i s = .next t ∧ t.tierReqs = [{ r with t0 := some s.now, age := s.now }] ∧
        s.EntryNow t pa (w 5) (state 1 err) (BitVec.ofNat 64 s.now) ∧
        t.moves = s.moves ++ [⟨id, r.part, hpa, windowBase d + 65536 * u, size, 0, 0, some pa⟩] ∧
        t.objects = s.objects ++
          [⟨r.part, pa, d, hpa, BitVec.ofNat 64 (field ws 191 128), size, .promoting, u * 65536, s.now, 0, false⟩]) ∧
  (∀ (s : State) (p d n u : Nat),
    let free (v : Nat) : Prop := bits (s.reg (.tierpool p d)) 15 0 ≤ v ∧
      v + n ≤ bits (s.reg (.tierpool p d)) 15 0 + bits (s.reg (.tierpool p d)) 31 16 ∧
      ∀ o ∈ s.objects, o.part = p → o.die = d → ¬(v < o.off / 65536 + o.size / 65536 ∧ o.off / 65536 < v + n)
    s.poolFit p d n (fun _ => false) = some u ↔ free u ∧ ∀ v, v < u → ¬free v) ∧
  (∀ (p k : Nat) (s : State) (m : Move) (o : Object), s.moves.find? (fun m => m.id == k && m.part == p) = some m →
    m.object = some o.entry → s.objectAt p o.entry = some o → o.part = p →
    (s.moveBlocked m = true → exec (.tierMoveComplete p k) s = .next s) ∧
    (s.moveBlocked m = false → apart m.old m.new m.size → m.old % 16 = 0 → m.new % 16 = 0 → m.size % 16 = 0 →
      o.entry + 64 ≤ 2 ^ 40 → (∀ b ∈ [m.old, m.new], o.entry + 64 ≤ b ∨ b + m.size ≤ o.entry) →
      ∃ t, exec (.tierMoveComplete p k) s = .next t ∧ t.moves = s.moves.filter (fun x => x.id != k) ∧
        (∀ a, a < o.entry + 40 ∨ o.entry + 64 ≤ a → t.byte a = s.movedByte m.old m.new m.size a) ∧
        t.word64 (o.entry + 56) = (if o.due = true then BitVec.ofNat 64 o.age else s.word64 (o.entry + 56)) ∧
        (∀ e ∈ t.tlb, e.base < m.old ∨ m.old + m.size ≤ e.base) ∧
        (o.st = .promoting → { o with st := .basin, sampled := 0, due := false } ∈ t.objects ∧
          t.word64 (o.entry + 40) = BitVec.ofNat 64 (2 ^ 32 * o.die + o.off) ∧
          t.word64 (o.entry + 48) = setBits (s.word64 (o.entry + 48)) 63 56 2) ∧
        (o.st = .demoting → (∀ x ∈ t.objects, ¬(x.part = p ∧ x.entry = o.entry)) ∧
          t.word64 (o.entry + 40) = s.word64 (o.entry + 40) ∧
          t.word64 (o.entry + 48) = setBits (s.word64 (o.entry + 48)) 63 56 0))) ∧
  (∀ (p k : Nat) (s : State), (∀ m ∈ s.moves, m.id ≠ k) → exec (.tierMoveComplete p k) s = .next s) ∧
  ∀ (p k : Nat) (s : State),
    (s.objectAt p k = none → exec (.tierAgeSample p k) s = .next s) ∧
    ∀ o, s.objectAt p k = some o →
      (o.due = false → exec (.tierAgeSample p k) s = .next s) ∧
      (o.due = true → k + 64 ≤ 2 ^ 40 → o.st ≠ .hbm → ∃ t, exec (.tierAgeSample p k) s = .next t ∧
        { o with due := false } ∈ t.objects ∧ t.moves = s.moves ∧
        s.EntryNow t k (s.word64 (k + 40)) (s.word64 (k + 48)) (BitVec.ofNat 64 o.age))

/-! ### Power, errors, boot, the host and the links -/

/-- Charge balance, boost and retention sleep (21 R401, R402; 23 R412 to R418), with hardware errors (21 R400; 24 R436): the holds of
a window, the permits of an interval, which clusters sleep and how their groups wake; what an error poisons, counts or ends; and
the event record. The numbers that the device estimates are free; that the pool's gain follows the grants is the model's reading. -/
def Obligations.PowerAndErrors : Prop :=
  (∀ (die pair : Nat) (s : State), die < 8 → pair < 6 →
    let e := 12 * die + 2 * pair
    let est (k : Nat) : Nat := (s.cluster (12 * die + k)).est
    let w := s.reg (.cbal die pair)
    let uneven (heavy light : Nat) : Prop := heavy < 10 * (heavy - light)
    let hv := if est (2 * pair + 1) ≤ est (2 * pair) then 2 * pair else 2 * pair + 1
    let lt := 4 * pair + 1 - hv
    let both : List Nat := [2 * pair, 2 * pair + 1]
    (s.now % 32 ≠ 0 ∨ (s.cluster e).window = s.now → exec (.cbalWindow die pair) s = .next (s.actPair die pair)) ∧
    (s.now % 32 = 0 → (s.cluster e).window ≠ s.now →
      exec (.cbalWindow die pair) s = .next ((s.actPair die pair).judgePair die pair s.now)) ∧
    (
      let t := s.judgePair die pair s.now
      let rises (k : Nat) : Bool := bits w 23 16 != 0 && decide (bits w 23 16 * Config.fullLoad die k <
        64 * ((s.cluster (12 * die + k)).coming - est k))
      { t with clusters := s.clusters, regs := s.regs } = s ∧ (∀ j, j ≠ e → j ≠ e + 1 → t.cluster j = s.cluster j) ∧
      (∀ k ∈ both, let c := s.cluster (12 * die + k)
        t.cluster (12 * die + k) = { c with
          est := 0, shares := [], prevEst := c.est, prevShares := c.shares, ballast := 0, window := s.now
          lighter := k == lt && decide (uneven (est hv) (est lt)), heldIn := rises k
          hold := if rises k = true then some (c.cycle / 5000000 + 64) else c.hold }) ∧
      ((∀ k ∈ both, rises k = false) → t.regs = s.regs) ∧
      ((∃ k ∈ both, rises k = true) → s.SetsReg { s with regs := t.regs } (.cbal die pair)
        (setBits w 39 24 (min 0xFFFF (bits w 39 24 + (both.filter rises).length))))) ∧
    (
      let t := s.actPair die pair
      ((∀ k ∈ both, (s.cluster (12 * die + k)).lighter = false) → t = s) ∧
      ∀ k ∈ both, ∀ j ∈ both, j ≠ k → (s.cluster (12 * die + k)).lighter = true → (s.cluster (12 * die + j)).lighter = false →
        let c := s.cluster (12 * die + k)
        let d := s.cluster (12 * die + j)
        let room := bits w 7 0 * Config.slots die k / 256
        let need := (9 * d.est - 10 * c.est + (10 * Config.ballastCharge - 1)) / (10 * Config.ballastCharge)
        let n := min need (room - c.ballast)
        let after := c.est + n * Config.ballastCharge
        let holds := room ≤ c.ballast + n ∧ uneven d.est after ∧ d.heldIn = false
        { t with clusters := s.clusters, regs := s.regs, energy := s.energy } = s ∧
        (∀ i, i ≠ e → i ≠ e + 1 → t.cluster i = s.cluster i) ∧
        t.cluster (12 * die + k) = { c with est := after, ballast := c.ballast + n } ∧
        (¬holds → t.cluster (12 * die + j) = d ∧ t.regs = s.regs) ∧
        (holds → t.cluster (12 * die + j) = { d with hold := some (d.cycle / 5000000 + 64), heldIn := true } ∧
          s.SetsReg { s with regs := t.regs } (.cbal die pair) (setBits w 39 24 (min 0xFFFF (bits w 39 24 + 1)))))) ∧
  (∀ (s : State) (u : Nat) (g : Group) (w : Dword), u < 12288 → (s.reg (.ctxstat g.ctx)).getLsbD 0 = false →
    let t := s.chargeInstr u g w
    let n := ((List.range 64).filter fun L => (g.active (headOf w)).getLsbD L).length * Config.charge (bits w 63 52)
    let c := s.cluster (clusterOf (coreOf u))
    { t with clusters := s.clusters, energy := s.energy } = s ∧
    (∀ j, t.cluster j = if j = clusterOf (coreOf u) then
      { c with est := c.est + n, shares := asetD 0 c.shares g.ctx (agetD 0 c.shares g.ctx + n) } else s.cluster j) ∧
    ∀ k, agetD 0 t.energy k = agetD 0 s.energy k + if k = g.ctx then Config.energyOf n else 0) ∧
  (∀ (s : State) (ns : Nat),
    let t := s.turnTick ns
    t.now = min (s.now + ns) ((s.now / 5000 + 1) * 5000) ∧
    (s.now % 5000 = 0 → ∀ d, d < 8 → (t.die d).boundary = s.now) ∧
    ∀ k, k < 96 → (t.cluster k).lag ≤ 2 ∧ s.now - (s.cluster k).lag ≤ t.now - (t.cluster k).lag) ∧
  (∀ (s : State) (ns d : Nat),
    (s.timerSet = true → s.turnTimer (.set ns) = s) ∧
    (s.timerSet = false → (s.turnTimer (.set ns)).now = ns ∧ (s.turnTimer (.set ns)).timerSet = true) ∧
    s.turnTimer (.rate d) = if 999800 ≤ d ∧ d ≤ 1000200 then { s with drift := d } else s) ∧
  (∀ (die k : Nat) (s : State), ∃ t, exec (.cbalHoldEnd die k) s = .next t ∧ { t with clusters := s.clusters } = s ∧
    ∀ j, t.cluster j = if j = 12 * die + k then { s.cluster j with hold := none } else s.cluster j) ∧
  (∀ (die : Nat) (s : State),
    let d := s.die die
    let claims (k : Nat) : Prop := k < 12 ∧ (s.reg (.boost die)).getLsbD k = true ∧
      ∃ x ∈ s.groups, x.1 < 12288 ∧ clusterOf (coreOf x.1) = 12 * die + k
    let cs := s.claims die
    let order := cs.filter (fun k => d.ptr ≤ k) ++ cs.filter (fun k => k < d.ptr)
    let granted := if cs.length ≤ d.permits then cs else order.take d.permits
    (∀ k, k ∈ cs ↔ claims k) ∧ cs.Nodup ∧
    (s.now % 5000 ≠ 0 ∨ d.boundary = s.now → exec (.boostInterval die) s = .next s) ∧
    (s.now % 5000 = 0 → d.boundary ≠ s.now → ∃ t, exec (.boostInterval die) s = .next t ∧
      { t with clusters := s.clusters, dies := s.dies } = s ∧ (∀ j, j ≠ die → t.die j = s.die j) ∧
      (∀ j, (∀ k, k < 12 → j ≠ 12 * die + k) → t.cluster j = s.cluster j) ∧
      (∀ k, k < 12 → t.cluster (12 * die + k) = { s.cluster (12 * die + k) with
        speed := if k ∈ granted then 20 else if k ∈ cs ∧ (s.cluster (12 * die + k)).speed = 20 then 19 else 18 }) ∧
      (t.die die).power = d.power ∧ (t.die die).boundary = s.now ∧
      (t.die die).noClaim = (if cs = [] then d.noClaim + 1 else 0) ∧
      (t.die die).permits = min 64 (d.permits - granted.length + if s.now % 20000 = 0 ∧ 4 ≤ d.noClaim then 1 else 0) ∧
      (cs.length ≤ d.permits → (t.die die).ptr = d.ptr) ∧
      (∀ k, d.permits < cs.length → granted.getLast? = some k → (t.die die).ptr = (k + 1) % 12))) ∧
  (∀ (die k : Nat) (s : State),
    let i := 12 * die + k
    let c := s.cluster i
    let ctl := s.reg (.retctl die)
    let may := ctl.getLsbD k = true ∧ c.asleep = false ∧ c.offline = false ∧ s.clusterIdle i = true ∧
      c.idleSince + 1000 * bits ctl 63 32 ≤ s.now ∧
      ∀ x ∈ s.groups, x.1 < 12288 → clusterOf (coreOf x.1) = i → x.2.ldbc = false
    (¬may → exec (.retentionEnter die k) s = .next s) ∧
    (may → ∃ t, exec (.retentionEnter die k) s = .next t ∧ { t with clusters := s.clusters } = s ∧
      ∀ j, t.cluster j = if j = i then { c with asleep := true } else s.cluster j) ∧
    (ctl.getLsbD k = false → k < 12 → s.wakes i = true) ∧
    (∀ q ∈ s.cells, ∀ core, q.2.wantSave = true → q.2.core = some core → clusterOf core = i → s.wakes i = true) ∧
    (∀ x ∈ s.groups, x.1 < 12288 → clusterOf (coreOf x.1) = i → ((s.reg (.ctxstat x.2.ctx)).getLsbD 0 = true ∨
      ∃ n, x.2.wait = .sleep n ∧ n ≤ s.now ∧ x.2.taking = none) → s.wakes i = true) ∧
    (∀ failed, c.asleep = false ∨ s.wakes i = false → exec (.retentionWake die k failed) s = .next s) ∧
    (c.asleep = true → s.wakes i = true → (∀ x ∈ s.groups, ∀ j, x.2.wait ≠ .rendezvous j) → ∃ t, exec (.retentionWake die k []) s = .next t ∧
      { t with groups := s.groups, cores := s.cores, clusters := s.clusters } = s ∧
      (∀ j, t.cluster j = if j = i then { c with asleep := false, offline := false, idleSince := s.now } else s.cluster j) ∧
      ∀ u g, s.group? u = some g →
        (u < 12288 → clusterOf (coreOf u) = i → (∀ n, g.wait ≠ .exit ∧ g.wait ≠ .drain n) → ∃ g', t.group? u = some g' ∧
          g.SameRegs g' ∧ g'.pc = g.region.pcs ∧ g'.region = g.region ∧ g'.buf = [] ∧ g'.clause = none ∧ g'.rstack = g.rstack ∧
          ((∀ r, g.wait ≠ .fault r) → (∀ l, g.wait ≠ .stores l) → g'.wait = .no)) ∧
        (¬(u < 12288 ∧ clusterOf (coreOf u) = i) → t.group? u = some g)) ∧
    ∀ failed, failed ≠ [] → c.asleep = true → s.wakes i = true → ∃ t, exec (.retentionWake die k failed) s = .next t ∧
      (t.cluster i).offline = true ∧ (t.cluster i).asleep = false ∧
      ∀ q ∈ t.cells, ∀ core, q.2.core = some core → clusterOf core = i → q.2.wantSave = true) ∧
  (∀ (s : State) (site : EccSite),
    (s.siteDie site = none ↔ (∃ pa, site = .memory pa ∧ basinOf pa = none) ∨ (∃ k n, site = .operandBuffer k n ∧
      (s.cell? k).bind (·.core) = none)) ∧
    (∀ i p, p < 8 → i < 8 → (t : State) → t = s.countSite i site →
      t.reg (.errcnt p i) = if s.partOpen p = true ∧ (s.siteDie site = none ∨ ∃ d, s.siteDie site = some d ∧
          s.partOfDie d = some p) then
        BitVec.ofNat 64 (min (2 ^ 64 - 1) ((s.reg (.errcnt p i)).toNat + 1)) else s.reg (.errcnt p i)) ∧
    exec (.eccCorrectable site) s = .next (s.countSite 0 site)) ∧
  (∀ (s : State) (pa c n k : Nat) (u : Nat),
    exec (.eccUncorrectable (.cache c)) s = .next (s.countSite 1 (.cache c)) ∧
    (∃ t, exec (.eccUncorrectable (.memory pa)) s = .next t ∧ (∀ a, t.byte a = s.byte a) ∧ t.groups = s.groups ∧
      ∀ g, t.poison.elem g = (s.poison.elem g || g == pa / 16)) ∧
    (∀ x, s.cell? c = some x → ∃ t x', exec (.eccUncorrectable (.operandBuffer c n)) s = .next t ∧ t.cell? c = some x' ∧
      { x' with sharePoison := x.sharePoison } = x ∧ ∀ g, x'.sharePoison.elem g = (x.sharePoison.elem g || g == n)) ∧
    (∀ g, s.group? u = some g → exec (.eccUncorrectable (.group u)) s =
        .next (s.takeTrap u ⟨causeState, g.clauseAddr, g.clauseIdx, 0, g.headRun⟩) ∧
      ∃ t g', exec (.eccUncorrectable (.accumulator u k)) s = .next t ∧ t.group? u = some g' ∧
        { g' with accPoison := g.accPoison } = g ∧ ∀ j, g'.accBad j = (g.accBad j || j == k)) ∧
    (s.group? u = none → exec (.eccUncorrectable (.group u)) s = .next s ∧
      exec (.eccUncorrectable (.accumulator u k)) s = .next s)) ∧
  (∀ (pa : Nat) (s : State),
    (bits (s.reg .patrol) 31 0 = 0 ∨ 2 ^ 40 ≤ pa → exec (.patrolScrub pa) s = .next s) ∧
    (bits (s.reg .patrol) 31 0 ≠ 0 → pa < 2 ^ 40 → ∃ t, exec (.patrolScrub pa) s = .next t ∧ t.groups = s.groups ∧
      (s.openParts = [] → (∀ a, t.byte a = s.byte a) ∧ ∀ g, (s.poison.elem g = true → t.poison.elem g = true) ∧
        (t.poison.elem g = true → s.poison.elem g = true ∨ g / 8 = pa / 128)))) ∧
  (∀ s : State, ∃ t, exec .timerDisciplineLost s = .next t ∧ t.now = s.now ∧ t.groups = s.groups ∧
    t = s.logAll srcBilael 0x11 (s.now % 2 ^ 64)) ∧
  ∀ (s : State) (p src type data : Nat), p < 8 →
    let k := src * 8 + p
    let ctl := s.reg (.evqctl p)
    let n := 2 ^ bits ctl 5 1
    let tail := bits ctl 63 32
    let off := ctl.getLsbD 0 = false ∨ (tail + 2 ^ 32 - bits (s.reg (.evqhead p)) 31 0) % 2 ^ 32 = n
    let at_ := (s.reg (.evqbase p)).toNat + 32 * (tail % n)
    let rec_ := s.now % 2 ^ 64 + 2 ^ 64 * src + 2 ^ 80 * agetD 0 s.evSeq k + 2 ^ 96 * agetD 0 s.evLost k + 2 ^ 112 * type +
      2 ^ 128 * data
    let t := s.logTo p src type data
    agetD 0 t.evSeq k = (agetD 0 s.evSeq k + 1) % 65536 ∧ t.groups = s.groups ∧
    (off → (∀ a, t.byte a = s.byte a) ∧ agetD 0 t.evLost k = 1 ∧
      t.reg (.errcnt p 4) = BitVec.ofNat 64 (min (2 ^ 64 - 1) ((s.reg (.errcnt p 4)).toNat + 1))) ∧
    (¬off → agetD 0 t.evLost k = 0 ∧ bits (t.reg (.evqctl p)) 63 32 = (tail + 1) % 2 ^ 32 ∧
      ∀ a, t.byte a = if at_ ≤ a ∧ a < at_ + 32 then BitVec.ofNat 8 (rec_ / 2 ^ (8 * (a - at_))) else s.byte a)

/-- The boot, the mailbox and a die's power (24 R428 to R435), the host's writes (01 R27; 02 R56), the global packets and the links
(10 R255 to R259), and bound violations (00 R9). What memory holds after a reset or a power cycle, how a host write without a context
is addressed, and that a foreign write to the register space is ignored, are the model's choices (log entries 20, 23, 24); the
device's own signatures are free, and the standards that the spec names are the published ones (log entry 26). -/
def Obligations.BootHostAndLinks : Prop :=
  (∀ s : State, ∃ t, exec .packageReset s = .next t ∧ (∀ r, t.reg r = r.resetVal) ∧ t.groups = [] ∧ t.packets = [] ∧ t.mem = [] ∧
    t.poison = [] ∧ t.full = [] ∧ t.flash = s.flash ∧ t.now = 0 ∧ t.wiring = s.wiring ∧ (t.safeMode = true ↔ s.wiring ≠ []) ∧
    (t.fwUp = true ↔ firmwareOk s.flash = true ∧ s.wiring = []) ∧
    (∀ n, s.command 6 = some n → exec .reset s = .next t) ∧
    (∀ i, i ≠ 0 → agetD 0 t.mr i = 0) ∧
    agetD 0 t.mr 0 = if firmwareOk s.flash = true ∧ s.wiring = [] then
      sha384 (natLE 0 48 ++ natLE (sha384 (s.flash.take (512 + leNat ((s.flash.drop 16).take 8)))).toNat 48) else 0) ∧
  (∀ (s : State) (i : Nat) (d : BitVec 384),
    let up := s.fwUp = true ∧ s.safeMode = false
    let meas := (Reg.straps :: (List.range 8).map Reg.hmap).flatMap fun r => natLE (s.reg r).toNat 8
    let t := s.turnFirmware .measure
    let e := s.turnFirmware (.extend i d)
    (¬up → t = s ∧ e = s) ∧ { t with mr := s.mr } = s ∧ { e with mr := s.mr } = s ∧
    (up → agetD 0 s.mr 1 = 0 → ∀ j, agetD 0 t.mr j = if j = 1 then sha384 (natLE 0 48 ++ natLE (sha384 meas).toNat 48)
      else agetD 0 s.mr j) ∧
    (up → ∀ j, agetD 0 e.mr j = if j = i ∧ 3 ≤ i ∧ i ≤ 7 then
      sha384 (natLE (agetD 0 s.mr i).toNat 48 ++ natLE d.toNat 48) else agetD 0 s.mr j)) ∧
  (∀ img : List Byte,
    let f (o n : Nat) := leNat ((img.drop o).take n)
    ¬(f 0 4 = 0x5A4B4657 ∧ f 4 4 = 1 ∧ f 12 4 = 0 ∧ f 16 8 % 16 = 0 ∧ f 16 8 ≤ 0x4000000 ∧ f 456 56 = 0 ∧
      Config.fusedSvn.toNat ≤ f 8 4 ∧ 512 + f 16 8 + 384 + 16224 ≤ img.length ∧
      sha384 ((img.drop 24).take 384) = Config.fusedRsa ∧ sha384 ((img.drop 408).take 48) = Config.fusedSlh) →
    firmwareOk img = false) ∧
  (∀ (code : Nat) (s : State),
    (∀ n, s.command code = some n ↔ (s.reg .bmstat).getLsbD 0 = true ∧ bits (s.reg .bmcmd) 7 0 = code ∧
      n = bits (s.reg .bmcmd) 63 16) ∧
    let answers (t : State) (r : Nat) : Prop := t.reg .bmstat = BitVec.ofNat 64 (256 * r) ∧ t.reg .bmcmd = 0
    (s.command 1 = none → exec .getreport s = .next s) ∧
    (∀ n, s.command 1 = some n → ∃ t, exec .getreport s = .next t ∧ answers t 0 ∧ { t with regs := s.regs } = s ∧
      t.bufferBytes 465 = s.bufferBytes 48 ++ ((List.range 8).flatMap fun i => natLE (agetD 0 s.mr i).toNat 48) ++
        (List.range 16).map (Config.serial.getD · 0) ++ natLE (leNat ((s.flash.drop 4).take 4)) 4 ++
        natLE (leNat ((s.flash.drop 8).take 4)) 4 ++ natLE (s.reg .gident).toNat 8 ++ [if s.safeMode = true then 1 else 0]) ∧
    (s.command 4 = none → exec .readerr s = .next s) ∧
    (∀ n, s.command 4 = some n → ∃ t, exec .readerr s = .next t ∧ answers t 0 ∧ { t with regs := s.regs } = s ∧
      ∀ p i, p < 8 → i < 8 → t.reg (.bmbuf (8 * p + i)) = if s.partOpen p = true then s.reg (.errcnt p i) else 0) ∧
    (s.command 6 = none → exec .reset s = .next s) ∧
    (∀ x : Dword, (∀ n, s.command 5 = some n → n ≠ x.toNat) → exec (.setpatrol x) s = .next s) ∧
    (∀ x : Dword, s.command 5 = some x.toNat → ∃ t, exec (.setpatrol x) s = .next t ∧ answers t 0 ∧
      t.reg .patrol = BitVec.ofNat 64 (x.toNat % 2 ^ 32) ∧ { t with regs := s.regs } = s) ∧
    (∀ pa, (∀ n, s.command 2 = some n → n ≠ pa) → exec (.loadimg pa) s = .next s) ∧
    (∀ pa, s.command 2 = some pa →
      (s.openParts ≠ [] → ∃ t, exec (.loadimg pa) s = .next t ∧ answers t 1 ∧ { t with regs := s.regs } = s) ∧
      (s.openParts = [] → let n := 512 + leNat (s.bytes (pa + 16) 8) + 384 + 16224
        (pa + 512 ≤ 2 ^ 40 → pa + n ≤ 2 ^ 40 → leNat (s.bytes (pa + 16) 8) ≤ 0x4000000 → ∃ t, exec (.loadimg pa) s = .next t ∧
          if firmwareOk (s.bytes pa n) = true then answers t 0 ∧ t.flash = s.bytes pa n ∧ t.fwUp = !s.safeMode ∧ s.SameMem { t with regs := s.regs }
          else answers t 3 ∧ { t with regs := s.regs } = s) ∧
        (2 ^ 40 < pa + 512 ∨ 2 ^ 40 < pa + n ∨ 0x4000000 < leNat (s.bytes (pa + 16) 8) →
          ∃ t, exec (.loadimg pa) s = .next t ∧ answers t 3 ∧ { t with regs := s.regs } = s))) ∧
    ∀ die, die < 8 →
      let asked (on : Bool) := ∃ n, s.command 3 = some n ∧ n.testBit 0 = on ∧ n / 2 % 8 = die
      let used := (∃ x ∈ s.groups, x.1 < 12288 ∧ unitDie x.1 = die) ∨ s.dieSlots die ≠ [] ∨
        ∃ o ∈ s.objects, o.die = die ∧ o.st ≠ .hbm
      let ends (i : Instr) (r : Nat) : Prop := ∃ t, exec i s = .next t ∧ answers t r ∧ { t with regs := s.regs } = s
      let cycles (i : Instr) (on : Bool) : Prop := ∃ t, exec i s = .next t ∧ answers t 0 ∧ (t.die die).power = on ∧
        t.groups = s.groups ∧ (∀ d, d ≠ die → t.die d = s.die d) ∧
        (∀ a, t.byte a = if 2 ^ 40 + die * 2 ^ 28 ≤ a ∧ a < 2 ^ 40 + (die + 1) * 2 ^ 28 then 0 else s.byte a) ∧
        (∀ g, 2 ^ 36 + die * 2 ^ 24 ≤ g → g < 2 ^ 36 + (die + 1) * 2 ^ 24 → t.isFull g = false ∧ t.poison.elem g = false) ∧
        t.dieSlots die = [] ∧ ∀ c, c / 48 = die → (t.core c).l1 = [] ∧ (t.core c).kcache = [] ∧ (t.core c).icache = []
      (¬asked false → exec (.diepowerOff die) s = .next s) ∧ (¬asked true → exec (.diepowerOn die) s = .next s) ∧
      (asked false → (s.die die).power = false → ends (.diepowerOff die) 0) ∧
      (asked false → (s.die die).power = true → used → ends (.diepowerOff die) 1) ∧
      (asked false → (s.die die).power = true → ¬used → cycles (.diepowerOff die) false) ∧
      (asked true → (s.die die).power = true → ends (.diepowerOn die) 0) ∧
      (asked true → (s.die die).power = false → cycles (.diepowerOn die) true)) ∧
  (∀ (g : Agent) (via : HostVia) (addr : Dword) (bytes : List Byte) (s : State),
    let i := Instr.hostWrite g via addr bytes
    let put (pa : Nat) (a : Nat) : Option Byte := if pa ≤ a ∧ a < pa + bytes.length then bytes[a - pa]? else none
    let off := addr.toNat
    let reg (pa : Nat) : Prop :=
      ((bytes.length ≠ 8 ∨ pa % 8 ≠ 0 ∨ regAt pa = none) → exec i s = .next s) ∧
      ∀ r, bytes.length = 8 → pa % 8 = 0 → regAt pa = some r → exec i s =
        .next (if s.mayWrite g r = true then s.writeReg g r (BitVec.ofNat 64 (leNat bytes)) else s)
    let locked := (s.reg .illock).getLsbD 0 = true
    (g = .fw ∨ g = .bilael ∨ (∃ f, g = .dev f) → exec i s = .next s) ∧
    (via = .bar0 → g = .pf → (0x400000 ≤ off → exec i s = .next s) ∧ (off < 0x400000 → reg (regBase + off))) ∧
    (∀ f, via = .bar0 → g = .vf f →
      (off < 0x1000 → reg (regBase + 0x300000 + 0x1000 * f + off)) ∧
      (0x1000 ≤ off → off < 0x2000 → (s.partOfFn f = none → exec i s = .next s) ∧
        ∀ p, s.partOfFn f = some p → reg (regBase + 0x200000 + 0x1000 * p + (off - 0x1000))) ∧
      (0x10000 ≤ off → off < 0x20000 → (s.ctxFn ((off - 0x10000) / 256) ≠ f → exec i s = .next s) ∧
        (s.ctxFn ((off - 0x10000) / 256) = f → reg (regBase + 0x100000 + (off - 0x10000)))) ∧
      ((0x2000 ≤ off ∧ off < 0x10000) ∨ 0x20000 ≤ off → exec i s = .next s)) ∧
    (via = .memory → (∃ f, g = .vf f) → exec i s = .next s) ∧
    (via = .memory → g = .pf →
      (inRegs off = true ∨ s.physOk off bytes.length = false ∨ (inHbm off = true ∧ ¬locked) → exec i s = .next s) ∧
      (inRegs off = false → s.physOk off bytes.length = true → (inHbm off = false ∨ locked) →
        ∃ t, exec i s = .next t ∧ s.Wrote t (put off) ∧ t.groups = s.groups)) ∧
    ∀ k, via = .context k →
      ((∃ f, g = .vf f ∧ s.ctxFn k ≠ f) → exec i s = .next s) ∧
      ∀ pa kd, g = .pf ∨ g = .vf (s.ctxFn k) →
        s.devRange k accEngWrite (s.ctxSup k) addr bytes.length = .ok [⟨pa, bytes.length, false, kd⟩] →
        (inRegs pa = true → reg pa) ∧
        (inRegs pa = false → inHbm pa = true → ¬locked → exec i s = .next s) ∧
        ((∀ j, j < bytes.length → inRegs (pa + j) = false) → inRegs pa = false → pa + bytes.length ≤ 2 ^ 63 →
          (inHbm pa = false ∨ locked) → ∃ t, exec i s = .next t ∧ s.Wrote t (put pa) ∧ t.groups = s.groups)) ∧
  (∀ (port : Nat) (s : State),
    (∃ t, exec (.izeusLinkTrain port) s = .next t ∧ { t with links := s.links } = s ∧
      ∀ p, t.links.elem p = (s.links.elem p && p != port)) ∧
    ((∀ q ∈ s.globals, ¬(q.out = true ∧ q.port = port)) → ∃ t, exec (.izeusLinkFail port) s = .next t ∧
      { t with links := s.links, draw := s.draw } = s ∧ ∀ p, t.links.elem p = (s.links.elem p || p == port)) ∧
    ∃ t, exec (.izeusLinkFail port) s = .next t) ∧
  (∀ a b, a < 16 → b < 16 → hops a b = (if a / 4 = b / 4 then 0 else 1) + (if a % 4 = b % 4 then 0 else 1) ∧
    (∀ m, (wayOf m a b).length = hops a b) ∧ (hops a b = 1 ↔ ∃ p, p < 6 ∧ neighbour a p = some b)) ∧
  (∀ (s : State) (e pa d o : Nat), e < 16 → d < 8 → inHbm pa = false → basinOf pa = some (d, o) →
    s.homeFromStack e pa ∈ attachedAll d ∧ ∀ k ∈ attachedAll d, hops e (s.homeFromStack e pa) < hops e k ∨
      (hops e (s.homeFromStack e pa) = hops e k ∧ s.homeFromStack e pa ≤ k)) ∧
  (∀ (k : Nat) (s : State), s.globals.find? (fun q => q.id == k) = none → exec (.globalRoute k) s = .next s) ∧
  (∀ (k : Nat) (s : State) (q : GlobPacket), s.globals.find? (fun q => q.id == k) = some q →
    let i := Instr.globalRoute k
    let id := s.reg .gident
    let pa := q.addr.toNat % 2 ^ 45
    let here := bits q.addr 62 55 = bits id 21 14 ∧ bits q.addr 54 49 = bits id 13 8 ∧ bits q.addr 48 45 = bits id 7 4
    let j := if bits q.addr 62 55 ≠ bits id 21 14 then bits q.addr 62 55 else if bits q.addr 54 49 ≠ bits id 13 8 then
      256 + bits q.addr 54 49 else 320 + bits q.addr 48 45
    let e := bits (s.reg (.route q.port (j / 8))) (8 * (j % 8) + 7) (8 * (j % 8))
    let fails := e < 128 ∨ e % 32 ∈ s.links ∨ q.crossings = 15
    (q.out = true → exec i s = .next s) ∧
    (q.out = false → q.home = none →
      (s.globalClear q = false → exec i s = .next s) ∧
      (s.globalClear q = true → ¬here → fails → exec i s = .next (s.routeFail q q.port)) ∧
      (s.globalClear q = true → ∀ home port n, (here ∧ home = s.homeFromStack (q.port / 2) pa ∧ port = q.port ∧
          n = q.crossings) ∨ (¬here ∧ ¬fails ∧ home = e % 32 / 2 ∧ port = e % 32 ∧ n = q.crossings + 1) →
        let room := (s.seqOf q.src home + 65536 - s.doneOf q.src home) % 65536 < 256 ∧
          s.affords q.payer .release (s.globalSize q) = true
        (¬room → exec i s = .next s) ∧
        (room → ∃ t q', exec i s = .next t ∧
          { t with globals := s.globals, uid := s.uid, seqs := s.seqs, buckets := s.buckets } = s ∧
          t.globals = modifyFirst (fun x => x.id == k) (fun _ => q') s.globals ∧
          { q' with home := q.home, seq := q.seq, trip := q.trip, port := q.port, crossings := q.crossings } = q ∧
          q'.home = some home ∧ q'.port = port ∧ q'.crossings = n ∧ q'.seq = s.seqOf q.src home ∧
          q'.trip.way = (if home < 16 then wayOf 0 (q.port / 2) home else []) ∧
          t.seqOf q.src home = (s.seqOf q.src home + 1) % 65536))) ∧
    (q.out = false → ∀ home, q.home = some home →
      (q.trip.way ≠ [] ∨ q.seq ≠ s.doneOf q.src home → exec i s = .next s) ∧
      (q.trip.way = [] → q.seq = s.doneOf q.src home →
        let s1 := s.doneSeq q.src home
        let gone := s.globals.filter fun x => x.id != k
        (here → ∀ data rel, q.what = .foreign (.write data rel) → s.physOk pa data.length = true → inRegs pa = false →
          inRegs (pa + data.length) = false → ∃ t, exec i s = .next t ∧ t.globals = gone ∧ t.groups = s.groups ∧
          ∀ a, t.byte a = if pa ≤ a ∧ a < pa + data.length then data.getD (a - pa) 0 else s.byte a) ∧
        (here → ∀ n, q.what = .foreign (.read n) → s.physOk pa n = true → inRegs pa = false → inRegs (pa + n) = false →
          exec i s = .next { s1 with
            globals := gone, outbox := s.outbox ++ [⟨q.src % 32, (q.src - 0x10000) / 32, false, s.bytes pa n⟩] }) ∧
        (¬here → q.port ∈ s.links → exec i s = .next (s1.routeFail q q.port)) ∧
        (¬here → q.port ∉ s.links → 0x10000 ≤ q.src → exec i s = .next { s1 with globals := gone }) ∧
        (¬here → q.port ∉ s.links → q.src < 0x10000 → exec i s = .next { s1 with
          globals := modifyFirst (fun x => x.id == k) (fun x => { x with out := true }) s.globals })))) ∧
  (∀ (s : State) (q : GlobPacket) (port : Nat),
    let gone := s.globals.filter fun x => x.id != q.id
    (∀ p, q.what = .store p → p.body ≠ .marker → q.src / 0x1000 ≠ 3 → ∃ a t, s.routeFail q port = t ∧ t.globals = gone ∧
      t.acks = s.acks ++ [a] ∧ a.stamp = p.stamp ∧ a.unit = p.unit ∧ a.uid = p.uid ∧ a.tok = p.tok ∧ t.groups = s.groups) ∧
    (∀ u uid tok lane g p l, q.what = .lane u uid tok lane → s.group? u = some g → g.uid = uid →
      g.pend.find? (fun p => p.tok == tok) = some p → p.lanes.find? (fun l => l.lane == lane) = some l → g.taking = none →
      g.wait ≠ .exit → s.routeFail q port = State.takeTrap
        (State.putGroup { s with globals := gone } u (g.dropLane tok lane)) u ⟨causePhys, p.addr, p.idx, l.addr, p.act⟩)) ∧
  (∀ (s : State) (q : GlobPacket) (p : Packet) (data : List (Nat × Byte)) (pa : Nat),
    s.globals.find? (fun x => x.id == q.id && x.out) = some q → q.what = .store p → p.body = .write data [] [] → p.pa = pa →
    p.glob.isSome = true → inRegs pa = false → (data.map (·.1)).Nodup → (∀ x ∈ data, 2 ^ 63 ≤ x.1) →
    let t := s.turnRemote q.id 0
    t.globals = s.globals.filter (fun x => x.id != q.id) ∧ (∀ a, t.byte a = s.byte a) ∧
    ∀ a, t.farByte a = ((data.find? fun x => x.1 == a).map (·.2)).getD (s.farByte a)) ∧
  ∀ (s : State) (stack port mech : Nat) (ns bound : BitVec 32) (src : BitVec 16),
    (∃ t, exec (.linkFrameRetry stack port) s = .next t ∧ (∀ p, p < 8 → t.reg (.errcnt p 3) = if s.partOpen p = true then
        BitVec.ofNat 64 (min (2 ^ 64 - 1) ((s.reg (.errcnt p 3)).toNat + 1)) else s.reg (.errcnt p 3)) ∧
      { t with regs := s.regs } = s) ∧
    (∃ t, exec (.linkFault stack port) s = .next t ∧ t.safeMode = true ∧
      { t with safeMode := s.safeMode } = s.logAll srcBilael 0x12 (stack + 16 * port)) ∧
    ∃ t, exec (.boundViolation mech ns bound src) s = .next t ∧ t.groups = s.groups ∧
      t = (s.logAll srcBilael 0x10 (mech + 2 ^ 8 * ns.toNat + 2 ^ 40 * bound.toNat + 2 ^ 72 * src.toNat)).countAll 2 1
end

