-- ==== Sys2Proof/Laws/Assoc.lean ====
section
/-! SUPPORT. The tables of State: what a write gives, what it leaves, and that every operation keeps keys rising; and the
same of memory, with its canonical form. -/

namespace Sys2Proof.Machine

variable {α : Type}

@[simp] theorem aget_nil (k : Nat) : aget ([] : Assoc α) k = none := rfl

theorem aget_aput (t : Assoc α) (k j : Nat) (v : α) : aget (aput t k v) j = if k = j then some v else aget t j := by
  induction t with
  | nil => simp [aput, aget]
  | cons x t ih =>
    obtain ⟨i, w⟩ := x
    simp only [aput]
    split
    · simp [aget]
    · split
      · subst_vars; by_cases hj : i = j <;> simp [aget, hj]
      · simp only [aget, ih]
        by_cases hi : i = j
        · subst hi; simp [Ne.symm ‹¬i = k›]
        · simp [hi]

@[simp] theorem aget_aput_self (t : Assoc α) (k : Nat) (v : α) : aget (aput t k v) k = some v := by simp [aget_aput]

theorem aget_aput_ne (t : Assoc α) {k j : Nat} (v : α) (h : k ≠ j) : aget (aput t k v) j = aget t j := by
  simp [aget_aput, h]

theorem aget_adel (t : Assoc α) (k j : Nat) : aget (adel t k) j = if k = j then none else aget t j := by
  induction t with
  | nil => simp [adel, aget]
  | cons x t ih =>
    obtain ⟨i, w⟩ := x
    unfold adel at ih ⊢
    rw [List.filter_cons]
    by_cases hik : i = k
    · subst hik
      rw [if_neg (by simp), ih]
      by_cases hij : i = j <;> simp [aget, hij]
    · rw [if_pos (by simpa using hik)]
      simp only [aget, ih]
      by_cases hij : i = j
      · subst hij; simp [Ne.symm hik]
      · simp [hij]

@[simp] theorem agetD_nil (d : α) (k : Nat) : agetD d [] k = d := rfl

theorem agetD_aput (d : α) (t : Assoc α) (k j : Nat) (v : α) :
    agetD d (aput t k v) j = if k = j then v else agetD d t j := by
  simp only [agetD, aget_aput]; split <;> rfl

theorem agetD_asetD [DecidableEq α] (d : α) (t : Assoc α) (k j : Nat) (v : α) :
    agetD d (asetD d t k v) j = if k = j then v else agetD d t j := by
  simp only [agetD, asetD]
  split
  · subst_vars; simp only [aget_adel]; split <;> rfl
  · simp only [aget_aput]; split <;> rfl

@[simp] theorem agetD_asetD_self [DecidableEq α] (d : α) (t : Assoc α) (k : Nat) (v : α) :
    agetD d (asetD d t k v) k = v := by simp [agetD_asetD]

theorem agetD_asetD_ne [DecidableEq α] (d : α) (t : Assoc α) {k j : Nat} (v : α) (h : k ≠ j) :
    agetD d (asetD d t k v) j = agetD d t j := by simp [agetD_asetD, h]

/-! ### Rising keys -/

theorem arising_tail {x : Nat × α} {t : Assoc α} (h : arising (x :: t) = true) : arising t = true := by
  cases t with
  | nil => rfl
  | cons y t => simp [arising] at h; exact h.2

/-- Every key of a table is above `k`. -/
theorem arising_lt {k : Nat} {v : α} {t : Assoc α} (h : arising ((k, v) :: t) = true) : ∀ x ∈ t, k < x.1 := by
  induction t generalizing k v with
  | nil => simp
  | cons y t ih =>
    obtain ⟨j, w⟩ := y
    simp [arising] at h
    intro x hx
    rcases List.mem_cons.1 hx with rfl | hx
    · exact h.1
    · exact h.1.trans (ih h.2 x hx)

theorem arising_cons {k : Nat} {v : α} {t : Assoc α} (h : arising t = true) (hk : ∀ x ∈ t, k < x.1) :
    arising ((k, v) :: t) = true := by
  cases t with
  | nil => rfl
  | cons y t => simp [arising, h]; exact hk y (by simp)

theorem mem_aput {t : Assoc α} {k : Nat} {v : α} {x : Nat × α} (h : x ∈ aput t k v) : x = (k, v) ∨ x ∈ t := by
  induction t with
  | nil => simpa [aput] using h
  | cons y t ih =>
    simp only [aput] at h
    split at h
    · simpa using h
    · split at h
      · rcases List.mem_cons.1 h with h | h
        · exact .inl h
        · exact .inr (List.mem_cons_of_mem _ h)
      · rcases List.mem_cons.1 h with rfl | h
        · exact .inr (by simp)
        · rcases ih h with h | h
          · exact .inl h
          · exact .inr (List.mem_cons_of_mem _ h)

theorem arising_aput {t : Assoc α} (k : Nat) (v : α) (h : arising t = true) : arising (aput t k v) = true := by
  induction t with
  | nil => rfl
  | cons y t ih =>
    obtain ⟨j, w⟩ := y
    have hl := arising_lt h
    simp only [aput]
    split
    · refine arising_cons h ?_
      intro x hx
      rcases List.mem_cons.1 hx with rfl | hx
      · assumption
      · exact Nat.lt_trans ‹_› (hl x hx)
    · split
      · subst_vars; exact arising_cons (arising_tail h) hl
      · refine arising_cons (ih (arising_tail h)) ?_
        intro x hx
        rcases mem_aput hx with rfl | hx
        · simp only; omega
        · exact hl x hx

theorem arising_adel {t : Assoc α} (k : Nat) (h : arising t = true) : arising (adel t k) = true := by
  induction t with
  | nil => rfl
  | cons y t ih =>
    obtain ⟨j, w⟩ := y
    have ih := ih (arising_tail h)
    unfold adel at ih ⊢
    rw [List.filter_cons]
    split
    · exact arising_cons ih fun x hx => arising_lt h x (List.mem_filter.1 hx).1
    · exact ih

theorem arising_asetD [DecidableEq α] (d : α) {t : Assoc α} (k : Nat) (v : α) (h : arising t = true) :
    arising (asetD d t k v) = true := by
  unfold asetD; split
  · exact arising_adel k h
  · exact arising_aput k v h

/-! ### Memory -/

/-- A read after a write of one byte. -/
theorem memGet_memSet (ep : Assoc Nat) (m : List Host.Cell) (a c : Nat) (b : Byte) :
    memGet ep (memSet ep m a b) c = if a = c then b else memGet ep m c := by
  unfold memGet memSet
  split
  · subst_vars
    rw [show aget (adel m a) c = if a = c then none else aget m c from aget_adel m a c]
    split
    · subst_vars; rfl
    · rfl
  · rw [show aget (aput m a b) c = if a = c then some b else aget m c from aget_aput m a c b]
    split <;> rfl

/-- A write of one byte keeps the canonical form. -/
theorem wf_memSet {ep : Assoc Nat} {m : List Host.Cell} (a : Nat) (b : Byte) (h : Memory.wf ep m = true) :
    Memory.wf ep (memSet ep m a b) = true := by
  simp only [Memory.wf, Bool.and_eq_true, List.all_eq_true] at h ⊢
  unfold memSet
  split
  · exact ⟨arising_adel a h.1, fun x hx => h.2 x (List.mem_filter.1 hx).1⟩
  · refine ⟨arising_aput a b h.1, fun x hx => ?_⟩
    rcases mem_aput hx with rfl | hx
    · simpa using ‹_›
    · exact h.2 x hx

/-- In canonical form, memories that read alike are the same data. -/
theorem arising_ext {t r : Assoc α} (ht : arising t = true) (hr : arising r = true)
    (h : ∀ k, aget t k = aget r k) : t = r := by
  induction t generalizing r with
  | nil =>
    cases r with
    | nil => rfl
    | cons y r => have := h y.1; simp [aget] at this
  | cons x t ih =>
    obtain ⟨j, v⟩ := x
    cases r with
    | nil => have := h j; simp [aget] at this
    | cons y r =>
      obtain ⟨k, w⟩ := y
      have none_below : ∀ {l : Assoc α} {n : Nat}, (∀ z ∈ l, n < z.1) → aget l n = none := by
        intro l n hl
        induction l with
        | nil => rfl
        | cons z l ihl =>
          obtain ⟨i, q⟩ := z
          have := hl (i, q) (by simp)
          simp only [aget]
          rw [if_neg (by simp only at this; omega)]
          exact ihl fun z hz => hl z (by simp [hz])
      have hj := h j
      have hk := h k
      simp only [aget, if_true] at hj hk
      have hjk : j = k := by
        by_contra hne
        rw [if_neg (Ne.symm hne)] at hj
        rw [if_neg hne] at hk
        rcases Nat.lt_or_gt_of_ne hne with hlt | hgt
        · rw [none_below fun z hz => hlt.trans (arising_lt hr z hz)] at hj; simp at hj
        · rw [none_below fun z hz => Nat.lt_trans hgt (arising_lt ht z hz)] at hk; simp at hk
      subst hjk
      simp at hj
      subst hj
      congr 1
      refine ih (arising_tail ht) (arising_tail hr) fun n => ?_
      by_cases hn : j = n
      · subst hn
        rw [none_below (arising_lt ht), none_below (arising_lt hr)]
      · have := h n; simpa [aget, hn] using this

end Sys2Proof.Machine
end

