-- ==== Sys2Proof/Laws/Groups.lean ====
section
/-! SUPPORT. What each write of a group's registers gives and leaves, and the one lemma of each shared form of kind F. -/

namespace Sys2Proof.Machine

/-! ### Lanes -/

@[simp] theorem mem_lanesList {m : Lanes} {L : Nat} : L ∈ lanesList m ↔ L < 64 ∧ m.getLsbD L = true := by
  simp [lanesList]

theorem lanesList_nodup (m : Lanes) : (lanesList m).Nodup := (List.nodup_range).filter _

theorem getLsbD_maskOf (l : List Nat) (L : Nat) (hL : L < 64) : (maskOf l).getLsbD L = decide (L ∈ l) := by
  suffices h : ∀ m : Lanes, (l.foldl (fun m L => m ||| (1#64 <<< L)) m).getLsbD L = (m.getLsbD L || decide (L ∈ l)) by
    simpa [maskOf] using h 0
  induction l with
  | nil => simp
  | cons x l ih =>
    intro m
    rw [List.foldl_cons, ih]
    have hx : (1#64 <<< x).getLsbD L = decide (L = x) := by
      rw [BitVec.getLsbD_shiftLeft]
      by_cases h : L = x
      · subst h; simp [hL]
      · by_cases hlt : L < x
        · simp [hL, hlt, h]
        · have : L - x ≠ 0 := by omega
          simp [hL, hlt, h, BitVec.getLsbD_one, this]
    simp [hx, Bool.or_assoc, List.mem_cons]

/-! ### What a group keeps -/

namespace Group

@[simp] theorem Keeps.refl (g : Group) : g.Keeps g := ⟨rfl, rfl⟩

theorem Keeps.trans {g a b : Group} (h : g.Keeps a) (k : a.Keeps b) : g.Keeps b := by
  refine ⟨?_, k.2.trans h.2⟩
  have h1 := h.1
  have k1 := k.1
  cases g; cases a; cases b
  simp only [Group.mk.injEq] at h1 k1 ⊢
  simp_all

/-- A change of registers only: the group stays where it is. -/
def Stays (g a : Group) : Prop := g.Keeps a ∧ a.pc = g.pc ∧ a.clause = g.clause

theorem Stays.refl (g : Group) : g.Stays g := ⟨.refl g, rfl, rfl⟩
theorem Stays.trans {g a b : Group} (h : g.Stays a) (k : a.Stays b) : g.Stays b :=
  ⟨h.1.trans k.1, k.2.1.trans h.2.1, k.2.2.trans h.2.2⟩

theorem touch_stays (g : Group) (d : Dst) : g.Stays (g.touch d) := by
  refine ⟨⟨rfl, ?_⟩, rfl, rfl⟩
  simp only [touch, List.map_map]
  exact List.map_congr_left fun p _ => rfl

theorem setV_stays (g : Group) (n L : Nat) (x : Word) : g.Stays (g.setV n L x) :=
  ⟨⟨rfl, (g.touch_stays (.v n L)).1.2⟩, rfl, rfl⟩
theorem setS_stays (g : Group) (n : Nat) (x : Word) : g.Stays (g.setS n x) :=
  ⟨⟨rfl, (g.touch_stays (.s n)).1.2⟩, rfl, rfl⟩
theorem setPred_stays (g : Group) (n : BitVec 3) (m : Lanes) : g.Stays (g.setPred n m) := by
  unfold setPred; split
  · exact .refl g
  · exact ⟨⟨rfl, rfl⟩, rfl, rfl⟩
theorem setLstat_stays (g : Group) (L : Nat) (x : Word) : g.Stays (g.setLstat L x) := ⟨⟨rfl, rfl⟩, rfl, rfl⟩
theorem orLstat_stays (g : Group) (L : Nat) (x : Word) : g.Stays (g.orLstat L x) := by
  unfold orLstat; split
  · exact .refl g
  · exact g.setLstat_stays _ _
theorem setLatch_stays (g : Group) (n : BitVec 2) (l : List (Nat × Dword)) : g.Stays (g.setLatch n l) :=
  ⟨⟨rfl, rfl⟩, rfl, rfl⟩
theorem endClause_keeps (g : Group) (t : Nat → Option Dword) : g.Keeps (g.endClause t) := ⟨rfl, rfl⟩
theorem advance_keeps (g : Group) : g.Keeps g.advance := by
  unfold advance; split
  · exact .refl g
  · split <;> exact ⟨rfl, rfl⟩

/-! ### Reads after writes -/

@[simp] theorem sregs_setV (g : Group) (n L : Nat) (x : Word) : (g.setV n L x).sregs = g.sregs := rfl
@[simp] theorem preds_setV (g : Group) (n L : Nat) (x : Word) : (g.setV n L x).preds = g.preds := rfl
@[simp] theorem lstat_setV (g : Group) (n L : Nat) (x : Word) : (g.setV n L x).lstat = g.lstat := rfl
@[simp] theorem latch_setV (g : Group) (n L : Nat) (x : Word) : (g.setV n L x).latch = g.latch := rfl
@[simp] theorem clause_setV (g : Group) (n L : Nat) (x : Word) : (g.setV n L x).clause = g.clause := rfl
@[simp] theorem vregs_setS (g : Group) (n : Nat) (x : Word) : (g.setS n x).vregs = g.vregs := rfl
@[simp] theorem preds_setS (g : Group) (n : Nat) (x : Word) : (g.setS n x).preds = g.preds := rfl
@[simp] theorem lstat_setS (g : Group) (n : Nat) (x : Word) : (g.setS n x).lstat = g.lstat := rfl
@[simp] theorem latch_setS (g : Group) (n : Nat) (x : Word) : (g.setS n x).latch = g.latch := rfl
@[simp] theorem clause_setS (g : Group) (n : Nat) (x : Word) : (g.setS n x).clause = g.clause := rfl
@[simp] theorem sregs_setVW (g : Group) (w : Bool) (n L : Nat) (x : Dword) : (g.setVW w n L x).sregs = g.sregs := by
  unfold setVW; split <;> simp
@[simp] theorem preds_setVW (g : Group) (w : Bool) (n L : Nat) (x : Dword) : (g.setVW w n L x).preds = g.preds := by
  unfold setVW; split <;> simp
@[simp] theorem lstat_setVW (g : Group) (w : Bool) (n L : Nat) (x : Dword) : (g.setVW w n L x).lstat = g.lstat := by
  unfold setVW; split <;> simp
@[simp] theorem latch_setVW (g : Group) (w : Bool) (n L : Nat) (x : Dword) : (g.setVW w n L x).latch = g.latch := by
  unfold setVW; split <;> simp
@[simp] theorem clause_setVW (g : Group) (w : Bool) (n L : Nat) (x : Dword) : (g.setVW w n L x).clause = g.clause := by
  unfold setVW; split <;> simp
theorem setVW_stays (g : Group) (w : Bool) (n L : Nat) (x : Dword) : g.Stays (g.setVW w n L x) := by
  unfold setVW; split
  · exact (g.setV_stays _ _ _).trans (setV_stays _ _ _ _)
  · exact g.setV_stays _ _ _
@[simp] theorem vregs_setSW (g : Group) (w : Bool) (n : Nat) (x : Dword) : (g.setSW w n x).vregs = g.vregs := by
  unfold setSW; split <;> simp
@[simp] theorem preds_setSW (g : Group) (w : Bool) (n : Nat) (x : Dword) : (g.setSW w n x).preds = g.preds := by
  unfold setSW; split <;> simp
@[simp] theorem lstat_setSW (g : Group) (w : Bool) (n : Nat) (x : Dword) : (g.setSW w n x).lstat = g.lstat := by
  unfold setSW; split <;> simp
@[simp] theorem latch_setSW (g : Group) (w : Bool) (n : Nat) (x : Dword) : (g.setSW w n x).latch = g.latch := by
  unfold setSW; split <;> simp
@[simp] theorem clause_setSW (g : Group) (w : Bool) (n : Nat) (x : Dword) : (g.setSW w n x).clause = g.clause := by
  unfold setSW; split <;> simp
theorem setSW_stays (g : Group) (w : Bool) (n : Nat) (x : Dword) : g.Stays (g.setSW w n x) := by
  unfold setSW; split
  · exact (g.setS_stays _ _).trans (setS_stays _ _ _)
  · exact g.setS_stays _ _
@[simp] theorem vregs_setLatch (g : Group) (n : BitVec 2) (l : List (Nat × Dword)) : (g.setLatch n l).vregs = g.vregs := rfl
@[simp] theorem sregs_setLatch (g : Group) (n : BitVec 2) (l : List (Nat × Dword)) : (g.setLatch n l).sregs = g.sregs := rfl
@[simp] theorem preds_setLatch (g : Group) (n : BitVec 2) (l : List (Nat × Dword)) : (g.setLatch n l).preds = g.preds := rfl
@[simp] theorem lstat_setLatch (g : Group) (n : BitVec 2) (l : List (Nat × Dword)) : (g.setLatch n l).lstat = g.lstat := rfl
@[simp] theorem clause_setLatch (g : Group) (n : BitVec 2) (l : List (Nat × Dword)) : (g.setLatch n l).clause = g.clause := rfl
@[simp] theorem vregs_orLstat (g : Group) (L : Nat) (x : Word) : (g.orLstat L x).vregs = g.vregs := by
  unfold orLstat; split <;> rfl
@[simp] theorem sregs_orLstat (g : Group) (L : Nat) (x : Word) : (g.orLstat L x).sregs = g.sregs := by
  unfold orLstat; split <;> rfl
@[simp] theorem preds_orLstat (g : Group) (L : Nat) (x : Word) : (g.orLstat L x).preds = g.preds := by
  unfold orLstat; split <;> rfl
@[simp] theorem latch_orLstat (g : Group) (L : Nat) (x : Word) : (g.orLstat L x).latch = g.latch := by
  unfold orLstat; split <;> rfl
@[simp] theorem clause_orLstat (g : Group) (L : Nat) (x : Word) : (g.orLstat L x).clause = g.clause := by
  unfold orLstat; split <;> rfl
@[simp] theorem vregs_advance (g : Group) : g.advance.vregs = g.vregs := by unfold advance; split <;> [rfl; (split <;> rfl)]
@[simp] theorem sregs_advance (g : Group) : g.advance.sregs = g.sregs := by unfold advance; split <;> [rfl; (split <;> rfl)]
@[simp] theorem preds_advance (g : Group) : g.advance.preds = g.preds := by unfold advance; split <;> [rfl; (split <;> rfl)]
@[simp] theorem lstat_advance (g : Group) : g.advance.lstat = g.lstat := by unfold advance; split <;> [rfl; (split <;> rfl)]

/-- Where a group goes on depends on its clause and its PC table alone. -/
theorem advance_place {g a : Group} (hp : a.pc = g.pc) (hc : a.clause = g.clause) :
    a.advance.pc = g.advance.pc ∧ a.advance.clause = g.advance.clause := by
  have hr : a.headRun = g.headRun := by unfold headRun headAddr; rw [hp]
  have hn : a.nextClause = g.nextClause := by unfold nextClause headAddr; rw [hp, hc]
  unfold advance
  rw [hc]
  split
  · exact ⟨hp, hc⟩
  · split
    · exact ⟨hp, rfl⟩
    · refine ⟨?_, rfl⟩
      simp only [endClause, hr, hn, hp]

theorem latch_advance (g : Group) (h : g.More) : g.advance.latch = g.latch := by
  unfold Group.More at h
  unfold advance
  split
  · rfl
  · rename_i c hc
    rw [hc] at h
    rw [if_pos h]

theorem vreg_setV (g : Group) (n m L K : Nat) (x : Word) (hL : L < 64) (hK : K < 64) :
    (g.setV n L x).vreg m K = if n = m ∧ L = K then x else g.vreg m K := by
  simp only [vreg, setV, agetD_asetD]
  by_cases h : 64 * n + L = 64 * m + K
  · rw [if_pos h, if_pos (by omega)]
  · rw [if_neg h, if_neg (by omega)]

theorem sreg_setS (g : Group) (n m : Nat) (x : Word) : (g.setS n x).sreg m = if n = m then x else g.sreg m := by
  simp [sreg, setS, touch, agetD_asetD]

theorem setPred_ne {n : BitVec 3} (g : Group) (x : Lanes) (h : n ≠ 7) :
    g.setPred n x = { g with preds := asetD 0 g.preds n.toNat x } := if_neg h

theorem pred_setPred (g : Group) (n m : BitVec 3) (x : Lanes) :
    (g.setPred n x).pred m = if n = m ∧ n ≠ 7 then x else g.pred m := by
  by_cases hn : n = 7
  · rw [if_neg (by simp [hn]), setPred, if_pos hn]
  · rw [setPred_ne _ _ hn]
    unfold pred
    by_cases hm : m = 7
    · rw [if_pos hm, if_pos hm, if_neg (by rintro ⟨rfl, _⟩; exact hn hm)]
    · rw [if_neg hm, if_neg hm, agetD_asetD]
      by_cases h : n = m
      · rw [if_pos (by rw [h]), if_pos ⟨h, hn⟩]
      · rw [if_neg fun e => h (BitVec.eq_of_toNat_eq e), if_neg fun e => h e.1]

theorem lstatOf_orLstat (g : Group) (L K : Nat) (x : Word) :
    (g.orLstat L x).lstatOf K = if L = K then g.lstatOf K ||| x else g.lstatOf K := by
  unfold orLstat
  split
  · subst_vars; simp
  · simp only [lstatOf, setLstat, agetD_asetD]; split
    · subst_vars; rfl
    · rfl

end Group

/-! ### Lists of writes -/

/-- The value that a list of lane results gives a lane. -/
def laneVal {β : Type} (l : List (Nat × β)) (L : Nat) : Option β := (l.find? fun x => x.1 == L).map (·.2)

theorem laneVal_map {β : Type} (m : Lanes) (f : Nat → β) (L : Nat) (hL : L < 64) :
    laneVal ((lanesList m).map fun L => (L, f L)) L = if m.getLsbD L = true then some (f L) else none := by
  simp only [laneVal, List.find?_map]
  by_cases h : m.getLsbD L = true
  · have hm : L ∈ lanesList m := by simp [hL, h]
    cases hf : (lanesList m).find? (fun x => x == L) with
    | none => exact absurd (List.find?_eq_none.1 hf L hm) (by simp)
    | some k =>
      have hk : k = L := by simpa using List.find?_some hf
      subst hk
      simp only [Function.comp_def, hf, h]
      simp
  · have : (lanesList m).find? (fun x => x == L) = none := by
      rw [List.find?_eq_none]
      intro k hk hkL
      have : k = L := by simpa using hkL
      subst this
      exact h (mem_lanesList.1 hk).2
    simp only [Function.comp_def, this, h]
    simp

namespace Group

/-- Results written to v(d) lane by lane: distinct lanes below 64. -/
theorem vreg_foldV (l : List (Nat × Dword)) (hl : (l.map (·.1)).Nodup) (hb : ∀ x ∈ l, x.1 < 64) (wide : Bool) (d : Nat) :
    ∀ g : Group,
      let g' := l.foldl (fun g x => g.setVW wide d x.1 x.2) g
      g.Stays g' ∧ g'.sregs = g.sregs ∧ g'.preds = g.preds ∧ g'.lstat = g.lstat ∧ g'.latch = g.latch ∧
      ∀ n K, K < 64 → g'.vreg n K =
        match laneVal l K with
        | none => g.vreg n K
        | some x => if wide = true ∧ n = d + 1 then highWord x else if n = d then lowWord x else g.vreg n K := by
  induction l with
  | nil => intro g; exact ⟨.refl g, rfl, rfl, rfl, rfl, fun n K _ => rfl⟩
  | cons y l ih =>
    intro g
    obtain ⟨L, x⟩ := y
    have hL : L < 64 := hb (L, x) (by simp)
    simp only [List.map_cons, List.nodup_cons] at hl
    have ih := ih hl.2 (fun z hz => hb z (List.mem_cons_of_mem _ hz)) (g.setVW wide d L x)
    simp only [List.foldl_cons]
    obtain ⟨i1, i2, i3, i4, i5, i6⟩ := ih
    refine ⟨(g.setVW_stays _ _ _ _).trans i1, i2.trans (by simp), i3.trans (by simp), i4.trans (by simp),
      i5.trans (by simp), fun n K hK => ?_⟩
    rw [i6 n K hK]
    have hv : (g.setVW wide d L x).vreg n K =
        if L = K then (if wide = true ∧ n = d + 1 then highWord x else if n = d then lowWord x else g.vreg n K)
        else g.vreg n K := by
      unfold setVW
      cases wide with
      | true =>
        simp only [if_true, vreg_setV _ _ _ _ _ _ hL hK, true_and]
        by_cases h1 : L = K
        · by_cases h2 : n = d + 1
          · simp [h1, h2]
          · have : ¬ d + 1 = n := fun e => h2 e.symm
            by_cases h3 : n = d
            · simp [h1, h3]
            · have : ¬ d = n := fun e => h3 e.symm
              simp [*]
        · simp [h1]
      | false =>
        simp only [Bool.false_eq_true, if_false, false_and, vreg_setV _ _ _ _ _ _ hL hK]
        by_cases h1 : L = K
        · by_cases h3 : n = d
          · simp [h1, h3]
          · have : ¬ d = n := fun e => h3 e.symm
            simp [h1, h3, this]
        · simp [h1]
    by_cases hLK : L = K
    · subst hLK
      have hnone : laneVal l L = none := by
        simp only [laneVal, Option.map_eq_none_iff, List.find?_eq_none]
        intro z hz hzL
        exact hl.1 (List.mem_map.2 ⟨z, hz, by simpa using hzL⟩)
      simp only [hnone, hv, if_true]
      simp [laneVal]
    · have hcons : laneVal ((L, x) :: l) K = laneVal l K := by
        simp [laneVal, hLK]
      rw [hcons, hv, if_neg hLK]

theorem latch_foldl (l : List (Nat × Dword)) (hl : (l.map (·.1)).Nodup) (b : Nat) (t : Assoc Dword) (k : Nat) :
    agetD 0 (l.foldl (fun t x => asetD 0 t (b + x.1) x.2) t) k =
      if b ≤ k then (laneVal l (k - b)).getD (agetD 0 t k) else agetD 0 t k := by
  induction l generalizing t with
  | nil => simp [laneVal]
  | cons y l ih =>
    obtain ⟨L, x⟩ := y
    simp only [List.map_cons, List.nodup_cons] at hl
    rw [List.foldl_cons, ih hl.2]
    by_cases hb : b ≤ k
    · simp only [if_pos hb, agetD_asetD]
      by_cases h : b + L = k
      · have h' : k - b = L := by omega
        have hnone : laneVal l L = none := by
          simp only [laneVal, Option.map_eq_none_iff, List.find?_eq_none]
          intro z hz hzL
          exact hl.1 (List.mem_map.2 ⟨z, hz, by simpa using hzL⟩)
        rw [h', hnone]
        simp [laneVal, h]
      · have h' : ¬ L = k - b := by omega
        simp [laneVal, h, h']
    · have : ¬ b + L = k := by omega
      simp [hb, agetD_asetD, this]

theorem latchOf_setLatch (g : Group) (n b : BitVec 2) (l : List (Nat × Dword)) (hl : (l.map (·.1)).Nodup)
    (hb : ∀ x ∈ l, x.1 < 64) (L : Nat) (hL : L < 64) :
    (g.setLatch n l).latchOf b L = if b = n then (laneVal l L).getD 0 else g.latchOf b L := by
  simp only [latchOf, setLatch]
  rw [latch_foldl l hl]
  have hfilter : ∀ (t : Assoc Dword) (k : Nat),
      agetD 0 (t.filter fun x => x.1 / 64 != n.toNat) k = if k / 64 = n.toNat then 0 else agetD 0 t k := by
    intro t k
    unfold agetD
    induction t with
    | nil => simp
    | cons y t ih =>
      obtain ⟨j, v⟩ := y
      rw [List.filter_cons]
      by_cases hj : j / 64 = n.toNat
      · rw [if_neg (by simp [hj]), ih]
        by_cases hk : k / 64 = n.toNat
        · simp [hk]
        · have : ¬ j = k := by rintro rfl; exact hk hj
          simp [hk, aget, this]
      · rw [if_pos (by simpa using hj)]
        simp only [aget]
        by_cases hjk : j = k
        · subst hjk; simp [hj]
        · simp only [hjk, if_false]; exact ih
  by_cases hbn : b = n
  · subst hbn
    have h1 : (64 * b.toNat + L) / 64 = b.toNat := by omega
    have h2 : 64 * b.toNat + L - 64 * b.toNat = L := by omega
    rw [if_pos rfl, if_pos (by omega), h2, hfilter, h1, if_pos rfl]
  · have hne : b.toNat ≠ n.toNat := fun e => hbn (BitVec.eq_of_toNat_eq e)
    have h1 : (64 * b.toNat + L) / 64 = b.toNat := by omega
    rw [if_neg hbn, hfilter, h1, if_neg hne]
    split
    · have hlt : ¬ (64 * b.toNat + L - 64 * n.toNat) < 64 := by omega
      have hnone : laneVal l (64 * b.toNat + L - 64 * n.toNat) = none := by
        simp only [laneVal, Option.map_eq_none_iff, List.find?_eq_none]
        intro z hz hzL
        have := hb z hz
        have : z.1 = 64 * b.toNat + L - 64 * n.toNat := by simpa using hzL
        omega
      simp [hnone]
    · rfl

theorem lstatOf_orLstats (l : List (Nat × Word)) (hl : (l.map (·.1)).Nodup) (K : Nat) : ∀ g : Group,
    (g.orLstats l).lstatOf K = match laneVal l K with
      | none => g.lstatOf K
      | some x => g.lstatOf K ||| x := by
  induction l with
  | nil => intro g; simp [orLstats, laneVal]
  | cons y l ih =>
    intro g
    obtain ⟨L, x⟩ := y
    simp only [List.map_cons, List.nodup_cons] at hl
    have ih := ih hl.2 (g.orLstat L x)
    simp only [orLstats] at ih
    simp only [orLstats, List.foldl_cons, ih, lstatOf_orLstat]
    by_cases h : L = K
    · subst h
      have hnone : laneVal l L = none := by
        simp only [laneVal, Option.map_eq_none_iff, List.find?_eq_none]
        intro z hz hzL
        exact hl.1 (List.mem_map.2 ⟨z, hz, by simpa using hzL⟩)
      have hsome : laneVal ((L, x) :: l) L = some x := by simp [laneVal]
      rw [hnone, hsome]
      simp
    · have hcons : laneVal ((L, x) :: l) K = laneVal l K := by simp [laneVal, h]
      rw [hcons]
      simp [h]

theorem orLstats_stays (l : List (Nat × Word)) : ∀ g : Group,
    g.Stays (g.orLstats l) ∧ (g.orLstats l).vregs = g.vregs ∧ (g.orLstats l).sregs = g.sregs ∧
    (g.orLstats l).preds = g.preds ∧ (g.orLstats l).latch = g.latch := by
  induction l with
  | nil => intro g; exact ⟨.refl g, rfl, rfl, rfl, rfl⟩
  | cons y l ih =>
    intro g
    have h := ih (g.orLstat y.1 y.2)
    have e : g.orLstats (y :: l) = (g.orLstat y.1 y.2).orLstats l := rfl
    rw [e]
    exact ⟨(g.orLstat_stays _ _).trans h.1, h.2.1.trans (by simp), h.2.2.1.trans (by simp), h.2.2.2.1.trans (by simp),
      h.2.2.2.2.trans (by simp)⟩

end Group

/-! ### The state around -/

@[simp] theorem group?_putGroup (s : State) (u k : Nat) (g : Group) :
    (s.putGroup u g).group? k = if u = k then some g else s.group? k := aget_aput _ _ _ _

@[simp] theorem group?_drawn (s : State) (k : Nat) : s.drawn.group? k = s.group? k := rfl

/-- A finished instruction changes its group alone. -/
theorem finish_around (s : State) (u : Nat) (g : Group) :
    s.Around (s.finish u g) u ∧ (s.finish u g).group? u = some g.advance := by
  refine ⟨⟨rfl, fun a => rfl, fun k hk => ?_⟩, by simp [State.finish]⟩
  simp [State.finish, Ne.symm hk]

/-- The issue of an instruction whose issuer stands ready for it. -/
theorem issue_of {s : State} {u : Nat} {g : Group} {h : Head} (H : s.Issues u g h) (f : Nat → Group → Lanes → State) :
    issue h s f = .next (f u g (g.active h)) := by
  unfold issue
  rw [H.cur, H.group]
  have hc : g.clause.isNone = false := by simpa using H.clause
  simp only [hc, if_false, Bool.false_eq_true]
  rw [if_neg H.room]

/-- Behind an instruction that leaves its group as `a`. -/
theorem finish_runs {i : Instr} {s : State} {u : Nat} {g a : Group} (e : exec i s = .next (s.finish u a))
    (h : g.Stays a) : Runs i s u g (s.finish u a) a.advance := by
  have p := Group.advance_place h.2.1 h.2.2
  exact ⟨e, (finish_around s u a).1, (finish_around s u a).2, h.1.trans a.advance_keeps, p.1, p.2⟩

theorem Group.Stays.more {g a : Group} (h : g.Stays a) (m : g.More) : a.More := by
  unfold Group.More at m ⊢
  rw [h.2.2]; exact m

/-! ### Vector results -/

theorem nodup_lanes {β : Type} (act : Lanes) (f : Nat → β) :
    (((lanesList act).map fun L => (L, f L)).map (·.1)).Nodup := by
  simpa [Function.comp_def] using lanesList_nodup act

theorem lanes_lt {β : Type} (act : Lanes) (f : Nat → β) : ∀ x ∈ (lanesList act).map fun L => (L, f L), x.1 < 64 := by
  intro x hx
  obtain ⟨L, hL, rfl⟩ := List.mem_map.1 hx
  exact (mem_lanesList.1 hL).1

/-- The latch of a vector result. -/
theorem latchOf_lanes (g : Group) (n b : BitVec 2) (act : Lanes) (r : Nat → Dword) (L : Nat) (hL : L < 64) :
    (g.setLatch n ((lanesList act).map fun L => (L, r L))).latchOf b L =
      if b = n then (if act.getLsbD L = true then r L else 0) else g.latchOf b L := by
  rw [Group.latchOf_setLatch _ _ _ _ (nodup_lanes _ _) (lanes_lt _ _) _ hL, laneVal_map _ _ _ hL]
  split
  · split <;> rfl
  · rfl

/-- Everything that the write of a vector result does to a group. -/
theorem writeVec_spec (g : Group) (h : Head) (d : Nat) (wide : Bool) (r : Nat → Dword) :
    let a := g.writeVec h d wide ((lanesList (g.active h)).map fun L => (L, r L))
    g.Stays a ∧ VecRegs h d wide r g a ∧ a.preds = g.preds ∧ a.lstat = g.lstat ∧
      a.latch = (g.setLatch h.lat ((lanesList (g.active h)).map fun L => (L, r L))).latch := by
  intro a
  have k := g.setLatch_stays h.lat ((lanesList (g.active h)).map fun L => (L, r L))
  cases hn : h.nwb with
  | true =>
    have e : a = g.setLatch h.lat ((lanesList (g.active h)).map fun L => (L, r L)) := by
      show g.writeVec _ _ _ _ = _
      unfold Group.writeVec; rw [hn]; rfl
    rw [e]
    exact ⟨k, ⟨rfl, fun L _ w => absurd w.2 (by simp [hn]), fun n L _ _ => rfl⟩, rfl, rfl, rfl⟩
  | false =>
    have F := Group.vreg_foldV _ (nodup_lanes (g.active h) r) (lanes_lt (g.active h) r) wide d
      (g.setLatch h.lat ((lanesList (g.active h)).map fun L => (L, r L)))
    have e : a = ((lanesList (g.active h)).map fun L => (L, r L)).foldl (fun g x => g.setVW wide d x.1 x.2)
        (g.setLatch h.lat ((lanesList (g.active h)).map fun L => (L, r L))) := by
      show g.writeVec _ _ _ _ = _
      unfold Group.writeVec; rw [hn]; rfl
    rw [← e] at F
    have V : ∀ n L, L < 64 → a.vreg n L = if (g.active h).getLsbD L = true then
        (if wide = true ∧ n = d + 1 then highWord (r L) else if n = d then lowWord (r L) else g.vreg n L)
        else g.vreg n L := by
      intro n L hL
      rw [F.2.2.2.2.2 n L hL, laneVal_map _ _ _ hL]
      by_cases ha : (g.active h).getLsbD L = true
      · simp only [ha, if_true]; rfl
      · simp only [ha]; rfl
    refine ⟨k.trans F.1, ⟨F.2.1, fun L hL w => ?_, fun n L hL w => ?_⟩, F.2.2.1, F.2.2.2.1, F.2.2.2.2.1⟩
    · rw [V _ _ hL, V _ _ hL, if_pos w.1, if_pos w.1]
      exact ⟨by simp, fun hw => by simp [hw]⟩
    · rw [V _ _ hL]
      split
      · rename_i ha
        have hb : writesBack h g L := ⟨ha, hn⟩
        rw [if_neg fun c => w ⟨hb, .inr c⟩, if_neg fun c => w ⟨hb, .inl c⟩]
      · rfl

theorem VecRegs.of_eq {h : Head} {d : Nat} {wide : Bool} {r : Nat → Dword} {g a b : Group}
    (v : VecRegs h d wide r g a) (e : b.vregs = a.vregs) (k : b.sregs = a.sregs) : VecRegs h d wide r g b := by
  have hv : ∀ n L, b.vreg n L = a.vreg n L := fun n L => by simp only [Group.vreg, e]
  refine ⟨k.trans v.1, fun L hL w => ?_, fun n L hL w => ?_⟩
  · rw [hv, hv]; exact v.2.1 L hL w
  · rw [hv]; exact v.2.2 n L hL w

theorem VecLatch.of_eq {h : Head} {r : Nat → Dword} {g a : Group} (k : g.Stays a)
    (e : a.latch = (g.setLatch h.lat ((lanesList (g.active h)).map fun L => (L, r L))).latch) :
    VecLatch h r g a.advance := by
  intro m b L hL
  have := latchOf_lanes g h.lat b (g.active h) r L hL
  simp only [Group.latchOf, Group.latch_advance _ (k.more m), e]
  exact this

theorem SetsLstat.of_orLstats {h : Head} {bits : Nat → Word} {g a : Group} (e : a.lstat = g.lstat) :
    SetsLstat h bits g (a.orLstats ((lanesList (g.active h)).map fun L => (L, bits L))).advance := by
  intro L hL
  have e1 : (a.orLstats ((lanesList (g.active h)).map fun L => (L, bits L))).advance.lstatOf L =
      (a.orLstats ((lanesList (g.active h)).map fun L => (L, bits L))).lstatOf L := by
    simp only [Group.lstatOf, Group.lstat_advance]
  have e2 : a.lstatOf L = g.lstatOf L := by simp only [Group.lstatOf, e]
  rw [e1, Group.lstatOf_orLstats _ (nodup_lanes _ _), laneVal_map _ _ _ hL]
  by_cases ha : (g.active h).getLsbD L = true
  · simp only [ha, if_true, e2]
  · simp [ha, e2]

theorem map_fst_snd (act : Lanes) (r : Nat → Dword × Word) :
    (((lanesList act).map fun L => (L, r L)).map fun x => (x.1, x.2.1)) = (lanesList act).map fun L => (L, (r L).1) := by
  simp
theorem map_snd_snd (act : Lanes) (r : Nat → Dword × Word) :
    (((lanesList act).map fun L => (L, r L)).map fun x => (x.1, x.2.2)) = (lanesList act).map fun L => (L, (r L).2) := by
  simp

/-- A vector result with LSTAT bits, stored (04 R94; 06 R147). -/
theorem vec_done {i : Instr} {s : State} {u : Nat} {g : Group} {h : Head} {d : Nat} {wide : Bool}
    (r : Nat → Dword × Word)
    (e : exec i s = .next (s.finish u ((g.writeVec h d wide ((lanesList (g.active h)).map fun L => (L, (r L).1))).orLstats
      ((lanesList (g.active h)).map fun L => (L, (r L).2))))) :
    FormDone i h false d wide r s u g := by
  have W := writeVec_spec g h d wide fun L => (r L).1
  simp only at W
  generalize g.writeVec h d wide ((lanesList (g.active h)).map fun L => (L, (r L).1)) = a at W e
  have O := Group.orLstats_stays ((lanesList (g.active h)).map fun L => (L, (r L).2)) a
  have T := SetsLstat.of_orLstats (h := h) (bits := fun L => (r L).2) (g := g) W.2.2.2.1
  have Y : g.Stays (a.orLstats ((lanesList (g.active h)).map fun L => (L, (r L).2))) := W.1.trans O.1
  refine ⟨_, _, finish_runs e Y, ?_, ?_, ?_, ?_⟩
  · show VecRegs _ _ _ _ _ _
    exact W.2.1.of_eq (by rw [Group.vregs_advance, O.2.1]) (by rw [Group.sregs_advance, O.2.2.1])
  · show VecLatch _ _ _ _
    exact VecLatch.of_eq Y (by rw [O.2.2.2.2, W.2.2.2.2])
  · exact T
  · rw [Group.preds_advance, O.2.2.2.1, W.2.2.1]

theorem Group.orLstats_zero (l : List Nat) : ∀ g : Group, g.orLstats (l.map fun L => (L, (0 : Word))) = g := by
  induction l with
  | nil => intro g; rfl
  | cons x l ih => intro g; exact ih g

/-- A vector result without LSTAT bits, stored (04 R94). -/
theorem vec_plain {i : Instr} {s : State} {u : Nat} {g : Group} {h : Head} {d : Nat} {wide : Bool} (r : Nat → Dword)
    (e : exec i s = .next (s.finish u (g.writeVec h d wide ((lanesList (g.active h)).map fun L => (L, r L))))) :
    FormDone i h false d wide (fun L => (r L, 0)) s u g := by
  apply vec_done
  rw [e, Group.orLstats_zero]

/-! ### Scalar results -/

theorem lowest_of_ne {m : Lanes} (h : m ≠ 0) : lowest m ∈ lanesList m := by
  have : lanesList m ≠ [] := by
    intro e
    apply h
    apply BitVec.eq_of_getLsbD_eq
    intro i hi
    by_contra hc
    have : i ∈ lanesList m := mem_lanesList.2 ⟨hi, by simpa using hc⟩
    simp [e] at this
  obtain ⟨x, l, hl⟩ := List.exists_cons_of_ne_nil this
  simp [lowest, hl]

theorem lanesList_all : lanesList (BitVec.allOnes 64) = List.range 64 := by decide

namespace Group

theorem sreg_setSW (g : Group) (w : Bool) (n m : Nat) (x : Dword) :
    (g.setSW w n x).sreg m =
      if w = true ∧ m = n + 1 then highWord x else if m = n then lowWord x else g.sreg m := by
  unfold setSW
  cases w with
  | true =>
    simp only [if_true, sreg_setS, true_and]
    by_cases h1 : m = n + 1
    · simp [h1]
    · have : ¬ n + 1 = m := fun e => h1 e.symm
      by_cases h2 : m = n
      · simp [h2]
      · have : ¬ n = m := fun e => h2 e.symm
        simp [*]
  | false =>
    simp only [Bool.false_eq_true, if_false, false_and, sreg_setS]
    by_cases h2 : m = n
    · simp [h2]
    · have : ¬ n = m := fun e => h2 e.symm
      simp [*]

end Group

/-- Everything that the write of a scalar result does to a group. -/
theorem writeSca_spec (g : Group) (h : Head) (d : Nat) (wide : Bool) (r : Dword) (ha : g.active h ≠ 0) :
    let a := g.writeSca h d wide r
    g.Stays a ∧ ScaRegs h d wide r g a ∧ a.preds = g.preds ∧ a.lstat = g.lstat ∧
      a.latch = (g.setLatch h.lat ((List.range 64).map fun L => (L, r))).latch := by
  intro a
  have k := g.setLatch_stays h.lat ((List.range 64).map fun L => (L, r))
  cases hn : h.nwb with
  | true =>
    have e : a = g.setLatch h.lat ((List.range 64).map fun L => (L, r)) := by
      show g.writeSca _ _ _ _ = _
      unfold Group.writeSca; rw [hn]; rfl
    rw [e]
    exact ⟨k, ⟨rfl, fun _ w => absurd w (by simp [hn]), fun n _ => rfl⟩, rfl, rfl, rfl⟩
  | false =>
    have e : a = (g.setLatch h.lat ((List.range 64).map fun L => (L, r))).setSW wide d r := by
      show g.writeSca _ _ _ _ = _
      unfold Group.writeSca; rw [hn]; rfl
    have k2 : (g.setLatch h.lat ((List.range 64).map fun L => (L, r))).sregs = g.sregs := rfl
    have k3 : (g.setLatch h.lat ((List.range 64).map fun L => (L, r))).vregs = g.vregs := rfl
    have k4 : (g.setLatch h.lat ((List.range 64).map fun L => (L, r))).preds = g.preds := rfl
    have k5 : (g.setLatch h.lat ((List.range 64).map fun L => (L, r))).lstat = g.lstat := rfl
    generalize g.setLatch h.lat ((List.range 64).map fun L => (L, r)) = b at *
    have V : ∀ n, a.sreg n = if wide = true ∧ n = d + 1 then highWord r else if n = d then lowWord r else g.sreg n := by
      intro n; rw [e, Group.sreg_setSW]; simp only [Group.sreg, k2]
    rw [e] at V ⊢
    refine ⟨k.trans (b.setSW_stays _ _ _), ⟨?_, fun _ _ => ?_, fun n w => ?_⟩, ?_, ?_, ?_⟩
    · rw [Group.vregs_setSW, k3]
    · rw [V, V]; exact ⟨by simp, fun hw => by simp [hw]⟩
    · rw [V, if_neg fun c => w ⟨ha, hn, .inr c⟩, if_neg fun c => w ⟨ha, hn, .inl c⟩]
    · rw [Group.preds_setSW, k4]
    · rw [Group.lstat_setSW, k5]
    · rw [Group.latch_setSW]

theorem ScaLatch.of_eq {h : Head} {r : Dword} {g a : Group} (k : g.Stays a) (ha : g.active h ≠ 0)
    (e : a.latch = (g.setLatch h.lat ((List.range 64).map fun L => (L, r))).latch) :
    ScaLatch h r g a.advance := by
  intro m b L hL _
  have h1 := latchOf_lanes g h.lat b (BitVec.allOnes 64) (fun _ => r) L hL
  rw [lanesList_all] at h1
  have h2 : (BitVec.allOnes 64).getLsbD L = true := by rw [BitVec.getLsbD_allOnes]; simpa using hL
  rw [h2] at h1
  have h3 : a.advance.latchOf b L = (g.setLatch h.lat ((List.range 64).map fun L => (L, r))).latchOf b L := by
    simp only [Group.latchOf, Group.latch_advance _ (k.more m), e]
  rw [h3, h1]
  by_cases hb : b = h.lat
  · rw [if_pos hb, if_pos rfl, if_pos ⟨hb, ha⟩]
  · rw [if_neg hb, if_neg fun x => hb x.1]

theorem ScaRegs.of_eq {h : Head} {d : Nat} {wide : Bool} {r : Dword} {g a b : Group}
    (v : ScaRegs h d wide r g a) (e : b.vregs = a.vregs) (k : b.sregs = a.sregs) : ScaRegs h d wide r g b := by
  have hv : ∀ n, b.sreg n = a.sreg n := fun n => by simp only [Group.sreg, k]
  refine ⟨e.trans v.1, fun x y => ?_, fun n w => ?_⟩
  · rw [hv, hv]; exact v.2.1 x y
  · rw [hv]; exact v.2.2 n w

/-- What a latch holds after a scalar form without an effect named it. -/
theorem Group.openLatch_stays (g : Group) (n : BitVec 2) (draw : Nat) :
    g.Stays (g.openLatch n draw) ∧ (g.openLatch n draw).vregs = g.vregs ∧ (g.openLatch n draw).sregs = g.sregs ∧
      (g.openLatch n draw).preds = g.preds ∧ (g.openLatch n draw).lstat = g.lstat := by
  unfold Group.openLatch
  split
  · exact ⟨.refl g, rfl, rfl, rfl, rfl⟩
  · exact ⟨g.setLatch_stays _ _, rfl, rfl, rfl, rfl⟩

theorem Group.latchOf_openLatch (g : Group) (n : BitVec 2) (draw : Nat) (b : BitVec 2) (L : Nat) (hL : L < 64)
    (k : b = n → g.latchOk.getLsbD b.toNat = true) : (g.openLatch n draw).latchOf b L = g.latchOf b L := by
  unfold Group.openLatch
  split
  · rfl
  · rename_i h
    rw [← lanesList_all, Group.latchOf_setLatch _ _ _ _ (nodup_lanes _ _) (lanes_lt _ _) _ hL,
      if_neg fun e => h (by subst e; exact k rfl)]

/-- A scalar form without an active lane has no effect (04 R93). -/
theorem sca_idle {i : Instr} {s : State} {u : Nat} {g : Group} {h : Head} {d : Nat} {wide : Bool}
    (r : Nat → Dword × Word) (ha : g.active h = 0) (e : exec i s = .next (s.finish u (g.openLatch h.lat s.draw))) :
    FormDone i h true d wide r s u g := by
  obtain ⟨Y, e1, e2, e3, e4⟩ := g.openLatch_stays h.lat s.draw
  have e5 := g.latchOf_openLatch h.lat s.draw
  have R := finish_runs e Y
  generalize g.openLatch h.lat s.draw = b at *
  refine ⟨_, _, R, ?_, ?_, ?_, by rw [Group.preds_advance, e3]⟩
  · show ScaRegs _ _ _ _ _ _
    exact ⟨by rw [Group.vregs_advance, e1], fun h0 => absurd ha h0, fun n _ => by
      simp only [Group.sreg, Group.sregs_advance, e2]⟩
  · show ScaLatch _ _ _ _
    intro m c L hL k
    rw [if_neg fun x => x.2 ha, ← e5 c L hL fun x => (k x).resolve_left fun n => n ha]
    simp only [Group.latchOf, Group.latch_advance _ (Y.more m)]
  · intro L _
    simp only [Group.lstatOf, Group.lstat_advance, e4, ha]
    simp

/-- A scalar result with LSTAT bits, stored (04 R93, R94; 06 R147). -/
theorem sca_done {i : Instr} {s : State} {u : Nat} {g : Group} {h : Head} {d : Nat} {wide : Bool}
    (r : Nat → Dword × Word) (ha : g.active h ≠ 0)
    (e : exec i s = .next (s.finish u ((g.writeSca h d wide (r (lowest (g.active h))).1).orLstats
      ((lanesList (g.active h)).map fun L => (L, (r (lowest (g.active h))).2))))) :
    FormDone i h true d wide r s u g := by
  have W := writeSca_spec g h d wide (r (lowest (g.active h))).1 ha
  simp only at W
  generalize g.writeSca h d wide (r (lowest (g.active h))).1 = a at W e
  have O := Group.orLstats_stays ((lanesList (g.active h)).map fun L => (L, (r (lowest (g.active h))).2)) a
  have T := SetsLstat.of_orLstats (h := h) (bits := fun _ => (r (lowest (g.active h))).2) (g := g) W.2.2.2.1
  have Y : g.Stays (a.orLstats ((lanesList (g.active h)).map fun L => (L, (r (lowest (g.active h))).2))) := W.1.trans O.1
  refine ⟨_, _, finish_runs e Y, ?_, ?_, ?_, ?_⟩
  · show ScaRegs _ _ _ _ _ _
    exact W.2.1.of_eq (by rw [Group.vregs_advance, O.2.1]) (by rw [Group.sregs_advance, O.2.2.1])
  · show ScaLatch _ _ _ _
    exact ScaLatch.of_eq Y ha (by rw [O.2.2.2.2, W.2.2.2.2])
  · exact T
  · rw [Group.preds_advance, O.2.2.2.1, W.2.2.1]

/-! ### The forms of kind F -/

/-- A vector form (04 R94). -/
theorem vecF_writes {i : Instr} {h : Head} {d : Nat} {wide : Bool} {f : State → Nat → Group → Nat → Dword × Word}
    (e : ∀ s, exec i s = vecF h d wide s (f s)) : WritesD i h false d wide f := by
  intro s u g H
  apply vec_done
  rw [e s]
  refine (issue_of H _).trans ?_
  simp only [map_fst_snd, map_snd_snd]

/-- A scalar form (04 R93). -/
theorem scaF_writes {i : Instr} {h : Head} {d : Nat} {wide : Bool} {f : State → Nat → Group → Nat → Dword × Word}
    (e : ∀ s, exec i s = scaF h d wide s (f s)) : WritesD i h true d wide f := by
  intro s u g H
  by_cases ha : g.active h = 0
  · apply sca_idle _ ha
    rw [e s]
    refine (issue_of H _).trans ?_
    simp only [if_pos ha]
  · apply sca_done _ ha
    rw [e s]
    refine (issue_of H _).trans ?_
    simp only [if_neg ha]

/-- A form that is scalar or vector (06 R145). -/
theorem formF_writes {i : Instr} {h : Head} {sc : Bool} {d : BitVec 9} {wide : Bool}
    {f : State → Nat → Group → Nat → Dword × Word}
    (e : ∀ s, exec i s = formF h sc d wide s (f s)) : WritesD i h sc d.toNat wide f := by
  cases sc with
  | true => exact scaF_writes e
  | false => exact vecF_writes e

/-- A form that computes its lanes together and sets no LSTAT bit. -/
theorem lanes_writes {i : Instr} {h : Head} {d : Nat} {f : State → Nat → Group → Nat → Word}
    (e : ∀ s, exec i s = issue h s fun u g act =>
      s.finish u (g.writeVec h d false ((lanesList act).map fun L => (L, (f s u g L).setWidth 64)))) :
    WritesD i h false d false fun s u g L => plain (f s u g L) := by
  intro s u g H
  exact vec_plain (fun L => (f s u g L).setWidth 64) ((e s).trans (issue_of H _))

/-- The cross-lane forms (06 R163). -/
theorem cross_writes {i : Instr} {h : Head} {d : BitVec 9} {f : State → Nat → Group → Lanes → Nat → Word}
    (e : ∀ s, exec i s = cross h d s (f s)) :
    WritesD i h false d.toNat false fun s u g L => plain (f s u g (g.active h) L) := by
  intro s u g H
  exact vec_plain (fun L => (f s u g (g.active h) L).setWidth 64) ((e s).trans (issue_of H _))

/-- The write of a predicate result. -/
theorem writePred_spec (g : Group) (h : Head) (d : BitVec 3) (m : Lanes) :
    let a := g.writePred h (g.active h) d m
    g.Stays a ∧ a.vregs = g.vregs ∧ a.sregs = g.sregs ∧ a.lstat = g.lstat ∧
      a.latch = (g.setLatch h.lat ((lanesList (g.active h)).map fun L => (L, if m.getLsbD L then 1 else 0))).latch ∧
      ∀ n, a.pred n = if h.nwb = false ∧ d = n ∧ d ≠ 7 then (g.pred d &&& ~~~g.active h) ||| (m &&& g.active h)
        else g.pred n := by
  intro a
  have k := g.setLatch_stays h.lat ((lanesList (g.active h)).map fun L => (L, if m.getLsbD L then 1 else 0))
  have q : ∀ n, (g.setLatch h.lat ((lanesList (g.active h)).map fun L => (L, if m.getLsbD L then 1 else 0))).pred n =
    g.pred n := fun n => rfl
  cases hn : h.nwb with
  | true =>
    have e : a = g.setLatch h.lat ((lanesList (g.active h)).map fun L => (L, if m.getLsbD L then 1 else 0)) := by
      show g.writePred _ _ _ _ = _
      unfold Group.writePred; rw [hn]; rfl
    rw [e]
    exact ⟨k, rfl, rfl, rfl, rfl, fun n => by rw [if_neg (by simp)]; exact q n⟩
  | false =>
    have e : a = (g.setLatch h.lat ((lanesList (g.active h)).map fun L => (L, if m.getLsbD L then 1 else 0))).setPred d
        ((g.pred d &&& ~~~g.active h) ||| (m &&& g.active h)) := by
      show g.writePred _ _ _ _ = _
      unfold Group.writePred; rw [hn]; rfl
    rw [e]
    refine ⟨k.trans (Group.setPred_stays _ _ _), ?_, ?_, ?_, ?_, fun n => ?_⟩
    iterate 4 unfold Group.setPred; split <;> rfl
    rw [Group.pred_setPred, q]
    by_cases hd : d = n ∧ d ≠ 7
    · rw [if_pos hd, if_pos ⟨rfl, hd⟩]
    · rw [if_neg hd, if_neg fun c => hd c.2]

/-- A predicate result of kind F (06 R144). -/
theorem predF_writes {i : Instr} {h : Head} {d : BitVec 3} {f : State → Nat → Group → Nat → Bool}
    {m : State → Nat → Group → Lanes → Lanes}
    (e : ∀ s, exec i s = predF h d s (m s))
    (hm : ∀ s u g L, L < 64 → (g.active h).getLsbD L = true → (m s u g (g.active h)).getLsbD L = f s u g L) :
    WritesP i h d f := by
  intro s u g H
  have W := writePred_spec g h d (m s u g (g.active h))
  have e1 : exec i s = .next (s.finish u (g.writePred h (g.active h) d (m s u g (g.active h)))) :=
    (e s).trans (issue_of H _)
  have hm := hm s u g
  simp only at W
  generalize g.writePred h (g.active h) d (m s u g (g.active h)) = a at W e1
  have hp : ∀ n, a.advance.pred n = a.pred n := fun n => by simp only [Group.pred, Group.preds_advance]
  refine ⟨_, _, finish_runs e1 W.1, ?_, ?_, ?_, ?_, ?_, ?_⟩
  · rw [Group.vregs_advance]; exact W.2.1
  · rw [Group.sregs_advance]; exact W.2.2.1
  · rw [Group.lstat_advance]; exact W.2.2.2.1
  · intro L hL hw hd
    rw [hp, W.2.2.2.2.2 d, if_pos ⟨hw.2, rfl, hd⟩, BitVec.getLsbD_or, BitVec.getLsbD_and, BitVec.getLsbD_and, hw.1,
      hm L hL hw.1]
    simp [hw.1, hL]
  · intro n L hL hw
    rw [hp, W.2.2.2.2.2 n]
    split
    · rename_i hc
      obtain ⟨h1, rfl, h3⟩ := hc
      have ha : (g.active h).getLsbD L = false := by
        by_contra hc
        exact hw ⟨⟨by simpa using hc, h1⟩, rfl, h3⟩
      rw [BitVec.getLsbD_or, BitVec.getLsbD_and, BitVec.getLsbD_and, BitVec.getLsbD_not, ha]
      simp [hL]
    · rfl
  · intro mo b L hL
    have := latchOf_lanes g h.lat b (g.active h) (fun L => if (m s u g (g.active h)).getLsbD L then 1 else 0) L hL
    have e2 : a.advance.latchOf b L = (g.setLatch h.lat ((lanesList (g.active h)).map fun L =>
        (L, if (m s u g (g.active h)).getLsbD L then 1 else 0))).latchOf b L := by
      simp only [Group.latchOf, Group.latch_advance _ (W.1.more mo), W.2.2.2.2.1]
    rw [e2, this]
    by_cases hb : b = h.lat
    · rw [if_pos hb, if_pos hb]
      by_cases ha : (g.active h).getLsbD L = true
      · rw [if_pos ha, if_pos ha, hm L hL ha]
      · rw [if_neg ha, if_neg ha]
    · rw [if_neg hb, if_neg hb]

end Sys2Proof.Machine
end

