-- ==== Sys2Proof/Laws/State.lean ====
section
/-! SUPPORT. What each named update of State leaves in each field, and what the accessors read after it. -/

namespace Sys2Proof.Machine

@[simp] theorem setByte_now (s : State) (a : Nat) (b : Byte) : (s.setByte a b).now = s.now := rfl
@[simp] theorem setByte_drift (s : State) (a : Nat) (b : Byte) : (s.setByte a b).drift = s.drift := rfl
@[simp] theorem setByte_timerSet (s : State) (a : Nat) (b : Byte) : (s.setByte a b).timerSet = s.timerSet := rfl
@[simp] theorem setByte_agenda (s : State) (a : Nat) (b : Byte) : (s.setByte a b).agenda = s.agenda := rfl
@[simp] theorem setByte_cur (s : State) (a : Nat) (b : Byte) : (s.setByte a b).cur = s.cur := rfl
@[simp] theorem setByte_draw (s : State) (a : Nat) (b : Byte) : (s.setByte a b).draw = s.draw := rfl
@[simp] theorem setByte_uid (s : State) (a : Nat) (b : Byte) : (s.setByte a b).uid = s.uid := rfl
@[simp] theorem setByte_mem (s : State) (a : Nat) (b : Byte) : (s.setByte a b).mem = memSet s.blankEpoch s.mem a b := rfl
@[simp] theorem setByte_blankEpoch (s : State) (a : Nat) (b : Byte) : (s.setByte a b).blankEpoch = s.blankEpoch := rfl
@[simp] theorem setByte_poison (s : State) (a : Nat) (b : Byte) : (s.setByte a b).poison = s.poison := rfl
@[simp] theorem setByte_full (s : State) (a : Nat) (b : Byte) : (s.setByte a b).full = s.full := rfl
@[simp] theorem setByte_regs (s : State) (a : Nat) (b : Byte) : (s.setByte a b).regs = s.regs := rfl
@[simp] theorem setByte_groups (s : State) (a : Nat) (b : Byte) : (s.setByte a b).groups = s.groups := rfl
@[simp] theorem setByte_cells (s : State) (a : Nat) (b : Byte) : (s.setByte a b).cells = s.cells := rfl
@[simp] theorem setByte_saved (s : State) (a : Nat) (b : Byte) : (s.setByte a b).saved = s.saved := rfl
@[simp] theorem setByte_joinTries (s : State) (a : Nat) (b : Byte) : (s.setByte a b).joinTries = s.joinTries := rfl
@[simp] theorem setByte_launches (s : State) (a : Nat) (b : Byte) : (s.setByte a b).launches = s.launches := rfl
@[simp] theorem setByte_lists (s : State) (a : Nat) (b : Byte) : (s.setByte a b).lists = s.lists := rfl
@[simp] theorem setByte_cores (s : State) (a : Nat) (b : Byte) : (s.setByte a b).cores = s.cores := rfl
@[simp] theorem setByte_clusters (s : State) (a : Nat) (b : Byte) : (s.setByte a b).clusters = s.clusters := rfl
@[simp] theorem setByte_dies (s : State) (a : Nat) (b : Byte) : (s.setByte a b).dies = s.dies := rfl
@[simp] theorem setByte_packets (s : State) (a : Nat) (b : Byte) : (s.setByte a b).packets = s.packets := rfl
@[simp] theorem setByte_seqs (s : State) (a : Nat) (b : Byte) : (s.setByte a b).seqs = s.seqs := rfl
@[simp] theorem setByte_done (s : State) (a : Nat) (b : Byte) : (s.setByte a b).done = s.done := rfl
@[simp] theorem setByte_buckets (s : State) (a : Nat) (b : Byte) : (s.setByte a b).buckets = s.buckets := rfl
@[simp] theorem setByte_acks (s : State) (a : Nat) (b : Byte) : (s.setByte a b).acks = s.acks := rfl
@[simp] theorem setByte_old (s : State) (a : Nat) (b : Byte) : (s.setByte a b).old = s.old := rfl
@[simp] theorem setByte_views (s : State) (a : Nat) (b : Byte) : (s.setByte a b).views = s.views := rfl
@[simp] theorem setByte_fences (s : State) (a : Nat) (b : Byte) : (s.setByte a b).fences = s.fences := rfl
@[simp] theorem setByte_tlb (s : State) (a : Nat) (b : Byte) : (s.setByte a b).tlb = s.tlb := rfl
@[simp] theorem setByte_requests (s : State) (a : Nat) (b : Byte) : (s.setByte a b).requests = s.requests := rfl
@[simp] theorem setByte_subs (s : State) (a : Nat) (b : Byte) : (s.setByte a b).subs = s.subs := rfl
@[simp] theorem setByte_subReqs (s : State) (a : Nat) (b : Byte) : (s.setByte a b).subReqs = s.subReqs := rfl
@[simp] theorem setByte_slots (s : State) (a : Nat) (b : Byte) : (s.setByte a b).slots = s.slots := rfl
@[simp] theorem setByte_pushes (s : State) (a : Nat) (b : Byte) : (s.setByte a b).pushes = s.pushes := rfl
@[simp] theorem setByte_copies (s : State) (a : Nat) (b : Byte) : (s.setByte a b).copies = s.copies := rfl
@[simp] theorem setByte_copyms (s : State) (a : Nat) (b : Byte) : (s.setByte a b).copyms = s.copyms := rfl
@[simp] theorem setByte_copymOps (s : State) (a : Nat) (b : Byte) : (s.setByte a b).copymOps = s.copymOps := rfl
@[simp] theorem setByte_cards (s : State) (a : Nat) (b : Byte) : (s.setByte a b).cards = s.cards := rfl
@[simp] theorem setByte_owed (s : State) (a : Nat) (b : Byte) : (s.setByte a b).owed = s.owed := rfl
@[simp] theorem setByte_engines (s : State) (a : Nat) (b : Byte) : (s.setByte a b).engines = s.engines := rfl
@[simp] theorem setByte_routeJobs (s : State) (a : Nat) (b : Byte) : (s.setByte a b).routeJobs = s.routeJobs := rfl
@[simp] theorem setByte_tierReqs (s : State) (a : Nat) (b : Byte) : (s.setByte a b).tierReqs = s.tierReqs := rfl
@[simp] theorem setByte_objects (s : State) (a : Nat) (b : Byte) : (s.setByte a b).objects = s.objects := rfl
@[simp] theorem setByte_moves (s : State) (a : Nat) (b : Byte) : (s.setByte a b).moves = s.moves := rfl
@[simp] theorem setByte_evSeq (s : State) (a : Nat) (b : Byte) : (s.setByte a b).evSeq = s.evSeq := rfl
@[simp] theorem setByte_evLost (s : State) (a : Nat) (b : Byte) : (s.setByte a b).evLost = s.evLost := rfl
@[simp] theorem setByte_links (s : State) (a : Nat) (b : Byte) : (s.setByte a b).links = s.links := rfl
@[simp] theorem setByte_globals (s : State) (a : Nat) (b : Byte) : (s.setByte a b).globals = s.globals := rfl
@[simp] theorem setByte_far (s : State) (a : Nat) (b : Byte) : (s.setByte a b).far = s.far := rfl
@[simp] theorem setByte_farPoison (s : State) (a : Nat) (b : Byte) : (s.setByte a b).farPoison = s.farPoison := rfl
@[simp] theorem setByte_farSubs (s : State) (a : Nat) (b : Byte) : (s.setByte a b).farSubs = s.farSubs := rfl
@[simp] theorem setByte_outbox (s : State) (a : Nat) (b : Byte) : (s.setByte a b).outbox = s.outbox := rfl
@[simp] theorem setByte_wiring (s : State) (a : Nat) (b : Byte) : (s.setByte a b).wiring = s.wiring := rfl
@[simp] theorem setByte_safeMode (s : State) (a : Nat) (b : Byte) : (s.setByte a b).safeMode = s.safeMode := rfl
@[simp] theorem setByte_fwUp (s : State) (a : Nat) (b : Byte) : (s.setByte a b).fwUp = s.fwUp := rfl
@[simp] theorem setByte_mr (s : State) (a : Nat) (b : Byte) : (s.setByte a b).mr = s.mr := rfl
@[simp] theorem setByte_flash (s : State) (a : Nat) (b : Byte) : (s.setByte a b).flash = s.flash := rfl
@[simp] theorem setByte_energy (s : State) (a : Nat) (b : Byte) : (s.setByte a b).energy = s.energy := rfl

@[simp] theorem setPoison_now (s : State) (g : Nat) (b : Bool) : (s.setPoison g b).now = s.now := rfl
@[simp] theorem setPoison_drift (s : State) (g : Nat) (b : Bool) : (s.setPoison g b).drift = s.drift := rfl
@[simp] theorem setPoison_timerSet (s : State) (g : Nat) (b : Bool) : (s.setPoison g b).timerSet = s.timerSet := rfl
@[simp] theorem setPoison_agenda (s : State) (g : Nat) (b : Bool) : (s.setPoison g b).agenda = s.agenda := rfl
@[simp] theorem setPoison_cur (s : State) (g : Nat) (b : Bool) : (s.setPoison g b).cur = s.cur := rfl
@[simp] theorem setPoison_draw (s : State) (g : Nat) (b : Bool) : (s.setPoison g b).draw = s.draw := rfl
@[simp] theorem setPoison_uid (s : State) (g : Nat) (b : Bool) : (s.setPoison g b).uid = s.uid := rfl
@[simp] theorem setPoison_mem (s : State) (g : Nat) (b : Bool) : (s.setPoison g b).mem = s.mem := rfl
@[simp] theorem setPoison_blankEpoch (s : State) (g : Nat) (b : Bool) : (s.setPoison g b).blankEpoch = s.blankEpoch := rfl
@[simp] theorem setPoison_poison (s : State) (g : Nat) (b : Bool) : (s.setPoison g b).poison = sset s.poison g b := rfl
@[simp] theorem setPoison_full (s : State) (g : Nat) (b : Bool) : (s.setPoison g b).full = s.full := rfl
@[simp] theorem setPoison_regs (s : State) (g : Nat) (b : Bool) : (s.setPoison g b).regs = s.regs := rfl
@[simp] theorem setPoison_groups (s : State) (g : Nat) (b : Bool) : (s.setPoison g b).groups = s.groups := rfl
@[simp] theorem setPoison_cells (s : State) (g : Nat) (b : Bool) : (s.setPoison g b).cells = s.cells := rfl
@[simp] theorem setPoison_saved (s : State) (g : Nat) (b : Bool) : (s.setPoison g b).saved = s.saved := rfl
@[simp] theorem setPoison_joinTries (s : State) (g : Nat) (b : Bool) : (s.setPoison g b).joinTries = s.joinTries := rfl
@[simp] theorem setPoison_launches (s : State) (g : Nat) (b : Bool) : (s.setPoison g b).launches = s.launches := rfl
@[simp] theorem setPoison_lists (s : State) (g : Nat) (b : Bool) : (s.setPoison g b).lists = s.lists := rfl
@[simp] theorem setPoison_cores (s : State) (g : Nat) (b : Bool) : (s.setPoison g b).cores = s.cores := rfl
@[simp] theorem setPoison_clusters (s : State) (g : Nat) (b : Bool) : (s.setPoison g b).clusters = s.clusters := rfl
@[simp] theorem setPoison_dies (s : State) (g : Nat) (b : Bool) : (s.setPoison g b).dies = s.dies := rfl
@[simp] theorem setPoison_packets (s : State) (g : Nat) (b : Bool) : (s.setPoison g b).packets = s.packets := rfl
@[simp] theorem setPoison_seqs (s : State) (g : Nat) (b : Bool) : (s.setPoison g b).seqs = s.seqs := rfl
@[simp] theorem setPoison_done (s : State) (g : Nat) (b : Bool) : (s.setPoison g b).done = s.done := rfl
@[simp] theorem setPoison_buckets (s : State) (g : Nat) (b : Bool) : (s.setPoison g b).buckets = s.buckets := rfl
@[simp] theorem setPoison_acks (s : State) (g : Nat) (b : Bool) : (s.setPoison g b).acks = s.acks := rfl
@[simp] theorem setPoison_old (s : State) (g : Nat) (b : Bool) : (s.setPoison g b).old = s.old := rfl
@[simp] theorem setPoison_views (s : State) (g : Nat) (b : Bool) : (s.setPoison g b).views = s.views := rfl
@[simp] theorem setPoison_fences (s : State) (g : Nat) (b : Bool) : (s.setPoison g b).fences = s.fences := rfl
@[simp] theorem setPoison_tlb (s : State) (g : Nat) (b : Bool) : (s.setPoison g b).tlb = s.tlb := rfl
@[simp] theorem setPoison_requests (s : State) (g : Nat) (b : Bool) : (s.setPoison g b).requests = s.requests := rfl
@[simp] theorem setPoison_subs (s : State) (g : Nat) (b : Bool) : (s.setPoison g b).subs = s.subs := rfl
@[simp] theorem setPoison_subReqs (s : State) (g : Nat) (b : Bool) : (s.setPoison g b).subReqs = s.subReqs := rfl
@[simp] theorem setPoison_slots (s : State) (g : Nat) (b : Bool) : (s.setPoison g b).slots = s.slots := rfl
@[simp] theorem setPoison_pushes (s : State) (g : Nat) (b : Bool) : (s.setPoison g b).pushes = s.pushes := rfl
@[simp] theorem setPoison_copies (s : State) (g : Nat) (b : Bool) : (s.setPoison g b).copies = s.copies := rfl
@[simp] theorem setPoison_copyms (s : State) (g : Nat) (b : Bool) : (s.setPoison g b).copyms = s.copyms := rfl
@[simp] theorem setPoison_copymOps (s : State) (g : Nat) (b : Bool) : (s.setPoison g b).copymOps = s.copymOps := rfl
@[simp] theorem setPoison_cards (s : State) (g : Nat) (b : Bool) : (s.setPoison g b).cards = s.cards := rfl
@[simp] theorem setPoison_owed (s : State) (g : Nat) (b : Bool) : (s.setPoison g b).owed = s.owed := rfl
@[simp] theorem setPoison_engines (s : State) (g : Nat) (b : Bool) : (s.setPoison g b).engines = s.engines := rfl
@[simp] theorem setPoison_routeJobs (s : State) (g : Nat) (b : Bool) : (s.setPoison g b).routeJobs = s.routeJobs := rfl
@[simp] theorem setPoison_tierReqs (s : State) (g : Nat) (b : Bool) : (s.setPoison g b).tierReqs = s.tierReqs := rfl
@[simp] theorem setPoison_objects (s : State) (g : Nat) (b : Bool) : (s.setPoison g b).objects = s.objects := rfl
@[simp] theorem setPoison_moves (s : State) (g : Nat) (b : Bool) : (s.setPoison g b).moves = s.moves := rfl
@[simp] theorem setPoison_evSeq (s : State) (g : Nat) (b : Bool) : (s.setPoison g b).evSeq = s.evSeq := rfl
@[simp] theorem setPoison_evLost (s : State) (g : Nat) (b : Bool) : (s.setPoison g b).evLost = s.evLost := rfl
@[simp] theorem setPoison_links (s : State) (g : Nat) (b : Bool) : (s.setPoison g b).links = s.links := rfl
@[simp] theorem setPoison_globals (s : State) (g : Nat) (b : Bool) : (s.setPoison g b).globals = s.globals := rfl
@[simp] theorem setPoison_far (s : State) (g : Nat) (b : Bool) : (s.setPoison g b).far = s.far := rfl
@[simp] theorem setPoison_farPoison (s : State) (g : Nat) (b : Bool) : (s.setPoison g b).farPoison = s.farPoison := rfl
@[simp] theorem setPoison_farSubs (s : State) (g : Nat) (b : Bool) : (s.setPoison g b).farSubs = s.farSubs := rfl
@[simp] theorem setPoison_outbox (s : State) (g : Nat) (b : Bool) : (s.setPoison g b).outbox = s.outbox := rfl
@[simp] theorem setPoison_wiring (s : State) (g : Nat) (b : Bool) : (s.setPoison g b).wiring = s.wiring := rfl
@[simp] theorem setPoison_safeMode (s : State) (g : Nat) (b : Bool) : (s.setPoison g b).safeMode = s.safeMode := rfl
@[simp] theorem setPoison_fwUp (s : State) (g : Nat) (b : Bool) : (s.setPoison g b).fwUp = s.fwUp := rfl
@[simp] theorem setPoison_mr (s : State) (g : Nat) (b : Bool) : (s.setPoison g b).mr = s.mr := rfl
@[simp] theorem setPoison_flash (s : State) (g : Nat) (b : Bool) : (s.setPoison g b).flash = s.flash := rfl
@[simp] theorem setPoison_energy (s : State) (g : Nat) (b : Bool) : (s.setPoison g b).energy = s.energy := rfl

@[simp] theorem setFull_now (s : State) (g : Nat) (b : Bool) : (s.setFull g b).now = s.now := rfl
@[simp] theorem setFull_drift (s : State) (g : Nat) (b : Bool) : (s.setFull g b).drift = s.drift := rfl
@[simp] theorem setFull_timerSet (s : State) (g : Nat) (b : Bool) : (s.setFull g b).timerSet = s.timerSet := rfl
@[simp] theorem setFull_agenda (s : State) (g : Nat) (b : Bool) : (s.setFull g b).agenda = s.agenda := rfl
@[simp] theorem setFull_cur (s : State) (g : Nat) (b : Bool) : (s.setFull g b).cur = s.cur := rfl
@[simp] theorem setFull_draw (s : State) (g : Nat) (b : Bool) : (s.setFull g b).draw = s.draw := rfl
@[simp] theorem setFull_uid (s : State) (g : Nat) (b : Bool) : (s.setFull g b).uid = s.uid := rfl
@[simp] theorem setFull_mem (s : State) (g : Nat) (b : Bool) : (s.setFull g b).mem = s.mem := rfl
@[simp] theorem setFull_blankEpoch (s : State) (g : Nat) (b : Bool) : (s.setFull g b).blankEpoch = s.blankEpoch := rfl
@[simp] theorem setFull_poison (s : State) (g : Nat) (b : Bool) : (s.setFull g b).poison = s.poison := rfl
@[simp] theorem setFull_full (s : State) (g : Nat) (b : Bool) : (s.setFull g b).full = sset s.full g b := rfl
@[simp] theorem setFull_regs (s : State) (g : Nat) (b : Bool) : (s.setFull g b).regs = s.regs := rfl
@[simp] theorem setFull_groups (s : State) (g : Nat) (b : Bool) : (s.setFull g b).groups = s.groups := rfl
@[simp] theorem setFull_cells (s : State) (g : Nat) (b : Bool) : (s.setFull g b).cells = s.cells := rfl
@[simp] theorem setFull_saved (s : State) (g : Nat) (b : Bool) : (s.setFull g b).saved = s.saved := rfl
@[simp] theorem setFull_joinTries (s : State) (g : Nat) (b : Bool) : (s.setFull g b).joinTries = s.joinTries := rfl
@[simp] theorem setFull_launches (s : State) (g : Nat) (b : Bool) : (s.setFull g b).launches = s.launches := rfl
@[simp] theorem setFull_lists (s : State) (g : Nat) (b : Bool) : (s.setFull g b).lists = s.lists := rfl
@[simp] theorem setFull_cores (s : State) (g : Nat) (b : Bool) : (s.setFull g b).cores = s.cores := rfl
@[simp] theorem setFull_clusters (s : State) (g : Nat) (b : Bool) : (s.setFull g b).clusters = s.clusters := rfl
@[simp] theorem setFull_dies (s : State) (g : Nat) (b : Bool) : (s.setFull g b).dies = s.dies := rfl
@[simp] theorem setFull_packets (s : State) (g : Nat) (b : Bool) : (s.setFull g b).packets = s.packets := rfl
@[simp] theorem setFull_seqs (s : State) (g : Nat) (b : Bool) : (s.setFull g b).seqs = s.seqs := rfl
@[simp] theorem setFull_done (s : State) (g : Nat) (b : Bool) : (s.setFull g b).done = s.done := rfl
@[simp] theorem setFull_buckets (s : State) (g : Nat) (b : Bool) : (s.setFull g b).buckets = s.buckets := rfl
@[simp] theorem setFull_acks (s : State) (g : Nat) (b : Bool) : (s.setFull g b).acks = s.acks := rfl
@[simp] theorem setFull_old (s : State) (g : Nat) (b : Bool) : (s.setFull g b).old = s.old := rfl
@[simp] theorem setFull_views (s : State) (g : Nat) (b : Bool) : (s.setFull g b).views = s.views := rfl
@[simp] theorem setFull_fences (s : State) (g : Nat) (b : Bool) : (s.setFull g b).fences = s.fences := rfl
@[simp] theorem setFull_tlb (s : State) (g : Nat) (b : Bool) : (s.setFull g b).tlb = s.tlb := rfl
@[simp] theorem setFull_requests (s : State) (g : Nat) (b : Bool) : (s.setFull g b).requests = s.requests := rfl
@[simp] theorem setFull_subs (s : State) (g : Nat) (b : Bool) : (s.setFull g b).subs = s.subs := rfl
@[simp] theorem setFull_subReqs (s : State) (g : Nat) (b : Bool) : (s.setFull g b).subReqs = s.subReqs := rfl
@[simp] theorem setFull_slots (s : State) (g : Nat) (b : Bool) : (s.setFull g b).slots = s.slots := rfl
@[simp] theorem setFull_pushes (s : State) (g : Nat) (b : Bool) : (s.setFull g b).pushes = s.pushes := rfl
@[simp] theorem setFull_copies (s : State) (g : Nat) (b : Bool) : (s.setFull g b).copies = s.copies := rfl
@[simp] theorem setFull_copyms (s : State) (g : Nat) (b : Bool) : (s.setFull g b).copyms = s.copyms := rfl
@[simp] theorem setFull_copymOps (s : State) (g : Nat) (b : Bool) : (s.setFull g b).copymOps = s.copymOps := rfl
@[simp] theorem setFull_cards (s : State) (g : Nat) (b : Bool) : (s.setFull g b).cards = s.cards := rfl
@[simp] theorem setFull_owed (s : State) (g : Nat) (b : Bool) : (s.setFull g b).owed = s.owed := rfl
@[simp] theorem setFull_engines (s : State) (g : Nat) (b : Bool) : (s.setFull g b).engines = s.engines := rfl
@[simp] theorem setFull_routeJobs (s : State) (g : Nat) (b : Bool) : (s.setFull g b).routeJobs = s.routeJobs := rfl
@[simp] theorem setFull_tierReqs (s : State) (g : Nat) (b : Bool) : (s.setFull g b).tierReqs = s.tierReqs := rfl
@[simp] theorem setFull_objects (s : State) (g : Nat) (b : Bool) : (s.setFull g b).objects = s.objects := rfl
@[simp] theorem setFull_moves (s : State) (g : Nat) (b : Bool) : (s.setFull g b).moves = s.moves := rfl
@[simp] theorem setFull_evSeq (s : State) (g : Nat) (b : Bool) : (s.setFull g b).evSeq = s.evSeq := rfl
@[simp] theorem setFull_evLost (s : State) (g : Nat) (b : Bool) : (s.setFull g b).evLost = s.evLost := rfl
@[simp] theorem setFull_links (s : State) (g : Nat) (b : Bool) : (s.setFull g b).links = s.links := rfl
@[simp] theorem setFull_globals (s : State) (g : Nat) (b : Bool) : (s.setFull g b).globals = s.globals := rfl
@[simp] theorem setFull_far (s : State) (g : Nat) (b : Bool) : (s.setFull g b).far = s.far := rfl
@[simp] theorem setFull_farPoison (s : State) (g : Nat) (b : Bool) : (s.setFull g b).farPoison = s.farPoison := rfl
@[simp] theorem setFull_farSubs (s : State) (g : Nat) (b : Bool) : (s.setFull g b).farSubs = s.farSubs := rfl
@[simp] theorem setFull_outbox (s : State) (g : Nat) (b : Bool) : (s.setFull g b).outbox = s.outbox := rfl
@[simp] theorem setFull_wiring (s : State) (g : Nat) (b : Bool) : (s.setFull g b).wiring = s.wiring := rfl
@[simp] theorem setFull_safeMode (s : State) (g : Nat) (b : Bool) : (s.setFull g b).safeMode = s.safeMode := rfl
@[simp] theorem setFull_fwUp (s : State) (g : Nat) (b : Bool) : (s.setFull g b).fwUp = s.fwUp := rfl
@[simp] theorem setFull_mr (s : State) (g : Nat) (b : Bool) : (s.setFull g b).mr = s.mr := rfl
@[simp] theorem setFull_flash (s : State) (g : Nat) (b : Bool) : (s.setFull g b).flash = s.flash := rfl
@[simp] theorem setFull_energy (s : State) (g : Nat) (b : Bool) : (s.setFull g b).energy = s.energy := rfl

@[simp] theorem setReg_now (s : State) (r : Reg) (x : Dword) : (s.setReg r x).now = s.now := rfl
@[simp] theorem setReg_drift (s : State) (r : Reg) (x : Dword) : (s.setReg r x).drift = s.drift := rfl
@[simp] theorem setReg_timerSet (s : State) (r : Reg) (x : Dword) : (s.setReg r x).timerSet = s.timerSet := rfl
@[simp] theorem setReg_agenda (s : State) (r : Reg) (x : Dword) : (s.setReg r x).agenda = s.agenda := rfl
@[simp] theorem setReg_cur (s : State) (r : Reg) (x : Dword) : (s.setReg r x).cur = s.cur := rfl
@[simp] theorem setReg_draw (s : State) (r : Reg) (x : Dword) : (s.setReg r x).draw = s.draw := rfl
@[simp] theorem setReg_uid (s : State) (r : Reg) (x : Dword) : (s.setReg r x).uid = s.uid := rfl
@[simp] theorem setReg_mem (s : State) (r : Reg) (x : Dword) : (s.setReg r x).mem = s.mem := rfl
@[simp] theorem setReg_blankEpoch (s : State) (r : Reg) (x : Dword) : (s.setReg r x).blankEpoch = s.blankEpoch := rfl
@[simp] theorem setReg_poison (s : State) (r : Reg) (x : Dword) : (s.setReg r x).poison = s.poison := rfl
@[simp] theorem setReg_full (s : State) (r : Reg) (x : Dword) : (s.setReg r x).full = s.full := rfl
@[simp] theorem setReg_regs (s : State) (r : Reg) (x : Dword) : (s.setReg r x).regs = asetD r.resetVal s.regs r.addr x := rfl
@[simp] theorem setReg_groups (s : State) (r : Reg) (x : Dword) : (s.setReg r x).groups = s.groups := rfl
@[simp] theorem setReg_cells (s : State) (r : Reg) (x : Dword) : (s.setReg r x).cells = s.cells := rfl
@[simp] theorem setReg_saved (s : State) (r : Reg) (x : Dword) : (s.setReg r x).saved = s.saved := rfl
@[simp] theorem setReg_joinTries (s : State) (r : Reg) (x : Dword) : (s.setReg r x).joinTries = s.joinTries := rfl
@[simp] theorem setReg_launches (s : State) (r : Reg) (x : Dword) : (s.setReg r x).launches = s.launches := rfl
@[simp] theorem setReg_lists (s : State) (r : Reg) (x : Dword) : (s.setReg r x).lists = s.lists := rfl
@[simp] theorem setReg_cores (s : State) (r : Reg) (x : Dword) : (s.setReg r x).cores = s.cores := rfl
@[simp] theorem setReg_clusters (s : State) (r : Reg) (x : Dword) : (s.setReg r x).clusters = s.clusters := rfl
@[simp] theorem setReg_dies (s : State) (r : Reg) (x : Dword) : (s.setReg r x).dies = s.dies := rfl
@[simp] theorem setReg_packets (s : State) (r : Reg) (x : Dword) : (s.setReg r x).packets = s.packets := rfl
@[simp] theorem setReg_seqs (s : State) (r : Reg) (x : Dword) : (s.setReg r x).seqs = s.seqs := rfl
@[simp] theorem setReg_done (s : State) (r : Reg) (x : Dword) : (s.setReg r x).done = s.done := rfl
@[simp] theorem setReg_buckets (s : State) (r : Reg) (x : Dword) : (s.setReg r x).buckets = s.buckets := rfl
@[simp] theorem setReg_acks (s : State) (r : Reg) (x : Dword) : (s.setReg r x).acks = s.acks := rfl
@[simp] theorem setReg_old (s : State) (r : Reg) (x : Dword) : (s.setReg r x).old = s.old := rfl
@[simp] theorem setReg_views (s : State) (r : Reg) (x : Dword) : (s.setReg r x).views = s.views := rfl
@[simp] theorem setReg_fences (s : State) (r : Reg) (x : Dword) : (s.setReg r x).fences = s.fences := rfl
@[simp] theorem setReg_tlb (s : State) (r : Reg) (x : Dword) : (s.setReg r x).tlb = s.tlb := rfl
@[simp] theorem setReg_requests (s : State) (r : Reg) (x : Dword) : (s.setReg r x).requests = s.requests := rfl
@[simp] theorem setReg_subs (s : State) (r : Reg) (x : Dword) : (s.setReg r x).subs = s.subs := rfl
@[simp] theorem setReg_subReqs (s : State) (r : Reg) (x : Dword) : (s.setReg r x).subReqs = s.subReqs := rfl
@[simp] theorem setReg_slots (s : State) (r : Reg) (x : Dword) : (s.setReg r x).slots = s.slots := rfl
@[simp] theorem setReg_pushes (s : State) (r : Reg) (x : Dword) : (s.setReg r x).pushes = s.pushes := rfl
@[simp] theorem setReg_copies (s : State) (r : Reg) (x : Dword) : (s.setReg r x).copies = s.copies := rfl
@[simp] theorem setReg_copyms (s : State) (r : Reg) (x : Dword) : (s.setReg r x).copyms = s.copyms := rfl
@[simp] theorem setReg_copymOps (s : State) (r : Reg) (x : Dword) : (s.setReg r x).copymOps = s.copymOps := rfl
@[simp] theorem setReg_cards (s : State) (r : Reg) (x : Dword) : (s.setReg r x).cards = s.cards := rfl
@[simp] theorem setReg_owed (s : State) (r : Reg) (x : Dword) : (s.setReg r x).owed = s.owed := rfl
@[simp] theorem setReg_engines (s : State) (r : Reg) (x : Dword) : (s.setReg r x).engines = s.engines := rfl
@[simp] theorem setReg_routeJobs (s : State) (r : Reg) (x : Dword) : (s.setReg r x).routeJobs = s.routeJobs := rfl
@[simp] theorem setReg_tierReqs (s : State) (r : Reg) (x : Dword) : (s.setReg r x).tierReqs = s.tierReqs := rfl
@[simp] theorem setReg_objects (s : State) (r : Reg) (x : Dword) : (s.setReg r x).objects = s.objects := rfl
@[simp] theorem setReg_moves (s : State) (r : Reg) (x : Dword) : (s.setReg r x).moves = s.moves := rfl
@[simp] theorem setReg_evSeq (s : State) (r : Reg) (x : Dword) : (s.setReg r x).evSeq = s.evSeq := rfl
@[simp] theorem setReg_evLost (s : State) (r : Reg) (x : Dword) : (s.setReg r x).evLost = s.evLost := rfl
@[simp] theorem setReg_links (s : State) (r : Reg) (x : Dword) : (s.setReg r x).links = s.links := rfl
@[simp] theorem setReg_globals (s : State) (r : Reg) (x : Dword) : (s.setReg r x).globals = s.globals := rfl
@[simp] theorem setReg_far (s : State) (r : Reg) (x : Dword) : (s.setReg r x).far = s.far := rfl
@[simp] theorem setReg_farPoison (s : State) (r : Reg) (x : Dword) : (s.setReg r x).farPoison = s.farPoison := rfl
@[simp] theorem setReg_farSubs (s : State) (r : Reg) (x : Dword) : (s.setReg r x).farSubs = s.farSubs := rfl
@[simp] theorem setReg_outbox (s : State) (r : Reg) (x : Dword) : (s.setReg r x).outbox = s.outbox := rfl
@[simp] theorem setReg_wiring (s : State) (r : Reg) (x : Dword) : (s.setReg r x).wiring = s.wiring := rfl
@[simp] theorem setReg_safeMode (s : State) (r : Reg) (x : Dword) : (s.setReg r x).safeMode = s.safeMode := rfl
@[simp] theorem setReg_fwUp (s : State) (r : Reg) (x : Dword) : (s.setReg r x).fwUp = s.fwUp := rfl
@[simp] theorem setReg_mr (s : State) (r : Reg) (x : Dword) : (s.setReg r x).mr = s.mr := rfl
@[simp] theorem setReg_flash (s : State) (r : Reg) (x : Dword) : (s.setReg r x).flash = s.flash := rfl
@[simp] theorem setReg_energy (s : State) (r : Reg) (x : Dword) : (s.setReg r x).energy = s.energy := rfl

@[simp] theorem putGroup_now (s : State) (u : Nat) (g : Group) : (s.putGroup u g).now = s.now := rfl
@[simp] theorem putGroup_drift (s : State) (u : Nat) (g : Group) : (s.putGroup u g).drift = s.drift := rfl
@[simp] theorem putGroup_timerSet (s : State) (u : Nat) (g : Group) : (s.putGroup u g).timerSet = s.timerSet := rfl
@[simp] theorem putGroup_agenda (s : State) (u : Nat) (g : Group) : (s.putGroup u g).agenda = s.agenda := rfl
@[simp] theorem putGroup_cur (s : State) (u : Nat) (g : Group) : (s.putGroup u g).cur = s.cur := rfl
@[simp] theorem putGroup_draw (s : State) (u : Nat) (g : Group) : (s.putGroup u g).draw = s.draw := rfl
@[simp] theorem putGroup_uid (s : State) (u : Nat) (g : Group) : (s.putGroup u g).uid = s.uid := rfl
@[simp] theorem putGroup_mem (s : State) (u : Nat) (g : Group) : (s.putGroup u g).mem = s.mem := rfl
@[simp] theorem putGroup_blankEpoch (s : State) (u : Nat) (g : Group) : (s.putGroup u g).blankEpoch = s.blankEpoch := rfl
@[simp] theorem putGroup_poison (s : State) (u : Nat) (g : Group) : (s.putGroup u g).poison = s.poison := rfl
@[simp] theorem putGroup_full (s : State) (u : Nat) (g : Group) : (s.putGroup u g).full = s.full := rfl
@[simp] theorem putGroup_regs (s : State) (u : Nat) (g : Group) : (s.putGroup u g).regs = s.regs := rfl
@[simp] theorem putGroup_groups (s : State) (u : Nat) (g : Group) : (s.putGroup u g).groups = aput s.groups u g := rfl
@[simp] theorem putGroup_cells (s : State) (u : Nat) (g : Group) : (s.putGroup u g).cells = s.cells := rfl
@[simp] theorem putGroup_saved (s : State) (u : Nat) (g : Group) : (s.putGroup u g).saved = s.saved := rfl
@[simp] theorem putGroup_joinTries (s : State) (u : Nat) (g : Group) : (s.putGroup u g).joinTries = s.joinTries := rfl
@[simp] theorem putGroup_launches (s : State) (u : Nat) (g : Group) : (s.putGroup u g).launches = s.launches := rfl
@[simp] theorem putGroup_lists (s : State) (u : Nat) (g : Group) : (s.putGroup u g).lists = s.lists := rfl
@[simp] theorem putGroup_cores (s : State) (u : Nat) (g : Group) : (s.putGroup u g).cores = s.cores := rfl
@[simp] theorem putGroup_clusters (s : State) (u : Nat) (g : Group) : (s.putGroup u g).clusters = s.clusters := rfl
@[simp] theorem putGroup_dies (s : State) (u : Nat) (g : Group) : (s.putGroup u g).dies = s.dies := rfl
@[simp] theorem putGroup_packets (s : State) (u : Nat) (g : Group) : (s.putGroup u g).packets = s.packets := rfl
@[simp] theorem putGroup_seqs (s : State) (u : Nat) (g : Group) : (s.putGroup u g).seqs = s.seqs := rfl
@[simp] theorem putGroup_done (s : State) (u : Nat) (g : Group) : (s.putGroup u g).done = s.done := rfl
@[simp] theorem putGroup_buckets (s : State) (u : Nat) (g : Group) : (s.putGroup u g).buckets = s.buckets := rfl
@[simp] theorem putGroup_acks (s : State) (u : Nat) (g : Group) : (s.putGroup u g).acks = s.acks := rfl
@[simp] theorem putGroup_old (s : State) (u : Nat) (g : Group) : (s.putGroup u g).old = s.old := rfl
@[simp] theorem putGroup_views (s : State) (u : Nat) (g : Group) : (s.putGroup u g).views = s.views := rfl
@[simp] theorem putGroup_fences (s : State) (u : Nat) (g : Group) : (s.putGroup u g).fences = s.fences := rfl
@[simp] theorem putGroup_tlb (s : State) (u : Nat) (g : Group) : (s.putGroup u g).tlb = s.tlb := rfl
@[simp] theorem putGroup_requests (s : State) (u : Nat) (g : Group) : (s.putGroup u g).requests = s.requests := rfl
@[simp] theorem putGroup_subs (s : State) (u : Nat) (g : Group) : (s.putGroup u g).subs = s.subs := rfl
@[simp] theorem putGroup_subReqs (s : State) (u : Nat) (g : Group) : (s.putGroup u g).subReqs = s.subReqs := rfl
@[simp] theorem putGroup_slots (s : State) (u : Nat) (g : Group) : (s.putGroup u g).slots = s.slots := rfl
@[simp] theorem putGroup_pushes (s : State) (u : Nat) (g : Group) : (s.putGroup u g).pushes = s.pushes := rfl
@[simp] theorem putGroup_copies (s : State) (u : Nat) (g : Group) : (s.putGroup u g).copies = s.copies := rfl
@[simp] theorem putGroup_copyms (s : State) (u : Nat) (g : Group) : (s.putGroup u g).copyms = s.copyms := rfl
@[simp] theorem putGroup_copymOps (s : State) (u : Nat) (g : Group) : (s.putGroup u g).copymOps = s.copymOps := rfl
@[simp] theorem putGroup_cards (s : State) (u : Nat) (g : Group) : (s.putGroup u g).cards = s.cards := rfl
@[simp] theorem putGroup_owed (s : State) (u : Nat) (g : Group) : (s.putGroup u g).owed = s.owed := rfl
@[simp] theorem putGroup_engines (s : State) (u : Nat) (g : Group) : (s.putGroup u g).engines = s.engines := rfl
@[simp] theorem putGroup_routeJobs (s : State) (u : Nat) (g : Group) : (s.putGroup u g).routeJobs = s.routeJobs := rfl
@[simp] theorem putGroup_tierReqs (s : State) (u : Nat) (g : Group) : (s.putGroup u g).tierReqs = s.tierReqs := rfl
@[simp] theorem putGroup_objects (s : State) (u : Nat) (g : Group) : (s.putGroup u g).objects = s.objects := rfl
@[simp] theorem putGroup_moves (s : State) (u : Nat) (g : Group) : (s.putGroup u g).moves = s.moves := rfl
@[simp] theorem putGroup_evSeq (s : State) (u : Nat) (g : Group) : (s.putGroup u g).evSeq = s.evSeq := rfl
@[simp] theorem putGroup_evLost (s : State) (u : Nat) (g : Group) : (s.putGroup u g).evLost = s.evLost := rfl
@[simp] theorem putGroup_links (s : State) (u : Nat) (g : Group) : (s.putGroup u g).links = s.links := rfl
@[simp] theorem putGroup_globals (s : State) (u : Nat) (g : Group) : (s.putGroup u g).globals = s.globals := rfl
@[simp] theorem putGroup_far (s : State) (u : Nat) (g : Group) : (s.putGroup u g).far = s.far := rfl
@[simp] theorem putGroup_farPoison (s : State) (u : Nat) (g : Group) : (s.putGroup u g).farPoison = s.farPoison := rfl
@[simp] theorem putGroup_farSubs (s : State) (u : Nat) (g : Group) : (s.putGroup u g).farSubs = s.farSubs := rfl
@[simp] theorem putGroup_outbox (s : State) (u : Nat) (g : Group) : (s.putGroup u g).outbox = s.outbox := rfl
@[simp] theorem putGroup_wiring (s : State) (u : Nat) (g : Group) : (s.putGroup u g).wiring = s.wiring := rfl
@[simp] theorem putGroup_safeMode (s : State) (u : Nat) (g : Group) : (s.putGroup u g).safeMode = s.safeMode := rfl
@[simp] theorem putGroup_fwUp (s : State) (u : Nat) (g : Group) : (s.putGroup u g).fwUp = s.fwUp := rfl
@[simp] theorem putGroup_mr (s : State) (u : Nat) (g : Group) : (s.putGroup u g).mr = s.mr := rfl
@[simp] theorem putGroup_flash (s : State) (u : Nat) (g : Group) : (s.putGroup u g).flash = s.flash := rfl
@[simp] theorem putGroup_energy (s : State) (u : Nat) (g : Group) : (s.putGroup u g).energy = s.energy := rfl

@[simp] theorem putCell_now (s : State) (k : Nat) (c : CellSt) : (s.putCell k c).now = s.now := rfl
@[simp] theorem putCell_drift (s : State) (k : Nat) (c : CellSt) : (s.putCell k c).drift = s.drift := rfl
@[simp] theorem putCell_timerSet (s : State) (k : Nat) (c : CellSt) : (s.putCell k c).timerSet = s.timerSet := rfl
@[simp] theorem putCell_agenda (s : State) (k : Nat) (c : CellSt) : (s.putCell k c).agenda = s.agenda := rfl
@[simp] theorem putCell_cur (s : State) (k : Nat) (c : CellSt) : (s.putCell k c).cur = s.cur := rfl
@[simp] theorem putCell_draw (s : State) (k : Nat) (c : CellSt) : (s.putCell k c).draw = s.draw := rfl
@[simp] theorem putCell_uid (s : State) (k : Nat) (c : CellSt) : (s.putCell k c).uid = s.uid := rfl
@[simp] theorem putCell_mem (s : State) (k : Nat) (c : CellSt) : (s.putCell k c).mem = s.mem := rfl
@[simp] theorem putCell_blankEpoch (s : State) (k : Nat) (c : CellSt) : (s.putCell k c).blankEpoch = s.blankEpoch := rfl
@[simp] theorem putCell_poison (s : State) (k : Nat) (c : CellSt) : (s.putCell k c).poison = s.poison := rfl
@[simp] theorem putCell_full (s : State) (k : Nat) (c : CellSt) : (s.putCell k c).full = s.full := rfl
@[simp] theorem putCell_regs (s : State) (k : Nat) (c : CellSt) : (s.putCell k c).regs = s.regs := rfl
@[simp] theorem putCell_groups (s : State) (k : Nat) (c : CellSt) : (s.putCell k c).groups = s.groups := rfl
@[simp] theorem putCell_cells (s : State) (k : Nat) (c : CellSt) : (s.putCell k c).cells = aput s.cells k c := rfl
@[simp] theorem putCell_saved (s : State) (k : Nat) (c : CellSt) : (s.putCell k c).saved = s.saved := rfl
@[simp] theorem putCell_joinTries (s : State) (k : Nat) (c : CellSt) : (s.putCell k c).joinTries = s.joinTries := rfl
@[simp] theorem putCell_launches (s : State) (k : Nat) (c : CellSt) : (s.putCell k c).launches = s.launches := rfl
@[simp] theorem putCell_lists (s : State) (k : Nat) (c : CellSt) : (s.putCell k c).lists = s.lists := rfl
@[simp] theorem putCell_cores (s : State) (k : Nat) (c : CellSt) : (s.putCell k c).cores = s.cores := rfl
@[simp] theorem putCell_clusters (s : State) (k : Nat) (c : CellSt) : (s.putCell k c).clusters = s.clusters := rfl
@[simp] theorem putCell_dies (s : State) (k : Nat) (c : CellSt) : (s.putCell k c).dies = s.dies := rfl
@[simp] theorem putCell_packets (s : State) (k : Nat) (c : CellSt) : (s.putCell k c).packets = s.packets := rfl
@[simp] theorem putCell_seqs (s : State) (k : Nat) (c : CellSt) : (s.putCell k c).seqs = s.seqs := rfl
@[simp] theorem putCell_done (s : State) (k : Nat) (c : CellSt) : (s.putCell k c).done = s.done := rfl
@[simp] theorem putCell_buckets (s : State) (k : Nat) (c : CellSt) : (s.putCell k c).buckets = s.buckets := rfl
@[simp] theorem putCell_acks (s : State) (k : Nat) (c : CellSt) : (s.putCell k c).acks = s.acks := rfl
@[simp] theorem putCell_old (s : State) (k : Nat) (c : CellSt) : (s.putCell k c).old = s.old := rfl
@[simp] theorem putCell_views (s : State) (k : Nat) (c : CellSt) : (s.putCell k c).views = s.views := rfl
@[simp] theorem putCell_fences (s : State) (k : Nat) (c : CellSt) : (s.putCell k c).fences = s.fences := rfl
@[simp] theorem putCell_tlb (s : State) (k : Nat) (c : CellSt) : (s.putCell k c).tlb = s.tlb := rfl
@[simp] theorem putCell_requests (s : State) (k : Nat) (c : CellSt) : (s.putCell k c).requests = s.requests := rfl
@[simp] theorem putCell_subs (s : State) (k : Nat) (c : CellSt) : (s.putCell k c).subs = s.subs := rfl
@[simp] theorem putCell_subReqs (s : State) (k : Nat) (c : CellSt) : (s.putCell k c).subReqs = s.subReqs := rfl
@[simp] theorem putCell_slots (s : State) (k : Nat) (c : CellSt) : (s.putCell k c).slots = s.slots := rfl
@[simp] theorem putCell_pushes (s : State) (k : Nat) (c : CellSt) : (s.putCell k c).pushes = s.pushes := rfl
@[simp] theorem putCell_copies (s : State) (k : Nat) (c : CellSt) : (s.putCell k c).copies = s.copies := rfl
@[simp] theorem putCell_copyms (s : State) (k : Nat) (c : CellSt) : (s.putCell k c).copyms = s.copyms := rfl
@[simp] theorem putCell_copymOps (s : State) (k : Nat) (c : CellSt) : (s.putCell k c).copymOps = s.copymOps := rfl
@[simp] theorem putCell_cards (s : State) (k : Nat) (c : CellSt) : (s.putCell k c).cards = s.cards := rfl
@[simp] theorem putCell_owed (s : State) (k : Nat) (c : CellSt) : (s.putCell k c).owed = s.owed := rfl
@[simp] theorem putCell_engines (s : State) (k : Nat) (c : CellSt) : (s.putCell k c).engines = s.engines := rfl
@[simp] theorem putCell_routeJobs (s : State) (k : Nat) (c : CellSt) : (s.putCell k c).routeJobs = s.routeJobs := rfl
@[simp] theorem putCell_tierReqs (s : State) (k : Nat) (c : CellSt) : (s.putCell k c).tierReqs = s.tierReqs := rfl
@[simp] theorem putCell_objects (s : State) (k : Nat) (c : CellSt) : (s.putCell k c).objects = s.objects := rfl
@[simp] theorem putCell_moves (s : State) (k : Nat) (c : CellSt) : (s.putCell k c).moves = s.moves := rfl
@[simp] theorem putCell_evSeq (s : State) (k : Nat) (c : CellSt) : (s.putCell k c).evSeq = s.evSeq := rfl
@[simp] theorem putCell_evLost (s : State) (k : Nat) (c : CellSt) : (s.putCell k c).evLost = s.evLost := rfl
@[simp] theorem putCell_links (s : State) (k : Nat) (c : CellSt) : (s.putCell k c).links = s.links := rfl
@[simp] theorem putCell_globals (s : State) (k : Nat) (c : CellSt) : (s.putCell k c).globals = s.globals := rfl
@[simp] theorem putCell_far (s : State) (k : Nat) (c : CellSt) : (s.putCell k c).far = s.far := rfl
@[simp] theorem putCell_farPoison (s : State) (k : Nat) (c : CellSt) : (s.putCell k c).farPoison = s.farPoison := rfl
@[simp] theorem putCell_farSubs (s : State) (k : Nat) (c : CellSt) : (s.putCell k c).farSubs = s.farSubs := rfl
@[simp] theorem putCell_outbox (s : State) (k : Nat) (c : CellSt) : (s.putCell k c).outbox = s.outbox := rfl
@[simp] theorem putCell_wiring (s : State) (k : Nat) (c : CellSt) : (s.putCell k c).wiring = s.wiring := rfl
@[simp] theorem putCell_safeMode (s : State) (k : Nat) (c : CellSt) : (s.putCell k c).safeMode = s.safeMode := rfl
@[simp] theorem putCell_fwUp (s : State) (k : Nat) (c : CellSt) : (s.putCell k c).fwUp = s.fwUp := rfl
@[simp] theorem putCell_mr (s : State) (k : Nat) (c : CellSt) : (s.putCell k c).mr = s.mr := rfl
@[simp] theorem putCell_flash (s : State) (k : Nat) (c : CellSt) : (s.putCell k c).flash = s.flash := rfl
@[simp] theorem putCell_energy (s : State) (k : Nat) (c : CellSt) : (s.putCell k c).energy = s.energy := rfl

@[simp] theorem putCore_now (s : State) (k : Nat) (c : CoreSt) : (s.putCore k c).now = s.now := rfl
@[simp] theorem putCore_drift (s : State) (k : Nat) (c : CoreSt) : (s.putCore k c).drift = s.drift := rfl
@[simp] theorem putCore_timerSet (s : State) (k : Nat) (c : CoreSt) : (s.putCore k c).timerSet = s.timerSet := rfl
@[simp] theorem putCore_agenda (s : State) (k : Nat) (c : CoreSt) : (s.putCore k c).agenda = s.agenda := rfl
@[simp] theorem putCore_cur (s : State) (k : Nat) (c : CoreSt) : (s.putCore k c).cur = s.cur := rfl
@[simp] theorem putCore_draw (s : State) (k : Nat) (c : CoreSt) : (s.putCore k c).draw = s.draw := rfl
@[simp] theorem putCore_uid (s : State) (k : Nat) (c : CoreSt) : (s.putCore k c).uid = s.uid := rfl
@[simp] theorem putCore_mem (s : State) (k : Nat) (c : CoreSt) : (s.putCore k c).mem = s.mem := rfl
@[simp] theorem putCore_blankEpoch (s : State) (k : Nat) (c : CoreSt) : (s.putCore k c).blankEpoch = s.blankEpoch := rfl
@[simp] theorem putCore_poison (s : State) (k : Nat) (c : CoreSt) : (s.putCore k c).poison = s.poison := rfl
@[simp] theorem putCore_full (s : State) (k : Nat) (c : CoreSt) : (s.putCore k c).full = s.full := rfl
@[simp] theorem putCore_regs (s : State) (k : Nat) (c : CoreSt) : (s.putCore k c).regs = s.regs := rfl
@[simp] theorem putCore_groups (s : State) (k : Nat) (c : CoreSt) : (s.putCore k c).groups = s.groups := rfl
@[simp] theorem putCore_cells (s : State) (k : Nat) (c : CoreSt) : (s.putCore k c).cells = s.cells := rfl
@[simp] theorem putCore_saved (s : State) (k : Nat) (c : CoreSt) : (s.putCore k c).saved = s.saved := rfl
@[simp] theorem putCore_joinTries (s : State) (k : Nat) (c : CoreSt) : (s.putCore k c).joinTries = s.joinTries := rfl
@[simp] theorem putCore_launches (s : State) (k : Nat) (c : CoreSt) : (s.putCore k c).launches = s.launches := rfl
@[simp] theorem putCore_lists (s : State) (k : Nat) (c : CoreSt) : (s.putCore k c).lists = s.lists := rfl
@[simp] theorem putCore_cores (s : State) (k : Nat) (c : CoreSt) : (s.putCore k c).cores = asetD coreReset s.cores k c := rfl
@[simp] theorem putCore_clusters (s : State) (k : Nat) (c : CoreSt) : (s.putCore k c).clusters = s.clusters := rfl
@[simp] theorem putCore_dies (s : State) (k : Nat) (c : CoreSt) : (s.putCore k c).dies = s.dies := rfl
@[simp] theorem putCore_packets (s : State) (k : Nat) (c : CoreSt) : (s.putCore k c).packets = s.packets := rfl
@[simp] theorem putCore_seqs (s : State) (k : Nat) (c : CoreSt) : (s.putCore k c).seqs = s.seqs := rfl
@[simp] theorem putCore_done (s : State) (k : Nat) (c : CoreSt) : (s.putCore k c).done = s.done := rfl
@[simp] theorem putCore_buckets (s : State) (k : Nat) (c : CoreSt) : (s.putCore k c).buckets = s.buckets := rfl
@[simp] theorem putCore_acks (s : State) (k : Nat) (c : CoreSt) : (s.putCore k c).acks = s.acks := rfl
@[simp] theorem putCore_old (s : State) (k : Nat) (c : CoreSt) : (s.putCore k c).old = s.old := rfl
@[simp] theorem putCore_views (s : State) (k : Nat) (c : CoreSt) : (s.putCore k c).views = s.views := rfl
@[simp] theorem putCore_fences (s : State) (k : Nat) (c : CoreSt) : (s.putCore k c).fences = s.fences := rfl
@[simp] theorem putCore_tlb (s : State) (k : Nat) (c : CoreSt) : (s.putCore k c).tlb = s.tlb := rfl
@[simp] theorem putCore_requests (s : State) (k : Nat) (c : CoreSt) : (s.putCore k c).requests = s.requests := rfl
@[simp] theorem putCore_subs (s : State) (k : Nat) (c : CoreSt) : (s.putCore k c).subs = s.subs := rfl
@[simp] theorem putCore_subReqs (s : State) (k : Nat) (c : CoreSt) : (s.putCore k c).subReqs = s.subReqs := rfl
@[simp] theorem putCore_slots (s : State) (k : Nat) (c : CoreSt) : (s.putCore k c).slots = s.slots := rfl
@[simp] theorem putCore_pushes (s : State) (k : Nat) (c : CoreSt) : (s.putCore k c).pushes = s.pushes := rfl
@[simp] theorem putCore_copies (s : State) (k : Nat) (c : CoreSt) : (s.putCore k c).copies = s.copies := rfl
@[simp] theorem putCore_copyms (s : State) (k : Nat) (c : CoreSt) : (s.putCore k c).copyms = s.copyms := rfl
@[simp] theorem putCore_copymOps (s : State) (k : Nat) (c : CoreSt) : (s.putCore k c).copymOps = s.copymOps := rfl
@[simp] theorem putCore_cards (s : State) (k : Nat) (c : CoreSt) : (s.putCore k c).cards = s.cards := rfl
@[simp] theorem putCore_owed (s : State) (k : Nat) (c : CoreSt) : (s.putCore k c).owed = s.owed := rfl
@[simp] theorem putCore_engines (s : State) (k : Nat) (c : CoreSt) : (s.putCore k c).engines = s.engines := rfl
@[simp] theorem putCore_routeJobs (s : State) (k : Nat) (c : CoreSt) : (s.putCore k c).routeJobs = s.routeJobs := rfl
@[simp] theorem putCore_tierReqs (s : State) (k : Nat) (c : CoreSt) : (s.putCore k c).tierReqs = s.tierReqs := rfl
@[simp] theorem putCore_objects (s : State) (k : Nat) (c : CoreSt) : (s.putCore k c).objects = s.objects := rfl
@[simp] theorem putCore_moves (s : State) (k : Nat) (c : CoreSt) : (s.putCore k c).moves = s.moves := rfl
@[simp] theorem putCore_evSeq (s : State) (k : Nat) (c : CoreSt) : (s.putCore k c).evSeq = s.evSeq := rfl
@[simp] theorem putCore_evLost (s : State) (k : Nat) (c : CoreSt) : (s.putCore k c).evLost = s.evLost := rfl
@[simp] theorem putCore_links (s : State) (k : Nat) (c : CoreSt) : (s.putCore k c).links = s.links := rfl
@[simp] theorem putCore_globals (s : State) (k : Nat) (c : CoreSt) : (s.putCore k c).globals = s.globals := rfl
@[simp] theorem putCore_far (s : State) (k : Nat) (c : CoreSt) : (s.putCore k c).far = s.far := rfl
@[simp] theorem putCore_farPoison (s : State) (k : Nat) (c : CoreSt) : (s.putCore k c).farPoison = s.farPoison := rfl
@[simp] theorem putCore_farSubs (s : State) (k : Nat) (c : CoreSt) : (s.putCore k c).farSubs = s.farSubs := rfl
@[simp] theorem putCore_outbox (s : State) (k : Nat) (c : CoreSt) : (s.putCore k c).outbox = s.outbox := rfl
@[simp] theorem putCore_wiring (s : State) (k : Nat) (c : CoreSt) : (s.putCore k c).wiring = s.wiring := rfl
@[simp] theorem putCore_safeMode (s : State) (k : Nat) (c : CoreSt) : (s.putCore k c).safeMode = s.safeMode := rfl
@[simp] theorem putCore_fwUp (s : State) (k : Nat) (c : CoreSt) : (s.putCore k c).fwUp = s.fwUp := rfl
@[simp] theorem putCore_mr (s : State) (k : Nat) (c : CoreSt) : (s.putCore k c).mr = s.mr := rfl
@[simp] theorem putCore_flash (s : State) (k : Nat) (c : CoreSt) : (s.putCore k c).flash = s.flash := rfl
@[simp] theorem putCore_energy (s : State) (k : Nat) (c : CoreSt) : (s.putCore k c).energy = s.energy := rfl

@[simp] theorem putCluster_now (s : State) (k : Nat) (c : ClusterSt) : (s.putCluster k c).now = s.now := rfl
@[simp] theorem putCluster_drift (s : State) (k : Nat) (c : ClusterSt) : (s.putCluster k c).drift = s.drift := rfl
@[simp] theorem putCluster_timerSet (s : State) (k : Nat) (c : ClusterSt) : (s.putCluster k c).timerSet = s.timerSet := rfl
@[simp] theorem putCluster_agenda (s : State) (k : Nat) (c : ClusterSt) : (s.putCluster k c).agenda = s.agenda := rfl
@[simp] theorem putCluster_cur (s : State) (k : Nat) (c : ClusterSt) : (s.putCluster k c).cur = s.cur := rfl
@[simp] theorem putCluster_draw (s : State) (k : Nat) (c : ClusterSt) : (s.putCluster k c).draw = s.draw := rfl
@[simp] theorem putCluster_uid (s : State) (k : Nat) (c : ClusterSt) : (s.putCluster k c).uid = s.uid := rfl
@[simp] theorem putCluster_mem (s : State) (k : Nat) (c : ClusterSt) : (s.putCluster k c).mem = s.mem := rfl
@[simp] theorem putCluster_blankEpoch (s : State) (k : Nat) (c : ClusterSt) : (s.putCluster k c).blankEpoch = s.blankEpoch := rfl
@[simp] theorem putCluster_poison (s : State) (k : Nat) (c : ClusterSt) : (s.putCluster k c).poison = s.poison := rfl
@[simp] theorem putCluster_full (s : State) (k : Nat) (c : ClusterSt) : (s.putCluster k c).full = s.full := rfl
@[simp] theorem putCluster_regs (s : State) (k : Nat) (c : ClusterSt) : (s.putCluster k c).regs = s.regs := rfl
@[simp] theorem putCluster_groups (s : State) (k : Nat) (c : ClusterSt) : (s.putCluster k c).groups = s.groups := rfl
@[simp] theorem putCluster_cells (s : State) (k : Nat) (c : ClusterSt) : (s.putCluster k c).cells = s.cells := rfl
@[simp] theorem putCluster_saved (s : State) (k : Nat) (c : ClusterSt) : (s.putCluster k c).saved = s.saved := rfl
@[simp] theorem putCluster_joinTries (s : State) (k : Nat) (c : ClusterSt) : (s.putCluster k c).joinTries = s.joinTries := rfl
@[simp] theorem putCluster_launches (s : State) (k : Nat) (c : ClusterSt) : (s.putCluster k c).launches = s.launches := rfl
@[simp] theorem putCluster_lists (s : State) (k : Nat) (c : ClusterSt) : (s.putCluster k c).lists = s.lists := rfl
@[simp] theorem putCluster_cores (s : State) (k : Nat) (c : ClusterSt) : (s.putCluster k c).cores = s.cores := rfl
@[simp] theorem putCluster_clusters (s : State) (k : Nat) (c : ClusterSt) : (s.putCluster k c).clusters = asetD clusterReset s.clusters k c := rfl
@[simp] theorem putCluster_dies (s : State) (k : Nat) (c : ClusterSt) : (s.putCluster k c).dies = s.dies := rfl
@[simp] theorem putCluster_packets (s : State) (k : Nat) (c : ClusterSt) : (s.putCluster k c).packets = s.packets := rfl
@[simp] theorem putCluster_seqs (s : State) (k : Nat) (c : ClusterSt) : (s.putCluster k c).seqs = s.seqs := rfl
@[simp] theorem putCluster_done (s : State) (k : Nat) (c : ClusterSt) : (s.putCluster k c).done = s.done := rfl
@[simp] theorem putCluster_buckets (s : State) (k : Nat) (c : ClusterSt) : (s.putCluster k c).buckets = s.buckets := rfl
@[simp] theorem putCluster_acks (s : State) (k : Nat) (c : ClusterSt) : (s.putCluster k c).acks = s.acks := rfl
@[simp] theorem putCluster_old (s : State) (k : Nat) (c : ClusterSt) : (s.putCluster k c).old = s.old := rfl
@[simp] theorem putCluster_views (s : State) (k : Nat) (c : ClusterSt) : (s.putCluster k c).views = s.views := rfl
@[simp] theorem putCluster_fences (s : State) (k : Nat) (c : ClusterSt) : (s.putCluster k c).fences = s.fences := rfl
@[simp] theorem putCluster_tlb (s : State) (k : Nat) (c : ClusterSt) : (s.putCluster k c).tlb = s.tlb := rfl
@[simp] theorem putCluster_requests (s : State) (k : Nat) (c : ClusterSt) : (s.putCluster k c).requests = s.requests := rfl
@[simp] theorem putCluster_subs (s : State) (k : Nat) (c : ClusterSt) : (s.putCluster k c).subs = s.subs := rfl
@[simp] theorem putCluster_subReqs (s : State) (k : Nat) (c : ClusterSt) : (s.putCluster k c).subReqs = s.subReqs := rfl
@[simp] theorem putCluster_slots (s : State) (k : Nat) (c : ClusterSt) : (s.putCluster k c).slots = s.slots := rfl
@[simp] theorem putCluster_pushes (s : State) (k : Nat) (c : ClusterSt) : (s.putCluster k c).pushes = s.pushes := rfl
@[simp] theorem putCluster_copies (s : State) (k : Nat) (c : ClusterSt) : (s.putCluster k c).copies = s.copies := rfl
@[simp] theorem putCluster_copyms (s : State) (k : Nat) (c : ClusterSt) : (s.putCluster k c).copyms = s.copyms := rfl
@[simp] theorem putCluster_copymOps (s : State) (k : Nat) (c : ClusterSt) : (s.putCluster k c).copymOps = s.copymOps := rfl
@[simp] theorem putCluster_cards (s : State) (k : Nat) (c : ClusterSt) : (s.putCluster k c).cards = s.cards := rfl
@[simp] theorem putCluster_owed (s : State) (k : Nat) (c : ClusterSt) : (s.putCluster k c).owed = s.owed := rfl
@[simp] theorem putCluster_engines (s : State) (k : Nat) (c : ClusterSt) : (s.putCluster k c).engines = s.engines := rfl
@[simp] theorem putCluster_routeJobs (s : State) (k : Nat) (c : ClusterSt) : (s.putCluster k c).routeJobs = s.routeJobs := rfl
@[simp] theorem putCluster_tierReqs (s : State) (k : Nat) (c : ClusterSt) : (s.putCluster k c).tierReqs = s.tierReqs := rfl
@[simp] theorem putCluster_objects (s : State) (k : Nat) (c : ClusterSt) : (s.putCluster k c).objects = s.objects := rfl
@[simp] theorem putCluster_moves (s : State) (k : Nat) (c : ClusterSt) : (s.putCluster k c).moves = s.moves := rfl
@[simp] theorem putCluster_evSeq (s : State) (k : Nat) (c : ClusterSt) : (s.putCluster k c).evSeq = s.evSeq := rfl
@[simp] theorem putCluster_evLost (s : State) (k : Nat) (c : ClusterSt) : (s.putCluster k c).evLost = s.evLost := rfl
@[simp] theorem putCluster_links (s : State) (k : Nat) (c : ClusterSt) : (s.putCluster k c).links = s.links := rfl
@[simp] theorem putCluster_globals (s : State) (k : Nat) (c : ClusterSt) : (s.putCluster k c).globals = s.globals := rfl
@[simp] theorem putCluster_far (s : State) (k : Nat) (c : ClusterSt) : (s.putCluster k c).far = s.far := rfl
@[simp] theorem putCluster_farPoison (s : State) (k : Nat) (c : ClusterSt) : (s.putCluster k c).farPoison = s.farPoison := rfl
@[simp] theorem putCluster_farSubs (s : State) (k : Nat) (c : ClusterSt) : (s.putCluster k c).farSubs = s.farSubs := rfl
@[simp] theorem putCluster_outbox (s : State) (k : Nat) (c : ClusterSt) : (s.putCluster k c).outbox = s.outbox := rfl
@[simp] theorem putCluster_wiring (s : State) (k : Nat) (c : ClusterSt) : (s.putCluster k c).wiring = s.wiring := rfl
@[simp] theorem putCluster_safeMode (s : State) (k : Nat) (c : ClusterSt) : (s.putCluster k c).safeMode = s.safeMode := rfl
@[simp] theorem putCluster_fwUp (s : State) (k : Nat) (c : ClusterSt) : (s.putCluster k c).fwUp = s.fwUp := rfl
@[simp] theorem putCluster_mr (s : State) (k : Nat) (c : ClusterSt) : (s.putCluster k c).mr = s.mr := rfl
@[simp] theorem putCluster_flash (s : State) (k : Nat) (c : ClusterSt) : (s.putCluster k c).flash = s.flash := rfl
@[simp] theorem putCluster_energy (s : State) (k : Nat) (c : ClusterSt) : (s.putCluster k c).energy = s.energy := rfl

@[simp] theorem putDie_now (s : State) (d : Nat) (x : DieSt) : (s.putDie d x).now = s.now := rfl
@[simp] theorem putDie_drift (s : State) (d : Nat) (x : DieSt) : (s.putDie d x).drift = s.drift := rfl
@[simp] theorem putDie_timerSet (s : State) (d : Nat) (x : DieSt) : (s.putDie d x).timerSet = s.timerSet := rfl
@[simp] theorem putDie_agenda (s : State) (d : Nat) (x : DieSt) : (s.putDie d x).agenda = s.agenda := rfl
@[simp] theorem putDie_cur (s : State) (d : Nat) (x : DieSt) : (s.putDie d x).cur = s.cur := rfl
@[simp] theorem putDie_draw (s : State) (d : Nat) (x : DieSt) : (s.putDie d x).draw = s.draw := rfl
@[simp] theorem putDie_uid (s : State) (d : Nat) (x : DieSt) : (s.putDie d x).uid = s.uid := rfl
@[simp] theorem putDie_mem (s : State) (d : Nat) (x : DieSt) : (s.putDie d x).mem = s.mem := rfl
@[simp] theorem putDie_blankEpoch (s : State) (d : Nat) (x : DieSt) : (s.putDie d x).blankEpoch = s.blankEpoch := rfl
@[simp] theorem putDie_poison (s : State) (d : Nat) (x : DieSt) : (s.putDie d x).poison = s.poison := rfl
@[simp] theorem putDie_full (s : State) (d : Nat) (x : DieSt) : (s.putDie d x).full = s.full := rfl
@[simp] theorem putDie_regs (s : State) (d : Nat) (x : DieSt) : (s.putDie d x).regs = s.regs := rfl
@[simp] theorem putDie_groups (s : State) (d : Nat) (x : DieSt) : (s.putDie d x).groups = s.groups := rfl
@[simp] theorem putDie_cells (s : State) (d : Nat) (x : DieSt) : (s.putDie d x).cells = s.cells := rfl
@[simp] theorem putDie_saved (s : State) (d : Nat) (x : DieSt) : (s.putDie d x).saved = s.saved := rfl
@[simp] theorem putDie_joinTries (s : State) (d : Nat) (x : DieSt) : (s.putDie d x).joinTries = s.joinTries := rfl
@[simp] theorem putDie_launches (s : State) (d : Nat) (x : DieSt) : (s.putDie d x).launches = s.launches := rfl
@[simp] theorem putDie_lists (s : State) (d : Nat) (x : DieSt) : (s.putDie d x).lists = s.lists := rfl
@[simp] theorem putDie_cores (s : State) (d : Nat) (x : DieSt) : (s.putDie d x).cores = s.cores := rfl
@[simp] theorem putDie_clusters (s : State) (d : Nat) (x : DieSt) : (s.putDie d x).clusters = s.clusters := rfl
@[simp] theorem putDie_dies (s : State) (d : Nat) (x : DieSt) : (s.putDie d x).dies = asetD dieReset s.dies d x := rfl
@[simp] theorem putDie_packets (s : State) (d : Nat) (x : DieSt) : (s.putDie d x).packets = s.packets := rfl
@[simp] theorem putDie_seqs (s : State) (d : Nat) (x : DieSt) : (s.putDie d x).seqs = s.seqs := rfl
@[simp] theorem putDie_done (s : State) (d : Nat) (x : DieSt) : (s.putDie d x).done = s.done := rfl
@[simp] theorem putDie_buckets (s : State) (d : Nat) (x : DieSt) : (s.putDie d x).buckets = s.buckets := rfl
@[simp] theorem putDie_acks (s : State) (d : Nat) (x : DieSt) : (s.putDie d x).acks = s.acks := rfl
@[simp] theorem putDie_old (s : State) (d : Nat) (x : DieSt) : (s.putDie d x).old = s.old := rfl
@[simp] theorem putDie_views (s : State) (d : Nat) (x : DieSt) : (s.putDie d x).views = s.views := rfl
@[simp] theorem putDie_fences (s : State) (d : Nat) (x : DieSt) : (s.putDie d x).fences = s.fences := rfl
@[simp] theorem putDie_tlb (s : State) (d : Nat) (x : DieSt) : (s.putDie d x).tlb = s.tlb := rfl
@[simp] theorem putDie_requests (s : State) (d : Nat) (x : DieSt) : (s.putDie d x).requests = s.requests := rfl
@[simp] theorem putDie_subs (s : State) (d : Nat) (x : DieSt) : (s.putDie d x).subs = s.subs := rfl
@[simp] theorem putDie_subReqs (s : State) (d : Nat) (x : DieSt) : (s.putDie d x).subReqs = s.subReqs := rfl
@[simp] theorem putDie_slots (s : State) (d : Nat) (x : DieSt) : (s.putDie d x).slots = s.slots := rfl
@[simp] theorem putDie_pushes (s : State) (d : Nat) (x : DieSt) : (s.putDie d x).pushes = s.pushes := rfl
@[simp] theorem putDie_copies (s : State) (d : Nat) (x : DieSt) : (s.putDie d x).copies = s.copies := rfl
@[simp] theorem putDie_copyms (s : State) (d : Nat) (x : DieSt) : (s.putDie d x).copyms = s.copyms := rfl
@[simp] theorem putDie_copymOps (s : State) (d : Nat) (x : DieSt) : (s.putDie d x).copymOps = s.copymOps := rfl
@[simp] theorem putDie_cards (s : State) (d : Nat) (x : DieSt) : (s.putDie d x).cards = s.cards := rfl
@[simp] theorem putDie_owed (s : State) (d : Nat) (x : DieSt) : (s.putDie d x).owed = s.owed := rfl
@[simp] theorem putDie_engines (s : State) (d : Nat) (x : DieSt) : (s.putDie d x).engines = s.engines := rfl
@[simp] theorem putDie_routeJobs (s : State) (d : Nat) (x : DieSt) : (s.putDie d x).routeJobs = s.routeJobs := rfl
@[simp] theorem putDie_tierReqs (s : State) (d : Nat) (x : DieSt) : (s.putDie d x).tierReqs = s.tierReqs := rfl
@[simp] theorem putDie_objects (s : State) (d : Nat) (x : DieSt) : (s.putDie d x).objects = s.objects := rfl
@[simp] theorem putDie_moves (s : State) (d : Nat) (x : DieSt) : (s.putDie d x).moves = s.moves := rfl
@[simp] theorem putDie_evSeq (s : State) (d : Nat) (x : DieSt) : (s.putDie d x).evSeq = s.evSeq := rfl
@[simp] theorem putDie_evLost (s : State) (d : Nat) (x : DieSt) : (s.putDie d x).evLost = s.evLost := rfl
@[simp] theorem putDie_links (s : State) (d : Nat) (x : DieSt) : (s.putDie d x).links = s.links := rfl
@[simp] theorem putDie_globals (s : State) (d : Nat) (x : DieSt) : (s.putDie d x).globals = s.globals := rfl
@[simp] theorem putDie_far (s : State) (d : Nat) (x : DieSt) : (s.putDie d x).far = s.far := rfl
@[simp] theorem putDie_farPoison (s : State) (d : Nat) (x : DieSt) : (s.putDie d x).farPoison = s.farPoison := rfl
@[simp] theorem putDie_farSubs (s : State) (d : Nat) (x : DieSt) : (s.putDie d x).farSubs = s.farSubs := rfl
@[simp] theorem putDie_outbox (s : State) (d : Nat) (x : DieSt) : (s.putDie d x).outbox = s.outbox := rfl
@[simp] theorem putDie_wiring (s : State) (d : Nat) (x : DieSt) : (s.putDie d x).wiring = s.wiring := rfl
@[simp] theorem putDie_safeMode (s : State) (d : Nat) (x : DieSt) : (s.putDie d x).safeMode = s.safeMode := rfl
@[simp] theorem putDie_fwUp (s : State) (d : Nat) (x : DieSt) : (s.putDie d x).fwUp = s.fwUp := rfl
@[simp] theorem putDie_mr (s : State) (d : Nat) (x : DieSt) : (s.putDie d x).mr = s.mr := rfl
@[simp] theorem putDie_flash (s : State) (d : Nat) (x : DieSt) : (s.putDie d x).flash = s.flash := rfl
@[simp] theorem putDie_energy (s : State) (d : Nat) (x : DieSt) : (s.putDie d x).energy = s.energy := rfl

@[simp] theorem drawn_now (s : State) : (s.drawn).now = s.now := rfl
@[simp] theorem drawn_drift (s : State) : (s.drawn).drift = s.drift := rfl
@[simp] theorem drawn_timerSet (s : State) : (s.drawn).timerSet = s.timerSet := rfl
@[simp] theorem drawn_agenda (s : State) : (s.drawn).agenda = s.agenda := rfl
@[simp] theorem drawn_cur (s : State) : (s.drawn).cur = s.cur := rfl
@[simp] theorem drawn_draw (s : State) : (s.drawn).draw = s.draw + 1 := rfl
@[simp] theorem drawn_uid (s : State) : (s.drawn).uid = s.uid := rfl
@[simp] theorem drawn_mem (s : State) : (s.drawn).mem = s.mem := rfl
@[simp] theorem drawn_blankEpoch (s : State) : (s.drawn).blankEpoch = s.blankEpoch := rfl
@[simp] theorem drawn_poison (s : State) : (s.drawn).poison = s.poison := rfl
@[simp] theorem drawn_full (s : State) : (s.drawn).full = s.full := rfl
@[simp] theorem drawn_regs (s : State) : (s.drawn).regs = s.regs := rfl
@[simp] theorem drawn_groups (s : State) : (s.drawn).groups = s.groups := rfl
@[simp] theorem drawn_cells (s : State) : (s.drawn).cells = s.cells := rfl
@[simp] theorem drawn_saved (s : State) : (s.drawn).saved = s.saved := rfl
@[simp] theorem drawn_joinTries (s : State) : (s.drawn).joinTries = s.joinTries := rfl
@[simp] theorem drawn_launches (s : State) : (s.drawn).launches = s.launches := rfl
@[simp] theorem drawn_lists (s : State) : (s.drawn).lists = s.lists := rfl
@[simp] theorem drawn_cores (s : State) : (s.drawn).cores = s.cores := rfl
@[simp] theorem drawn_clusters (s : State) : (s.drawn).clusters = s.clusters := rfl
@[simp] theorem drawn_dies (s : State) : (s.drawn).dies = s.dies := rfl
@[simp] theorem drawn_packets (s : State) : (s.drawn).packets = s.packets := rfl
@[simp] theorem drawn_seqs (s : State) : (s.drawn).seqs = s.seqs := rfl
@[simp] theorem drawn_done (s : State) : (s.drawn).done = s.done := rfl
@[simp] theorem drawn_buckets (s : State) : (s.drawn).buckets = s.buckets := rfl
@[simp] theorem drawn_acks (s : State) : (s.drawn).acks = s.acks := rfl
@[simp] theorem drawn_old (s : State) : (s.drawn).old = s.old := rfl
@[simp] theorem drawn_views (s : State) : (s.drawn).views = s.views := rfl
@[simp] theorem drawn_fences (s : State) : (s.drawn).fences = s.fences := rfl
@[simp] theorem drawn_tlb (s : State) : (s.drawn).tlb = s.tlb := rfl
@[simp] theorem drawn_requests (s : State) : (s.drawn).requests = s.requests := rfl
@[simp] theorem drawn_subs (s : State) : (s.drawn).subs = s.subs := rfl
@[simp] theorem drawn_subReqs (s : State) : (s.drawn).subReqs = s.subReqs := rfl
@[simp] theorem drawn_slots (s : State) : (s.drawn).slots = s.slots := rfl
@[simp] theorem drawn_pushes (s : State) : (s.drawn).pushes = s.pushes := rfl
@[simp] theorem drawn_copies (s : State) : (s.drawn).copies = s.copies := rfl
@[simp] theorem drawn_copyms (s : State) : (s.drawn).copyms = s.copyms := rfl
@[simp] theorem drawn_copymOps (s : State) : (s.drawn).copymOps = s.copymOps := rfl
@[simp] theorem drawn_cards (s : State) : (s.drawn).cards = s.cards := rfl
@[simp] theorem drawn_owed (s : State) : (s.drawn).owed = s.owed := rfl
@[simp] theorem drawn_engines (s : State) : (s.drawn).engines = s.engines := rfl
@[simp] theorem drawn_routeJobs (s : State) : (s.drawn).routeJobs = s.routeJobs := rfl
@[simp] theorem drawn_tierReqs (s : State) : (s.drawn).tierReqs = s.tierReqs := rfl
@[simp] theorem drawn_objects (s : State) : (s.drawn).objects = s.objects := rfl
@[simp] theorem drawn_moves (s : State) : (s.drawn).moves = s.moves := rfl
@[simp] theorem drawn_evSeq (s : State) : (s.drawn).evSeq = s.evSeq := rfl
@[simp] theorem drawn_evLost (s : State) : (s.drawn).evLost = s.evLost := rfl
@[simp] theorem drawn_links (s : State) : (s.drawn).links = s.links := rfl
@[simp] theorem drawn_globals (s : State) : (s.drawn).globals = s.globals := rfl
@[simp] theorem drawn_far (s : State) : (s.drawn).far = s.far := rfl
@[simp] theorem drawn_farPoison (s : State) : (s.drawn).farPoison = s.farPoison := rfl
@[simp] theorem drawn_farSubs (s : State) : (s.drawn).farSubs = s.farSubs := rfl
@[simp] theorem drawn_outbox (s : State) : (s.drawn).outbox = s.outbox := rfl
@[simp] theorem drawn_wiring (s : State) : (s.drawn).wiring = s.wiring := rfl
@[simp] theorem drawn_safeMode (s : State) : (s.drawn).safeMode = s.safeMode := rfl
@[simp] theorem drawn_fwUp (s : State) : (s.drawn).fwUp = s.fwUp := rfl
@[simp] theorem drawn_mr (s : State) : (s.drawn).mr = s.mr := rfl
@[simp] theorem drawn_flash (s : State) : (s.drawn).flash = s.flash := rfl
@[simp] theorem drawn_energy (s : State) : (s.drawn).energy = s.energy := rfl

@[simp] theorem fresh_now (s : State) : (s.fresh).now = s.now := rfl
@[simp] theorem fresh_drift (s : State) : (s.fresh).drift = s.drift := rfl
@[simp] theorem fresh_timerSet (s : State) : (s.fresh).timerSet = s.timerSet := rfl
@[simp] theorem fresh_agenda (s : State) : (s.fresh).agenda = s.agenda := rfl
@[simp] theorem fresh_cur (s : State) : (s.fresh).cur = s.cur := rfl
@[simp] theorem fresh_draw (s : State) : (s.fresh).draw = s.draw := rfl
@[simp] theorem fresh_uid (s : State) : (s.fresh).uid = s.uid + 1 := rfl
@[simp] theorem fresh_mem (s : State) : (s.fresh).mem = s.mem := rfl
@[simp] theorem fresh_blankEpoch (s : State) : (s.fresh).blankEpoch = s.blankEpoch := rfl
@[simp] theorem fresh_poison (s : State) : (s.fresh).poison = s.poison := rfl
@[simp] theorem fresh_full (s : State) : (s.fresh).full = s.full := rfl
@[simp] theorem fresh_regs (s : State) : (s.fresh).regs = s.regs := rfl
@[simp] theorem fresh_groups (s : State) : (s.fresh).groups = s.groups := rfl
@[simp] theorem fresh_cells (s : State) : (s.fresh).cells = s.cells := rfl
@[simp] theorem fresh_saved (s : State) : (s.fresh).saved = s.saved := rfl
@[simp] theorem fresh_joinTries (s : State) : (s.fresh).joinTries = s.joinTries := rfl
@[simp] theorem fresh_launches (s : State) : (s.fresh).launches = s.launches := rfl
@[simp] theorem fresh_lists (s : State) : (s.fresh).lists = s.lists := rfl
@[simp] theorem fresh_cores (s : State) : (s.fresh).cores = s.cores := rfl
@[simp] theorem fresh_clusters (s : State) : (s.fresh).clusters = s.clusters := rfl
@[simp] theorem fresh_dies (s : State) : (s.fresh).dies = s.dies := rfl
@[simp] theorem fresh_packets (s : State) : (s.fresh).packets = s.packets := rfl
@[simp] theorem fresh_seqs (s : State) : (s.fresh).seqs = s.seqs := rfl
@[simp] theorem fresh_done (s : State) : (s.fresh).done = s.done := rfl
@[simp] theorem fresh_buckets (s : State) : (s.fresh).buckets = s.buckets := rfl
@[simp] theorem fresh_acks (s : State) : (s.fresh).acks = s.acks := rfl
@[simp] theorem fresh_old (s : State) : (s.fresh).old = s.old := rfl
@[simp] theorem fresh_views (s : State) : (s.fresh).views = s.views := rfl
@[simp] theorem fresh_fences (s : State) : (s.fresh).fences = s.fences := rfl
@[simp] theorem fresh_tlb (s : State) : (s.fresh).tlb = s.tlb := rfl
@[simp] theorem fresh_requests (s : State) : (s.fresh).requests = s.requests := rfl
@[simp] theorem fresh_subs (s : State) : (s.fresh).subs = s.subs := rfl
@[simp] theorem fresh_subReqs (s : State) : (s.fresh).subReqs = s.subReqs := rfl
@[simp] theorem fresh_slots (s : State) : (s.fresh).slots = s.slots := rfl
@[simp] theorem fresh_pushes (s : State) : (s.fresh).pushes = s.pushes := rfl
@[simp] theorem fresh_copies (s : State) : (s.fresh).copies = s.copies := rfl
@[simp] theorem fresh_copyms (s : State) : (s.fresh).copyms = s.copyms := rfl
@[simp] theorem fresh_copymOps (s : State) : (s.fresh).copymOps = s.copymOps := rfl
@[simp] theorem fresh_cards (s : State) : (s.fresh).cards = s.cards := rfl
@[simp] theorem fresh_owed (s : State) : (s.fresh).owed = s.owed := rfl
@[simp] theorem fresh_engines (s : State) : (s.fresh).engines = s.engines := rfl
@[simp] theorem fresh_routeJobs (s : State) : (s.fresh).routeJobs = s.routeJobs := rfl
@[simp] theorem fresh_tierReqs (s : State) : (s.fresh).tierReqs = s.tierReqs := rfl
@[simp] theorem fresh_objects (s : State) : (s.fresh).objects = s.objects := rfl
@[simp] theorem fresh_moves (s : State) : (s.fresh).moves = s.moves := rfl
@[simp] theorem fresh_evSeq (s : State) : (s.fresh).evSeq = s.evSeq := rfl
@[simp] theorem fresh_evLost (s : State) : (s.fresh).evLost = s.evLost := rfl
@[simp] theorem fresh_links (s : State) : (s.fresh).links = s.links := rfl
@[simp] theorem fresh_globals (s : State) : (s.fresh).globals = s.globals := rfl
@[simp] theorem fresh_far (s : State) : (s.fresh).far = s.far := rfl
@[simp] theorem fresh_farPoison (s : State) : (s.fresh).farPoison = s.farPoison := rfl
@[simp] theorem fresh_farSubs (s : State) : (s.fresh).farSubs = s.farSubs := rfl
@[simp] theorem fresh_outbox (s : State) : (s.fresh).outbox = s.outbox := rfl
@[simp] theorem fresh_wiring (s : State) : (s.fresh).wiring = s.wiring := rfl
@[simp] theorem fresh_safeMode (s : State) : (s.fresh).safeMode = s.safeMode := rfl
@[simp] theorem fresh_fwUp (s : State) : (s.fresh).fwUp = s.fwUp := rfl
@[simp] theorem fresh_mr (s : State) : (s.fresh).mr = s.mr := rfl
@[simp] theorem fresh_flash (s : State) : (s.fresh).flash = s.flash := rfl
@[simp] theorem fresh_energy (s : State) : (s.fresh).energy = s.energy := rfl

@[simp] theorem putView_now (s : State) (k : Nat) (v : View) : (s.putView k v).now = s.now := rfl
@[simp] theorem putView_drift (s : State) (k : Nat) (v : View) : (s.putView k v).drift = s.drift := rfl
@[simp] theorem putView_timerSet (s : State) (k : Nat) (v : View) : (s.putView k v).timerSet = s.timerSet := rfl
@[simp] theorem putView_agenda (s : State) (k : Nat) (v : View) : (s.putView k v).agenda = s.agenda := rfl
@[simp] theorem putView_cur (s : State) (k : Nat) (v : View) : (s.putView k v).cur = s.cur := rfl
@[simp] theorem putView_draw (s : State) (k : Nat) (v : View) : (s.putView k v).draw = s.draw := rfl
@[simp] theorem putView_uid (s : State) (k : Nat) (v : View) : (s.putView k v).uid = s.uid := rfl
@[simp] theorem putView_mem (s : State) (k : Nat) (v : View) : (s.putView k v).mem = s.mem := rfl
@[simp] theorem putView_blankEpoch (s : State) (k : Nat) (v : View) : (s.putView k v).blankEpoch = s.blankEpoch := rfl
@[simp] theorem putView_poison (s : State) (k : Nat) (v : View) : (s.putView k v).poison = s.poison := rfl
@[simp] theorem putView_full (s : State) (k : Nat) (v : View) : (s.putView k v).full = s.full := rfl
@[simp] theorem putView_regs (s : State) (k : Nat) (v : View) : (s.putView k v).regs = s.regs := rfl
@[simp] theorem putView_groups (s : State) (k : Nat) (v : View) : (s.putView k v).groups = s.groups := rfl
@[simp] theorem putView_cells (s : State) (k : Nat) (v : View) : (s.putView k v).cells = s.cells := rfl
@[simp] theorem putView_saved (s : State) (k : Nat) (v : View) : (s.putView k v).saved = s.saved := rfl
@[simp] theorem putView_joinTries (s : State) (k : Nat) (v : View) : (s.putView k v).joinTries = s.joinTries := rfl
@[simp] theorem putView_launches (s : State) (k : Nat) (v : View) : (s.putView k v).launches = s.launches := rfl
@[simp] theorem putView_lists (s : State) (k : Nat) (v : View) : (s.putView k v).lists = s.lists := rfl
@[simp] theorem putView_cores (s : State) (k : Nat) (v : View) : (s.putView k v).cores = s.cores := rfl
@[simp] theorem putView_clusters (s : State) (k : Nat) (v : View) : (s.putView k v).clusters = s.clusters := rfl
@[simp] theorem putView_dies (s : State) (k : Nat) (v : View) : (s.putView k v).dies = s.dies := rfl
@[simp] theorem putView_packets (s : State) (k : Nat) (v : View) : (s.putView k v).packets = s.packets := rfl
@[simp] theorem putView_seqs (s : State) (k : Nat) (v : View) : (s.putView k v).seqs = s.seqs := rfl
@[simp] theorem putView_done (s : State) (k : Nat) (v : View) : (s.putView k v).done = s.done := rfl
@[simp] theorem putView_buckets (s : State) (k : Nat) (v : View) : (s.putView k v).buckets = s.buckets := rfl
@[simp] theorem putView_acks (s : State) (k : Nat) (v : View) : (s.putView k v).acks = s.acks := rfl
@[simp] theorem putView_old (s : State) (k : Nat) (v : View) : (s.putView k v).old = s.old := rfl
@[simp] theorem putView_views (s : State) (k : Nat) (v : View) : (s.putView k v).views = aput s.views k v := rfl
@[simp] theorem putView_fences (s : State) (k : Nat) (v : View) : (s.putView k v).fences = s.fences := rfl
@[simp] theorem putView_tlb (s : State) (k : Nat) (v : View) : (s.putView k v).tlb = s.tlb := rfl
@[simp] theorem putView_requests (s : State) (k : Nat) (v : View) : (s.putView k v).requests = s.requests := rfl
@[simp] theorem putView_subs (s : State) (k : Nat) (v : View) : (s.putView k v).subs = s.subs := rfl
@[simp] theorem putView_subReqs (s : State) (k : Nat) (v : View) : (s.putView k v).subReqs = s.subReqs := rfl
@[simp] theorem putView_slots (s : State) (k : Nat) (v : View) : (s.putView k v).slots = s.slots := rfl
@[simp] theorem putView_pushes (s : State) (k : Nat) (v : View) : (s.putView k v).pushes = s.pushes := rfl
@[simp] theorem putView_copies (s : State) (k : Nat) (v : View) : (s.putView k v).copies = s.copies := rfl
@[simp] theorem putView_copyms (s : State) (k : Nat) (v : View) : (s.putView k v).copyms = s.copyms := rfl
@[simp] theorem putView_copymOps (s : State) (k : Nat) (v : View) : (s.putView k v).copymOps = s.copymOps := rfl
@[simp] theorem putView_cards (s : State) (k : Nat) (v : View) : (s.putView k v).cards = s.cards := rfl
@[simp] theorem putView_owed (s : State) (k : Nat) (v : View) : (s.putView k v).owed = s.owed := rfl
@[simp] theorem putView_engines (s : State) (k : Nat) (v : View) : (s.putView k v).engines = s.engines := rfl
@[simp] theorem putView_routeJobs (s : State) (k : Nat) (v : View) : (s.putView k v).routeJobs = s.routeJobs := rfl
@[simp] theorem putView_tierReqs (s : State) (k : Nat) (v : View) : (s.putView k v).tierReqs = s.tierReqs := rfl
@[simp] theorem putView_objects (s : State) (k : Nat) (v : View) : (s.putView k v).objects = s.objects := rfl
@[simp] theorem putView_moves (s : State) (k : Nat) (v : View) : (s.putView k v).moves = s.moves := rfl
@[simp] theorem putView_evSeq (s : State) (k : Nat) (v : View) : (s.putView k v).evSeq = s.evSeq := rfl
@[simp] theorem putView_evLost (s : State) (k : Nat) (v : View) : (s.putView k v).evLost = s.evLost := rfl
@[simp] theorem putView_links (s : State) (k : Nat) (v : View) : (s.putView k v).links = s.links := rfl
@[simp] theorem putView_globals (s : State) (k : Nat) (v : View) : (s.putView k v).globals = s.globals := rfl
@[simp] theorem putView_far (s : State) (k : Nat) (v : View) : (s.putView k v).far = s.far := rfl
@[simp] theorem putView_farPoison (s : State) (k : Nat) (v : View) : (s.putView k v).farPoison = s.farPoison := rfl
@[simp] theorem putView_farSubs (s : State) (k : Nat) (v : View) : (s.putView k v).farSubs = s.farSubs := rfl
@[simp] theorem putView_outbox (s : State) (k : Nat) (v : View) : (s.putView k v).outbox = s.outbox := rfl
@[simp] theorem putView_wiring (s : State) (k : Nat) (v : View) : (s.putView k v).wiring = s.wiring := rfl
@[simp] theorem putView_safeMode (s : State) (k : Nat) (v : View) : (s.putView k v).safeMode = s.safeMode := rfl
@[simp] theorem putView_fwUp (s : State) (k : Nat) (v : View) : (s.putView k v).fwUp = s.fwUp := rfl
@[simp] theorem putView_mr (s : State) (k : Nat) (v : View) : (s.putView k v).mr = s.mr := rfl
@[simp] theorem putView_flash (s : State) (k : Nat) (v : View) : (s.putView k v).flash = s.flash := rfl
@[simp] theorem putView_energy (s : State) (k : Nat) (v : View) : (s.putView k v).energy = s.energy := rfl

@[simp] theorem byte_of_setPoison (s : State) (g : Nat) (b : Bool) (z : Nat) : (s.setPoison g b).byte z = s.byte z := rfl
@[simp] theorem byte_of_setFull (s : State) (g : Nat) (b : Bool) (z : Nat) : (s.setFull g b).byte z = s.byte z := rfl
@[simp] theorem byte_of_setReg (s : State) (r : Reg) (x : Dword) (z : Nat) : (s.setReg r x).byte z = s.byte z := rfl
@[simp] theorem byte_of_putGroup (s : State) (u : Nat) (g : Group) (z : Nat) : (s.putGroup u g).byte z = s.byte z := rfl
@[simp] theorem byte_of_putCell (s : State) (k : Nat) (c : CellSt) (z : Nat) : (s.putCell k c).byte z = s.byte z := rfl
@[simp] theorem byte_of_putCore (s : State) (k : Nat) (c : CoreSt) (z : Nat) : (s.putCore k c).byte z = s.byte z := rfl
@[simp] theorem byte_of_putCluster (s : State) (k : Nat) (c : ClusterSt) (z : Nat) : (s.putCluster k c).byte z = s.byte z := rfl
@[simp] theorem byte_of_putDie (s : State) (d : Nat) (x : DieSt) (z : Nat) : (s.putDie d x).byte z = s.byte z := rfl
@[simp] theorem byte_of_drawn (s : State) (z : Nat) : (s.drawn).byte z = s.byte z := rfl
@[simp] theorem byte_of_fresh (s : State) (z : Nat) : (s.fresh).byte z = s.byte z := rfl

@[simp] theorem isFull_of_setByte (s : State) (a : Nat) (b : Byte) (z : Nat) : (s.setByte a b).isFull z = s.isFull z := rfl
@[simp] theorem isFull_of_setPoison (s : State) (g : Nat) (b : Bool) (z : Nat) : (s.setPoison g b).isFull z = s.isFull z := rfl
@[simp] theorem isFull_of_setReg (s : State) (r : Reg) (x : Dword) (z : Nat) : (s.setReg r x).isFull z = s.isFull z := rfl
@[simp] theorem isFull_of_putGroup (s : State) (u : Nat) (g : Group) (z : Nat) : (s.putGroup u g).isFull z = s.isFull z := rfl
@[simp] theorem isFull_of_putCell (s : State) (k : Nat) (c : CellSt) (z : Nat) : (s.putCell k c).isFull z = s.isFull z := rfl
@[simp] theorem isFull_of_putCore (s : State) (k : Nat) (c : CoreSt) (z : Nat) : (s.putCore k c).isFull z = s.isFull z := rfl
@[simp] theorem isFull_of_putCluster (s : State) (k : Nat) (c : ClusterSt) (z : Nat) : (s.putCluster k c).isFull z = s.isFull z := rfl
@[simp] theorem isFull_of_putDie (s : State) (d : Nat) (x : DieSt) (z : Nat) : (s.putDie d x).isFull z = s.isFull z := rfl
@[simp] theorem isFull_of_drawn (s : State) (z : Nat) : (s.drawn).isFull z = s.isFull z := rfl
@[simp] theorem isFull_of_fresh (s : State) (z : Nat) : (s.fresh).isFull z = s.isFull z := rfl

@[simp] theorem poisoned_of_setByte (s : State) (a : Nat) (b : Byte) (z : Nat) : (s.setByte a b).poisoned z = s.poisoned z := rfl
@[simp] theorem poisoned_of_setFull (s : State) (g : Nat) (b : Bool) (z : Nat) : (s.setFull g b).poisoned z = s.poisoned z := rfl
@[simp] theorem poisoned_of_setReg (s : State) (r : Reg) (x : Dword) (z : Nat) : (s.setReg r x).poisoned z = s.poisoned z := rfl
@[simp] theorem poisoned_of_putGroup (s : State) (u : Nat) (g : Group) (z : Nat) : (s.putGroup u g).poisoned z = s.poisoned z := rfl
@[simp] theorem poisoned_of_putCell (s : State) (k : Nat) (c : CellSt) (z : Nat) : (s.putCell k c).poisoned z = s.poisoned z := rfl
@[simp] theorem poisoned_of_putCore (s : State) (k : Nat) (c : CoreSt) (z : Nat) : (s.putCore k c).poisoned z = s.poisoned z := rfl
@[simp] theorem poisoned_of_putCluster (s : State) (k : Nat) (c : ClusterSt) (z : Nat) : (s.putCluster k c).poisoned z = s.poisoned z := rfl
@[simp] theorem poisoned_of_putDie (s : State) (d : Nat) (x : DieSt) (z : Nat) : (s.putDie d x).poisoned z = s.poisoned z := rfl
@[simp] theorem poisoned_of_drawn (s : State) (z : Nat) : (s.drawn).poisoned z = s.poisoned z := rfl
@[simp] theorem poisoned_of_fresh (s : State) (z : Nat) : (s.fresh).poisoned z = s.poisoned z := rfl

@[simp] theorem reg_of_setByte (s : State) (a : Nat) (b : Byte) (z : Reg) : (s.setByte a b).reg z = s.reg z := rfl
@[simp] theorem reg_of_setPoison (s : State) (g : Nat) (b : Bool) (z : Reg) : (s.setPoison g b).reg z = s.reg z := rfl
@[simp] theorem reg_of_setFull (s : State) (g : Nat) (b : Bool) (z : Reg) : (s.setFull g b).reg z = s.reg z := rfl
@[simp] theorem reg_of_putGroup (s : State) (u : Nat) (g : Group) (z : Reg) : (s.putGroup u g).reg z = s.reg z := rfl
@[simp] theorem reg_of_putCell (s : State) (k : Nat) (c : CellSt) (z : Reg) : (s.putCell k c).reg z = s.reg z := rfl
@[simp] theorem reg_of_putCore (s : State) (k : Nat) (c : CoreSt) (z : Reg) : (s.putCore k c).reg z = s.reg z := rfl
@[simp] theorem reg_of_putCluster (s : State) (k : Nat) (c : ClusterSt) (z : Reg) : (s.putCluster k c).reg z = s.reg z := rfl
@[simp] theorem reg_of_putDie (s : State) (d : Nat) (x : DieSt) (z : Reg) : (s.putDie d x).reg z = s.reg z := rfl
@[simp] theorem reg_of_drawn (s : State) (z : Reg) : (s.drawn).reg z = s.reg z := rfl
@[simp] theorem reg_of_fresh (s : State) (z : Reg) : (s.fresh).reg z = s.reg z := rfl

@[simp] theorem group?_of_setByte (s : State) (a : Nat) (b : Byte) (z : Nat) : (s.setByte a b).group? z = s.group? z := rfl
@[simp] theorem group?_of_setPoison (s : State) (g : Nat) (b : Bool) (z : Nat) : (s.setPoison g b).group? z = s.group? z := rfl
@[simp] theorem group?_of_setFull (s : State) (g : Nat) (b : Bool) (z : Nat) : (s.setFull g b).group? z = s.group? z := rfl
@[simp] theorem group?_of_setReg (s : State) (r : Reg) (x : Dword) (z : Nat) : (s.setReg r x).group? z = s.group? z := rfl
@[simp] theorem group?_of_putCell (s : State) (k : Nat) (c : CellSt) (z : Nat) : (s.putCell k c).group? z = s.group? z := rfl
@[simp] theorem group?_of_putCore (s : State) (k : Nat) (c : CoreSt) (z : Nat) : (s.putCore k c).group? z = s.group? z := rfl
@[simp] theorem group?_of_putCluster (s : State) (k : Nat) (c : ClusterSt) (z : Nat) : (s.putCluster k c).group? z = s.group? z := rfl
@[simp] theorem group?_of_putDie (s : State) (d : Nat) (x : DieSt) (z : Nat) : (s.putDie d x).group? z = s.group? z := rfl
@[simp] theorem group?_of_drawn (s : State) (z : Nat) : (s.drawn).group? z = s.group? z := rfl
@[simp] theorem group?_of_fresh (s : State) (z : Nat) : (s.fresh).group? z = s.group? z := rfl

@[simp] theorem cell?_of_setByte (s : State) (a : Nat) (b : Byte) (z : Nat) : (s.setByte a b).cell? z = s.cell? z := rfl
@[simp] theorem cell?_of_setPoison (s : State) (g : Nat) (b : Bool) (z : Nat) : (s.setPoison g b).cell? z = s.cell? z := rfl
@[simp] theorem cell?_of_setFull (s : State) (g : Nat) (b : Bool) (z : Nat) : (s.setFull g b).cell? z = s.cell? z := rfl
@[simp] theorem cell?_of_setReg (s : State) (r : Reg) (x : Dword) (z : Nat) : (s.setReg r x).cell? z = s.cell? z := rfl
@[simp] theorem cell?_of_putGroup (s : State) (u : Nat) (g : Group) (z : Nat) : (s.putGroup u g).cell? z = s.cell? z := rfl
@[simp] theorem cell?_of_putCore (s : State) (k : Nat) (c : CoreSt) (z : Nat) : (s.putCore k c).cell? z = s.cell? z := rfl
@[simp] theorem cell?_of_putCluster (s : State) (k : Nat) (c : ClusterSt) (z : Nat) : (s.putCluster k c).cell? z = s.cell? z := rfl
@[simp] theorem cell?_of_putDie (s : State) (d : Nat) (x : DieSt) (z : Nat) : (s.putDie d x).cell? z = s.cell? z := rfl
@[simp] theorem cell?_of_drawn (s : State) (z : Nat) : (s.drawn).cell? z = s.cell? z := rfl
@[simp] theorem cell?_of_fresh (s : State) (z : Nat) : (s.fresh).cell? z = s.cell? z := rfl

@[simp] theorem core_of_setByte (s : State) (a : Nat) (b : Byte) (z : Nat) : (s.setByte a b).core z = s.core z := rfl
@[simp] theorem core_of_setPoison (s : State) (g : Nat) (b : Bool) (z : Nat) : (s.setPoison g b).core z = s.core z := rfl
@[simp] theorem core_of_setFull (s : State) (g : Nat) (b : Bool) (z : Nat) : (s.setFull g b).core z = s.core z := rfl
@[simp] theorem core_of_setReg (s : State) (r : Reg) (x : Dword) (z : Nat) : (s.setReg r x).core z = s.core z := rfl
@[simp] theorem core_of_putGroup (s : State) (u : Nat) (g : Group) (z : Nat) : (s.putGroup u g).core z = s.core z := rfl
@[simp] theorem core_of_putCell (s : State) (k : Nat) (c : CellSt) (z : Nat) : (s.putCell k c).core z = s.core z := rfl
@[simp] theorem core_of_putCluster (s : State) (k : Nat) (c : ClusterSt) (z : Nat) : (s.putCluster k c).core z = s.core z := rfl
@[simp] theorem core_of_putDie (s : State) (d : Nat) (x : DieSt) (z : Nat) : (s.putDie d x).core z = s.core z := rfl
@[simp] theorem core_of_drawn (s : State) (z : Nat) : (s.drawn).core z = s.core z := rfl
@[simp] theorem core_of_fresh (s : State) (z : Nat) : (s.fresh).core z = s.core z := rfl

@[simp] theorem cluster_of_setByte (s : State) (a : Nat) (b : Byte) (z : Nat) : (s.setByte a b).cluster z = s.cluster z := rfl
@[simp] theorem cluster_of_setPoison (s : State) (g : Nat) (b : Bool) (z : Nat) : (s.setPoison g b).cluster z = s.cluster z := rfl
@[simp] theorem cluster_of_setFull (s : State) (g : Nat) (b : Bool) (z : Nat) : (s.setFull g b).cluster z = s.cluster z := rfl
@[simp] theorem cluster_of_setReg (s : State) (r : Reg) (x : Dword) (z : Nat) : (s.setReg r x).cluster z = s.cluster z := rfl
@[simp] theorem cluster_of_putGroup (s : State) (u : Nat) (g : Group) (z : Nat) : (s.putGroup u g).cluster z = s.cluster z := rfl
@[simp] theorem cluster_of_putCell (s : State) (k : Nat) (c : CellSt) (z : Nat) : (s.putCell k c).cluster z = s.cluster z := rfl
@[simp] theorem cluster_of_putCore (s : State) (k : Nat) (c : CoreSt) (z : Nat) : (s.putCore k c).cluster z = s.cluster z := rfl
@[simp] theorem cluster_of_putDie (s : State) (d : Nat) (x : DieSt) (z : Nat) : (s.putDie d x).cluster z = s.cluster z := rfl
@[simp] theorem cluster_of_drawn (s : State) (z : Nat) : (s.drawn).cluster z = s.cluster z := rfl
@[simp] theorem cluster_of_fresh (s : State) (z : Nat) : (s.fresh).cluster z = s.cluster z := rfl

@[simp] theorem die_of_setByte (s : State) (a : Nat) (b : Byte) (z : Nat) : (s.setByte a b).die z = s.die z := rfl
@[simp] theorem die_of_setPoison (s : State) (g : Nat) (b : Bool) (z : Nat) : (s.setPoison g b).die z = s.die z := rfl
@[simp] theorem die_of_setFull (s : State) (g : Nat) (b : Bool) (z : Nat) : (s.setFull g b).die z = s.die z := rfl
@[simp] theorem die_of_setReg (s : State) (r : Reg) (x : Dword) (z : Nat) : (s.setReg r x).die z = s.die z := rfl
@[simp] theorem die_of_putGroup (s : State) (u : Nat) (g : Group) (z : Nat) : (s.putGroup u g).die z = s.die z := rfl
@[simp] theorem die_of_putCell (s : State) (k : Nat) (c : CellSt) (z : Nat) : (s.putCell k c).die z = s.die z := rfl
@[simp] theorem die_of_putCore (s : State) (k : Nat) (c : CoreSt) (z : Nat) : (s.putCore k c).die z = s.die z := rfl
@[simp] theorem die_of_putCluster (s : State) (k : Nat) (c : ClusterSt) (z : Nat) : (s.putCluster k c).die z = s.die z := rfl
@[simp] theorem die_of_drawn (s : State) (z : Nat) : (s.drawn).die z = s.die z := rfl
@[simp] theorem die_of_fresh (s : State) (z : Nat) : (s.fresh).die z = s.die z := rfl

/-! ### What an accessor reads after its own update -/

@[simp] theorem byte_setByte (s : State) (a c : Nat) (b : Byte) :
    (s.setByte a b).byte c = if a = c then b else s.byte c := memGet_memSet ..

@[simp] theorem cell?_putCell (s : State) (k j : Nat) (c : CellSt) :
    (s.putCell k c).cell? j = if k = j then some c else s.cell? j := aget_aput _ _ _ _

@[simp] theorem core_putCore (s : State) (k j : Nat) (c : CoreSt) :
    (s.putCore k c).core j = if k = j then c else s.core j := agetD_asetD _ _ _ _ _

@[simp] theorem cluster_putCluster (s : State) (k j : Nat) (c : ClusterSt) :
    (s.putCluster k c).cluster j = if k = j then c else s.cluster j := agetD_asetD _ _ _ _ _

@[simp] theorem die_putDie (s : State) (k j : Nat) (x : DieSt) :
    (s.putDie k x).die j = if k = j then x else s.die j := agetD_asetD _ _ _ _ _

@[simp] theorem reg_setReg_self (s : State) (r : Reg) (x : Dword) : (s.setReg r x).reg r = x :=
  agetD_asetD_self r.resetVal s.regs r.addr x

theorem reg_setReg_ne (s : State) {r q : Reg} (x : Dword) (h : q.addr ≠ r.addr) : (s.setReg r x).reg q = s.reg q := by
  simp only [State.reg, State.setReg, asetD]
  split
  · rw [aget_adel, if_neg (Ne.symm h)]
  · rw [aget_aput, if_neg (Ne.symm h)]

theorem mem_sput (t : List Nat) (k j : Nat) : j ∈ sput t k ↔ j ∈ t ∨ j = k := by
  induction t with
  | nil => simp [sput]
  | cons i t ih =>
    simp only [sput]
    split
    · simp only [List.mem_cons]; tauto
    · split
      · subst_vars; simp only [List.mem_cons]; tauto
      · simp only [List.mem_cons, ih]; tauto

theorem mem_sset (t : List Nat) (k j : Nat) (b : Bool) : j ∈ sset t k b ↔ if k = j then b = true else j ∈ t := by
  unfold sset
  by_cases h : k = j
  · subst h; cases b <;> simp [mem_sput, sdel]
  · cases b <;> simp [mem_sput, sdel, h, Ne.symm h]

theorem elem_sset (t : List Nat) (k j : Nat) (b : Bool) : (sset t k b).elem j = if k = j then b else t.elem j := by
  rw [Bool.eq_iff_iff, List.elem_iff, mem_sset]
  split <;> simp

@[simp] theorem isFull_setFull (s : State) (g k : Nat) (b : Bool) :
    (s.setFull g b).isFull k = if g = k then b else s.isFull k := elem_sset ..

@[simp] theorem elem_setPoison (s : State) (g k : Nat) (b : Bool) :
    (s.setPoison g b).poison.elem k = if g = k then b else s.poison.elem k := elem_sset ..

end Sys2Proof.Machine
end

