-- ==== Sys2Proof/Laws/Memory.lean ====
section
/-! SUPPORT. Memory: reads after writes, bytes and numbers, and that every operation that writes memory keeps its
canonical form. Memory changes in four ways alone: byte by byte (setByte), and whole parts at once in blankSets, loseDie
and packageReset. -/

namespace Sys2Proof.Machine

/-! ### Numbers and bytes -/

@[simp] theorem length_natLE (x n : Nat) : (natLE x n).length = n := by
  induction n generalizing x with
  | zero => rfl
  | succ n ih => simp [natLE, ih]

theorem leNat_natLE (x n : Nat) : leNat (natLE x n) = x % 256 ^ n := by
  induction n generalizing x with
  | zero => simp [natLE, leNat, Nat.mod_one]
  | succ n ih =>
    simp only [natLE, leNat, ih, BitVec.toNat_ofNat, Nat.reducePow]
    rw [Nat.pow_succ', Nat.mod_mul]

theorem leNat_lt (l : List Byte) : leNat l < 256 ^ l.length := by
  induction l with
  | nil => simp [leNat]
  | cons b t ih =>
    have := b.isLt
    simp only [leNat, List.length_cons, Nat.pow_succ']
    omega

@[simp] theorem length_bytes (s : State) (a n : Nat) : (s.bytes a n).length = n := by
  induction n generalizing a with
  | zero => rfl
  | succ n ih => simp [State.bytes, ih]

theorem getElem?_bytes (s : State) (a n i : Nat) (h : i < n) : (s.bytes a n)[i]? = some (s.byte (a + i)) := by
  induction n generalizing a i with
  | zero => omega
  | succ n ih =>
    cases i with
    | zero => simp [State.bytes]
    | succ i => simp only [State.bytes, List.getElem?_cons_succ]; rw [ih _ _ (by omega)]; congr 2; omega

/-- The bytes of a range depend on what each of its addresses reads as. -/
theorem bytes_congr {s t : State} {a n : Nat} (h : ∀ i, i < n → t.byte (a + i) = s.byte (a + i)) :
    t.bytes a n = s.bytes a n := by
  induction n generalizing a with
  | zero => rfl
  | succ n ih =>
    simp only [State.bytes]
    rw [ih fun i hi => by simpa [Nat.add_assoc, Nat.add_comm 1] using h (i + 1) (by omega), show t.byte a = s.byte a from h 0 (by omega)]

theorem word64_congr {s t : State} {a : Nat} (h : ∀ i, i < 8 → t.byte (a + i) = s.byte (a + i)) :
    t.word64 a = s.word64 a := by simp [State.word64, bytes_congr h]

/-! ### Writes of many bytes -/

/-- What each address reads as at its home after a byte has been written, here or in another package. -/
@[simp] theorem homeByte_putByte (s : State) (a c : Nat) (b : Byte) :
    (s.putByte a b).homeByte c = if a = c then b else s.homeByte c := by
  by_cases h : a = c
  · subst h
    by_cases f : farAddr a = true
    · simp [State.putByte, State.homeByte, State.farByte, f]
    · simp [State.putByte, State.homeByte, f]
  · by_cases f : farAddr a = true <;> by_cases k : farAddr c = true <;>
      simp [State.putByte, State.homeByte, State.farByte, f, k, aget_aput, h]
    rfl

/-- What stands in this package reads as its home says. -/
theorem homeByte_of_near (s : State) {a : Nat} (h : farAddr a = false) : s.homeByte a = s.byte a := by
  simp [State.homeByte, h]

/-- A byte of this package is not touched by a write to another address. -/
theorem byte_putByte_ne (s : State) {a c : Nat} (b : Byte) (h : a ≠ c) : (s.putByte a b).byte c = s.byte c := by
  unfold State.putByte
  split
  · rfl
  · simp [h]

theorem putBytes_cons (s : State) (x : Nat × Byte) (t : List (Nat × Byte)) :
    s.putBytes (x :: t) = (s.putByte x.1 x.2).putBytes t := rfl

/-- A byte that a write does not name is as it was. -/
theorem byte_putBytes_of_notMem (s : State) (data : List (Nat × Byte)) (a : Nat) (h : ∀ x ∈ data, x.1 ≠ a) :
    (s.putBytes data).byte a = s.byte a := by
  induction data generalizing s with
  | nil => rfl
  | cons x t ih =>
    rw [putBytes_cons, ih _ fun y hy => h y (by simp [hy]), byte_putByte_ne _ _ (h x (by simp))]

theorem homeByte_putBytes_of_notMem (s : State) (data : List (Nat × Byte)) (a : Nat) (h : ∀ x ∈ data, x.1 ≠ a) :
    (s.putBytes data).homeByte a = s.homeByte a := by
  induction data generalizing s with
  | nil => rfl
  | cons x t ih => rw [putBytes_cons, ih _ fun y hy => h y (by simp [hy])]; simp [h x (by simp)]

/-- A byte that a write names once reads as written. -/
theorem homeByte_putBytes_of_mem (s : State) (data : List (Nat × Byte)) (hd : (data.map (·.1)).Nodup) (x : Nat × Byte)
    (hx : x ∈ data) : (s.putBytes data).homeByte x.1 = x.2 := by
  induction data generalizing s with
  | nil => simp at hx
  | cons y t ih =>
    rw [putBytes_cons]
    rw [List.map_cons, List.nodup_cons] at hd
    rcases List.mem_cons.1 hx with rfl | hx
    · rw [homeByte_putBytes_of_notMem _ _ _ fun z hz he => hd.1 (by rw [← he]; exact List.mem_map_of_mem hz)]
      simp
    · exact ih _ hd.2 hx

theorem putByte_frame (s : State) (a : Nat) (b : Byte) : { s.putByte a b with mem := s.mem, far := s.far } = s := by
  unfold State.putByte; split <;> rfl

/-- A write of many bytes changes memory alone, here and in other packages. -/
theorem putBytes_frame (s : State) (data : List (Nat × Byte)) : { s.putBytes data with mem := s.mem, far := s.far } = s := by
  induction data generalizing s with
  | nil => rfl
  | cons x t ih =>
    have h := congrArg (fun r : State => { r with mem := s.mem, far := s.far }) (ih (s.putByte x.1 x.2))
    exact h.trans (putByte_frame s x.1 x.2)

/-! ### The canonical form -/

/-- What has the same memory has its canonical form. -/
theorem memOk_congr {s t : State} (hm : t.mem = s.mem) (he : t.blankEpoch = s.blankEpoch) (h : s.MemOk) : t.MemOk := by
  unfold State.MemOk at *; rw [hm, he]; exact h

theorem memOk_setByte {s : State} (a : Nat) (b : Byte) (h : s.MemOk) : (s.setByte a b).MemOk := wf_memSet a b h

theorem memOk_foldl {β : Type} (f : State → β → State) (hf : ∀ s x, s.MemOk → (f s x).MemOk) (l : List β) {s : State}
    (h : s.MemOk) : (l.foldl f s).MemOk := by
  induction l generalizing s with
  | nil => exact h
  | cons x t ih => exact ih (hf s x h)

theorem memOk_putByte {s : State} (a : Nat) (b : Byte) (h : s.MemOk) : (s.putByte a b).MemOk := by
  unfold State.putByte
  split
  · exact memOk_congr rfl rfl h
  · exact memOk_setByte a b h

theorem memOk_putBytes {s : State} (data : List (Nat × Byte)) (h : s.MemOk) : (s.putBytes data).MemOk :=
  memOk_foldl _ (fun _ x h => memOk_putByte x.1 x.2 h) data h

theorem memOk_spend {s : State} (src : Nat) (c : OrdClass) (n : Nat) (h : s.MemOk) : (s.spend src c n).MemOk := by
  unfold State.spend
  split
  · exact h
  · exact memOk_congr rfl rfl h

theorem memOk_pushTo {s : State} (g wrote : Nat) (rels : List Rel) (w : Watcher) (h : s.MemOk) :
    (s.pushTo g wrote rels w).MemOk := by
  unfold State.pushTo
  split
  · exact memOk_congr rfl rfl h
  · simp only
    split
    · exact memOk_congr rfl rfl (memOk_spend _ _ _ h)
    · exact memOk_congr rfl rfl h

theorem memOk_pushGranule {s : State} (wrote : Nat) (rels : List Rel) (g : Nat) (h : s.MemOk) :
    (s.pushGranule wrote rels g).MemOk := memOk_foldl _ (fun _ w h => memOk_pushTo _ _ _ w.who h) _ h

/-- A write at its home keeps the canonical form. -/
theorem memOk_writeAs {s : State} (stamp : Nat) (by_ : Author) (data : List (Nat × Byte)) (full poison : List Nat)
    (h : s.MemOk) : (s.writeAs stamp by_ data full poison).MemOk := by
  unfold State.writeAs
  refine memOk_foldl _ (fun _ _ h => memOk_pushGranule _ _ _ h) _
    (memOk_foldl (fun s g => s.setFull g true) (fun _ _ h => memOk_congr rfl rfl h) _
      (memOk_foldl _ (fun s g h => ?_) _ (memOk_putBytes data (memOk_congr rfl rfl h))))
  have mp (b : Bool) : (s.markPoison g b).MemOk := by
    unfold State.markPoison
    split
    · exact memOk_congr rfl rfl h
    · exact memOk_congr rfl rfl h
  split
  · exact mp true
  · split
    · exact mp false
    · exact h

theorem memOk_performWrite {s : State} (path : Path) (src job : Nat) (data : List (Nat × Byte)) (full poison : List Nat)
    (h : s.MemOk) : (s.performWrite path src job data full poison).MemOk :=
  memOk_writeAs _ _ _ _ _ (memOk_congr rfl rfl h)

theorem memOk_devWrite {s : State} (path : Path) (src pa x n : Nat) (h : s.MemOk) : (s.devWrite path src pa x n).MemOk :=
  memOk_performWrite _ _ _ _ _ _ h

/-- A migration's copy keeps the canonical form. -/
theorem memOk_copyFrame {s : State} (old new size : Nat) (h : s.MemOk) : (s.copyFrame old new size).MemOk := by
  unfold State.copyFrame
  refine memOk_foldl _ ?_ _ (memOk_foldl _ ?_ _ h)
  · exact fun _ _ h => memOk_congr rfl rfl h
  · exact fun _ _ h => memOk_setByte _ _ h

theorem arising_filter {α : Type} (p : Nat × α → Bool) {t : Assoc α} (h : arising t = true) :
    arising (t.filter p) = true := by
  induction t with
  | nil => rfl
  | cons y t ih =>
    obtain ⟨j, w⟩ := y
    rw [List.filter_cons]
    split
    · exact arising_cons (ih (arising_tail h)) fun x hx => arising_lt h x (List.mem_filter.1 hx).1
    · exact ih (arising_tail h)

/-- The canonical form where parts of memory become empty: what stays listed stays in form if it reads blank as before. -/
theorem wf_filter {ep ep' : Assoc Nat} {m : List Host.Cell} (p : Host.Cell → Bool)
    (hb : ∀ c : Host.Cell, p c = true → blank ep' c.1 = blank ep c.1) (h : Memory.wf ep m = true) :
    Memory.wf ep' (m.filter p) = true := by
  simp only [Memory.wf, Bool.and_eq_true, List.all_eq_true] at h ⊢
  refine ⟨arising_filter p h.1, fun c hc => ?_⟩
  rw [hb c (List.mem_filter.1 hc).2]
  exact h.2 c (List.mem_filter.1 hc).1

theorem aget_foldl_aput {α : Type} (v : α) (ks : List Nat) (t : Assoc α) (j : Nat) (h : j ∉ ks) :
    aget (ks.foldl (fun t k => aput t k v) t) j = aget t j := by
  induction ks generalizing t with
  | nil => rfl
  | cons k ks ih =>
    rw [List.foldl_cons, ih _ fun hj => h (List.mem_cons_of_mem _ hj), aget_aput, if_neg]
    rintro rfl; simp at h

/-- A change of the interleave keeps the canonical form (01 R25). -/
theorem memOk_blankSets {old s : State} (h : s.MemOk) : (State.blankSets old s).MemOk := by
  refine wf_filter _ (fun c hc => ?_) h
  simp only [blank, State.blankSets]
  rw [aget_foldl_aput]
  intro hm
  simp only [Bool.not_eq_true', Bool.and_eq_false_iff] at hc
  have hk : epochKey c.1 < 8 := by simpa using (List.mem_filter.1 hm).1
  have hlt : c.1 < 2 ^ 40 := by
    unfold epochKey at hk
    split at hk
    · assumption
    · omega
  have he : epochKey c.1 = c.1 / 2 ^ 37 := if_pos hlt
  rcases hc with hc | hc
  · exact absurd hlt (of_decide_eq_false hc)
  · rw [he] at hm
    simp only [List.elem_eq_mem, decide_eq_false_iff_not] at hc
    exact hc hm

/-- The loss of a die's basin keeps the canonical form (24 R435). -/
theorem memOk_loseDie {s : State} (die : Nat) (h : s.MemOk) : (s.loseDie die).MemOk := by
  refine wf_filter _ (fun c hc => ?_) h
  simp only [blank, State.loseDie]
  rw [aget_adel, if_neg]
  intro he
  have hc : c.1 < windowBase die ∨ windowBase die + 2 ^ 28 ≤ c.1 := by
    simpa [Bool.and_eq_false_iff] using hc
  unfold windowBase at hc
  unfold epochKey at he
  split at he <;> omega

/-- Memory after a package reset is in its canonical form. -/
theorem memOk_packageReset (s : State) : s.packageReset.MemOk := rfl

theorem memOk_reset : State.reset.MemOk := rfl

end Sys2Proof.Machine
end

