-- ==== Sys2Proof/Laws/Operations.lean ====
section
/-! SUPPORT. What the shared operations leave alone: translations and page requests, writes at their home, event records,
the drain of a region and traps. -/

namespace Sys2Proof.Machine

/-- What each step of a loop keeps, the loop keeps. -/
theorem foldl_keeps {β γ : Type} (k : State → γ) (f : State → β → State) (hf : ∀ s x, k (f s x) = k s) (l : List β)
    (s : State) : k (l.foldl f s) = k s := by
  induction l generalizing s with
  | nil => rfl
  | cons x t ih => rw [List.foldl_cons, ih, hf]

/-! ### Translation -/

/-- A TLB that takes a translation changes the TLB and the ages of objects alone, and it keeps every entry. -/
theorem tlbFill_frame (s : State) (ctx va : Nat) (w : Walk) :
    { s.tlbFill ctx va w with tlb := s.tlb, objects := s.objects } = s := by
  cases w with
  | fault => rfl
  | ok => simp only [State.tlbFill]; split <;> rfl

theorem mem_tlbFill {s : State} {ctx va : Nat} {w : Walk} {e : TlbEntry} (h : e ∈ s.tlb) :
    e ∈ (s.tlbFill ctx va w).tlb := by
  cases w with
  | fault => exact h
  | ok =>
    simp only [State.tlbFill]
    split
    · exact h
    · exact List.mem_append_left _ h

/-- The TLBs that an access fills change nothing else. -/
theorem tlbFillLanes_frame (s : State) (ctx acc : Nat) (priv : Bool) (ls : List Lane) :
    { s.tlbFillLanes ctx acc priv ls with tlb := s.tlb, objects := s.objects } = s := by
  have h : ∀ t l, (fun r : State => { r with tlb := s.tlb, objects := s.objects }) ((fun (t : State) (l : Lane) =>
      if !l.va || l.addr.getLsbD 63 then t
      else t.tlbFill ctx l.addr.toNat (s.translate ctx l.addr.toNat acc priv)) t l) =
      (fun r : State => { r with tlb := s.tlb, objects := s.objects }) t := by
    intro t l
    dsimp only
    split
    · rfl
    · exact congrArg (fun r : State => { r with tlb := s.tlb, objects := s.objects }) (tlbFill_frame t ctx l.addr.toNat _)
  exact foldl_keeps (fun r : State => { r with tlb := s.tlb, objects := s.objects }) _ h ls s

@[simp] theorem group?_tlbFillLanes (s : State) (ctx acc u : Nat) (priv : Bool) (ls : List Lane) :
    (s.tlbFillLanes ctx acc priv ls).group? u = s.group? u :=
  congrArg (fun l => aget l u) (congrArg State.groups (tlbFillLanes_frame s ctx acc priv ls) :)

theorem assignTag_frame (s : State) (f : Nat) : { s.assignTag f with requests := s.requests } = s := by
  unfold State.assignTag
  split <;> rfl

/-- A page request changes the requests and the counter of fresh numbers alone. -/
theorem raiseRequest_frame (s : State) (ctx st lv r : Nat) (a acc : Nat) :
    { (s.raiseRequest ctx st lv r a acc).1 with requests := s.requests, uid := s.uid } = s := by
  unfold State.raiseRequest
  simp only
  split
  · rfl
  · exact congrArg (fun r : State => { r with requests := s.requests, uid := s.uid })
      (assignTag_frame { s with uid := s.uid + 1, requests := s.requests ++ [_] } _)

/-! ### Writes at their home -/

/-- What a write at its home may change: memory, poison, full bits, what readers may still see, and the pushes that it sends, with
the contracts that they draw on. -/
def State.written (s t : State) : State :=
  { t with
    uid := s.uid, old := s.old, mem := s.mem, poison := s.poison, full := s.full, pushes := s.pushes, far := s.far
    farPoison := s.farPoison, buckets := s.buckets, outbox := s.outbox }

theorem pushTo_frame (s t : State) (g wrote : Nat) (rels : List Rel) (w : Watcher) :
    s.written (t.pushTo g wrote rels w) = s.written t := by
  unfold State.pushTo
  split
  · rfl
  · simp only
    split
    · unfold State.spend; split <;> rfl
    · rfl

theorem pushGranule_frame (s t : State) (wrote : Nat) (rels : List Rel) (g : Nat) :
    s.written (t.pushGranule wrote rels g) = s.written t :=
  foldl_keeps s.written (fun t (w : Sub) => t.pushTo g wrote rels w.who) (fun t w => pushTo_frame s t g wrote rels w.who) _ t

/-- A write at its home changes those alone. -/
theorem writeAs_frame (s : State) (stamp : Nat) (by_ : Author) (data : List (Nat × Byte)) (full poison : List Nat) :
    s.written (s.writeAs stamp by_ data full poison) = s := by
  unfold State.writeAs
  refine (foldl_keeps s.written _ (fun t g => pushGranule_frame s t _ _ g) _ _).trans ?_
  refine (foldl_keeps s.written (fun s g => s.setFull g true) (fun _ _ => rfl) _ _).trans ?_
  refine (foldl_keeps s.written _ (fun t g => ?_) _ _).trans ?_
  · have mp (b : Bool) : s.written (t.markPoison g b) = s.written t := by
      unfold State.markPoison; split <;> rfl
    split
    · exact mp true
    · split
      · exact mp false
      · rfl
  · exact (congrArg s.written (putBytes_frame _ data) :)

theorem performWrite_frame (s : State) (path : Path) (src job : Nat) (data : List (Nat × Byte)) (full poison : List Nat) :
    s.written (s.performWrite path src job data full poison) = s :=
  (congrArg s.written (writeAs_frame { s with uid := s.uid + 1 } s.uid (deviceAuthor path src job []) data full poison) :)

/-! ### Event records -/

theorem groups_devWrite (s : State) (path : Path) (src pa x n : Nat) : (s.devWrite path src pa x n).groups = s.groups :=
  (congrArg State.groups (performWrite_frame s path src 0 (dataOf pa (natLE x n)) [] []) :)

theorem cells_devWrite (s : State) (path : Path) (src pa x n : Nat) : (s.devWrite path src pa x n).cells = s.cells :=
  (congrArg State.cells (performWrite_frame s path src 0 (dataOf pa (natLE x n)) [] []) :)

@[simp] theorem groups_logTo (s : State) (p src type data : Nat) : (s.logTo p src type data).groups = s.groups := by
  unfold State.logTo
  simp only
  split
  · rfl
  · rw [setReg_groups, groups_devWrite]

@[simp] theorem cells_logTo (s : State) (p src type data : Nat) : (s.logTo p src type data).cells = s.cells := by
  unfold State.logTo
  simp only
  split
  · rfl
  · rw [setReg_cells, cells_devWrite]

theorem memOk_logTo {s : State} (p src type data : Nat) (h : s.MemOk) : (s.logTo p src type data).MemOk := by
  unfold State.logTo
  simp only
  split
  · exact h
  · unfold State.MemOk
    simp only [setReg_mem, setReg_blankEpoch]
    refine memOk_devWrite (s := { s with evSeq := _ }) _ _ _ _ _ ?_
    exact h

theorem memOk_logCtx {s : State} (c src type data : Nat) (h : s.MemOk) : (s.logCtx c src type data).MemOk := by
  unfold State.logCtx
  split
  · exact memOk_logTo _ _ _ _ h
  · exact h

@[simp] theorem groups_logCtx (s : State) (c src type data : Nat) : (s.logCtx c src type data).groups = s.groups := by
  unfold State.logCtx
  split
  · exact groups_logTo ..
  · rfl

/-! ### Regions -/

/-- What memory holds. -/
def State.memParts (s : State) : List Host.Cell × Assoc Nat := (s.mem, s.blankEpoch)

theorem memOk_of_memParts {s t : State} (e : t.memParts = s.memParts) (h : s.MemOk) : t.MemOk :=
  memOk_congr (Prod.mk.inj e).1 (Prod.mk.inj e).2 h

theorem memParts_sendStore (s : State) (u : Nat) (glob : Option Dword) (kind : PageKind) (pa : Nat) (body : PBody)
    (tok rel : Option Nat) (later : Nat) : (s.sendStore u glob kind pa body tok rel later).memParts = s.memParts := by
  unfold State.sendStore
  split
  · rfl
  · cases glob <;> rfl

theorem memParts_sendMarkers (s : State) (u : Nat) : (s.sendMarkers u).memParts = s.memParts := by
  unfold State.sendMarkers
  split
  · rfl
  · rename_i g _
    exact foldl_keeps State.memParts (fun s h => s.fresh.send (s.packetOf u g none .strict h 0 .marker none none 0))
      (fun _ _ => rfl) _ _

theorem memParts_drainItem (s : State) (u later : Nat) (x : BufItem) : (s.drainItem u later x).memParts = s.memParts := by
  cases x with
  | bytes glob kind data full poison =>
    simp only [State.drainItem]
    split <;> split <;> exact memParts_sendStore ..
  | fill start n set tok => exact memParts_sendStore ..
  | marker =>
    simp only [State.drainItem]
    split
    · rfl
    · exact (memParts_sendMarkers _ _).trans rfl

theorem memParts_drainItems (u : Nat) (l : List BufItem) (s : State) : (State.drainItems u l s).memParts = s.memParts := by
  induction l generalizing s with
  | nil => rfl
  | cons x t ih => simp only [State.drainItems]; rw [ih, memParts_drainItem]

/-- A commit changes no memory: its stores are on their way. -/
theorem memParts_commit (s : State) (u index : Nat) (half : Bool) : (s.commit u index half).memParts = s.memParts := by
  have hd : (s.drain u).memParts = s.memParts := by
    unfold State.drain
    split
    · rfl
    · split
      · rfl
      · exact (memParts_drainItems u _ _).trans rfl
  unfold State.commit
  simp only
  split
  · exact hd
  · exact hd

end Sys2Proof.Machine
end

