-- ==== Sys2Proof/Tests/Slice0.lean ====
section
/-! SUPPORT. Tests: words of the spec's examples, ill-formed terms, single steps with the results that the spec's tables and
examples give, and for each statement a state and operands that meet its hypotheses. -/

open Sys2Proof Sys2Proof.Machine

namespace Sys2Proof.Tests

set_option Elab.async false

/-! ### Decoding: words as the spec's examples write them out -/

/-- A head without guard, flag, write-back bit or latch. -/
def h0 : Head := ⟨false, 7, 15, false, 0⟩
/-- The same with a flag. -/
def hf (n : BitVec 4) : Head := ⟨false, 7, n, false, 0⟩
/-- The same with a guard. -/
def hg (p : BitVec 3) : Head := ⟨false, p, 15, false, 0⟩

/-- Family 0: BRA of 05's divergent branch. -/
theorem test_decode_bra : decodeWord 0x0109F00000000005 = .ok (.bra ⟨true, 1, 15, false, 0⟩ .plain 5) := by decide +kernel

/-- Families 1 to 3 (06). -/
theorem test_decode_integer : ∀ x ∈ ([
    (0x1307F08280B03000, .idiv h0 ⟨false, 1, 10, .v 11, .src (.v 12)⟩),
    (0x16C7F001A0400100, .iadd64 h0 ⟨true, 0, 6, .s 4, .imm 0x100⟩),
    (0x2247F001005006CA, .lut3 h0 ⟨false, 4, .v 5, 0xCA, 6⟩)] : List (Dword × Instr)), decodeWord x.1 = .ok x.2 := by
  decide +kernel

/-- A predicate form: PAND p1, !p2, p3 with MOD 1, D 1, A 2, B 3 (06 R161). -/
theorem test_decode_predicate :
    decodeWord (0x3207F08040200C00 : Dword) = .ok (.pand h0 ⟨true, false, 1, 2, 3⟩) := by decide +kernel

/-- Families 4 to 8 (08; 06). -/
theorem test_decode_float : ∀ x ∈ ([
    (0x4207F20100200C00, .fmul ⟨false, 7, 15, false, 1⟩ ⟨0, 0, 4, .v 2, .src (.v 3)⟩),
    (0x4307F00168101A84, .ffma h0 ⟨0, 0, 5, .b 1, .v 6, .lit 0⟩),
    (0x6207F00180500030, .f2f h0 ⟨0, false, 0, 3, 0, 6, .v 5⟩),
    (0x6A07F00240702030, .quant h0 3 9 (.v 7) (.v 8)),
    (0x7117F00481100000, .rsq h0 true 18 (.v 17)),
    (0x8117F002009DFC00, .shfl h0 1 8 (.v 9) (.imm 0xFF))] : List (Dword × Instr)), decodeWord x.1 = .ok x.2 := by
  decide +kernel

/-- Families 9 and A (09). -/
theorem test_decode_memory : ∀ x ∈ ([
    (0x9037301402001060, .ld (hf 3) .b64 20 (.v 8) 16 6 0),
    (0x9147202889000040, .ldu (hf 2) .b128 40 (.s 36) 0 4 0),
    (0x9337200485800003, .ldb (hf 2) .b64 4 (.s 22) 0 true true),
    (0x9441F00C09800000, .st (hg 1) .b128 12 (.v 38) 0 0),
    (0x9527F01E87000400, .stu h0 .b32 30 (.s 28) 4 0),
    (0xA097100482800884, .atom (hf 1) ⟨9, false, 1, 4, .s 10, 8, 8⟩),
    (0xA312100081000000, .ldsub ⟨false, 2, 1, false, 0⟩ true 0 (.s 4) 0),
    (0xA407300087000000, .unsub (hf 3) (.s 28) 0),
    (0xA507400687000000, .substat (hf 4) 6 (.s 28) 0)] : List (Dword × Instr)), decodeWord x.1 = .ok x.2 := by
  decide +kernel

/-- Families B and C (11, 12, 13, 14). -/
theorem test_decode_asynchronous : ∀ x ∈ ([
    (0xB001F00842893800, .copy (hg 1) false true 2 7 false (.v 16) (.s 20)),
    (0xB217F10C4400B800, .copym h0 true 1 7 (.s 24) (.s 32)),
    (0xB307F01482000081, .ctradd h0 ⟨true, 20, .s 8, 0, 8⟩),
    (0xB407F01885000071, .ctrwait h0 ⟨true, 24, .s 20, 0, 7⟩),
    (0xB607310800000003, .fork (hf 3) (.s 16) 3),
    (0xB707F10800000003, .rdv h0 (.s 16) 3),
    (0xC107F00282000000, .rsv h0 2 8),
    (0xC547F00028201001, .mma h0 ⟨2, false, 0, 0, 1, false, true, 0, 0x201, 1⟩),
    (0xC647F00028200000, .mmaz h0 ⟨2, false, 0, 0, 1, false, true, 0, 0x200, 0⟩)] : List (Dword × Instr)),
    decodeWord x.1 = .ok x.2 := by decide +kernel

/-- Families D to F (17, 18, 14, 21). -/
theorem test_decode_system : ∀ x ∈ ([
    (0xD007F00000000000, .bar h0 none), (0xD017F00000000800, .bar h0 (some 2)), (0xD107F00000000000, .bara h0 none),
    (0xD217F00000000800, .barw h0 (some 2)), (0xD307F00000000060, .fence h0 false 6), (0xD317F00000000080, .fence h0 true 8),
    (0xD407F01100000040, .pfence h0 0x11 4), (0xD517F00000000060, .acq h0 true 6), (0xD607F00000000080, .rel h0 8),
    (0xD707F00020C001F4, .sleep h0 (.s 12) 500), (0xE007F10B43C00001, .estream h0 1 (.s 22) (.s 30)),
    (0xE107100043C0C07B, .ereduce (hf 1) 0 3 0xF (some ⟨.s 30, 8⟩)), (0xE107100000000078, .ereduce (hf 1) 0 0 0xF none),
    (0xE207F00000000070, .ebcast h0 0 0xE none), (0xF007F00280000001, .csrr h0 10 1),
    (0xF107F00021400010, .csrw h0 0x10 (.s 20)), (0xF207F00C82000000, .tlbinv h0 (.page 12 8)),
    (0xF307F00000000000, .rett h0), (0xF407F00081800000, .presp h0 (.s 6)), (0xF507F00020400000, .haltc h0 (.s 4))] :
      List (Dword × Instr)), decodeWord x.1 = .ok x.2 := by decide +kernel

/-- Words that the map leaves unassigned, reserved selectors and SETF values, and nonzero unused fields are refused by
name (04 R85, R97). -/
theorem test_decode_refuses :
    decodeWord 0x0D07F00000000000 = .error .unassigned ∧
    decodeWord 0x1007F0002BC00000 = .error .selector ∧
    decodeWord 0x0007F00000000001 = .error .reserved ∧
    decodeWord 0x0007C00000000000 = .error .illegal ∧
    decodeWord 0x9007F00402000060 = .error .illegal := by decide +kernel

/-- The host's numbering: the table's word is the instruction word (04 R83). -/
theorem test_decodeTableWord : decodeTableWord 64 0xF307F00000000000 = some (.rett h0) := by decide +kernel

/-- The encoder writes the words of the examples. -/
theorem test_encode : encode (.copym h0 true 1 7 (.s 24) (.s 32)) = [0xB217F10C4400B800] ∧
    encode (.ld (hf 3) .b64 20 (.v 8) 16 6 0) = [0x9037301402001060] := by decide +kernel

/-- The clause header of 04's assembled clause: two instructions behind the first, no literals, WAIT on f2. -/
theorem test_header : hdrCount 0x0160040000000004 = 1 ∧ hdrLit 0x0160040000000004 = 1 ∧ hdrRegion 0x0160040000000004 = true ∧
    bits 0x0160040000000004 51 40 = 4 := by decide +kernel

/-! ### Well-formedness: an ill-formed term for each check -/

/-- The head rules (04 R96): SETF 12 to 14; a kind-A form without a flag; LAT or NWB of a form without a result. -/
theorem test_wf_head : ∀ i ∈ [
    Instr.nop (hf 12), .nop (hf 14), .ld h0 .b32 4 (.v 8) 0 0 0, .ld ⟨false, 7, 3, false, 1⟩ .b32 4 (.v 8) 0 0 0,
    .nop ⟨false, 7, 15, true, 0⟩, .nop ⟨false, 7, 15, false, 2⟩], i.wf = false := by decide +kernel

/-- Families 0 to 3: MOD values, scalar destinations, pairs, operand classes, conditions (05; 06). -/
theorem test_wf_integer : ∀ i ∈ [
    Instr.brax h0 (.b 0), .brax h0 (.v 1), .callx h0 (.sp .lane), .spawn (hf 1) 2 1 (.v 2) 0, .spawn (hf 1) 2 1 (.s 3) 0,
    .join h0 (.v 0) (.s 1), .join h0 (.s 1) (.b 0), .iadd h0 ⟨false, 3, 4, .v 1, .src (.v 2)⟩,
    .isub h0 ⟨true, 0, 128, .s 1, .src (.s 2)⟩, .iaddc h0 ⟨true, 128, .s 1, .i 0 1 1⟩, .imul h0 ⟨false, 1, 4, .v 1, .imm 0⟩,
    .imulh h0 ⟨false, 2, 4, .v 1, .imm 0⟩, .udiv h0 ⟨false, 2, 4, .v 1, .imm 1⟩, .imad h0 ⟨false, 1, 4, .v 1, .v 2, .v 3⟩,
    .imadw h0 ⟨false, 0, 5, .v 1, .v 2, .v 4⟩, .imadw h0 ⟨false, 0, 4, .v 1, .v 2, .v 3⟩, .iabs h0 ⟨false, 2, 4, .v 1⟩,
    .iadd64 h0 ⟨false, 0, 4, .v 1, .src (.v 2)⟩, .iadd64 h0 ⟨false, 0, 4, .v 2, .src (.v 3)⟩, .lea h0 ⟨false, 3, 5, .v 2, .imm 0⟩,
    .not h0 ⟨false, 1, 4, .v 1⟩, .mov h0 true (.mov 128 (.imm 0)), .mov h0 true (.fromLstat 200), .mov h0 false (.mov64 3 (.imm 0)),
    .mov h0 false (.mov64 4 (.src (.s 3))), .lut3 h0 ⟨true, 4, .s 1, 0, 128⟩, .fshf h0 ⟨false, 2, 4, .v 1, .v 2, .v 3⟩,
    .bfi h0 ⟨false, 1, 4, .v 1, .v 2, .v 3⟩, .sel h0 ⟨true, 128, .s 1, .s 2, 1⟩, .icmp h0 ⟨6, false, false, 1, .v 1, .i 0⟩,
    .icmp h0 ⟨0, false, true, 1, .v 1, .i 0⟩, .icmp h0 ⟨0, false, false, 1, .v 1, .v (.v 2) 0 3⟩,
    .fcmp h0 ⟨0, true, false, 1, .v 1, .i 0⟩, .fcmp h0 ⟨0, false, true, 1, .v 2, .i 0⟩], i.wf = false := by decide +kernel

/-- Families 4 to 8: MOD, pairs, conversion types and selectors, operations, offsets (08; 06). -/
theorem test_wf_float : ∀ i ∈ [
    Instr.fscale h0 ⟨0, 1, 4, .v 1, .v 2⟩, .fexp h0 5 (.v 1), .hdot2 h0 ⟨0, 2, 4, .v 1, .v 2, .v 3⟩,
    .f2i h0 ⟨0, true, 0, 8, 0, 4, .v 1⟩, .f2i h0 ⟨0, false, 8, 8, 0, 4, .v 1⟩, .f2i h0 ⟨0, false, 0, 7, 0, 4, .v 1⟩,
    .f2i h0 ⟨0, false, 0, 11, 0, 5, .v 1⟩, .i2f h0 ⟨0, false, 7, 0, 0, 4, .v 1⟩, .i2f h0 ⟨0, false, 8, 8, 0, 4, .v 1⟩,
    .i2f h0 ⟨0, false, 11, 0, 0, 4, .v 1⟩, .f2f h0 ⟨0, false, 8, 0, 0, 4, .v 1⟩, .f2f h0 ⟨0, false, 0, 0, 1, 4, .v 1⟩,
    .f2f h0 ⟨0, false, 1, 0, 2, 4, .v 1⟩, .i2i h0 ⟨1, false, 8, 9, 0, 4, .v 1⟩, .i2i h0 ⟨0, false, 7, 9, 0, 4, .v 1⟩,
    .pack8 h0 2 4 (.v 2) (.v 4), .pack8 h0 3 4 (.v 1) (.v 4), .unpack8 h0 2 0 0 4 (.v 1), .unpack8 h0 3 3 0 4 (.v 1),
    .unpack8 h0 3 0 2 4 (.v 1), .unpack8 h0 3 1 1 4 (.v 1), .unpack8 h0 3 0 0 5 (.v 1), .pack6 h0 4 (.v 2) (.v 3),
    .pack4 h0 2 4 (.v 2) (.v 4), .unpack4 h0 3 0 4 (.v 1), .unpack4 h0 1 2 4 (.v 1), .scaleq h0 7 4 (.v 1),
    .quant h0 7 4 (.v 1) (.v 2), .shfl h0 0 4 (.v 1) (.imm 0xF8), .rdstep h0 11 4 (.v 1) 0, .rdstep h0 0 4 (.v 1) 7,
    .rdx h0 11 4 (.v 1), .scan h0 11 false 4 (.v 1), .bcast h0 4 (.v 1) (.v 2)], i.wf = false := by decide +kernel

/-- Families 9 and A: register alignment, ADDR classes, scopes, hints, operations (09). -/
theorem test_wf_memory : ∀ i ∈ [
    Instr.ld (hf 1) .b64 5 (.v 8) 0 0 0, .ld (hf 1) .b128 6 (.v 8) 0 0 0, .ld (hf 1) .b32 4 (.v 9) 0 0 0,
    .ld (hf 1) .b32 4 (.v 8) 0 12 0, .ld (hf 1) .b32 4 (.v 8) 0 0 3, .ldu (hf 1) .b32 4 (.v 8) 0 0 0,
    .ldk (hf 1) .b32 4 (.lit 0) 0, .ldl (hf 1) .b64 5 (.v 8) 0, .ldb (hf 1) .b128 2 (.v 8) 0 false false,
    .st h0 .b64 5 (.v 8) 0 0, .st h0 .b32 4 (.imm 0) 0 0, .st h0 .b32 4 (.v 8) 0 3, .stu h0 .b32 4 (.v 8) 0 0,
    .stb h0 .b64 3 (.v 8) 0 false, .stl h0 .b128 2 (.v 8) 0, .pref h0 true (.sp .time) 0, .fillb h0 true 4 (.v 8) 0,
    .atom (hf 1) ⟨11, false, 0, 4, .v 8, 0, 0⟩, .atom (hf 1) ⟨10, true, 0, 4, .v 8, 0, 0⟩,
    .atom (hf 1) ⟨0, true, 0, 5, .v 8, 0, 0⟩, .atom (hf 1) ⟨0, false, 0, 4, .v 9, 0, 0⟩, .atomb (hf 1) ⟨0, false, 0, 4, .v 8, 0, 13⟩,
    .red h0 ⟨8, false, 0, 4, .v 8, 0, 0⟩, .red h0 ⟨9, false, 0, 4, .v 8, 0, 0⟩, .red h0 ⟨0, false, 1, 4, .v 8, 0, 0⟩,
    .ldsub (hf 1) false 4 (.imm 0) 0], i.wf = false := by decide +kernel

/-- Families B and C: blocks, counters, scopes, records, matrix fields (11, 12, 14). -/
theorem test_wf_asynchronous : ∀ i ∈ [
    Instr.copy h0 false false 0 0 false (.v 4) (.s 2), .copy h0 false false 0 0 false (.v 8) (.imm 0),
    .copy h0 false false 0 14 false (.v 8) (.s 2), .copy h0 true true 0 0 false (.v 8) (.s 2),
    .copy h0 true false 0 0 true (.v 8) (.s 2), .copy h0 false true 0 0 true (.v 8) (.s 2),
    .copy h0 false false 1 0 false (.v 8) (.s 2), .copyl h0 0 (.v 3) (.s 2), .copyl h0 0 (.s 124) (.s 2),
    .copym h0 false 0 0 (.v 8) (.s 2), .ctradd h0 ⟨true, 128, .s 8, 0, 0⟩, .ctradd h0 ⟨false, 5, .s 8, 0, 0⟩,
    .ctrwait h0 ⟨false, 4, .imm 0, 0, 0⟩, .ctrrd (hf 1) ⟨false, 4, .s 8, 0, 12⟩, .fork h0 (.lit 0) 0, .rdv h0 (.v 3) 0,
    .objreq h0 3 0 (.v 2) (.s 2), .objreq h0 0 0 (.lit 0) (.s 2), .rsv h0 0 2, .obld (hf 1) 0 4 (.sp .lane) 0 0,
    .obld (hf 1) 0 4 (.v 8) 0 12, .obst h0 0 4 (.imm 0) 0, .mma h0 ⟨1, false, 0, 0, 1, false, false, 0, 0, 0⟩,
    .mma h0 ⟨7, false, 0, 0, 1, false, false, 0, 0, 0⟩, .mmaz h0 ⟨2, false, 0, 0, 1, true, false, 0, 0, 0⟩,
    .mmaz h0 ⟨2, false, 0, 0, 0, true, false, 0, 0, 1⟩, .accrd (hf 1) 3 4 (.v 1) (.v 2) 0, .accrd (hf 1) 2 5 (.v 1) (.v 2) 0,
    .accwr h0 true 0 (.v 1) (.v 2) (.v 3), .accwr h0 false 0 (.v 1) (.v 2) (.s 4), .buspub h0 0 0 0 false, .bussub h0 0 0],
    i.wf = false := by decide +kernel

/-- Families D to F: scopes, path masks, source classes, streams, CSR numbers (14, 17, 18, 21). -/
theorem test_wf_system : ∀ i ∈ [
    Instr.fence h0 false 12, .rel h0 15, .pfence h0 0x10 4, .pfence h0 0x11 3, .acq h0 true 3, .acq h0 false 12,
    .sleep h0 (.v 1) 0, .estream h0 1 (.v 2) (.s 4), .estream h0 1 (.s 2) (.b 0), .ereduce h0 3 0 1 none, .ereduce h0 0 0 0 none,
    .ereduce h0 0 0 1 (some ⟨.imm 0, 0⟩), .ereduce h0 0 0 1 (some ⟨.s 2, 12⟩), .ebcast h0 0 0 none,
    .ecopy h0 0 1 (some ⟨.s 3, 0⟩), .egemv h0 false (.s 3) none, .routeCnt h0 (.v 2) none, .esig h0 0 (.s 1),
    .csrr h0 3 0, .csrr h0 2 7, .csrr h0 2 20, .csrw h0 0 (.s 2), .csrw h0 2 (.s 3), .tlbinv h0 (.page 1 3),
    .tlbinv h0 (.gpa 1 5), .presp h0 (.v 1), .haltc h0 (.sp .lane)], i.wf = false := by decide +kernel

/-- The ranges of events' operands: at each bound and one past it. -/
theorem test_wf_events :
    (∀ i ∈ [Instr.publishPoll 7 3, .cellPlace 7, .tierpoolWrite .pf 7 7 0, .dependencePoll 0 3, .ilmapWrite .fw 3 0,
      .bscWrite .fw 65535 0, .engineTrap 15, .killComplete 255, .translationWalk 255 0 5 true, .pageRequestRecord 32,
      .clauseStart 399, .slotFill 383, .pushLand 7 0, .cbalWindow 7 5, .cbalHoldEnd 7 11, .linkFault 15 5, .packetAccept 0 3,
      .packetPerform 24 0 0, .barrierWaveRelease 0 8, .izeusLinkFail 31, .boundViolation 5 0 0 0], i.wf = true) ∧
    ∀ i ∈ [Instr.publishPoll 8 3, .publishPoll 7 4, .cellPlace 8, .tierpoolWrite .pf 8 7 0, .tierpoolWrite .pf 7 8 0,
      .dependencePoll 0 4, .ilmapWrite .fw 4 0, .bscWrite .fw 65536 0, .engineTrap 16, .killComplete 256,
      .translationWalk 256 0 5 true, .translationWalk 0 0 6 true, .pageRequestRecord 33, .clauseStart 400, .slotFill 384,
      .pushLand 8 0, .cbalWindow 8 5, .cbalWindow 7 6, .cbalHoldEnd 7 12, .linkFault 16 5, .linkFault 15 6, .packetAccept 0 4,
      .packetPerform 25 0 0, .barrierWaveRelease 0 9, .izeusLinkFail 32, .boundViolation 0 0 0 0, .boundViolation 6 0 0 0],
      i.wf = false := by decide +kernel

/-! ### One step -/

/-- The word of NOP, and the package after reset with it laid where the next step fetches it. -/
def nopWord : Nat := 0x0007F00000000000
def base : State := State.reset.withFetchWord 64 nopWord
def g0 : Group := base.laidGroup 0 nopWord

/-- The state whose next step runs a word in slot 0, with the group changed by `f`. -/
def at1 (w : Nat) (f : Group → Group) : State :=
  let s := State.reset.withFetchWord 64 w
  s.putGroup 0 (f (State.reset.laidGroup 0 w))

/-- The group after that step. -/
def run1 (w : Nat) (f : Group → Group) : Option Group :=
  match step (at1 w f) with
  | .next t => t.group? 0
  | _ => none

/-- v and s registers behind the step. -/
def outV (w : Nat) (f : Group → Group) (n L : Nat) : Option Word := (run1 w f).map fun g => g.vreg n L
def outS (w : Nat) (f : Group → Group) (n : Nat) : Option Word := (run1 w f).map fun g => g.sreg n

/-- v registers of lane 0. -/
def vs (l : List (Nat × Word)) (g : Group) : Group := l.foldl (fun g x => g.setV x.1 0 x.2) g
/-- s registers. -/
def ss (l : List (Nat × Word)) (g : Group) : Group := l.foldl (fun g x => g.setS x.1 x.2) g
/-- A group of `n` lanes. -/
def lanesOf (n : Nat) (g : Group) : Group :=
  { g with wids := List.range n, pc := (List.range n).map fun L => (L, (aget g.pc 0).getD 0) }
/-- One v register, lane by lane. -/
def vl (n : Nat) (l : List Word) (g : Group) : Group := (l.zip (List.range l.length)).foldl (fun g x => g.setV n x.2 x.1) g

/-- The word of a well-formed instruction. -/
def w1 (i : Instr) : Nat := ((encode i).headD 0).toNat


/-- Results in v4 of lane 0, and the LSTAT bits, of a word on v registers. -/
def res (i : Instr) (l : List (Nat × Word)) : Option (Word × Word) := (run1 (w1 i) (vs l)).map fun g => (g.vreg 4 0, g.lstatOf 0)

/-- The encoder writes the FMUL of 08's example clause, and its step gives 7.5 (07). -/
theorem test_fmul : w1 (.fmul ⟨false, 7, 15, false, 1⟩ ⟨0, 0, 4, .v 2, .src (.v 3)⟩) = 0x4207F20100200C00 ∧
    res (.fmul ⟨false, 7, 15, false, 1⟩ ⟨0, 0, 4, .v 2, .src (.v 3)⟩) [(2, 0x40400000), (3, 0x40200000)] =
      some (0x40F00000, 0) := by decide +kernel

/-- The division table of 06 R151. -/
theorem test_divisions : ∀ x ∈ ([
    (Instr.idiv, 0xFFFFFFF9, 2, 0xFFFFFFFD, 0), (.irem, 0xFFFFFFF9, 2, 0xFFFFFFFF, 0), (.idiv, 0, 0, 0x7FFFFFFF, lsDZ),
    (.idiv, 0xFFFFFFF9, 0, 0x80000000, lsDZ), (.udiv, 0xFFFFFFF9, 0, 0xFFFFFFFF, lsDZ), (.urem, 5, 0, 5, lsDZ),
    (.idiv, 0x80000000, 0xFFFFFFFF, 0x80000000, lsOV), (.irem, 0x80000000, 0xFFFFFFFF, 0, lsOV)] :
      List ((Head → Body2 → Instr) × Word × Word × Word × Word)),
    res (x.1 h0 ⟨false, 0, 4, .v 1, .src (.v 2)⟩) [(1, x.2.1), (2, x.2.2.1)] = some (x.2.2.2.1, x.2.2.2.2) := by
  decide +kernel

/-- LUT3's example (06 R155) and BPERM's (06 R156). -/
theorem test_bits :
    res (.lut3 h0 ⟨false, 4, .v 5, 0xCA, 6⟩) [(4, 0xFF00FF00), (5, 0x12345678), (6, 0xABCDEF01)] = some (0x12CD5601, 0) ∧
    res (.bperm h0 ⟨false, 0, 4, .v 1, .v 2, .v 3⟩) [(1, 0x44332211), (2, 0x88776655), (3, 0x0F130A04)] =
      some (0xFF000055, 0) := by decide +kernel

/-- IADD saturates and wraps (06 R149): 2^31 − 1 plus 1. -/
theorem test_add :
    res (.iadd h0 ⟨false, 0, 4, .v 1, .imm 1⟩) [(1, 0x7FFFFFFF)] = some (0x80000000, 0) ∧
    res (.iadd h0 ⟨false, 1, 4, .v 1, .imm 1⟩) [(1, 0x7FFFFFFF)] = some (0x7FFFFFFF, lsSAT) := by decide +kernel

/-- Rows of 08 R210's table. -/
theorem test_convert : ∀ x ∈ ([
    (.f2i h0 ⟨0, false, 0, 10, 0, 4, .v 1⟩, 0x40200000, 2, lsNX),
    (.f2i h0 ⟨3, false, 0, 10, 0, 4, .v 1⟩, 0xC0200000, 0xFFFFFFFD, lsNX),
    (.f2i h0 ⟨0, false, 0, 10, 0, 4, .v 1⟩, 0x4F32D05E, 0x7FFFFFFF, lsNV),
    (.f2i h0 ⟨0, false, 0, 12, 0, 4, .v 1⟩, 0xBECCCCCD, 0, lsNX),
    (.f2i h0 ⟨0, false, 0, 12, 0, 4, .v 1⟩, 0xBF800000, 0, lsNV),
    (.f2i h0 ⟨0, false, 0, 9, 0, 4, .v 1⟩, 0x7FC00000, 0, lsNV),
    (.f2f h0 ⟨0, false, 0, 6, 0, 4, .v 1⟩, 0x40A00000, 6, lsNX),
    (.f2f h0 ⟨0, false, 3, 0, 2, 4, .v 1⟩, 0x007E0000, 0x43E00000, 0),
    (.i2i h0 ⟨0, true, 10, 8, 0, 4, .v 1⟩, 300, 0x7F, lsSAT),
    (.i2i h0 ⟨0, false, 10, 12, 0, 4, .v 1⟩, 300, 0x2C, 0)] : List (Instr × Word × Word × Word)),
    res x.1 [(1, x.2.1)] = some (x.2.2.1, x.2.2.2) := by decide +kernel

/-- Rounding to E4M3 at both ends (07 R185's table). -/
theorem test_e4m3 : ∀ x ∈ ([
    (0x43FA0000, 0x7E, lsOF ||| lsNX), (0x3A83126F, 0x01, lsUF ||| lsNX), (0xBA800000, 0x80, lsUF ||| lsNX),
    (0x43980000, 0x7A, lsNX), (0x7F800000, 0x7E, lsNV ||| lsNX)] : List (Word × Nat × Word)),
    roundTo e4m3 .rne (f32 x.1) = x.2 := by decide +kernel

/-- E8M0 as a target (07 R184's examples). -/
theorem test_e8m0 :
    e8m0Round .rne (ofInt 3) = (0x80, lsNX) ∧ e8m0Round .rne (ofInt 6) = (0x82, lsNX) ∧
    e8m0Round .ru (ofInt (-12)) = (0x83, lsNX) := by decide +kernel

/-- SCALEQ and QUANT of 08's examples. -/
theorem test_quantise :
    (outV (w1 (.scaleq h0 3 4 (.v 1))) (vl 1 [0x41A00000, 0x3FA66666, 0xC0E00000, 0x3E800000] ∘ lanesOf 4) 4 3 = some 0x81 ∧
    outV (w1 (.scaleq h0 6 4 (.v 1))) (vl 1 [0x42C00000, 0x3F800000, 0x3E99999A, 0xC2C80000] ∘ lanesOf 4) 4 0 =
      some 0x857F) ∧
    (res (.quant h0 3 4 (.v 1) (.v 2)) [(1, 0x41A00000), (2, 0x81)] = some (6, lsNX) ∧
    res (.quant h0 3 4 (.v 1) (.v 2)) [(1, 0x3FA66666), (2, 0x81)] = some (1, lsUF ||| lsNX) ∧
    res (.quant h0 3 4 (.v 1) (.v 2)) [(1, 0xC0E00000), (2, 0x81)] = some (0xC, lsNX)) ∧
    (res (.quant h0 6 4 (.v 1) (.v 2)) [(1, 0x42C00000), (2, 0x857F)] = some (0xB, 0) ∧
    res (.quant h0 6 4 (.v 1) (.v 2)) [(1, 0x3E99999A), (2, 0x857F)] = some (1, lsUF ||| lsNX) ∧
    res (.quant h0 6 4 (.v 1) (.v 2)) [(1, 0xC2C80000), (2, 0x857F)] = some (0xF, lsNX)) := by decide +kernel

/-- RSQ of 3.0, to 12 bits and in full (08's Newton example). -/
theorem test_rsq :
    res (.rsq h0 true 4 (.v 1)) [(1, 0x40400000)] = some (0x3F13D000, lsNX) ∧
    res (.rsq h0 false 4 (.v 1)) [(1, 0x40400000)] = some (0x3F13CD3A, lsNX) := by decide +kernel

/-- The summation orders of 06 R171's table, with lanes 0 to 3 and with lane 1 off. -/
theorem test_lane_sums :
    (outV (w1 (.rdx h0 1 4 (.v 1))) (vl 1 [0x4B800000, 0x3F800000, 0x3F800000, 0x3F800000] ∘ lanesOf 4) 4 2 =
      some 0x4B800001 ∧
    outV (w1 (.scan h0 1 false 4 (.v 1))) (vl 1 [0x4B800000, 0x3F800000, 0x3F800000, 0x3F800000] ∘ lanesOf 4) 4 3 =
      some 0x4B800000) ∧
    (outV (w1 (.rdx (hg 1) 1 4 (.v 1)))
      (fun g => (vl 1 [0x4B800000, 0x3F800000, 0x3F800000, 0x3F800000] (lanesOf 4 g)).setPred 1 0b1101) 4 0 =
      some 0x4B800001 ∧
    outV (w1 (.rdx (hg 1) 1 4 (.v 1)))
      (fun g => (vl 1 [0x4B800000, 0x3F800000, 0x3F800000, 0x3F800000] (lanesOf 4 g)).setPred 1 0b1101) 4 1 =
      some 0) := by decide +kernel

/-- The accumulator of 07's worked example: the cell, and its readout as FP32. -/
theorem test_accumulator :
    [FVal.fin false 1 24, .fin false 1 0, .fin false 1 (-30), sumProducts [(ofInt 6, ofInt 6), (ofInt (-6), ofInt 6)]].foldl
      accAdd 0 = 0x42E00000200000 ∧
    roundTo fp32 .rne (acc56.decode 0x42E00000200000) = (0x4B800000, lsNX) := by decide +kernel

/-- BRA past two clauses where p1 is false (05's divergent branch): lanes 0 and 1 go on, lanes 2 and 3 leave. -/
theorem test_bra :
    ((run1 0x0109F00000000005 fun g => (lanesOf 4 g).setPred 1 0b0011).map fun g => (List.range 4).map (aget g.pc)) =
      some [some (g0.nextClause), some g0.nextClause, some (g0.clauseAddr + 40), some (g0.clauseAddr + 40)] := by
  decide +kernel

/-- Bytes of tables that map the first 8 GiB onto themselves with every right, as C memory: the entry of level 0 at 0 and
the leaf of level 1 at 0x8000. -/
def tables : List Host.Cell := [(1, 0x80), (7, 0x80), (0x8007, 0xCE)]

/-- A load issues, and its result lands with its flag (09 R238, R239): two bytes, sign-extended, on a page
of kind U. -/
def loaded : Option (Word × Nat) :=
  let s := at1 (w1 (.ld (hf 3) .i16 4 (.v 8) 2 0 0)) (vs [(8, 0x10004), (9, 0)])
  match step { s with mem := [(1, 0x80), (7, 0x80), (0x8007, 0xEE), (0x10006, 0x34), (0x10007, 0x92)] } with
  | .next t =>
    match exec (.resultLands 0 (((t.group? 0).bind fun g => g.pend.head?.map Pend.tok).getD 0)) t with
    | .next r => (r.group? 0).map fun g => (g.vreg 4 0, g.flag 3)
    | _ => none
  | _ => none
theorem test_load : loaded = some (0xFFFF9234, 0) := by decide +kernel

/-- A store enters the group's buffer with its lanes' bytes, lowest byte first (05 R124); memory has not changed. -/
def buffered : Option (List (Option Byte) × Byte) :=
  match step { at1 (w1 (.st h0 .b16 4 (.v 8) 1 0)) (vs [(4, 0x12345678), (8, 0x10004), (9, 0)]) with mem := tables } with
  | .next t => (t.group? 0).map fun g => ([0x10004, 0x10005, 0x10006, 0x10007].map (bufByte g.buf false), t.byte 0x10005)
  | _ => none
theorem test_store : buffered = some ([none, some 0x78, some 0x56, none], 0) := by decide +kernel

/-- The group behind a step with a trap handler at 0x40000, in a supervisor context where `sup`. -/
def handled (w : Nat) (sup : Bool) (f : Group → Group) : Option Group :=
  match step (((at1 w f).setReg (.tvec 0) 0x40001).setReg (.ctxctl 0) (if sup then 3 else 1)) with
  | .next t => t.group? 0
  | _ => none

/-- A misaligned 8-byte basin load takes the alignment trap: the handler is entered at TVEC + 0x40 times its cause
(21 R389, R394). -/
theorem test_trap_entry :
    ((handled (w1 (.ldb (hf 2) .b64 4 (.v 8) 0 false false)) false (vs [(8, 4)])).map fun g =>
      (aget g.pc 0, g.intrap, g.taddr)) = some (some (BitVec.ofNat 64 (0x40000 + 0x40 * 12)), true, laidAddr) := by
  decide +kernel

/-- The interleave of 01's worked example under the three classes: stack, local address and channel. -/
theorem test_interleave :
    (let f (s : State) := (s.stackOf 0x1234567A00, s.slaOf 0x1234567A00, s.channelOf 0x1234567A00)
     [f (State.reset.setReg (.ilmap 0) 0), f (State.reset.setReg (.ilmap 0) 0x55555555),
      f (State.reset.setReg (.ilmap 0) 0xAAAAAAAA)]) =
      [(10, 0x123456700, 7), (10, 0x8D159E00, 30), (9, 0x34567A00, 26)] := by decide +kernel

/-- EREDUCE adds its sources in the order of their descriptors (14 R324's example). -/
theorem test_reduce : [0x3F800000, 0x3F800000, 0x3F800000].foldl (reduceAdd 0) 0x4B800000 = 0x4B800000 := by decide +kernel

/-- 14's four tokens on two stacks: the offsets, and the slots that PLACE gives either participant. -/
theorem test_route :
    rtOffsets 2 [4, 3, 1] 0 = [0, 2, 4] ∧
    (let ws : List Dword := [3 + 2 ^ 11 * 2, 0, 0] ++ List.replicate 20 0
     let ws := (ws.set 0 (3 + 2 ^ 11 * 2 + 2 ^ 32 * 2))
     let go (b ch : List Nat) (lo : Nat) :=
       ((rtTriples 2 lo ch).foldl (placeOne ws [0, 2, 4] [0, 0, 0]) ⟨b, 0, [], [], []⟩).inv
     (go [0, 0, 0] [0, 1, 0, 2] 0, go [2, 1, 1] [0, 1, 1, 0] 2)) =
      ([0, 2, 1, 4], [0xFFFFFFFF, 3, 0xFFFFFFFF, 0xFFFFFFFF]) := by decide +kernel

/-- Division by zero under .trap takes the arithmetic trap with DZ set (06 R151). -/
theorem test_div_trap :
    ((handled (w1 (.udiv h0 ⟨false, 1, 4, .v 1, .src (.v 2)⟩)) false (vs [(1, 5)])).map fun g =>
      (g.lstatOf 0, g.vreg 4 0, aget g.pc 0)) = some (lsDZ, 0, some (BitVec.ofNat 64 (0x40000 + 0x40 * 10))) := by
  decide +kernel

/-- CSRW to a scratch register and CSRR of it (21 R403); without privilege the form takes the privilege trap. -/
theorem test_csr :
    ((handled (w1 (.csrw h0 0x10 (.s 20))) true (ss [(20, 0x1234), (21, 0x5678)])).map fun g => g.scratch 0) =
      some 0x567800001234 ∧
    ((handled (w1 (.csrr h0 10 0x10)) true (fun g => { g with tscr := [(0, 0x567800001234)] })).map fun g =>
      (g.sreg 10, g.sreg 11)) = some (0x1234, 0x5678) ∧
    ((handled (w1 (.csrw h0 0x10 (.s 20))) false id).map fun g => aget g.pc 0) =
      some (some (BitVec.ofNat 64 (0x40000 + 0x40 * 3))) := by decide +kernel

/-- BREV, POPC, CLZ and CTZ on words counted by hand (06 R152). -/
theorem test_counts :
    res (.popc h0 ⟨false, 0, 4, .v 1⟩) [(1, 0x00F10001)] = some (6, 0) ∧
    res (.clz h0 ⟨false, 0, 4, .v 1⟩) [(1, 0x00F10001)] = some (8, 0) ∧
    res (.ctz h0 ⟨false, 0, 4, .v 1⟩) [(1, 0)] = some (32, 0) ∧
    res (.brev h0 ⟨false, 0, 4, .v 1⟩) [(1, 0x00000003)] = some (0xC0000000, 0) := by decide +kernel

/-- A scalar form adds the sign-extended immediate to an s register (06 R145). -/
theorem test_scalar : outS (w1 (.iadd h0 ⟨true, 0, 9, .s 5, .imm 0xFFFFF⟩)) (ss [(5, 3)]) 9 = some 2 := by decide +kernel

/-- NOP writes no register (05 R131). -/
theorem test_nop : (run1 nopWord id).map (fun g => (g.vregs, g.sregs)) = some ([], []) := by decide +kernel


/-- SHA-384 of "abc", the example of FIPS 180-4; a modulus that no signature is below. -/
theorem test_sha384 : sha384 [0x61, 0x62, 0x63] = BitVec.ofNat 384
    (leNat (natBE 0xCB00753F45A35E8BB5A03D699AC65007272C32AB0EDED1631A8B605A43FF5BED8086072BA1E7CC2358BAECA134C825A7 48)) := by
  decide +kernel
theorem test_rsa : rsaVerify [] 0 [] = false ∧ slhVerify [] 0 [] = false := by
  refine ⟨by decide +kernel, ?_⟩
  unfold slhVerify; rfl

/-! ### Witnesses: for each statement a state and operands that meet its hypotheses -/

/-- `State.Issues` as a check. -/
def issuesB (s : State) (u : Nat) (g : Group) (h : Head) : Bool :=
  s.cur == u && s.group? u == some g && g.clause.isSome &&
    !(decide (h.setf.toNat ≤ 11) && g.flag h.setf.toNat == 63 && g.active h != 0)

theorem issues_of {s : State} {u : Nat} {g : Group} {h : Head} (x : issuesB s u g h = true) : s.Issues u g h := by
  simp only [issuesB, Bool.and_eq_true, beq_iff_eq, Bool.not_eq_true', Bool.and_eq_false_iff, decide_eq_false_iff_not] at x
  obtain ⟨⟨⟨a, b⟩, c⟩, d⟩ := x
  refine ⟨a, b, c, fun ⟨p, q, r⟩ => ?_⟩
  rcases d with (d | d) | d
  · exact d p
  · simp [q] at d
  · exact r (by simpa [bne] using d)

/-- The issuing state with its group changed by `f`. -/
def sF (f : Group → Group) : State := base.putGroup 0 (f g0)
/-- The group off under p1, and in guard p1 only lane 0. -/
def hOff : Head := hg 1

theorem issues_base : base.Issues 0 g0 h0 := issues_of (by decide +kernel)

theorem witness_AddSubtract : base.Issues 0 g0 h0 ∧ (2 : BitVec 2) ≠ 3 ∧ (1 : BitVec 2).toNat ≤ 1 :=
  ⟨issues_base, by decide, by decide⟩
theorem witness_Products : base.Issues 0 g0 h0 := issues_base
theorem witness_CarryForms : base.Issues 0 g0 h0 ∧ base.Issues 0 g0 hOff := ⟨issues_base, issues_of (by decide +kernel)⟩
/-- A division whose lane divides by zero under .trap, and one that does not trap. -/
theorem witness_Divisions : base.Issues 0 g0 h0 ∧ divTraps base 0 g0 h0 ⟨false, 1, 4, .v 1, .src (.v 2)⟩ ∧
    ¬divTraps base 0 g0 h0 ⟨false, 1, 4, .v 1, .imm 1⟩ ∧ (1 : BitVec 2).toNat ≤ 1 :=
  ⟨issues_base, ⟨by decide, 0, by decide +kernel⟩, by rintro ⟨-, L, -, -, -, h⟩; exact absurd h (by show ¬((1 : BitVec 20).signExtend 32 = 0); decide), by decide⟩
theorem witness_BitwiseAndMoves : base.Issues 0 g0 h0 := issues_base
theorem witness_Select : base.Issues 0 g0 h0 ∧
    decodeWord 0x2807F00040200C01 = .ok (.sel h0 ⟨false, 1, .v 2, .v 3, 1⟩) := ⟨issues_base, by decide +kernel⟩
/-- An index at VREGS − 1, at VREGS, and one past it. -/
theorem witness_StatusAndIndexedMoves : base.Issues 0 g0 h0 ∧ ¬movxBad base 0 g0 h0 (.lit 0) (.imm 0) ∧
    (sF (ss [(4, 511)])).Issues 0 (ss [(4, 511)] g0) h0 ∧
    ¬movxBad (sF (ss [(4, 511)])) 0 (ss [(4, 511)] g0) h0 (.s 4) (.imm 0) ∧
    movxBad (sF (ss [(4, 511)])) 0 (ss [(4, 511)] g0) h0 (.s 4) (.imm 1) := by
  refine ⟨issues_base, ?_, issues_of (by decide +kernel), ?_, 0, by decide +kernel⟩ <;>
    · rintro ⟨L, hL, h⟩; revert h; revert hL; revert L; decide +kernel
theorem witness_Shifts : base.Issues 0 g0 h0 ∧ (1 : BitVec 2).toNat ≤ 1 := ⟨issues_base, by decide⟩
theorem witness_Bitfields : base.Issues 0 g0 h0 ∧ (1 : BitVec 2).toNat ≤ 1 := ⟨issues_base, by decide⟩
theorem witness_ComparisonsAndPredicates : base.Issues 0 g0 h0 ∧ (5 : BitVec 3).toNat ≤ 5 := ⟨issues_base, by decide⟩
theorem witness_FloatArithmetic : base.Issues 0 g0 h0 := issues_base
theorem witness_FloatExactAndMisc : base.Issues 0 g0 h0 ∧ (FVal.fin true 3 (-1)).finite = true := ⟨issues_base, rfl⟩
/-- 1 rounds into every format under every mode without Overflow; 1 is a value of the format no further than another. -/
theorem witness_RoundToNearest : ∀ F ∈ formats, (FVal.fin false 1 0).finite = true ∧
    (∀ m : RMode, (roundTo F m (.fin false 1 0)).2 &&& lsOF = 0) ∧ (F.decode 0).finite = true ∧
    (F.decode (roundTo F .ru (.fin false 1 0)).1).finite = true := by
  intro F hF
  refine ⟨rfl, fun m => ?_, ?_, ?_⟩
  · revert F; cases m <;> decide +kernel
  · revert F; decide +kernel
  · revert F; decide +kernel
theorem witness_FloatClass : base.Issues 0 g0 h0 ∧
    decodeWord (BitVec.ofNat 64 (w1 (.fclass h0 4 (.v 1)))) = .ok (.fclass h0 4 (.v 1)) := ⟨issues_base, by decide +kernel⟩
theorem witness_PackedHalves : base.Issues 0 g0 h0 := issues_base
theorem witness_Conversions : base.Issues 0 g0 h0 := issues_base
theorem witness_PackingAndScales : base.Issues 0 g0 h0 ∧ (1 : BitVec 2).toNat ≤ 1 := ⟨issues_base, by decide⟩
/-- 2.0 for the correctly rounded functions, with a candidate of either precision; an integer and a half. -/
theorem witness_SpecialFunctions : base.Issues 0 g0 h0 ∧ (f32 0x40000000).finite = true ∧ (f32 0x40000000).rat ≠ 0 ∧
    0 < (f32 0x40000000).rat ∧ (0x3F800000 : Word).toNat % 2 ^ (24 - 12) = 0 ∧ (f32 0x3F800000).finite = true ∧
    (rcp 12 (f32 0x40000000)).2 &&& lsOF = 0 ∧ (rcp 24 (f32 0x40000000)).2 &&& lsOF = 0 ∧
    (∃ k : ℤ, (FVal.fin true 3 0).rat = k) ∧ ∃ k : ℤ, (FVal.fin false 3 (-1)).rat = k + 1 / 2 := by
  refine ⟨issues_base, by decide +kernel, ?_, ?_, by decide, by decide +kernel, by decide +kernel, by decide +kernel,
    ⟨-3, ?_⟩, 1, ?_⟩
  · rw [show f32 0x40000000 = .fin false 0x800000 (-22) from by decide +kernel]; norm_num [FVal.rat]
  · rw [show f32 0x40000000 = .fin false 0x800000 (-22) from by decide +kernel]; norm_num [FVal.rat]
  · norm_num [FVal.rat]
  · norm_num [FVal.rat]
theorem witness_LaneExchange : base.Issues 0 g0 h0 := issues_base
theorem witness_Permute : base.Issues 0 g0 h0 ∧
    decodeWord (BitVec.ofNat 64 (w1 (.perm h0 4 (.v 1) (.v 2) (.v 3)))) = .ok (.perm h0 4 (.v 1) (.v 2) (.v 3)) :=
  ⟨issues_base, by decide +kernel⟩
theorem witness_Reductions : base.Issues 0 g0 h0 := issues_base

/-- The last target below 2^56, the first at it, and an odd one. -/
def fJump (lo hi : Word) : Group → Group := vs [(8, lo), (9, hi)]
theorem witness_Branches : base.Issues 0 g0 h0 ∧ base.Issues 0 g0 hOff ∧
    (∃ L, L < 64 ∧ takes .plain g0 h0 L = true) ∧ validTarget (g0.clauseAddr + 8 * (5 : BitVec 32).signExtend 64) ∧
    ¬validTarget (g0.clauseAddr + 8 * (0x80000000 : BitVec 32).signExtend 64) ∧
    (sF (fJump 0xFFFFFFF8 0xFFFFFF)).Issues 0 (fJump 0xFFFFFFF8 0xFFFFFF g0) h0 ∧
    (∀ L, L < 64 → (fJump 0xFFFFFFF8 0xFFFFFF g0).acts h0 L →
      validTarget (src64 (sF (fJump 0xFFFFFFF8 0xFFFFFF)) 0 (fJump 0xFFFFFFF8 0xFFFFFF g0) L (.v 8))) ∧
    (sF (fJump 0 0x1000000)).Issues 0 (fJump 0 0x1000000 g0) h0 ∧
    firstBadTarget ((fJump 0 0x1000000 g0).active h0).getLsbD
      (src64 (sF (fJump 0 0x1000000)) 0 (fJump 0 0x1000000 g0) · (.v 8)) 0 := by
  refine ⟨issues_base, issues_of (by decide +kernel), ⟨0, by decide +kernel⟩, ?_, ?_, issues_of (by decide +kernel), ?_,
    issues_of (by decide +kernel), by decide, by decide +kernel, ?_, fun K hK => absurd hK (by omega)⟩
  · unfold validTarget; decide +kernel
  · unfold validTarget; decide +kernel
  · unfold validTarget Group.acts; decide +kernel
  · unfold validTarget; decide +kernel

/-- The issuing state over the tables, in a supervisor context, and with a trap handler. -/
def sM (f : Group → Group) : State := { sF f with mem := tables }
/-- The same with an S page. -/
def sS (f : Group → Group) : State := { sF f with mem := [(1, 0x80), (7, 0x80), (0x8007, 0xDE)] }
def sP (f : Group → Group) : State := (sF f).setReg (.ctxctl 0) 3
def sH (f : Group → Group) : State := (sF f).setReg (.tvec 0) 0x40001

/-- `LanesPass` and `lowestTrap` as checks. -/
def passB (ls : List Lane) : Bool := ls.all fun l =>
  match l.chk with
  | .ok ps => ps.all fun p => p.kind != .s && !p.glob
  | .trap _ _ => false
  | .fault .. => true
theorem pass_of {ls : List Lane} (h : passB ls = true) : LanesPass ls := by
  intro l hl
  have := List.all_eq_true.mp h l hl
  split at this <;> simp_all
theorem clean_of {ls : List Lane} (h : passB ls = true) (f : faultsOf ls = []) : LanesClean ls := ⟨pass_of h, f⟩
theorem lowest_of {ls : List Lane} {k : Nat} {i : Dword} (h : firstTrap ls = some (k, i)) : lowestTrap ls k i := by
  induction ls with
  | nil => simp [firstTrap] at h
  | cons l t ih =>
    cases hc : l.chk with
    | trap c j =>
      simp [firstTrap, hc] at h
      exact ⟨[], l, t, rfl, by rw [hc, h.1, h.2], by simp⟩
    | ok p =>
      obtain ⟨pre, m, post, e, x, y⟩ := ih (by simpa [firstTrap, hc] using h)
      exact ⟨l :: pre, m, post, by rw [e]; rfl, x, by simp [hc]; exact y⟩
    | fault a b c d =>
      obtain ⟨pre, m, post, e, x, y⟩ := ih (by simpa [firstTrap, hc] using h)
      exact ⟨l :: pre, m, post, by rw [e]; rfl, x, by simp [hc]; exact y⟩

/-- A lane at a depth, with one entry on its stack. -/
def fDepth (n e : Nat) (a : Dword) (g : Group) : Group :=
  { g with depth := [(0, n)], rstack := asetD 0 [] (64 * e) a }

/-- The same with the thread-local bytes at the end of the address range. -/
def fHigh (n : Nat) (g : Group) : Group := { fDepth n 0 0 g with tlsBase := 0xFFFFFFFFFFFFFF }

/-- CALL at depth 0, at the deepest that 4096 thread-local bytes hold (519), one past it, and to a bad target; a spill that
traps, one without a translation, and one to an S page. -/
theorem witness_CallReturn_call :
    base.Issues 0 g0 h0 ∧ firstBadTarget (g0.active h0).getLsbD (fun _ => g0.clauseAddr + 4) 0 ∧
    lowestTrap [stackLane (sM (fHigh 8)) 0 (fHigh 8 g0) accStore 0 0] causeForm 0xFFFFFFFFFFFFFF ∧
    (firstTrap [stackLane (sF (fDepth 8 0 0)) 0 (fDepth 8 0 0 g0) accStore 0 0] = none ∧
      faultsOf [stackLane (sF (fDepth 8 0 0)) 0 (fDepth 8 0 0 g0) accStore 0 0] ≠ []) ∧
    (firstTrap [stackLane (sS (fDepth 8 0 0)) 0 (fDepth 8 0 0 g0) accStore 0 0] = none ∧
      faultsOf [stackLane (sS (fDepth 8 0 0)) 0 (fDepth 8 0 0 g0) accStore 0 0] = [] ∧
      anyS [stackLane (sS (fDepth 8 0 0)) 0 (fDepth 8 0 0 g0) accStore 0 0] = true) ∧
    anyS [stackLane (sM (fDepth 519 0 0)) 0 (fDepth 519 0 0 g0) accStore 511 0] = false ∧
    (sM (fDepth 519 0 0)).Issues 0 (fDepth 519 0 0 g0) h0 ∧
    (∀ L, L < 64 → (fDepth 519 0 0 g0).acts h0 L → 8 ≤ (fDepth 519 0 0 g0).depthOf L →
      8 * ((fDepth 519 0 0 g0).depthOf L - 7) ≤ (fDepth 519 0 0 g0).tlsb) ∧
    firstTrap [stackLane (sM (fDepth 519 0 0)) 0 (fDepth 519 0 0 g0) accStore 511 0] = none ∧
    faultsOf [stackLane (sM (fDepth 519 0 0)) 0 (fDepth 519 0 0 g0) accStore 511 0] = [] ∧
    (bufStore [] (storeBytes (fun _ => natLE 0 8) [stackLane (sM (fDepth 519 0 0)) 0 (fDepth 519 0 0 g0) accStore 511 0])
      [] []).isSome = true ∧
    (sM (fDepth 520 0 0)).Issues 0 (fDepth 520 0 0 g0) h0 ∧
    ¬(∀ L, L < 64 → (fDepth 520 0 0 g0).acts h0 L → 8 ≤ (fDepth 520 0 0 g0).depthOf L →
      8 * ((fDepth 520 0 0 g0).depthOf L - 7) ≤ (fDepth 520 0 0 g0).tlsb) := by
  refine ⟨issues_base, ⟨by decide, by decide +kernel, ?_, fun K hK => absurd hK (by omega)⟩, lowest_of (by decide +kernel),
    ⟨by decide +kernel, by decide +kernel⟩, ⟨by decide +kernel, by decide +kernel, by decide +kernel⟩, by decide +kernel,
    issues_of (by decide +kernel), ?_, by decide +kernel, by decide +kernel, by decide +kernel, issues_of (by decide +kernel), ?_⟩
  · unfold validTarget; decide +kernel
  all_goals unfold Group.acts; decide +kernel


/-- RET at depth 1 with a good and a bad return address, at depth 9 with a refill, and at depth 0. -/
theorem witness_CallReturn_ret :
    ((sF (fDepth 1 0 0x10008)).Issues 0 (fDepth 1 0 0x10008 g0) h0 ∧
      (∀ L, L < 64 → (fDepth 1 0 0x10008 g0).acts h0 L → 0 < (fDepth 1 0 0x10008 g0).depthOf L) ∧
      ∀ L, L < 64 → (fDepth 1 0 0x10008 g0).acts h0 L →
        validTarget ((fDepth 1 0 0x10008 g0).stackAt L ((fDepth 1 0 0x10008 g0).depthOf L - 1))) ∧
    ((sF (fDepth 1 0 4)).Issues 0 (fDepth 1 0 4 g0) h0 ∧
      firstBadTarget ((fDepth 1 0 4 g0).active h0).getLsbD
        (fun L => (fDepth 1 0 4 g0).stackAt L ((fDepth 1 0 4 g0).depthOf L - 1)) 0) ∧
    ((sM (fDepth 9 8 0x10008)).Issues 0 (fDepth 9 8 0x10008 g0) h0 ∧
      firstTrap [stackLane (sM (fDepth 9 8 0x10008)) 0 (fDepth 9 8 0x10008 g0) accLoad 0 0] = none ∧
      faultsOf [stackLane (sM (fDepth 9 8 0x10008)) 0 (fDepth 9 8 0x10008 g0) accLoad 0 0] = [] ∧
      (sM (fDepth 9 8 0x10008)).sent = [] ∧
      ((sM (fDepth 9 8 0x10008)).refillOf 0 (fDepth 9 8 0x10008 g0) []
        (stackLane (sM (fDepth 9 8 0x10008)) 0 (fDepth 9 8 0x10008 g0) accLoad 0 0)).2 = none) ∧
    ¬(∀ L, L < 64 → g0.acts h0 L → 0 < g0.depthOf L) := by
  refine ⟨⟨issues_of (by decide +kernel), ?_, ?_⟩, ⟨issues_of (by decide +kernel), by decide, by decide +kernel, ?_,
    fun K hK => absurd hK (by omega)⟩, ⟨issues_of (by decide +kernel), by decide +kernel, by decide +kernel, by decide +kernel,
    by decide +kernel⟩, ?_⟩ <;> simp only [Group.acts, validTarget] <;> decide +kernel

/-- A group whose threads have exited, and one whose store is on its way. -/
theorem witness_ExitsAndTraps :
    base.Issues 0 g0 h0 ∧ base.Issues 0 g0 hOff ∧ g0.active h0 ≠ 0 ∧ g0.active hOff = 0 ∧
    ((sF id).setReg (.ctxctl 0) 5).Issues 0 g0 h0 ∧ ((sF id).setReg (.ctxctl 0) 5).ctxBpen g0.ctx = true ∧
    g0.wait ≠ .halted ∧ base.ctxBpen g0.ctx = false ∧
    ((sF fun g => { g with wait := .exit, pc := [] }).group? 0 = some { g0 with wait := .exit, pc := [] } ∧
      g0.unacked = 0 ∧ g0.isEngine = false ∧ g0.atomicsOut = false) ∧
    ({ g0 with wait := .exit, unacked := 1 } : Group).unacked ≠ 0 := by
  refine ⟨issues_base, issues_of (by decide +kernel), by decide +kernel, by decide +kernel, issues_of (by decide +kernel), ?_⟩
  decide +kernel

/-- A trap that is delivered, one that waits for a load, a fatal one, a second one in a handler, and one without TVEC. -/
def trapRec (c : Nat) : TrapRec := ⟨c, laidAddr, 0, 0, 1⟩
def waiting : Pend := ⟨1, some 2, .ldb (hf 2) .b32 4 (.v 8) 0 false false, laidAddr, 0, 1, false, [⟨0, 0, 0, [], [], .ready⟩], [], 0, none⟩
def fWaiting (g : Group) : Group := { g with pend := [waiting], taking := some (trapRec 9) }
theorem noArrival_of {s : State} {g : Group} (h : (s.cell? g.cell).all (fun c => c.rdv.isEmpty) = true) : s.noArrival g := by
  intro c hc x hx
  rw [hc] at h
  simp [List.isEmpty_iff] at h
  simp [h] at hx
theorem witness_TrapEntry :
    ((sH id).group? 0 = some g0 ∧ g0.isEngine = false ∧ (sH id).noArrival g0 ∧ (sH id).delivers g0 (trapRec 9) ∧
      g0.restart.settled = true) ∧
    ((sH fWaiting).group? 0 = some (fWaiting g0) ∧ (fWaiting g0).restart.settled = false ∧ (fWaiting g0).settled = false) ∧
    (¬(sH id).delivers g0 (trapRec 27) ∧ fatalCause 27 = true) ∧
    (¬(sH id).delivers { g0 with intrap := true } (trapRec 9) ∧ ({ g0 with intrap := true } : Group).restart.settled = true) ∧
    ¬base.delivers g0 (trapRec 9) ∧
    ((sH fun g => { g with taking := some (trapRec 9) }).group? 0 = some { g0 with taking := some (trapRec 9) } ∧
      ({ g0 with taking := some (trapRec 9) } : Group).settled = true) ∧
    ((sH fun g => { g with late := some (trapRec 17), clause := none }).group? 0 =
      some { g0 with late := some (trapRec 17), clause := none } ∧ g0.taking = none) ∧ g0.late = none := by
  refine ⟨⟨by decide +kernel, by decide, noArrival_of (by decide +kernel), ?_, by decide +kernel⟩, ⟨by decide +kernel, by decide +kernel,
    by decide +kernel⟩, ⟨?_, by decide⟩, ⟨?_, by decide +kernel⟩, ?_, ⟨by decide +kernel, by decide +kernel⟩,
    ⟨by decide +kernel, by decide⟩, by decide⟩ <;> unfold State.delivers <;> decide +kernel

/-- With and without privilege, in a trap and out of it, the two registers that differ. -/
def fTrapped (g : Group) : Group := { g with intrap := true, shadow := some (⟨[(0, laidAddr)], 0, false⟩, trapRec 9), taddr := laidAddr }
theorem witness_PrivilegeAndTrapState :
    (base.Issues 0 g0 h0 ∧ base.groupPriv g0 = false) ∧ ((sP id).Issues 0 g0 h0 ∧ (sP id).groupPriv g0 = true) ∧
    ((sP id).Issues 0 g0 hOff ∧ g0.active hOff = 0 ∧ g0.active h0 ≠ 0 ∧ g0.isEngine = false) ∧
    (16 ≤ (16 : BitVec 5).toNat ∧ (2 : BitVec 5).toNat < 16) ∧
    ((sF fTrapped).Issues 0 (fTrapped g0) h0 ∧ (sF fTrapped).groupPriv (fTrapped g0) = true) ∧
    (∃ y ∈ [((0 : Nat), laidAddr)], y.2 = (trapRec 9).addr) ∧ ∀ y ∈ [((0 : Nat), laidAddr + 8)], y.2 ≠ (trapRec 9).addr := by
  refine ⟨⟨issues_base, by decide +kernel⟩, ⟨issues_of (by decide +kernel), by decide +kernel⟩,
    ⟨issues_of (by decide +kernel), by decide +kernel, by decide +kernel, by decide⟩, by decide,
    ⟨issues_of (by decide +kernel), by decide +kernel⟩, by decide, by decide⟩

/-! ### Witnesses: memory -/

/-- v8 and v9 as a 64-bit address. -/
def fAddr (lo : Word) : Group → Group := vs [(8, lo)]
/-- A pending entry of one lane. -/
def laneOf (ps : List Piece) (aux : BitVec 128) : LaneReq := ⟨0, 0, aux, ps, [], .ready⟩
def pendOf (i : Instr) (l : LaneReq) : Pend := ⟨1, some 2, i, laidAddr, 0, 1, false, [l], [], 0, none⟩
def fPend (p : Pend) (g : Group) : Group := { g with pend := [p] }
theorem not_drain {g : Group} (h : g.wait = .no) : ∀ n, g.wait ≠ .drain n := fun n => by rw [h]; exact nofun
/-- The lane of a virtual access of a group. -/
def vaOf (s : State) (g : Group) (acc len align : Nat) (a : Dword) : Lane :=
  ⟨0, a, 0, s.chkVa g.ctx acc (s.groupPriv g) a len align none, true⟩


/-- In privilege and a trap with a good and a bad TADDR; stores on their way; a reply (STATUS 0, FN 0, TAG 5) to the request
that has the tag, to none, and to another function. -/
def request : PageReq := ⟨7, 0, 1, 0, 0, 0x10000, 0, 0, accLoad, some 5, true⟩
def fReply (x : Word) (g : Group) : Group := ss [(6, x)] g
theorem witness_TrapReturnAndReplies :
    ((sF fTrapped).Issues 0 (fTrapped g0) h0 ∧ (sF fTrapped).groupPriv (fTrapped g0) = true ∧ (fTrapped g0).active h0 ≠ 0 ∧
      (fTrapped g0).active hOff = 0 ∧ validTarget (fTrapped g0).taddr ∧ ¬validTarget 0x100000000000000 ∧
      (fTrapped g0).shadow.isSome = true) ∧
    ((sP id).Issues 0 g0 h0 ∧ g0.intrap = false ∧ g0.unacked = 0 ∧
      (sP fun g => { g with unacked := 1 }).Issues 0 { g0 with unacked := 1 } h0) ∧
    (((sP (fReply 5)).setReg (.ctxctl 0) 3).Issues 0 (fReply 5 g0) h0 ∧
      (5 : Word).toNat / 2 ^ 16 % 2 ^ 6 = (sP (fReply 5)).ctxFn 0 ∧ (0x10005 : Word).toNat / 2 ^ 16 % 2 ^ 6 ≠ (sP (fReply 5)).ctxFn 0 ∧
      (sP (fReply 5)).ctxHyp 0 = false ∧ (5 : Word).toNat / 2 ^ 24 % 2 ^ 2 ≤ 1 ∧ 2 ≤ (0x2000005 : Word).toNat / 2 ^ 24 % 2 ^ 2 ∧
      [request].find? (fun q => q.fn == 0 && q.tag == some 5) = some request ∧ (32 : Nat) ≤ 32) := by
  refine ⟨⟨issues_of (by decide +kernel), by decide +kernel, by decide +kernel, by decide +kernel, ?_, ?_, by decide⟩,
    ⟨issues_of (by decide +kernel), by decide, by decide, issues_of (by decide +kernel)⟩,
    ⟨issues_of (by decide +kernel), by decide +kernel, by decide +kernel, by decide +kernel, by decide, by decide, by decide, by decide⟩⟩ <;>
    unfold validTarget <;> decide +kernel

/-- A load's lane that is translated, the last bytes below 2^56 (a translation fault), one past them, an S page, the last bytes
of the basin and one past them, an offset at the end of the thread-local bytes, another package's address, and a group that
issues, of a core and of an engine. -/
def fEngine (g : Group) : Group := { g with engine := some 0 }
def elsewhere : Dword := 0x8000200000010000
theorem witness_LoadsIssue :
    ((sM id).Issues 0 g0 h0 ∧ g0.wait = .no ∧ g0.active h0 ≠ 0 ∧ g0.active hOff = 0 ∧ g0.isEngine = false) ∧
    LanesPass [vaOf (sM id) g0 accLoad 8 1 0x10004] ∧ LanesPass [vaOf (sM id) g0 accLoad 8 1 0xFFFFFFFFFFFFF8] ∧
    lowestTrap [vaOf (sM id) g0 accLoad 8 1 0xFFFFFFFFFFFFF9] causeForm 0xFFFFFFFFFFFFF9 ∧
    (anyS [vaOf (sS id) g0 accLoad 8 1 0x10004] = true ∧ firstTrap [vaOf (sS id) g0 accLoad 8 1 0x10004] = none) ∧
    LanesPass [⟨0, 0x9FFFFF8, 0, chkBasin 0 0x9FFFFF8 8 8, false⟩] ∧
    lowestTrap [⟨0, 0xA000000, 0, chkBasin 0 0xA000000 8 8, false⟩] causeBasin 0xA000000 ∧
    lowestTrap [⟨0, 4, 0, chkBasin 0 4 8 8, false⟩] causeAlign 4 ∧
    lowestTrap [⟨0, 0, 0, (sM id).chkVa 0 accLoad false 4089 8 1 (some (causeTls, 4089)), true⟩] causeTls 4089 ∧
    (anyS [vaOf (sM id) g0 accLoad 8 1 elsewhere] = false ∧ firstTrap [vaOf (sM id) g0 accLoad 8 1 elsewhere] = none ∧
      ([vaOf (sM id) g0 accLoad 8 1 elsewhere].all fun l => l.pieces.all (·.glob)) = true) ∧
    ((sM fEngine).Issues 0 (fEngine g0) h0 ∧ (fEngine g0).isEngine = true ∧ (fEngine g0).wait = .no ∧
      (firstTrap [vaOf (sM fEngine) (fEngine g0) accEngRead 8 1 0x10004] = none ∧
        faultsOf [vaOf (sM fEngine) (fEngine g0) accEngRead 8 1 0x10004] = []) ∧
      faultsOf [vaOf (sF fEngine) (fEngine g0) accEngRead 8 1 0x10004] ≠ []) := by
  refine ⟨⟨issues_of (by decide +kernel), by decide +kernel⟩, pass_of ?_, pass_of ?_, lowest_of ?_, ⟨?_, ?_⟩, pass_of ?_,
    lowest_of ?_, lowest_of ?_, lowest_of ?_, ?_, issues_of ?_, ?_⟩ <;> decide +kernel

/-- A load of 8 bytes whose lane is next, and its LDU. -/
def landing (i : Instr) (n : Nat) : Pend := pendOf i (laneOf [⟨0x10008, n, false, .u⟩] 0)
theorem witness_LoadsLand : ∀ i ∈ [Instr.ld (hf 2) .b64 4 (.v 8) 0 0 0, .ldk (hf 2) .b64 4 (.v 8) 0, .ldl (hf 2) .b64 4 (.v 8) 0,
      .ldu (hf 2) .b64 4 (.s 8) 0 0 0],
    (sF (fPend (landing i 8))).group? 0 = some (fPend (landing i 8) g0) ∧ (fPend (landing i 8) g0).wait = .no ∧
    (fPend (landing i 8) g0).pend.find? (fun q => q.tok == (landing i 8).tok) = some (landing i 8) ∧
    (landing i 8).lanes = [laneOf [⟨0x10008, 8, false, .u⟩] 0] ∧
    (sF (fPend (landing i 8))).laneClear 0 (fPend (landing i 8) g0) (landing i 8) (laneOf [⟨0x10008, 8, false, .u⟩] 0) = true ∧
    (sF (fPend (landing i 8))).laneInOrder 0 (fPend (landing i 8) g0) (landing i 8) (laneOf [⟨0x10008, 8, false, .u⟩] 0) = true ∧
    (sF (fPend (landing i 8))).physOk 0x10008 8 = true ∧ 0x10008 + 8 ≤ 2 ^ 63 ∧
    (sF (fPend (landing i 8))).old = [] ∧ ((sF (fPend (landing i 8))).core (coreOf 0)).l1 = [] ∧
    ((sF (fPend (landing i 8))).core (coreOf 0)).kcache = [] ∧
    ∀ j, j < 8 → inRegs (0x10008 + j) = false ∧ (sF (fPend (landing i 8))).poisoned (0x10008 + j) = false := by
  decide +kernel

/-- A buffer with all its entries used, a translated store, a faulting one, a trap, and an S page. -/
def fFull (n : Nat) (g : Group) : Group := { g with buf := List.replicate n (.fill 0 0 true none) }
theorem witness_StoresIssue :
    (base.Issues 0 g0 h0 ∧ g0.isEngine = false ∧ g0.active h0 ≠ 0 ∧ g0.active hOff = 0) ∧
    (LanesClean [vaOf (sM id) g0 accStore 8 1 0x10004] ∧
      ∀ l ∈ [vaOf (sM id) g0 accStore 8 1 0x10004], ∀ p ∈ l.pieces, p.kind = .c) ∧
    (faultsOf [vaOf base g0 accStore 8 1 0x10004] ≠ [] ∧ firstTrap [vaOf base g0 accStore 8 1 0x10004] = none) ∧
    lowestTrap [vaOf base g0 accStore 8 1 0x100000000000000] causeForm 0x100000000000000 ∧
    (anyS [vaOf (sS id) g0 accStore 8 1 0x10004] = true ∧ firstTrap [vaOf (sS id) g0 accStore 8 1 0x10004] = none) ∧
    ((sM (fFull Config.bufferEntries)).Issues 0 (fFull Config.bufferEntries g0) h0 ∧
      Config.bufferEntries < bufUsed (fFull Config.bufferEntries g0).buf + 1 ∧
      ¬Config.bufferEntries < bufUsed (fFull (Config.bufferEntries - 1) g0).buf + 1) ∧
    (blocksOf (ofKind (storeBytes (fun _ => natLE 7 8) [vaOf (sM id) g0 accStore 8 1 0x10004]) false .c)).length = 1 ∧
    faultsOf [vaOf (sS id) g0 accStore 8 1 0x10004] = [] ∧
    ((sM fEngine).Issues 0 (fEngine g0) h0 ∧ (fEngine g0).isEngine = true ∧
      (firstTrap [vaOf (sM fEngine) (fEngine g0) accEngWrite 8 1 0x10004] = none ∧
        faultsOf [vaOf (sM fEngine) (fEngine g0) accEngWrite 8 1 0x10004] = []) ∧
      faultsOf [vaOf (sF fEngine) (fEngine g0) accEngWrite 8 1 0x10004] ≠ []) := by
  refine ⟨⟨issues_base, by decide +kernel⟩, ⟨clean_of ?_ ?_, ?_⟩, ⟨?_, ?_⟩, lowest_of ?_, ⟨?_, ?_⟩,
    ⟨issues_of ?_, ?_, ?_⟩, ?_, ?_, issues_of ?_, ?_⟩ <;> decide +kernel

/-- FILLB at the last granule of the basin, one past it, misaligned, and with a full buffer. -/
theorem witness_FillAndPrefetch :
    (base.Issues 0 g0 h0 ∧ g0.active h0 ≠ 0 ∧ g0.active hOff = 0) ∧
    (0x9FFFFF0 % 16 = 0 ∧ 0x9FFFFF0 + 16 * 1 ≤ Config.basinSize) ∧ Config.basinSize < 0x9FFFFF0 + 16 * 2 ∧ 8 % 16 ≠ 0 ∧
    Config.bufferEntries < bufUsed (fFull Config.bufferEntries g0).buf + 1 ∧
    bufUsed (fFull (Config.bufferEntries - 1) g0).buf + 1 ≤ Config.bufferEntries :=
  ⟨⟨issues_base, by decide +kernel, by decide +kernel⟩, by decide, by decide, by decide, by decide +kernel, by decide +kernel⟩

/-- A buffer with a store and a fill. -/
theorem witness_Commit :
    (sF fun g => { g with buf := [.bytes false .c [(0x10004, 1)] [] [], .fill 0 1 true none] }).group? 0 =
      some { g0 with buf := [.bytes false .c [(0x10004, 1)] [] [], .fill 0 1 true none] } ∧
    ∀ x ∈ [BufItem.bytes false .c [(0x10004, 1)] [] [], .fill 0 1 true none], ∀ k d f p, x ≠ .bytes true k d f p := by
  refine ⟨by decide +kernel, fun x hx => ?_⟩
  rcases List.mem_pair.mp hx with rfl | rfl <;> simp

/-- A store packet, a fill and an atomic, waiting and accepted; an acknowledgment behind another group's. -/
def packet (b : PBody) (acc : Bool) : Packet :=
  ⟨1, 0, 0, 0, 0, .strict, if acc then some 0 else none, acc, ⟨[], 0⟩, none, 0x10000, b, none, some 0, [], none, []⟩
def bodies : List PBody := [.write [(0x10000, 7)] [] [], .fill 0x1000 2 true, .rmw 9 true 1 2]
def sPk (p : Packet) : State := { base with packets := [p] }
/-- An acknowledgment for a unit. -/
def ackOf (unit uid : Nat) (way : List Nat) : Ack := ⟨2, unit, uid, some 1, none, ⟨way, 0⟩⟩
theorem witness_Packets :
    (∀ b ∈ bodies, (sPk (packet b false)).packets.find? (fun q => q.src == 0 && q.cls.idx == (packet b false).cls.idx &&
        !q.accepted && (sPk (packet b false)).acceptable q && (sPk (packet b false)).packetClear q) = some (packet b false) ∧
      ((sPk (packet b true)).performables 0 0)[0]? = some (packet b true) ∧ ((sPk (packet b true)).performables 0 0)[1]? = none) ∧
    (packet (.fill 0 0 true) true).seq ≠ none ∧ inRegs 0x10000 = false ∧ ([((0x10000 : Nat), (7 : Byte))].map (·.1)).Nodup ∧
    (∀ b ∈ [ackOf 5 0 [], ackOf 0 0 [7]], ¬(b.unit = 0 ∧ b.trip.way = [])) ∧
    ((ackOf 0 g0.uid []).uid = g0.uid ∧ (ackOf 0 g0.uid []).trip.way = [] ∧ base.group? 0 = some g0) ∧
    (base.physOk 0x10000 1 = true ∧ base.physOk (regEnd - 8) 1 = false ∧ (0x10000 + 8 ≤ 2 ^ 63)) ∧
    (((sPk (packet (.write [(0x10000, 7)] [] []) false)).setReg (.bsc 0) 0x001).contract 0 .strict).1 ≠ 0 ∧
    ((sPk (packet (.write [(0x10000, 7)] [] []) false)).setReg (.bsc 0) 0x001).acceptable (packet (.write [(0x10000, 7)] [] []) false) =
      true := by
  refine ⟨by decide +kernel, by decide, by decide, by decide, by decide, by decide +kernel, by decide +kernel, ?_, ?_⟩ <;>
    decide +kernel

/-- An atomic's lane that is translated, one that faults, a misaligned one, and one on an S page; the same in the basin. -/
theorem witness_AtomicsIssue :
    ((sM id).Issues 0 g0 h0 ∧ g0.wait = .no ∧ g0.active h0 ≠ 0 ∧ g0.active hOff = 0 ∧ g0.isEngine = false) ∧
    LanesClean [vaOf (sM id) g0 accAtomic 8 8 0x10008] ∧ lowestTrap [vaOf (sM id) g0 accAtomic 8 8 0x10004] causeAlign 0x10004 ∧
    (firstTrap [vaOf base g0 accAtomic 8 8 0x10008] = none ∧ faultsOf [vaOf base g0 accAtomic 8 8 0x10008] ≠ []) ∧
    LanesClean [⟨0, 0x9FFFFF8, 0, chkBasin 0 0x9FFFFF8 8 8, false⟩] ∧
    lowestTrap [⟨0, 0xA000000, 0, chkBasin 0 0xA000000 8 8, false⟩] causeBasin 0xA000000 ∧
    (anyS [vaOf (sS id) g0 accAtomic 8 8 0x10008] = true ∧ firstTrap [vaOf (sS id) g0 accAtomic 8 8 0x10008] = none ∧
      faultsOf [vaOf (sS id) g0 accAtomic 8 8 0x10008] = []) ∧
    anyS [vaOf (sM id) g0 accAtomic 8 8 0x10008] = false := by
  refine ⟨⟨issues_of (by decide +kernel), by decide +kernel⟩, clean_of ?_ ?_, lowest_of ?_, ⟨?_, ?_⟩, clean_of ?_ ?_, lowest_of ?_, ?_, ?_⟩ <;>
    decide +kernel

/-- Atomics whose lane is next: CAS on 64 bits, the sum of floats, each kind of form. -/
def bodyAtom (op : BitVec 4) (b64 : Bool) : BodyAtom := ⟨op, b64, 0, 4, .v 8, 0, 0⟩
def atomPend (i : Instr) (n : Nat) : Pend := pendOf i (laneOf [⟨0x10008, n, false, .c⟩] ((3 : Dword) ++ (5 : Dword)))
theorem witness_AtomicsLand : ∀ x ∈ [(Instr.atom (hf 2) (bodyAtom 9 true), 8), (.atomb (hf 2) (bodyAtom 9 true), 8),
      (.atom (hf 2) (bodyAtom 10 false), 4)],
    (sF (fPend (atomPend x.1 x.2))).group? 0 = some (fPend (atomPend x.1 x.2) g0) ∧
    (fPend (atomPend x.1 x.2) g0).wait = .no ∧
    (fPend (atomPend x.1 x.2) g0).pend.find? (fun q => q.tok == (atomPend x.1 x.2).tok) = some (atomPend x.1 x.2) ∧
    (sF (fPend (atomPend x.1 x.2))).laneClear 0 (fPend (atomPend x.1 x.2) g0) (atomPend x.1 x.2)
      (laneOf [⟨0x10008, x.2, false, .c⟩] ((3 : Dword) ++ (5 : Dword))) = true ∧
    (sF (fPend (atomPend x.1 x.2))).laneInOrder 0 (fPend (atomPend x.1 x.2) g0) (atomPend x.1 x.2)
      (laneOf [⟨0x10008, x.2, false, .c⟩] ((3 : Dword) ++ (5 : Dword))) = true ∧
    (sF (fPend (atomPend x.1 x.2))).physOk 0x10008 x.2 = true ∧ 0x10008 + 8 ≤ 2 ^ 63 ∧
    inRegs 0x10008 = false ∧ (sF (fPend (atomPend x.1 x.2))).poisoned 0x10008 = false ∧
    (bodyAtom 9 true).op.toNat ≤ 9 ∧ (bodyAtom 10 false).op = 10 := by decide +kernel

/-! ### Witnesses: standing loads, full bits, counters, the step -/

/-- LDSUB at a good slot, at the basin's end, misaligned and at an untranslated granule; UNSUB and SUBSTAT at either end. -/
theorem witness_SubscriptionsIssue :
    ((sM (vs [(8, 0x10010), (4, 0x9FFFFC0)])).Issues 0 (vs [(8, 0x10010), (4, 0x9FFFFC0)] g0) h0 ∧ g0.wait = .no ∧
      g0.isEngine = false ∧ g0.active h0 ≠ 0 ∧ g0.active hOff = 0) ∧
    LanesClean (markShared true [ldsubLane (sM (vs [(8, 0x10010), (4, 0x9FFFFC0)])) 0 (vs [(8, 0x10010), (4, 0x9FFFFC0)] g0)
      true 4 (.v 8) 0 0]) ∧
    lowestTrap (markShared true [ldsubLane (sM (vs [(8, 0x10010), (4, 0xA000000)])) 0 (vs [(8, 0x10010), (4, 0xA000000)] g0)
      true 4 (.v 8) 0 0]) causeBasin 0xA000000 ∧
    lowestTrap [(⟨0, 8, 0, chkBasin 0 8 16 16, false⟩ : Lane)] causeAlign 8 ∧
    firstTrap [(⟨0, 0x9FFFFF0, 0, chkBasin 0 0x9FFFFF0 16 16, false⟩ : Lane)] = none ∧
    (anyS (markShared true [ldsubLane (sM (vs [(8, 0x10010), (4, 0x9FFFFC0)])) 0 (vs [(8, 0x10010), (4, 0x9FFFFC0)] g0) true 4 (.v 8) 0 0]) =
        false ∧
      anyS (markShared true [ldsubLane (sS (vs [(8, 0x10010), (4, 0x9FFFFC0)])) 0 (vs [(8, 0x10010), (4, 0x9FFFFC0)] g0) true 4 (.v 8) 0 0]) =
        true ∧
      firstTrap (markShared true [ldsubLane (sS (vs [(8, 0x10010), (4, 0x9FFFFC0)])) 0 (vs [(8, 0x10010), (4, 0x9FFFFC0)] g0) true 4 (.v 8)
        0 0]) = none) := by
  refine ⟨⟨issues_of ?_, ?_⟩, clean_of ?_ ?_, lowest_of ?_, lowest_of ?_, ?_, ?_⟩ <;> decide +kernel

/-- A slot's record, a subscription on its way, a push, and a watcher's record. -/
def slotOf (st : SlotSt) (ring : Bool) (un : List (Nat × Nat × Nat)) : SlotRec := ⟨ring, 0x1001, 0, st, 3, 8388607, un⟩
def subReq : SubReq := ⟨0, 0x40, 0x1001, [], 0, 0, 0, 1, 0⟩
def pushOf (way : List Nat) : Push := ⟨1, 0, .slot 0 0x40, List.replicate 16 7, false, ⟨way, 0⟩, 0, []⟩
def sSlot (r : SlotRec) (f : Group → Group) : State := { sF f with slots := [(slotKey 0 0x40, r)] }
def subPend (i : Instr) (pa : Nat) : Pend := pendOf i (laneOf [⟨pa, 8, decide (2 ^ 63 ≤ pa), .u⟩] 0x40)
/-- The die's part of LDSUB: a global granule, a shared slot, a full directory, and a free slot; SUBSTAT of a record. -/
def fSub (pa : Nat) : Group → Group := fPend (subPend (.ldsub (hf 2) true 4 (.v 8) 0) pa)
theorem witness_Subscriptions_lane :
    (∀ pa ∈ [0x10010, windowBase 0, elsewhere.toNat], (sF (fSub pa)).group? 0 = some (fSub pa g0) ∧ (fSub pa g0).wait = .no ∧
      (fSub pa g0).pend.find? (fun q => q.tok == 1) = some (subPend (.ldsub (hf 2) true 4 (.v 8) 0) pa) ∧
      (∀ l ∈ (subPend (.ldsub (hf 2) true 4 (.v 8) 0) pa).lanes,
        (sF (fSub pa)).laneClear 0 (fSub pa g0) (subPend (.ldsub (hf 2) true 4 (.v 8) 0) pa) l = true ∧
        (sF (fSub pa)).laneInOrder 0 (fSub pa g0) (subPend (.ldsub (hf 2) true 4 (.v 8) 0) pa) l = true ∧
        (sF (fSub pa)).piecesOk l.pieces = true)) ∧
    hbmEnd ≤ windowBase 0 ∧ 0x10010 < hbmEnd ∧ elsewhere.toNat % 2 ^ 45 < hbmEnd ∧ 2 ^ 63 ≤ elsewhere.toNat ∧
    (∃ x ∈ (sSlot (slotOf .active true []) id).dieSlots 0, slotsMeet 0x40 true x.1 x.2.ring = true) ∧
    ¬((0x40 : BitVec 128).getLsbD 32 = true ∨ ∃ x ∈ base.dieSlots 0, slotsMeet 0x40 true x.1 x.2.ring = true) ∧
    (base.dieSlots 0).length < 8192 := by decide +kernel
/-- A directory of `n` slots, none of which meets the new one. -/
def sDir (n : Nat) : State := { base with slots := (List.range n).map fun i => (slotKey 0 (64 * i + 128), slotOf .active true []) }
theorem dir_length (n : Nat) (hn : n ≤ 2 ^ 20) : ((sDir n).dieSlots 0).length = n := by
  have h : ∀ x ∈ (sDir n).slots, (x.1 / 2 ^ 28 == 0) = true := by
    intro x hx
    obtain ⟨i, hi, rfl⟩ := List.mem_map.mp hx
    have := List.mem_range.mp hi
    simp only [slotKey, beq_iff_eq]; omega
  rw [State.dieSlots, List.length_map, List.filter_eq_self.mpr h]
  exact (List.length_map _).trans List.length_range
theorem witness_Subscriptions_full : 8192 ≤ ((sDir 8192).dieSlots 0).length := (dir_length 8192 (by decide)).ge
theorem witness_Subscriptions :
    (aget (sSlot (slotOf .removing true [(0, 0, 1)]) id).slots (slotKey 0 0x40) = some (slotOf .removing true [(0, 0, 1)]) ∧
      (sSlot (slotOf .removing true []) id).subscribing 0 0x40 = false ∧ (sSlot (slotOf .removing true []) id).pushes = [] ∧
      ({ sSlot (slotOf .removing true []) id with subReqs := [subReq] } : State).subscribing 0 0x40 = true ∧
      (slotOf .active true []).widx < 4 ∧ (slotOf .active true []).ovr < 2 ^ 23 ∧ aget base.slots (slotKey 0 0x40) = none) ∧
    (∀ q ∈ ([] : List SubReq), ¬(q.die = 0 ∧ q.off = 0x40)) ∧ subReq.die = 0 ∧ subReq.off = 0x40 ∧
    programUsed [] < 61440 ∧ 16 * subReq.granule + 16 ≤ 2 ^ 63 ∧
    ((pushOf []).who = .slot 0 0x40 ∧ (pushOf []).data.length = 16 ∧ ∀ z ∈ ([] : List Push), z.who ≠ .slot 0 0x40) ∧
    ((pushOf []).trip.way = [] ∧ (pushOf [3]).trip.way ≠ [] ∧ windowBase 0 + 0x40 + 64 ≤ 2 ^ 63) ∧
    ∃ y ∈ [pushOf []], y.who = .slot 0 0x40 := by
  refine ⟨by decide +kernel, by simp, by decide, by decide, by decide, by decide, ⟨by decide, by decide, by simp⟩, by decide, by decide⟩
theorem subs_used (n : Nat) : programUsed (List.replicate n (⟨0x1001, .slot 0 0x40, 0⟩ : Sub)) = n := by
  simp [programUsed, reservedUsed]
theorem witness_Subscriptions_home : 61440 ≤ programUsed (List.replicate 61440 (⟨0x1001, .slot 0 0x40, 0⟩ : Sub)) :=
  (subs_used 61440).ge

/-- A granule that is full with a waiter, the first of two; LDB.c whose lane is next. -/
def granPa : Nat := windowBase 0 + 0x40
def waitLane (t : Nat) : LaneReq := ⟨0, 0x40, 0, [⟨granPa, 4, false, .c⟩], [], .full t⟩
def waitPend (tok t : Nat) : Pend := { pendOf (.ldb (hf 2) .b32 4 (.v 8) 0 true true) (waitLane t) with tok := tok }
def fWaits (g : Group) : Group := { g with pend := [waitPend 1 5, waitPend 2 6] }
def sWaits : State := { sF fWaits with full := [granPa / 16] }
theorem witness_FullEmptyWaits :
    (sWaits.isFull (granPa / 16) = true ∧ sWaits.group? 0 = some (fWaits g0) ∧
      (fWaits g0).pend.find? (fun q => q.tok == 1) = some (waitPend 1 5) ∧
      (waitPend 1 5).lanes.find? (fun m => m.lane == 0) = some (waitLane 5) ∧
      (∀ i, i < 4 → inRegs (granPa + i) = false ∧ sWaits.poisoned (granPa + i) = false) ∧
      (⟨5, 0, 1, 0⟩ : FullWait) ∈ sWaits.fullWaits 0 (granPa / 16) ∧
      ∀ v ∈ sWaits.fullWaits 0 (granPa / 16), v ≠ ⟨5, 0, 1, 0⟩ → 5 < v.ticket) ∧
    (base.isFull (granPa / 16) = false ∧ base.fullWaits 0 (granPa / 16) = []) ∧
    ((sF (fPend (pendOf (.ldb (hf 2) .b32 4 (.v 8) 0 false true) (laneOf [⟨granPa, 4, false, .c⟩] 0)))).laneClear 0
        (fPend (pendOf (.ldb (hf 2) .b32 4 (.v 8) 0 false true) (laneOf [⟨granPa, 4, false, .c⟩] 0)) g0)
        (pendOf (.ldb (hf 2) .b32 4 (.v 8) 0 false true) (laneOf [⟨granPa, 4, false, .c⟩] 0))
        (laneOf [⟨granPa, 4, false, .c⟩] 0) = true ∧ (sF id).old = [] ∧ (sF id).physOk granPa 4 = true ∧
      granPa + 4 ≤ 2 ^ 63) := by
  decide +kernel
/-- A lane in the die's own basin needs no packet of the fabric, whichever way it goes. -/
theorem witness_FullEmptyWaits_order (s : State) (g : Group) (p : Pend) :
    s.laneInOrder 0 g p (laneOf [⟨granPa, 4, false, .c⟩] 0) = true := by
  have h : s.laneTargets 0 g p (laneOf [⟨granPa, 4, false, .c⟩] 0) = [] := by
    simp only [State.laneTargets, laneOf, List.filter]
    split
    · rfl
    · rfl
  unfold State.laneInOrder
  rw [h]
  rfl

/-- Counters: aligned and not, translated and not; a target that is reached and one that is not; CTRADD with and without
earlier stores; CTRRD's lane. -/
def bodyCtr : BodyCtr := ⟨false, 4, .v 8, 0, 0⟩
def fCtr (t : Word) : Group → Group := vs [(8, 0x10008), (4, t)]
def sCtr (t : Word) : State := { sM (fCtr t) with mem := tables ++ [(0x10008, 5)] }
theorem witness_Counters :
    ((sCtr 5).Issues 0 (fCtr 5 g0) h0 ∧ (∀ L, L < 64 → (fCtr 5 g0).present.getLsbD L = true →
        (src64 (sCtr 5) 0 (fCtr 5 g0) L (.v 8) + (0 : BitVec 14).signExtend 64).toNat % 8 = 0)) ∧
    ((fCtr 5 g0).active h0 ≠ 0 ∧ (fCtr 5 g0).active hOff = 0 ∧ (fCtr 5 g0).isEngine = false) ∧
    LanesClean [vaOf (sCtr 5) (fCtr 5 g0) accLoad 8 8 0x10008] ∧ LanesClean [vaOf (sCtr 5) (fCtr 5 g0) accAtomic 8 8 0x10008] ∧
    ((sCtr 5).chkVa 0 accLoad false 0x10008 8 8 none = .ok [⟨0x10008, 8, false, .c⟩] ∧ inRegs 0x10008 = false ∧
      (sCtr 5).homePoison (0x10008 / 16) = false ∧ (sCtr 5).ownClear 0 (fCtr 5 g0).uid 0x10008 8 = true ∧
      5 ≤ ((sCtr 5).homeWord 0x10008).toNat ∧ ¬6 ≤ ((sCtr 6).homeWord 0x10008).toNat ∧
      (sCtr 5).unrouted 0 (vaOf (sCtr 5) (fCtr 5 g0) accLoad 8 8 0x10008) = false) ∧
    ((sCtr 5).unrouted 0 (vaOf (sCtr 5) (fCtr 5 g0) accLoad 8 8 elsewhere) = true ∧
      firstTrap [vaOf (sCtr 5) (fCtr 5 g0) accLoad 8 8 elsewhere] = none ∧
      faultsOf [vaOf (sCtr 5) (fCtr 5 g0) accLoad 8 8 elsewhere] = []) ∧
    (((sCtr 5).commit 0 (fCtr 5 g0).clauseIdx false).group? 0).any (fun g1 =>
      g1.unacked == 0 && g1.pend.all fun q => !isRead q.ins) = true ∧
    ((fEngine g0).isEngine = true ∧ faultsOf [vaOf (sF fEngine) (fEngine g0) accAtomic 8 8 0x10008] ≠ []) ∧
    ((vs [(8, 0x10004)] g0).present.getLsbD 0 = true ∧
      (src64 (sF (vs [(8, 0x10004)])) 0 (vs [(8, 0x10004)] g0) 0 (.v 8) + (0 : BitVec 14).signExtend 64).toNat % 8 ≠ 0) ∧
    lowestTrap [vaOf (sCtr 5) (fCtr 5 g0) accLoad 8 8 0x100000000000000] causeForm 0x100000000000000 ∧
    (firstTrap [vaOf base g0 accAtomic 8 8 0x10008] = none ∧ faultsOf [vaOf base g0 accAtomic 8 8 0x10008] ≠ []) ∧
    (sF (fPend (pendOf (.ctrrd (hf 2) bodyCtr) (laneOf [⟨0x10008, 8, false, .c⟩] 0)))).laneClear 0
      (fPend (pendOf (.ctrrd (hf 2) bodyCtr) (laneOf [⟨0x10008, 8, false, .c⟩] 0)) g0)
      (pendOf (.ctrrd (hf 2) bodyCtr) (laneOf [⟨0x10008, 8, false, .c⟩] 0)) (laneOf [⟨0x10008, 8, false, .c⟩] 0) = true ∧
    (sF (fPend (pendOf (.ctrrd (hf 2) bodyCtr) (laneOf [⟨0x10008, 8, false, .c⟩] 0)))).laneInOrder 0
      (fPend (pendOf (.ctrrd (hf 2) bodyCtr) (laneOf [⟨0x10008, 8, false, .c⟩] 0)) g0)
      (pendOf (.ctrrd (hf 2) bodyCtr) (laneOf [⟨0x10008, 8, false, .c⟩] 0)) (laneOf [⟨0x10008, 8, false, .c⟩] 0) = true ∧
    base.physOk 0x10008 8 = true ∧ base.poisoned 0x10008 = false := by
  refine ⟨⟨issues_of ?_, ?_⟩, ?_, clean_of ?_ ?_, clean_of ?_ ?_, ?_, ?_, ?_, ?_, ?_, lowest_of ?_, ?_, ?_, ?_, ?_, ?_⟩ <;> decide +kernel

/-- A turn that issues: a word that decodes, one that reads a stale latch, one that does not decode, and the end of the clause;
an event; a laid word on a core that runs. -/
def sTurn (ws : List Dword) (ok : BitVec 4) : State :=
  sF fun g => { g with clause := some ⟨laidAddr, 0, ws, [], true, 0, false⟩, latchOk := ok }
theorem witness_StepRunsDecoded :
    (∀ ws ∈ [[BitVec.ofNat 64 nopWord], [0x4307F00168101A84], [1], []],
      ((sTurn ws 0).agenda.head? = some (.issue 0) ∧ ((sTurn ws 0).group? 0).all Group.mayIssue = true ∧ (sTurn ws 0).unitUp 0 = true)) ∧
    decodeWord (BitVec.ofNat 64 nopWord) = .ok (.nop h0) ∧ (Instr.nop h0).latchReads = [] ∧
    (Instr.ffma h0 ⟨0, 0, 5, .b 1, .v 6, .lit 0⟩).latchReads = [1] ∧ (0 : BitVec 4).getLsbD 1 = false ∧
    decodeWord 1 = .error .reserved ∧ ((Instr.storeAck 0).isEvent = true ∧ (Instr.storeAck 0).wf = true) ∧
    (decodeTableWord 64 nopWord = some (.nop h0) ∧ laidUnit nopWord = 0 ∧ State.reset.coreUp 0 = true) ∧
    ((sTurn [] 0).safeMode = false ∧ ({ sTurn [] 0 with safeMode := true } : State).safeMode = true) ∧
    ((Instr.sleep (hf 2) (.s 4) 0).head? = some (hf 2) ∧ (base.putGroup 0 { g0 with flags := [(2, 63)] }).cur = 0 ∧
      ({ g0 with flags := [(2, 63)] } : Group).flag (hf 2).setf.toNat = 63 ∧ g0.clause.isSome = true ∧ g0.active (hf 2) ≠ 0) := by
  decide +kernel
theorem witness_DecodeEncode : (Instr.nop h0).wf = true ∧ (Instr.nop h0).isEvent = false := by decide
theorem witness_DecodeSound : decodeWord (BitVec.ofNat 64 nopWord) = .ok (.nop h0) := by decide +kernel
/-- The state of a laid word keeps its memory and steps. -/
theorem witness_MemoryKept : base.MemOk ∧ ∃ t, step base = .next t := by
  refine ⟨?_, ?_⟩
  · unfold State.MemOk; decide +kernel
  · have h : (match step base with | .next _ => true | _ => false) = true := by decide +kernel
    split at h
    · exact ⟨_, by assumption⟩
    · cases h

/-! ### Witnesses: copies -/

/-- A layout record: 2 rows of 4 FP32 elements 16 bytes apart at 0x20000, in tiles of 2 by 2; and the bytes of words. -/
def layout : List Dword := [0x4000000000020000, 0x200000004, 0, 0x1000000000, 0, 0, 0x2002, 0]
def cellsAt (a : Nat) (ws : List Dword) : List Host.Cell :=
  (((ws.flatMap fun w => natLE w.toNat 8).zip (List.range (8 * ws.length))).map fun x => (a + x.2, x.1)).filter fun c => c.2 != 0
/-- A reservation of 16 granules from 0 in the share, at mask slot 1; the cell of the group with it as handle 7. -/
def handle7 : BitVec 128 := (1 <<< 116) + (16 <<< 32) + 0
def cell7 : CellSt := { newCell 0 0 0 none 1 512 with handles := [(7, handle7)] }
/-- A block in v16 to v23 (or s16 on), with the record at 0x20100, offset 0; a counter at `c`. -/
def fBlock (off c : Word) : Group → Group := ss [(20, c)] ∘ vs [(16, 0x20100), (23, off)]
def sBlock (off c : Word) : State := { (sF (fBlock off c)).putCell 0 cell7 with mem := tables ++ cellsAt 0x20100 layout }

/-- COPY's course: no handle; a misaligned counter; an illegal offset; a fault; and all well. -/
theorem witness_CopiesIssue :
    (base.Issues 0 g0 h0 ∧ base.handle g0.cell 7 = none ∧ (sBlock 0 0x10008).handle g0.cell 7 ≠ none) ∧
    ((sBlock 0 0x10008).Issues 0 (fBlock 0 0x10008 g0) h0 ∧ (fBlock 0 0x10008 g0).active h0 ≠ 0 ∧
      (fBlock 0 0x10008 g0).active hOff = 0 ∧ (sBlock 0 0x10008).Issues 0 (fBlock 0 0x10008 g0) hOff) ∧
    (∀ L, L < 64 → (fBlock 0 0x10008 g0).present.getLsbD L = true →
      (src64 (sBlock 0 0x10008) 0 (fBlock 0 0x10008 g0) L (.s 20)).toNat % 8 = 0) ∧
    ((fBlock 0 0x10004 g0).present.getLsbD 0 = true ∧ (src64 (sBlock 0 0x10004) 0 (fBlock 0 0x10004 g0) 0 (.s 20)).toNat % 8 ≠ 0) ∧
    blockLanes (.v 16) ((fBlock 0 0x10008 g0).active h0) = [0] ∧
    requestBad (some 0x9FFFFFF) (some 0x20100) 0x10008 = none ∧
    requestBad (some 0xA000000) (some 0x20100) 0x10008 = some (causeBasin, 0xA000000) ∧
    requestBad (some 0) (some 0x100000000000000) 0x10008 = some (causeForm, 0x100000000000000) ∧
    (sBlock 0 0x10008).requestFaults (fBlock 0 0x10008 g0) [0] (fun _ => some 0x20100) (fun _ => 0x10008) = [] ∧
    base.requestFaults g0 [0] (fun _ => some 0x20100) (fun _ => 0x10008) ≠ [] := by
  refine ⟨⟨issues_base, ?_⟩, ⟨issues_of ?_, ?_, ?_, issues_of ?_⟩, ?_, ?_, ?_, ?_, ?_, ?_, ?_, ?_⟩ <;> decide +kernel

/-- A row of 64 elements of a block format, in tiles of 32. -/
def blockLayout : List Dword := [BitVec.ofNat 64 (0x20000 + 2 ^ 56 * 7 + 2 ^ 61), 64, 0, 0, 0, 0, 32, 0]
/-- The layout above, its image of 16 bytes, one of a block format, and both numbers of cores. -/
theorem witness_TileImages : layoutOk layout = true ∧ originOk layout [0, 0, 0, 0, 0] = true ∧ 15 < imgSize layout ∧
    ¬16 < imgSize layout ∧ (layoutOk blockLayout = true ∧ originOk blockLayout [0, 0, 0, 0, 0] = true ∧
      layScale blockLayout ≠ 0 ∧ layBits blockLayout % 8 ≠ 0 ∧ imgScale blockLayout < imgSize blockLayout) ∧ (2 = 2 ∨ (2 : Nat) = 4) ∧ ((4 : Nat) = 2 ∨ 4 = 4) := by decide +kernel

/-- A linear copy, a tile copy into the share, one whose image does not fit, one with a bad record, and one that a fault holds. -/
def linear : CopyReq :=
  ⟨1, 0, 0, none, false, [], .va 0x30000, 0x20000, 8, false, none, some 0x10008, 0, none, false, [], [], none, none, noWait⟩
/-- The same past the engine it has come to, and with its addition left to make. -/
def linearAt : CopyReq := { linear with place := some 0 }
def linearEnd : CopyReq := { linear with place := some 0, fin := some ⟨0, 0, 8, none, 0⟩ }
def tileCopy (off : Nat) : CopyReq :=
  ⟨1, 0, 0, some 0x20100, false, [0, 0, 0, 0, 0], .ob 0 7 off, 0, 0, true, some handle7, some 0x10008, 0, none, false, [], [], none, none,
    noWait⟩
/-- The same with its record read, at its engine. -/
def tileAt (off : Nat) : CopyReq := { tileCopy off with words := layout, place := some 0 }
def sCopy (q : CopyReq) : State := { sBlock 0 0x10008 with copies := [q] }
theorem witness_CopyWork_plain :
    (∀ q ∈ [linear, linearAt, linearEnd], (sCopy q).copies.find? (fun x => x.id == q.id) = some q ∧ q.aw.reqs = []) ∧
    (linear.fin = none ∧ linear.place = none ∧ linear.words = [] ∧ linear.aw.dead = false ∧ linear.record = none ∧ linear.len ≠ 0 ∧
      (sCopy linear).devRange 0 accEngRead false 0x20000 1 = .ok [⟨0x20000, 1, false, .c⟩] ∧ inHbm 0x20000 = true ∧
      ({ linear with aw := ⟨[], true⟩ } : CopyReq).aw.dead = true) ∧
    (linearAt.place = some 0 ∧ linearAt.fin = none ∧ linearEnd.fin = some ⟨0, 0, 8, none, 0⟩) ∧
    ((sCopy linear).devRange 0 accEngRead false 0x20000 8 = .ok [⟨0x20000, 8, false, .c⟩] ∧
      (sCopy linear).devRange 0 accEngWrite false 0x30000 8 = .ok [⟨0x30000, 8, false, .c⟩]) ∧
    (∀ x ∈ devAddrs [⟨0x20000, 8, false, .c⟩], x.1 = false ∧ inRegs x.2 = false ∧ (sCopy linear).poisoned x.2 = false) ∧
    (∀ x ∈ devAddrs [⟨0x30000, 8, false, .c⟩], x.1 = false ∧ inRegs x.2 = false) ∧
    (devAddrs [⟨0x30000, 8, false, .c⟩]).Nodup ∧
    ((sCopy linear).devRange 0 accEngWrite false 0x10008 8 = .ok [⟨0x10008, 8, false, .c⟩] ∧ inRegs 0x10008 = false ∧
      (0x10008 : Dword).toNat % 8 = 0 ∧ (0x10004 : Dword).toNat % 8 ≠ 0) := by decide +kernel
def okPlan {α : Type} (x : Except PlanStop α) (f : α → Bool) : Bool :=
  match x with
  | .ok y => f y
  | .error _ => false
def isFaults {α : Type} (x : Except PlanStop α) : Bool :=
  match x with
  | .error (.faults _ _) => true
  | _ => false
theorem witness_CopyWork_tile :
    okPlan ((sCopy (tileCopy 0)).planTile (tileCopy 0) 0x20100) (· == layout) = true ∧
    ((tileCopy 0).words = [] ∧ (tileCopy 0).place = none ∧ (tileAt 0).place = some 0 ∧ (tileAt 0).words = layout ∧
      (sCopy (tileCopy 0)).devRange 0 accEngRead false (tileFirst layout [0, 0, 0, 0, 0]) 1 = .ok [⟨0x20000, 1, false, .c⟩]) ∧
    ((0x20100 : Dword).toNat % 64 = 0 ∧ isFaults ((sF id).planRecord 0 false 0 8 0x20100 8) = true ∧
      okPlan ((sF id).planRecord 0 false 0 8 0x20100 8) (fun _ => true) = false) ∧
    okPlan ((sCopy (tileCopy 0)).planRecord 0 false 0 8 0x20100 8) (· == layout) = true ∧
    (imgSize layout ≤ 16 * resLen handle7 ∧ 240 + imgSize layout ≤ 16 * resLen handle7 ∧ 16 * resLen handle7 < 241 + imgSize layout) ∧
    ((sCopy (tileCopy 0)).cell? 0).isSome = true ∧ (0x20101 : Dword).toNat % 64 ≠ 0 ∧
    (tileSegs layout [0, 0, 0, 0, 0]).map (fun x => (sCopy (tileCopy 0)).devRange 0 accEngRead false (x.addr layout) x.len) =
      [.ok [⟨0x20000, 8, false, .c⟩], .ok [⟨0x20010, 8, false, .c⟩]] ∧
    ¬(layoutOk [0] = true ∧ originOk [0] [] = true) ∧ originOk layout [0, 0, 0, 0, 0] = true ∧
    isFaults (({ base with copies := [tileAt 0] } : State).planCopy (tileAt 0) 0) = true ∧
    ({ base with requests := [request] } : State).outstanding 7 = true := by decide +kernel

/-- Two cores' COPYM: alike, unlike, with one missing; an operation whose slice is next, and one that fails. -/
def copymOf (id core off : Nat) : CopymReq :=
  ⟨id, 0, core, false, 7, 0x20100, [0, 0, 0, 0, 0], off, core, handle7, 0x10008, 0, false, [], 0, noWait, noWait, []⟩
def sCopym (l : List CopymReq) : State := { (sBlock 0 0x10008).putCell 1 cell7 with copyms := l }
def copymOp (err : Nat) : CopymOp := ⟨5, false, layout, err, [copymOf 1 0 0, copymOf 2 1 0], [], []⟩
theorem witness_CopyWork_multicast :
    (sCopym [copymOf 1 0 0, copymOf 2 1 0]).copyms.find? (fun x => x.id == 1) = some (copymOf 1 0 0) ∧
    (List.Forall₂ (fun i m => (sCopym [copymOf 1 0 0, copymOf 2 1 0]).copyms.find? (fun x => x.core == 0 + i && x.n4 == false) = some m)
      (List.range 2) [copymOf 1 0 0, copymOf 2 1 0]) ∧
    (∃ i, i < 2 ∧ ∀ x ∈ (sCopym [copymOf 1 0 0]).copyms, ¬(x.core = 0 + i ∧ x.n4 = false)) ∧
    copymOf 1 0 0 ∈ [copymOf 1 0 0, copymOf 2 1 0] ∧ (∃ m ∈ [copymOf 1 0 0, copymOf 2 1 16], m.off ≠ (copymOf 1 0 0).off) ∧
    okPlan ((sCopym []).planRecord 0 false 0 8 0x20100 8) (· == layout) = true ∧
    ([copymOp 0].find? (fun x => x.id == 5) = some (copymOp 0) ∧
      (copymOp 0).members.find? (fun x => x.core % (copymOp 0).n == 1) = some (copymOf 2 1 0) ∧ 1 ∉ (copymOp 0).moved ∧
      1 ∉ (copymOp 0).failed ∧ ((copymOp 0).members.map (·.cell)).Nodup ∧
      (∀ x ∈ (copymOp 0).members, ((sCopym []).cell? x.cell).isSome = true) ∧ (copymOp 7).err ≠ 0) := by
  refine ⟨by decide +kernel, ?_, by decide +kernel⟩
  exact .cons (by decide +kernel) (.cons (by decide +kernel) .nil)

/-! ### Witnesses: cards and engines -/

/-- A weir card with its program at 0x20000 and its counter at 0x10008, and a card of kind 2, 3, 4. -/
def cardOf (kind stack : Nat) : List Dword :=
  [BitVec.ofNat 64 (kind + 2 ^ 16 * stack), 0x20000, 0x10008, if kind = 2 then 0 else 1, 0, 0, 0, 0, 0, 0, 0, 0, 0, 0, 0, 0]
/-- A card at 0x20000 of STATE `st`, named by s8. -/
def fCard (a : Word) : Group → Group := ss [(8, a), (20, 0x10008)]
def sCard (st : Dword) : State :=
  { sM (fCard 0x20000) with mem := tables ++ cellsAt 0x20000 ((cardOf 2 0).set 6 (st <<< 56)) }
def namedB (s : State) (g : Group) (acc : Nat) : List Lane := namedCards s g acc (.s 8) 1 (g.active h0)
theorem witness_Cards_issue :
    ((sCard 3).Issues 0 (fCard 0x20000 g0) h0 ∧ (fCard 0x20000 g0).active h0 ≠ 0 ∧ (fCard 0x20000 g0).active hOff = 0) ∧
    (∀ L, L < 64 → (fCard 0x20000 g0).present.getLsbD L = true → (blockPtr (sCard 3) (fCard 0x20000 g0) (.s 8) L 0).toNat % 128 = 0) ∧
    ((fCard 0x20040 g0).present.getLsbD 0 = true ∧ (blockPtr (sM (fCard 0x20040)) (fCard 0x20040 g0) (.s 8) 0 0).toNat % 128 ≠ 0) ∧
    (firstTrap (namedB (sCard 3) (fCard 0x20000 g0) accLoad) = none ∧ faultsOf (namedB (sCard 3) (fCard 0x20000 g0) accLoad) = [] ∧
      faultsOf (namedB (sCard 3) (fCard 0x20000 g0) accStore) = []) ∧
    (faultsOf (namedB (sF (fCard 0x20000)) (fCard 0x20000 g0) accLoad) ≠ [] ∧
      firstTrap (namedB (sF (fCard 0x20000)) (fCard 0x20000 g0) accLoad) = none) ∧
    lowestTrap [vaOf base g0 accLoad 128 1 0x100000000000000] causeForm 0x100000000000000 ∧
    ((∀ l ∈ namedB (sCard 3) (fCard 0x20000 g0) accLoad, field ((sCard 3).cardWords l) 447 440 = 3) ∧
      ∃ l ∈ namedB (sCard 2) (fCard 0x20000 g0) accLoad, field ((sCard 2).cardWords l) 447 440 = 2) ∧
    (src64 (sCard 3) 0 (fCard 0x20000 g0) 0 (.s 20)).toNat % 8 = 0 := by
  refine ⟨⟨issues_of ?_, ?_⟩, ?_, ?_, ?_, ?_, lowest_of ?_, ?_, ?_⟩ <;> decide +kernel

/-- A list that breaks nothing, and one whose cards need one weir engine. -/
theorem not_breaks : ∀ i, ¬breaks [cardOf 2 0] i := by
  rintro i ⟨ws, hi, h⟩
  match i with
  | 0 =>
    obtain rfl : cardOf 2 0 = ws := by simpa using hi
    rcases h with h | ⟨j, vs, hj, h, -⟩
    · exact absurd h (by decide +kernel)
    · obtain ⟨j, rfl⟩ := Nat.exists_eq_succ_of_ne_zero hj; simp at h
  | n + 1 => simp at hi
/-- Cards in flight: one that may start, one that runs, one whose work is done, one that waits for a page request. -/
def card (ws : List Dword) (running work : Bool) (reqs : List Nat) : Card :=
  ⟨4, 0x20000, ws, 0, 0, 9, [], [], running, work, 0, none, 0, 1, 0, none, ⟨reqs, false⟩⟩
def sCards (c : Card) : State := { sM id with cards := [c] }
/-- A rejected card's addition that is left to make. -/
def owing (ctr : Dword) (dead : Bool) : Owed := ⟨4, 0, 0, 0x20000, 3, ctr, 0, ⟨[], dead⟩⟩
theorem witness_Cards :
    (∃ i, breaks [cardOf 1 0, cardOf 1 0] i) ∧ (∀ i, ¬breaks [cardOf 2 0] i) ∧
    ((sCards (card (cardOf 3 0) false false [])).listReady 9 = true ∧ (sCards (card (cardOf 3 0) true true [])).listReady 9 = false) ∧
    ((sM id).devRange 0 accEngWrite ((sM id).ctxSup 0) (0x20000 + 48) 8 = .ok [⟨0x20030, 8, false, .c⟩] ∧
      (sM id).devRange 0 accEngWrite ((sM id).ctxSup 0) (0x20000 + 56) 8 = .ok [⟨0x20038, 8, false, .c⟩] ∧
      (sM id).devRange 0 accEngWrite ((sM id).ctxSup 0) (0x20000 + 48) 16 = .ok [⟨0x20030, 16, false, .c⟩] ∧
      inRegs 0x20030 = false ∧ (∀ x ∈ devAddrs [⟨0x20030, 8, false, .c⟩], inRegs x.2 = false) ∧ 0x20030 + 8 ≤ 0x20038) ∧
    (∀ k ∈ [1, 2, 3, 4], cardKind (cardOf k 5) = k) ∧
    ((sCards (card (cardOf 3 0) true false [])).cards.find? (fun x => x.id == 4) = some (card (cardOf 3 0) true false []) ∧
      (sCards (card (cardOf 3 0) true false [])).cardEnd (card (cardOf 3 0) true false []) = some (0, none, 0) ∧
      (sCards (card (cardOf 3 0) true true [])).cardEnd (card (cardOf 3 0) true true []) = none ∧
      ({ sCards (card (cardOf 3 0) true false [7]) with requests := [request] } : State).outstanding 7 = true ∧
      (cardCtr (cardOf 3 0)).toNat % 8 = 0) ∧
    (let t := ((sM id).touchAll [⟨0x20038, 8, false, .c⟩]).devPut .d (srcCore 0) 0 ((sM id).ctxFn 0) false [⟨0x20038, 8, false, .c⟩]
       ((natLE 5 8).map fun b => (b, false))
     t.devRange 0 accEngWrite ((sM id).ctxSup 0) (0x20000 + 48) 8 = .ok [⟨0x20030, 8, false, .c⟩]) ∧
    (((sM id).cardState 0 0 [agentRel (srcCore 0) (cardScope (cardOf 2 0)) noView] 0x20000 5 9 0).devRange 0 accEngWrite
        ((sM id).ctxSup 0) (cardCtr (cardOf 2 0)) 8 = .ok [⟨0x10008, 8, false, .c⟩] ∧ inRegs 0x10008 = false ∧ 0x10008 + 8 ≤ 0x20030) ∧
    ((sCards (card (cardOf 3 0) false false [])).stateFaults [card (cardOf 3 0) false false []] = [] ∧
      (sF id).stateFaults [card (cardOf 3 0) false false []] ≠ []) ∧
    (∀ x ∈ [owing 0x10008 false, owing 0x10008 true, owing 0x1000C false],
      ({ sM id with owed := [x] } : State).owed.find? (fun y => y.id == 4) = some x ∧
      (∀ r ∈ x.aw.reqs, ({ sM id with owed := [x] } : State).outstanding r = false)) ∧
    ((sM id).devRange 0 accEngWrite ((sM id).ctxSup 0) 0x10008 8 = .ok [⟨0x10008, 8, false, .c⟩] ∧ (0x1000C : Dword).toNat % 8 ≠ 0) ∧
    ((card (cardOf 3 0) true false []).fin = none ∧ ({ card (cardOf 3 0) true false [] with fin := some 0 } : Card).fin = some 0 ∧
      ({ card (cardOf 3 0) true false [] with aw := ⟨[], true⟩ } : Card).aw.dead = true) ∧
    (match (sF id).devRange 0 accEngWrite false (0x20000 + 48) 16 with
      | .fault .. => true
      | _ => false) = true := by
  refine ⟨⟨0, cardOf 1 0, rfl, .inr ⟨1, cardOf 1 0, by decide, rfl, .inl ⟨by decide, by decide, rfl⟩⟩⟩, not_breaks, ?_⟩
  decide +kernel

/-- A weir engine whose program issues; one whose group takes a trap; an instruction of each kind in its work. -/
def baseE : State := State.reset.withFetchWord 64 (w1 (.ecopy h0 0 1 none))
def gE : Group := State.reset.laidGroup 12288 (w1 (.ecopy h0 0 1 none))
def workOf (i : Instr) (n : Dword) : EngAsync :=
  ⟨3, i, [(0, 0x20000, n), (1, 0x30000, 8), (2, 0x40000, 8)], 0x20000, none, none, laidAddr, [], none, noWait⟩
def sE (i : Instr) (n : Dword) : State :=
  { baseE with mem := tables, engines := [(0, ⟨4, [], [workOf i n], 0, none, 0⟩)] }
theorem witness_Engines :
    (baseE.Issues 12288 gE h0 ∧ gE.active h0 ≠ 0 ∧ gE.active hOff = 0 ∧ gE.engine = some 0 ∧ (aget baseE.engines 0).isSome = true) ∧
    (∀ i ∈ [Instr.ecopy h0 0 1 none, .ebcast h0 1 5 none, .ereduce h0 0 0 6 none, .esig h0 5 (.s 2), .egemv h0 false (.s 2) none,
        .routeCnt h0 (.s 2) none],
      aget (sE i 8).engines 0 = some ⟨4, [], [workOf i 8], 0, none, 0⟩ ∧ (workOf i 8).aw.reqs = [] ∧ (workOf i 8).fin = none ∧
      [workOf i 8].find? (fun x => x.id == (workOf i 8).id) = some (workOf i 8) ∧ ((sE i 8).group? (engineUnit 0)).isSome = true) ∧
    (aget (workOf (.nop h0) 8).streams 1 = some (0x30000, 8) ∧ aget (workOf (.nop h0) 8).streams 3 = none ∧ (4 : Nat) ≠ 8 ∧ 4 % 4 = 0 ∧
      (0x20000 : Dword).toNat % 8 = 0) ∧
    ((sE (.nop h0) 8).devRange 0 accEngRead false 0x20000 8 = .ok [⟨0x20000, 8, false, .c⟩] ∧
      (sE (.nop h0) 8).devRange 0 accEngWrite false 0x30000 8 = .ok [⟨0x30000, 8, false, .c⟩] ∧
      (∀ x ∈ devAddrs [⟨0x20000, 8, false, .c⟩], x.1 = false ∧ inRegs x.2 = false ∧ (sE (.nop h0) 8).poisoned x.2 = false) ∧
      (devAddrs [⟨0x30000, 8, false, .c⟩, ⟨0x40000, 8, false, .c⟩]).Nodup) ∧
    (∀ i ∈ [Instr.routeCnt h0 (.s 2) none, .routeScan h0 (.s 2) none, .routePlace h0 (.s 2) none, .routeComb h0 (.s 2) none],
      (routeFormOf i).isSome = true) ∧ (sE (.nop h0) 8).routeJobs = [] ∧
    okPlan ((sE (.nop h0) 8).rtChoices ⟨0, false, 0⟩ [3 + 2 ^ 11, 0, 0x20000] 0 2) (fun l => l.length == 2) = true ∧
    1 < [4, 3].length ∧ (2 : Nat) < rtE [3 + 2 ^ 11] ∧ ¬3 < rtE [3 + 2 ^ 11] ∧
    ((baseE.gemvRead 0 false 0 0x20008 []).2 = some (.fail 4) ∧ (baseE.gemvRead 0 false 0 0x20000 []).2 ≠ some (.fail 4) ∧
      ∀ w ∈ ([] : List EngAsync), w.id < baseE.uid) ∧
    ({ workOf (.nop h0) 8 with fin := some ⟨0, 0, 8, none, 0⟩ } : EngAsync).fin ≠ none ∧
    (match (sE (.ecopy h0 1 0 none) 8).planWork 0 false 0 (workOf (.ecopy h0 1 0 none) 8) with
      | .ok _ => true
      | _ => false) = true ∧
    (isFaults (({ sE (.ecopy h0 1 0 none) 8 with mem := [] } : State).planWork 0 false 0 (workOf (.ecopy h0 1 0 none) 8)) = true) ∧
    (((sE (.nop h0) 8).putGroup 12288 { gE with taking := some ⟨causeAlign, laidAddr, 0, 0, 1⟩ }).group? (engineUnit 0) =
        some { gE with taking := some ⟨causeAlign, laidAddr, 0, 0, 1⟩ } ∧ gE.taking = none) := by
  refine ⟨⟨issues_of ?_, ?_⟩, ?_⟩ <;> decide +kernel
/-- An EGEMV whose record has been read: A and B of one row of eight FP16 elements, Y behind them. -/
def fp16Lay (a : Nat) : List Dword := [BitVec.ofNat 64 (a + 2 ^ 56 * 1 + 2 ^ 61 * 2), 0x100000008, 0, 0x1000000000, 0, 0, 0x1008, 0]
def gemvWords : List Dword := [0x30000, 0x30040, 0, 0x40000] ++ fp16Lay 0x20000 ++ fp16Lay 0x20100
theorem witness_Engines_gemv :
    gemvWords ≠ [] ∧ okPlan (((sE (.nop h0) 8).setReg (.ilmap 0) 0xAAAAAAAA).planGemv 0 false 0 false gemvWords) (fun p => p.count == 4) = true ∧
    (0x20008 : Dword).toNat % 32 ≠ 0 := by decide +kernel

/-! ### Witnesses: barriers, the matrix engine -/

/-- The cell of the issuing group, with the cell barrier and the gang registers as given. -/
def sCell (c : CellSt) (f : Group → Group) : State := (sF f).putCell 0 c
def cellN (n : Nat) (gangs : Assoc (BitVec 32)) : CellSt := { newCell 0 0 0 none n 512 with gangs := gangs }
/-- A group that has arrived at barrier `b`, and one that waits there; a second group of the cell at slot 1. -/
def fBar (b : Nat) (wait : Bool) (g : Group) : Group :=
  { g with bars := [(b, ⟨0, laidAddr, 0, 1, []⟩)], wait := if wait then .barrier b none else .no }
def sTwo (c : CellSt) (b : Nat) : State :=
  ((sCell c (fBar b true)).putGroup 1 { fBar b true g0 with uid := 1, index := 1 })
def arrivedCell : CellSt := { cellN 2 [(1, 3)] with barriers := [(8, ⟨0, 3, 0, []⟩), (1, ⟨0, 3, 3, []⟩)] }
theorem witness_BarriersAndWaits_arrive :
    (base.Issues 0 g0 h0 ∧ g0.active h0 ≠ 0 ∧ g0.active hOff = 0 ∧ (g0.clause.map (·.half)).getD false = false ∧
      (base.cell? g0.cell).isSome = true) ∧
    ((sCell (cellN 2 [(1, 3), (2, 2), (3, 1)]) id).Issues 0 g0 h0 ∧
      aget ((sCell (cellN 2 [(1, 3), (2, 2), (3, 1)]) id).cells) 0 = some (cellN 2 [(1, 3), (2, 2), (3, 1)])) ∧
    ((3 : BitVec 32).getLsbD g0.index = true ∧ ((List.range 32).filter fun j => (3 : BitVec 32).getLsbD j).length = 2 ∧
      ∀ j, j < 32 → 2 ≤ j → (3 : BitVec 32).getLsbD j = false) ∧
    (2 : BitVec 32).getLsbD g0.index = false ∧ ((List.range 32).filter fun j => (1 : BitVec 32).getLsbD j).length < 2 ∧
    (∀ s ∈ [base], (s.commit 0 0 false).group? 0 = some { g0 with region := ⟨g0.pc, 0, false⟩ }) ∧
    (aget (fBar 8 false g0).bars 8 = some ⟨0, laidAddr, 0, 1, []⟩ ∧ ((cellN 2 []).barrier 8).phase = 0 ∧ aget g0.bars 8 = none) ∧
    (sF fun g => { g with unacked := 1 }).Issues 0 { g0 with unacked := 1 } h0 := by
  refine ⟨⟨issues_base, ?_⟩, ⟨issues_of ?_, ?_⟩, ?_, ?_, ?_, ?_, ?_, issues_of ?_⟩ <;> decide +kernel
theorem witness_BarriersAndWaits_open :
    (arrivedCell.barrier 8).arrived ≠ 0 ∧
    (∀ j, j < 32 → arrivedCell.all.getLsbD j = true → (arrivedCell.barrier 8).arrived.getLsbD j = true ∨ arrivedCell.exited.getLsbD j = true) ∧
    (sTwo arrivedCell 8).cell? 0 = some arrivedCell ∧ base.cell? 5 = none ∧ ((cellN 2 []).barrier 8).arrived = 0 ∧
    (((sTwo arrivedCell 8).cellUnits 0).eraseDups.filter fun u => match (sTwo arrivedCell 8).group? u with
        | some g => g.wait == .barrier 8 none && (aget g.bars 8).map (·.phase) == some (arrivedCell.barrier 8).phase
        | none => false) = [0, 1] ∧
    (0 < bits (State.reset.reg (.slope 0 0)) 4 0 + 1) := by decide +kernel
theorem witness_BarriersAndWaits_waits :
    ((∀ p ∈ (fPend (pendOf (.ld (hf 2) .b32 4 (.v 8) 0 0 0) (laneOf [] 0)) g0).pend, isRead p.ins = true) ∧
      (sF (fPend (pendOf (.ld (hf 2) .b32 4 (.v 8) 0 0 0) (laneOf [] 0)))).Issues 0
        (fPend (pendOf (.ld (hf 2) .b32 4 (.v 8) 0 0 0) (laneOf [] 0)) g0) h0) ∧
    (g0.unacked = 0 ∧ g0.pend = []) ∧ ((11 : BitVec 4).toNat ≥ 4 ∧ (3 : BitVec 4).toNat < 4) ∧
    ((3 : BitVec 5).getLsbD 0 = true ∧ (3 : BitVec 5).getLsbD 1 = true ∧ (0x11 : BitVec 5).getLsbD 4 = true) ∧
    ((0 : Word).toInt + (1 : BitVec 20).toInt > 0 ∧ (0 : Word).toInt + (0 : BitVec 20).toInt ≤ 0) ∧
    ((sF fun g => { g with wait := .sleep 5 }).group? 0 = some { g0 with wait := .sleep 5 } ∧ (sF id).now < 5 ∧
      5 ≤ ({ sF id with now := 5 } : State).now) ∧ ∀ n, g0.wait ≠ .sleep n := by
  refine ⟨⟨?_, issues_of ?_⟩, ?_, ?_, ?_, ?_, ?_, ?_⟩
  all_goals first | decide +kernel | (intro n h; cases h)

/-- Reservations of 32 and of 64 rows of FP16, bound to handles 1 and 2; a bad record. -/
def recA : BitVec 128 := BitVec.ofNat 128 (2 ^ 75 + 31 * 2 ^ 64 + 4 * 2 ^ 48 + 512 * 2 ^ 32)
def recB : BitVec 128 := BitVec.ofNat 128 (2 ^ 75 + 63 * 2 ^ 64 + 4 * 2 ^ 48 + 1024 * 2 ^ 32 + 512 * 2 ^ 16)
def cellM (n : Nat) (gangs : Assoc (BitVec 32)) : CellSt := { cellN n gangs with handles := [(1, recA), (2, recB)] }
theorem witness_GangsAndReservations :
    (base.Issues 0 g0 h0 ∧ (base.cell? g0.cell).isSome = true ∧ g0.active h0 ≠ 0 ∧ g0.active hOff = 0) ∧
    (resOk recA (64 * 512 * 1) = true ∧ resOk recB (64 * 512 * 1) = true ∧ ¬resOk 0 (64 * 512 * 1) = true ∧ ¬resOk recA 511 = true) ∧
    (fmtScale (resFmt recA) = 0 ∧ fmtScale 5 ≠ 0) ∧ base.inUse 0 7 = false ∧
    (sCopy (tileCopy 0)).inUse 0 7 = true := by
  refine ⟨⟨issues_base, ?_⟩, ?_⟩ <;> decide +kernel

/-- An accumulator's tile and index at either end; a readout in progress; OBLD and OBST at good and bad offsets. -/
def fAcc (r c : Word) : Group → Group := vs [(1, r), (2, c), (8, 0x10010)]
def readout : Pend := pendOf (.accrd (hf 2) 0 4 (.v 1) (.v 2) 3) (laneOf [] 7)
theorem witness_AccumulatorsAndBuffers :
    (g0.acct ≤ (16 : Nat) ∧ (15 : BitVec 4).toNat < g0.acct ∧ ({ g0 with acct := 15 } : Group).acct ≤ (15 : BitVec 4).toNat) ∧
    ((sF (fAcc 31 127)).Issues 0 (fAcc 31 127 g0) h0 ∧
      (src32 (sF (fAcc 31 127)) 0 (fAcc 31 127 g0) 0 (.v 1)).toNat ≤ 31 ∧
      (src32 (sF (fAcc 31 127)) 0 (fAcc 31 127 g0) 0 (.v 2)).toNat ≤ 127 ∧
      ¬(src32 (sF (fAcc 32 0)) 0 (fAcc 32 0 g0) 0 (.v 1)).toNat ≤ 31) ∧
    ((fAcc 31 127 g0).isEngine = false ∧ (fAcc 31 127 g0).wait = .no ∧ (base.core 0).ops = [] ∧ g0.pend = []) ∧
    (readout ∈ (fPend readout g0).pend ∧ readout.lanes ≠ []) ∧
    ((sF (fPend readout)).laneClear 0 (fPend readout g0) readout (laneOf [] 7) = true ∧ (fPend readout g0).accBad 7 = false) ∧
    (aget (cellM 1 []).handles 1 = some recA ∧ aget (cellM 1 []).handles 5 = none) ∧
    LanesClean [⟨0, 0x10010, 0, (sM id).chkVa 0 accStore false 0x10010 16 16 none, true⟩] ∧
    (anyS [vaOf (sS id) g0 accStore 16 16 0x10010] = true ∧ firstTrap [vaOf (sS id) g0 accStore 16 16 0x10010] = none ∧
      faultsOf [vaOf (sS id) g0 accStore 16 16 0x10010] = []) ∧
    lowestTrap [⟨0, 0x10010, 0, (sM id).chkVa 0 accLoad false 0x10010 16 16 (some (causeObRange, 0)), true⟩] causeObRange 0 ∧
    lowestTrap [⟨0, 0x10008, 0, (sM id).chkVa 0 accLoad false 0x10008 16 16 none, true⟩] causeAlign 0x10008 ∧
    (let p := pendOf (.obld (hf 2) 1 4 (.v 8) 0 0) (laneOf [⟨0x10010, 16, false, .u⟩] 0)
     (sCell (cellM 1 []) (fPend p)).laneClear 0 (fPend p g0) p (laneOf [⟨0x10010, 16, false, .u⟩] 0) = true ∧
      (sCell (cellM 1 []) (fPend p)).laneInOrder 0 (fPend p g0) p (laneOf [⟨0x10010, 16, false, .u⟩] 0) = true ∧
      (sCell (cellM 1 []) (fPend p)).physOk 0x10010 16 = true ∧
      (sCell (cellM 1 []) (fPend p)).old = [] ∧ ((sCell (cellM 1 []) (fPend p)).core 0).l1 = [] ∧
      ∀ i, i < 16 → inRegs (0x10010 + i) = false ∧ (sCell (cellM 1 []) (fPend p)).poisoned (0x10010 + i) = false) := by
  refine ⟨?_, ⟨issues_of ?_, ?_⟩, ?_, ?_, ?_, ?_, clean_of ?_ ?_, ?_, lowest_of ?_, lowest_of ?_, ?_⟩ <;> decide +kernel

/-- MMA's checks at either side, a rendezvous that opens, one that is complete and one that disagrees; an operation with its B,
one that waits for a step, a step with takers that are ready and with none. -/
def mmaBody (g : BitVec 3) (bus : Bool) : BodyMma := ⟨g, false, 0, 1, 2, bus, false, 0, 0, 0⟩
def memberOf (unit gi : Nat) (bus : Bool) : Member := ⟨unit, unit, gi, mmaBody 2 bus, recA, none, laidAddr, 0, 1⟩
def latchOf (zero : Bool) : Latch := ⟨3, zero, mmaBody 2 false, [memberOf 1 1 false]⟩
def stepOf (n128 : Bool) : BusStep := ⟨3, 0, 0, none, recB, 2, 0, 1, n128, 0⟩
def opOf (bus : Bool) (st : Option BusStep) : MatOp :=
  ⟨2, 0, 3, false, mmaBody 1 bus, [memberOf 0 0 bus], if bus then none else some recB, st, 0, [], []⟩
def sOps (ops : List MatOp) (bus : List BusSub) (steps : List BusStep) : State :=
  (sCell (cellM 1 []) id).putCore 0 { base.core 0 with ops := ops, bus := bus, steps := steps }
theorem witness_MatrixEngine_issue :
    ((sCell (cellM 2 [(0, 3)]) id).Issues 0 g0 h0 ∧ (sCell (cellM 2 [(0, 3)]) id).cell? g0.cell = some (cellM 2 [(0, 3)]) ∧
      g0.active h0 ≠ 0 ∧ g0.active hOff = 0) ∧
    (aget (cellM 2 [(0, 3)]).handles 1 = some recA ∧ aget (cellM 2 [(0, 3)]).handles 2 = some recB ∧ aget (cellN 2 []).handles 1 = none) ∧
    (fitsIn recA 32 0 ∧ fitsIn recB 64 0 ∧ ¬fitsIn recA 32 512 ∧ fmtClass (resFmt recA) = fmtClass (resFmt recB)) ∧
    ((mmaBody 2 false).acc.toNat < g0.acct ∧ ¬(mmaBody 2 false).acc.toNat < ({ g0 with acct := 0 } : Group).acct) ∧
    ((cellM 2 [(0, 3)]).gang 0 = 3 ∧ (3 : BitVec 32).getLsbD g0.index = true ∧
      ((List.range 32).filter fun j => (3 : BitVec 32).getLsbD j).length = (mmaBody 2 false).g.toNat ∧
      (2 : BitVec 32).getLsbD g0.index = false) ∧
    ((latchOf false).Agrees 3 false (mmaBody 2 false) ∧ ¬(latchOf true).Agrees 3 false (mmaBody 2 false)) ∧
    ([memberOf 1 1 false, memberOf 0 0 false].map (·.unit)).Nodup ∧ ([memberOf 0 0 false] : List Member).length ≠ 2 ∧
    ((sOps [] [] (List.replicate 4 (stepOf false))).core 0).steps.length = 4 ∧ ((sOps [] [] []).core 0).steps.length < 4 ∧
    ((sOps [] (List.replicate 4 ⟨0, 1, 0, none, 0⟩) []).core 0).bus.length = 4 := by
  refine ⟨⟨issues_of ?_, ?_⟩, ?_, ?_, ?_, ?_, ?_, ?_⟩
  all_goals first | decide +kernel | (simp only [fitsIn, Latch.Agrees]; decide +kernel)
theorem witness_MatrixEngine :
    (∀ o ∈ [opOf false none, opOf true none, opOf true (some (stepOf false))],
      ((sOps [o] [] []).core 0).ops = [o] ∧ (sOps [o] [] []).cell? o.cell = some (cellM 1 []) ∧ (o.members.map (·.unit)).Nodup ∧
      (sOps [o] [] []).group? 0 = some g0 ∧ g0.uid = (memberOf 0 0 false).uid) ∧
    (1 ≤ resFmt recA ∧ 1 ≤ resFmt recB ∧ resFmt recB ≤ 10) ∧ (base.core 0).ops = [] ∧ (base.core 0).steps = [] ∧
    (((sOps [opOf true none] [⟨0, 1, 0, none, 0⟩] [stepOf false]).core 0).steps = [stepOf false] ∧
      ((sOps [opOf true none] [⟨0, 1, 0, none, 0⟩] [stepOf false]).core 0).ops.find? (fun o => o.x.bus) = some (opOf true none) ∧
      (stepOf false).mask.getLsbD 0 = true ∧ (∀ i, i < 4 → i ≠ 0 → (stepOf false).mask.getLsbD i = false) ∧
      (opOf true none).step = none ∧ coreOf 0 = 0 ∧ (opOf true none).x.n128 = (stepOf false).n128 ∧
      (opOf true none).x.n128 ≠ (stepOf true).n128 ∧ fmtClass (resFmt recA) = fmtClass (resFmt recB)) ∧
    (e4m3.decode 0x38).finite = true ∧ (127 : Nat) ≠ 255 := by decide +kernel

/-! ### Witnesses: children, clauses, the dispatcher -/

/-- A launch whose image stands at 0x50000 with two entries, the second of which R33 refuses; its overflow list is at 0x58000, `n`
children to a core. -/
def launchOf (n : Nat) (st : LaunchSt) (words : List Dword) : Launch :=
  { part := 0, list := 0, seq := 0, ctx := 0, record := 0x60000, words := words
    side := [0x1000, 5, 0, 0, 0, 0, 0, 0, 0, 0, 0x58000, BitVec.ofNat 64 n, 0, 0, 0, 0], tlsb := 0, nent := 2, codeBase := 0x70000, codeSz := 64
    start := 0x70000, vr := 3, sr := 3, acct := 0, obuf := 0, sat := 0, poll := 0, st := st, readyAt := 0
    cond := none, view := noView, skipped := false, nextCell := 0, waiting := [], turn := 0, live := 0, ended := 0 }
/-- A record with OVF, whose one cell has three threads. -/
def ovfWords : List Dword := [0x50000, 2, 2 + (1 <<< 36) + (1 <<< 47), 0x40, 0, 0x10008, 0, 0]
def image : List Host.Cell := cellsAt 0x50040 [(3 <<< 32) + (3 <<< 41), 0, 0, 0, 1 <<< 53, 0, 0, 0]
def fParent (k : List Kid) (g : Group) : Group := { g with launch := some 7, kimg := 0x50000, nent := 2, kids := k }
def sParent (n : Nat) (k : List Kid) (f : Group → Group) : State :=
  { sF (f ∘ fParent k) with
    mem := tables ++ image, launches := [(7, launchOf n .running ovfWords)], cells := [(0, newCell 0 0 0 (some 7) 1 512)] }
/-- The parents of 32 slots, so that the core has none free. -/
def sCrowd (n : Nat) : State := { sParent n [] id with groups := (List.range 32).map fun u => (u, fParent [] g0) }
def accepted (s : State) (e : Nat) : Option Bool :=
  (s.fresh.readEntry 0 (s.fresh.groupPriv g0) 0x50000 e).map fun en => entryOk en 64
theorem witness_Spawn :
    ((sParent 4 [] id).Issues 0 (fParent [] g0) h0 ∧ (fParent [] g0).active h0 ≠ 0 ∧ (fParent [] g0).active hOff = 0 ∧
      (2 : BitVec 8).toNat ≥ (fParent [] g0).nent ∧ ((sParent 4 [] id).codeSection (fParent [] g0)) = (0x70000, 64)) ∧
    ((let s1 := ((sParent 4 [] id).commit 0 0 false).settle 0
      accepted s1 0 = some true ∧ accepted s1 1 = some false ∧ s1.freeSlot 0 = some 1 ∧ s1.fits 0 1 3 0 0 = true) ∧
      (((sCrowd 4).commit 0 0 false).settle 0).freeSlot 0 = none ∧ (sCrowd 4).Issues 0 (fParent [] g0) h0 ∧
      accepted (((sCrowd 4).commit 0 0 false).settle 0) 0 = some true) ∧
    ((((sCrowd 0).commit 0 0 false).settle 0).overflow (fParent [] g0) = (0x58000, 0) ∧
      (let s1 := ((sCrowd 4).commit 0 0 false).settle 0
       s1.overflow (fParent [] g0) = (0x58000, 4) ∧ (aget (s1.core 0).rings 7).getD (0, []) = (0, []) ∧
       s1.fresh.devRange 0 accStore (s1.fresh.groupPriv (fParent [] g0)) 0x58000 64 = .ok [⟨0x58000, 64, false, .c⟩] ∧
       ∀ j, j < 64 → inRegs (0x58000 + j) = false)) := by
  refine ⟨⟨issues_of ?_, ?_⟩, ⟨?_, ?_, issues_of ?_, ?_⟩, ?_⟩ <;> decide +kernel
def spawned (ok : Bool) : Pend :=
  { pendOf (.spawn (hf 2) 4 1 (.v 8) 0) (laneOf [] 0) with lanes := [], writes := [⟨.s 4, 9, false⟩, ⟨.p 1, if ok then 1 else 0, false⟩] }
theorem witness_Spawn_lands : (∀ n, (fPend (spawned true) g0).wait ≠ .drain n) ∧
    (sF (fPend (spawned true))).group? 0 = some (fPend (spawned true) g0) ∧
    (fPend (spawned true) g0).pend.find? (fun q => q.tok == (spawned true).tok) = some (spawned true) ∧
    (spawned false).lanes = [] ∧ (spawned false).poison = none :=
  ⟨fun n => by simp [fPend, g0, State.laidGroup], by decide +kernel⟩

/-- A joiner: no child named, a resident child, a queued one; while it waits, with and without room in the save area. -/
def sJoin (k : List Kid) (ctl : Dword) : State := (sParent 4 k fun g => { g with wait := .join 1 1 }).setReg (.savectl 0) ctl
theorem witness_Join :
    ((sParent 4 [⟨1, 9, false⟩] (ss [(20, 1), (21, 1)])).Issues 0 (ss [(20, 1), (21, 1)] (fParent [⟨1, 9, false⟩] g0)) h0 ∧
      g0.isEngine = false ∧ joinNames 1 1 ⟨1, 9, false⟩ ∧ ¬joinNames 1 1 ⟨2, 9, false⟩ ∧ joinNames 1 1 ⟨1, 9, true⟩) ∧
    (∀ q n, g0.wait ≠ .join q n) ∧
    (aget base.joinTries g0.uid = none ∧ aget ({ base with joinTries := [(g0.uid, true)] } : State).joinTries g0.uid ≠ none ∧
      (sCrowd 4).freeSlot 0 = none ∧ base.nextJoiner 0 = none) ∧
    (let g := { fParent [⟨1, 9, true⟩] g0 with wait := .join 1 1 }
     (sJoin [⟨1, 9, true⟩] 0).group? 0 = some g ∧ g.mayLeave = true ∧ (sJoin [⟨1, 9, true⟩] 0).engineIdle 0 g = true ∧
      (sJoin [⟨1, 9, true⟩] 0).freeSave 0 = none ∧ (sJoin [⟨1, 9, true⟩] (2 ^ 32 + 4)).freeSave 0 = some 0 ∧
      (sJoin [⟨1, 9, true⟩] (2 ^ 32 + 4)).slotsz 0 < imageKiB [g] ∧ imageKiB [g] ≤ (sJoin [⟨1, 9, true⟩] (2 ^ 32 + 4096)).slotsz 0) := by
  refine ⟨⟨issues_of ?_, ?_⟩, fun q n => ?_, ?_, ?_⟩
  · decide +kernel
  · exact ⟨by decide +kernel, by simp [joinNames, inJoin], by simp [joinNames, inJoin], by simp [joinNames, inJoin]⟩
  · simp [g0, State.laidGroup]
  · decide +kernel
  · decide +kernel

/-- Slots: none free, a joiner whose image may return, and a queued child whose ring entry stands at 0x58000. -/
def joiner : SaveImg := ⟨50, 0, 0, 0, none, [⟨{ fParent [] g0 with wait := .join 1 1, acct := 0 }, 3⟩], some 5, none, 0⟩
def sJoiner : State := { sParent 4 [] id with saved := [joiner] }
def queuedKid : RingChild := ⟨0, 60, 9, 0, 1, [], 0, 0, 0⟩
def sRing : State :=
  { sParent 4 [⟨1, 60, true⟩] id with
    mem := tables ++ image ++ cellsAt 0x58000 [1 + (1 <<< 48), 0x1234, 0, 0, 0, 0, 0, 0]
    cores := [(0, { base.core 0 with rings := [(7, (1, [queuedKid]))] })] }
theorem witness_SlotFill :
    ((sCrowd 4).freeSlot 0 = none ∧ (base.coreUp 0 = true ∧ base.freeSlot 0 = some 1)) ∧
    (sJoiner.coreUp 0 = true ∧ sJoiner.freeSlot 0 = some 1 ∧ sJoiner.nextJoiner 0 = some joiner) ∧
    (let l := launchOf 4 .running ovfWords
     let ws := (sRing.readWords 0 (sRing.ctxSup 0) (ringAddr l.overflow 0 0) 8).getD []
     let en := (sRing.readEntry 0 (sRing.ctxSup 0) (recKimg l.words) (field ws 47 40)).getD []
     sRing.coreUp 0 = true ∧ sRing.nextJoiner 0 = none ∧ (sRing.core 0).rings = [(7, (1, [queuedKid]))] ∧
      aget sRing.launches 7 = some l ∧ ws.length = 8 ∧ field ws 0 0 = 1 ∧ field ws 47 40 < l.nent ∧ en.length = 4 ∧
      entryOk en l.codeSz = true ∧ sRing.fits 0 1 (field en 40 32) (field en 52 48) (field en 79 64) = true ∧
      sRing.devRange 0 accStore (sRing.ctxSup 0) (ringAddr l.overflow 0 0) 8 = .ok [⟨0x58000, 8, false, .c⟩] ∧
      ∀ j, j < 8 → inRegs (0x58000 + j) = false) := by decide +kernel

/-- Clauses: a group that fetches a legal clause of one NOP at 0x10000, one whose words are illegal, one that cannot fetch; a group
whose clause is ready, which is urgent, the port that starts it. -/
def fFetch (g : Group) : Group := { g with clause := none }
def sFetch (w : Dword) : State := { sF fFetch with mem := tables ++ cellsAt 0x10000 [0, w, w, w] }
def fReady (stamp : Nat) (at_ : Nat) (g : Group) : Group :=
  { g with clause := some ⟨laidAddr, 0, [BitVec.ofNat 64 nopWord], [], false, 0, false⟩, stamp := stamp, readyAt := some at_ }
def sReady : State := (sF (fReady 3 0)).putGroup 1 (fReady 2 0 { g0 with uid := 1 })
def fetchOf (w : Dword) : Option (List Byte) :=
  match (sFetch w).fetchBytes 0 (fFetch g0) laidAddr 8 with
  | .bytes _ bs => some bs
  | _ => none
theorem witness_ClauseFetch :
    ((fFetch g0).headAddr = some laidAddr ∧ (fFetch g0).mayFetch = true ∧ (sFetch 0).unitUp 0 = true ∧ g0.mayFetch = false ∧
      base.group? 7 = none) ∧
    fetchOf (BitVec.ofNat 64 nopWord) = some (List.replicate 8 0) ∧
    clauseError false false 511 127 0 [BitVec.ofNat 64 nopWord] = none ∧
    (clauseError false false 511 127 0 [0xFFFFFFFFFFFFFFFF]).isSome = true ∧
    (match (base.chkFetch { g0 with pc := [] } 0x100000000000000 8) with
      | .trap _ _ => true
      | _ => false) = true ∧
    ((sFetch 0).chkFetch (fFetch g0) laidAddr 8 = .ok [⟨0x10000, 8, false, .c⟩] ∧ ((sFetch 0).core 0).icache = [] ∧ (sFetch 0).old = [] ∧
      ∀ i, i < 8 → inRegs (0x10000 + i) = false ∧ (sFetch 0).poisoned (0x10000 + i) = false) := by decide +kernel
theorem witness_ClauseStart :
    (sReady.ready (fReady 3 0 g0) = true ∧ base.ready g0 = false ∧ (fReady 3 0 g0).isUrgent 127 = false ∧ (fReady 3 0 g0).isUrgent 128 = true) ∧
    (sReady.held 0 = false ∧ sReady.coreUp 0 = true ∧ (sReady.chosen 0).map (·.1) = some 1 ∧
      ∀ x ∈ sReady.coreGroups 0, x.2.stamp < 2 ^ 64) ∧
    (∀ x ∈ base.coreGroups 0, base.ready x.2 = false) := by decide +kernel

/-- A list of partition 0 at 0x60000, whose record runs an image at 0x50000; a pushed publish word; a subscription to it. -/
def header : List Dword := [0x5A4B4931 + (1 <<< 32) + (2 <<< 40), 0x20000 <<< 32, 64, 0, 0, 0, 0, 0]
def recWords (n : Dword) : List Dword := [0x50000, 2 + 4, 2 + (1 <<< 6) + (1 <<< 36) + (n <<< 42), 0x40, 0x61000, 0x10008, 0x10000, 1]
def lists (s : State) : State :=
  (((((((s.setReg (.partcfg 0) 0x800001).setReg (.llbase 0 0) 0x60000).setReg (.llctl 0 0) 13).setReg (.llctl 0 1) 13).setReg
    (.ctxctl 0) 1).setReg (.hmap 0) 1).setReg (.lpt 0 0) 0x80)
def launchL (st : LaunchSt) (n : Dword) (next : Nat) : Launch := { launchOf 4 st (recWords n) with nextCell := next }
def sLists (ls : Assoc Launch) : State :=
  lists { sM id with
    mem := tables ++ image ++ cellsAt 0x50000 header ++ cellsAt 0x60000 (recWords 0) ++ cellsAt 0x61000 [0x1000, 5]
    groups := [], launches := ls }
def pubPush (n v : Nat) : Push := ⟨1, 0, .publish 0 n, List.replicate 8 0 ++ natLE v 8, false, ⟨[], 0⟩, 0, []⟩
def watched (w : Watcher) (pa : Nat) : Assoc (List Sub) := [(base.stackOf pa, [⟨pa / 16, w, 0⟩])]
theorem witness_PublishWords :
    ((sLists []).listOn 0 0 = true ∧ base.listOn 0 0 = false) ∧
    (({ sLists [] with pushes := [pubPush 0 1, pubPush 1 2] } : State).pushes = [] ++ pubPush 0 1 :: [pubPush 1 2] ∧
      (sLists []).higherWaits 0 0 = false ∧ ({ sLists [] with pushes := [pubPush 0 1] } : State).higherWaits 0 1 = true) ∧
    (({ sLists [] with subs := watched (.publish 0 0) 0x60038 } : State).watching (.publish 0 0) = true ∧
      (sLists []).watching (.publish 0 0) = false ∧ (sLists []).listSt 0 0 = ⟨false, false, false⟩) ∧
    ((sLists []).wordPa 0 0x60038 = some 0x60038 ∧ ((sLists []).addWatch (.publish 0 0) 0 0x60038).isSome = true ∧
      (base.addWatch (.publish 0 0) 0 (2 ^ 40)).isNone = true ∧ (lists base).wordPa 0 0x60038 = none ∧ ((sLists []).homeWord 0x60038).toNat = 1) ∧
    (let rd := ((sLists []).readWords 0 ((sLists []).ctxSup 0) 0x60000 8).getD []
     let sd := ((sLists []).readSide 0 rd).getD []
     let im := ((sLists []).readImageHead 0 rd).getD ([], [])
     rd.length = 8 ∧ sd.length = 16 ∧ recordCheck rd sd im.1 im.2 = none ∧ recordCheck rd sd [] im.2 = some 8 ∧
      (sLists []).reg (.ctxstat 0) = 0 ∧ (sLists []).ctxEn 0 = true ∧ (sLists []).ctxFn 0 = (sLists []).partFn 0 ∧ (sLists []).reg (.llhm 0 0) = 0) := by decide +kernel
/-- A dependence that is open, watched or polled, below its target and at it; a condition that runs and one that does not; a launch
that has ended. -/
theorem witness_Dependences :
    ((sLists [(7, launchL .pending 1 0)]).depOpen 7 0 = some (launchL .pending 1 0) ∧ (sLists []).depOpen 7 0 = none) ∧
    (let d (v : Nat) : Push := ⟨1, 0, .dep 7 0, natLE v 8 ++ List.replicate 8 0, false, ⟨[], 0⟩, 0, []⟩
     leNat (((d 4).data.drop 0).take 8) < 5 ∧ 5 ≤ leNat (((d 5).data.drop 0).take 8)) ∧
    ((sLists [(7, launchL .pending 1 0)]).wordPa 0 0x1000 = some 0x1000 ∧
      ((sLists [(7, launchL .pending 1 0)]).addWatch (.dep 7 0) 0 0x1000).isSome = true ∧
      ((sLists [(7, launchL .pending 1 0)]).homeWord 0x1000).toNat < 5) ∧
    (let l := launchL .ready 0 0
     aget (sLists [(7, l)]).launches 7 = some l ∧ (sLists [(7, l)]).wordPa l.ctx (BitVec.ofNat 64 (field l.words 439 384)) = some 0x10000 ∧
      (sLists [(7, l)]).homeWord 0x10000 = 0 ∧ field l.words 440 440 = 0 ∧ l.cond = none ∧
      ({ l with cond := some 1 } : Launch).cond = some 1) ∧
    ((launchL .running 0 0).live = 0 ∧ (launchL .running 0 0).ended = 0) ∧
    ((recCompctr (recWords 0)).toNat % 8 = 0 ∧
      (sLists []).devRange 0 accEngWrite ((sLists []).ctxSup 0) (recCompctr (recWords 0)) 8 = .ok [⟨0x10008, 8, false, .c⟩] ∧
      inRegs 0x10008 = false ∧ (sLists []).poisoned 0x10008 = false) := by decide +kernel
/-- The deal: an item that comes first, a core with room, a core without, and a record with two cells of three threads. -/
theorem witness_Deal :
    (let l : Launch := { launchL .placing 0 1 with skipped := true }
     let s := (sLists [(7, l)]).settlePart 0
     (sLists [(7, l)]).firstItem 0 = some (.inl 7) ∧ l.skipped = true ∧ l.st = .placing ∧ s.partOpen 0 = true ∧ s.firstItem 0 = some (.inl 7) ∧ aget s.launches 7 = some l ∧ emptyLimit l ≠ 0 ∧ recClus l.words = 0 ∧
      l.waiting = [] ∧ l.nextCell < cellCount l.words ∧ s.affinity l 1 = none ∧ s.positions 0 = [0] ∧ s.room l 0 = true ∧
      (s.cluster 0).asleep = false ∧ (base.deadEntries 0 = [] ∧ base.positions 0 = []) ∧ ({ s with groups := (List.range 32).map fun u => (u, g0) } : State).room l 0 = false) ∧
    emptyLimit { launchL .placing 0 0 with acct := 17 } = 0 ∧
    (recBase (recWords 0) 6 ≤ 64 ∧ recCell (recWords 0) ≤ 6 ∧ recWidth (recWords 0) 0 ≠ 0 ∧ recWidth (recWords 0) 1 ≠ 0) := by decide +kernel

/-! ### Witnesses: registers, saving, translation, tiers -/

/-- Partition 0: free and with a legal or an illegal request, open with a context and with none; the flags of ILLOCK. -/
def sLocked : State := base.setReg .illock 1
theorem witness_Registers :
    (∀ p, p < 8 → sLocked.partOpen p = false) ∧ (0x800001 : Dword).getLsbD 23 = true ∧ bits (0x800001 : Dword) 7 0 ≠ 0 ∧
    (sLocked.safeMode = false ∧ (sLocked.reg .illock).getLsbD 0 = true ∧ (sLocked.die 0).power = true ∧
      (base.reg .illock).getLsbD 0 = false) ∧
    ((lists base).partOpen 0 = true ∧ (lists base).ctxFn 0 = (lists base).partFn 0 ∧ (lists base).ctxEn 0 = true ∧
      ∀ c, c < 256 → (base.setReg (.partcfg 0) 0x800001).ctxEn c = false) ∧
    base.setClass 7 = base.setClass 7 ∧
    (((lists base).reg (.llctl 0 0)).getLsbD 0 = true ∧ (base.reg (.llctl 0 0)).getLsbD 0 = false) ∧
    (0 ∈ chargedTo 0 ∧ rateSum (base.reg (.bsc 0)) < rateSum 0x401 ∧ 1024 < base.admitted 0 - rateSum (base.reg (.bsc 0)) + rateSum 0x401 ∧
      ∀ j, j < 16 → ¬1024 < base.admitted j - rateSum (base.reg (.bsc 0)) + rateSum 0x400) := by decide +kernel
/-- Contexts, breakpoints, kills, queues, pools, migration commands. -/
def objectOf (st : ObjSt) : Object := ⟨0, 0x20000, 0, 0x100000, 0, 0x10000, st, 0, 0, 0, false⟩
def sHalted : State := sF fun g => { g with wait := .halted }
theorem witness_ContextRegisters :
    (((lists base).reg (.ctxctl 0)).getLsbD 0 = true ∧ ((lists base).groups.any fun g => g.2.ctx == 0) = true ∧ (∀ g ∈ base.groups, g.2.ctx ≠ 1) ∧
      (base.reg (.ctxctl 1)).getLsbD 0 = false) ∧
    (base.cell? 0).isSome = true ∧
    (sHalted.group? (32 * (48 * bits (0 : Dword) 13 11 + bits (0 : Dword) 10 5) + bits (0 : Dword) 4 0) =
      some { g0 with wait := .halted } ∧ bits (0 : Dword) 10 5 < 48) ∧
    ((base.reg (.ctxstat 0)).getLsbD 0 = false ∧ (base.groups.map (·.1)).Nodup ∧
      ((base.setReg (.ctxstat 0) 1).reg (.ctxstat 0)).getLsbD 1 = false ∧ base.packets = [] ∧ base.acks = [] ∧ base.globals = []) ∧
    ((base.reg (.prqctl 0)).getLsbD 0 = false ∧ (base.reg (.prqbase 0)).toNat + 32 * 2 ^ 6 ≤ 2 ^ 40 ∧
      ((base.setReg (.evqctl 0) 1).reg (.evqctl 0)).getLsbD 0 = true) ∧
    ((objectOf .promoting).part = 0 ∧ (objectOf .promoting).st = .promoting ∧ base.objects = []) ∧
    (let s : State := { lists base with mem := cellsAt 0x20000 [(1 <<< 32) * 16 + 8, 0, 0x30000, 0x10008] }
     let ws := s.words64 0x20000 4
     s.partOpen 0 = true ∧ field ws 83 64 ≤ 1 ∧ field ws 127 84 = 0 ∧ field ws 31 0 * 8192 % 0x10000 = 0 ∧ field ws 63 32 * 8192 % 0x10000 = 0 ∧
      field ws 63 32 * 8192 + 0x10000 ≤ 2 ^ 40) := by decide +kernel
/-- Saves: a cell that shall be saved, ready and not, without a save slot, with one too small and with room; the image returns. -/
def savedCell : CellSt := { newCell 0 0 0 none 1 512 with wantSave := true }
def fSave (g : Group) : Group := { g with clause := none }
def sSave (ctl : Dword) (f : Group → Group) : State := (sCell savedCell f).setReg (.savectl 0) ctl
def cellImage : SaveImg := ⟨50, 0, 0, 0, some { savedCell with core := none }, [⟨{ fSave g0 with acct := 0, obuf := 0 }, 3⟩], none, some 5, 0⟩
def sImage : State := lists { sM id with groups := [], cells := [], saved := [cellImage] }
theorem witness_Saving :
    ((sSave 0 fSave).cell? 0 = some savedCell ∧ (sSave 0 fSave).withdrawCell 0 = sSave 0 fSave ∧
      ((sSave 0 fSave).groups.map (·.1)).Nodup ∧ (sSave 0 fSave).cellUnits 0 = [0] ∧ (sSave 0 fSave).group? 0 = some (fSave g0) ∧
      (fSave g0).mayLeave = true ∧ (sSave 0 fSave).engineIdle 0 (fSave g0) = true ∧ g0.mayLeave = false) ∧
    ((sSave 0 fSave).freeSave 0 = none ∧ (sSave (2 ^ 32 + 4) fSave).freeSave 0 = some 0 ∧
      (sSave (2 ^ 32 + 4) fSave).slotsz 0 < imageKiB [fSave g0] ∧ imageKiB [fSave g0] ≤ (sSave (2 ^ 32 + 4096) fSave).slotsz 0) ∧
    (sImage.saved.find? (fun i => i.id == 50) = some cellImage ∧ base.saved.find? (fun i => i.id == 50) = none ∧
      sImage.partOfCtx 0 = some 0 ∧ sImage.slotThere 0 [fSave g0] = true ∧ sImage.slotThere regBase [fSave g0] = false ∧
      sImage.coreGroups 0 = [] ∧ base.coreGroups 0 ≠ [] ∧ (sImage.settlePart 0).positions 0 = [0] ∧ (sImage.settlePart 0).usable 0 = true ∧
      (sImage.settlePart 0).fits 0 1 511 0 512 = true ∧ sImage.firstItem 0 = some (.inr 50) ∧ sImage.positions 0 = [0] ∧ sImage.usable 0 = true ∧
      sImage.fits 0 1 511 0 512 = true ∧ sImage.fits 0 1 511 17 512 = false ∧ (sImage.cluster 0).asleep = false ∧
      sImage.firstItem 1 = none) := by decide +kernel

/-- A walk at level 2 and 3 of a table at 0x8000: not present, a bad entry, a pointer, a leaf with each right. -/
def sWalk (e : Dword) : State := { base with mem := cellsAt 0x8000 [e] }
def entry (hi : Nat) (pa : Dword) : Dword := (BitVec.ofNat 64 hi <<< 56) + pa
def walkAt (s : State) : Walk := s.walk1 0 0 ⟨true, false, false⟩ false [] [] [0, 1, 2, 3] 0 0x8000
theorem witness_Translation :
    (base.ctxGuest 0 = false ∧ inHbm 0x8000 = true ∧ inHbm (2 ^ 40) = false) ∧
    ((sWalk 0).word64 0x8000 = 0 ∧ ((sWalk (entry 0x80 0)).word64 0x8000).getLsbD 63 = true ∧
      bits ((sWalk (entry 0x80 0)).word64 0x8000) 55 45 = 0 ∧ bits (entry 0x80 0 + (1 <<< 45)) 55 45 ≠ 0 ∧
      (entry 0xC8 0).getLsbD 62 = true ∧ bits (entry 0xC8 0) 61 60 = 0 ∧ (entry 0xC8 0).getLsbD 59 = true ∧ (entry 0xC8 0).getLsbD 56 = false ∧
      bits (entry 0xF8 0) 61 60 = 3 ∧ (entry 0xC9 0).getLsbD 56 = true ∧ (entry 0xC4 0).getLsbD 59 = false) ∧
    (match (sM id).walk 0 0x10000 accLoad false with
      | .ok .. => true
      | .fault .. => false) = true ∧
    (match base.walk 0 0x10000 accLoad false with
      | .ok .. => false
      | .fault .. => true) = true := by decide +kernel
def isFault : LaneChk → Bool
  | .fault .. => true
  | _ => false
/-- Page requests: one whose record is to come, with the queue on and off; a parked lane whose request is answered. -/
def sPrq (ctl : Dword) : State := { base.setReg (.prqctl 0) ctl with requests := [{ request with written := false }] }
def parked : Pend := pendOf (.ldb (hf 2) .b32 4 (.v 8) 0 false false) { laneOf [] 0 with addr := 0x10010, st := .parked 7 }
def walking : Pend := pendOf (.ld (hf 2) .b32 4 (.v 8) 0 0 0) { laneOf [] 0 with addr := 0x10010, st := .walking }
theorem witness_PageRequests :
    ((sPrq 13).requests.find? (fun q => q.fn == 0 && q.tag.isSome && !q.written) = some { request with written := false } ∧
      ((sPrq 0).reg (.prqctl 0)).getLsbD 0 = false ∧ ((sPrq 13).reg (.prqctl 0)).getLsbD 0 = true ∧
      (bits ((sPrq 13).reg (.prqctl 0)) 63 32 + 2 ^ 32 - bits ((sPrq 13).reg (.prqhead 0)) 31 0) % 2 ^ 32 ≠ 64 ∧
      base.requests.find? (fun q => q.fn == 0 && q.tag.isSome && !q.written) = none) ∧
    ((sM (fPend parked)).group? 0 = some (fPend parked g0) ∧ (fPend parked g0).pend.find? (fun p => p.tok == 1) = some parked ∧
      parked.lanes = [{ laneOf [] 0 with addr := 0x10010, st := .parked 7 }] ∧ (sM (fPend parked)).outstanding 7 = false ∧
      ({ base with requests := [request] } : State).outstanding 7 = true ∧
      (sM id).chkVa 0 accLoad false 0x10010 4 1 none = .ok [⟨0x10010, 4, false, .c⟩] ∧
      isFault (base.chkVa 0 accLoad false 0x10010 4 1 none) = true ∧
      (match (sM id).chkVa 0 accLoad false 0x100000000000000 4 1 none with
        | .trap _ _ => true
        | _ => false) = true ∧
      (sS id).chkVa 0 accLoad false 0x10010 4 1 none = .ok [⟨0x10010, 4, false, .s⟩] ∧ (fPend parked g0).taking = none ∧
      (fPend parked g0).resume = none ∧ (fPend parked g0).wait ≠ .exit) ∧
    ((sM (fPend walking)).groups = [(0, fPend walking g0)] ∧ (fPend walking g0).pend = [walking] ∧
      walking.lanes = [{ laneOf [] 0 with addr := 0x10010, st := .walking }] ∧ (0x10010 : Dword).toNat / 65536 = 1) := by decide +kernel
/-- A migration that may go on, and one that an earlier move of the same frame holds up. -/
def move (id : Nat) (obj : Option Nat) : Move := ⟨id, 0, 0x100000, 0x200000, 0x10000, 0x30000, 0x10008, obj⟩
theorem witness_Migration :
    (let s : State := { base with moves := [move 4 none] }
     s.moves.find? (fun m => m.id == 4 && m.object.isNone) = some (move 4 none) ∧ s.moveBlocked (move 4 none) = false ∧
      relocate 0x100000 0x200000 0x10000 0x30000 = 0x30000 ∧ relocate 0x100000 0x200000 0x10000 0x10008 = 0x10008) ∧
    apart 0x100000 0x200000 0x10000 ∧ apart 0x30000 0x10008 8 ∧
    ({ base with moves := [move 3 none, move 4 none] } : State).moveBlocked (move 4 none) = true ∧
    base.moves.find? (fun m => m.id == 4 && m.object.isNone) = none := by
  refine ⟨by decide +kernel, ?_, ?_, by decide +kernel, by decide +kernel⟩ <;> (unfold apart; omega)
/-- Tier requests on an object whose entry stands at 0x20000: refused, touched, demoted, watched, promoted; its moves and its age. -/
def tierReq (kind : TierKind) : TierReq := ⟨5, 0, 0, 0x20000, kind, none, 0, none, false, none, 0, none, noWait⟩
def tierEntry (size : Dword) : List Dword := [0, 0x100000, 0, size, 0, 0, 0, 0]
def sTier (kind : TierKind) (size : Dword) (os : List Object) : State :=
  { (lists { sM id with mem := tables ++ cellsAt 0x20000 (tierEntry size) }).setReg (.tierpool 0 0) (16 <<< 16) with
    tierReqs := [tierReq kind], objects := os }
def tierRange (s : State) : Bool :=
  match s.planRanges 0 accEngWrite false 0 8 [(0x20000, 64)] with
  | .ok [[p]] => p == ⟨0x20000, 64, false, .c⟩
  | _ => false
theorem witness_TierRequests :
    (tierRange (sTier .touch 0x10000 []) = true ∧ (tierReq .touch).entry.toNat % 64 = 0 ∧
      ((sTier .touch 0x10000 []).partDies 0).testBit 0 = true ∧ bits ((sTier .touch 0x10000 []).reg (.tierpool 0 0)) 31 16 = 16) ∧
    (let ws := (sTier .touch 0x10000 []).words64 0x20000 8
     field ws 3 0 = 0 ∧ field ws 63 4 = 0 ∧ field ws 127 64 = 0x100000 ∧ field ws 255 192 = 0x10000 ∧ field ws 319 256 = 0 ∧
      field ws 431 356 = 0 ∧ field ((sTier .touch 0 []).words64 0x20000 8) 255 192 = 0) ∧
    ((sTier .demote 0x10000 [objectOf .basin]).objectAt 0 0x20000 = some (objectOf .basin) ∧
      (sTier .demote 0x10000 []).objectAt 0 0x20000 = none) ∧
    ((sTier .promote 0x10000 []).poolFit 0 0 1 (fun _ => false) = some 0 ∧ (sTier .promote 0x10000 []).subs = [] ∧
      0x100000 ≤ 16 * (0x100000 / 16) ∧ 16 * (0x100000 / 16) < 0x100000 + 0x10000) ∧ base.tierReqs = [] := by decide +kernel
theorem witness_TierMoves :
    (let m : Move := ⟨4, 0, 0x100000, windowBase 0, 0x10000, 0, 0, some 0x20000⟩
     let s : State := { sTier .promote 0x10000 [objectOf .promoting] with moves := [m] }
     s.moves.find? (fun m => m.id == 4 && m.part == 0) = some m ∧ s.objectAt 0 0x20000 = some (objectOf .promoting) ∧
      s.moveBlocked m = false ∧ (0x20000 + 64 ≤ 0x100000 ∧ 0x20000 + 64 ≤ windowBase 0)) ∧
    apart 0x100000 (windowBase 0) 0x10000 ∧
    (let o : Object := { objectOf .basin with due := true }
     let s : State := { base with objects := [o] }
     s.objectAt 0 0x20000 = some o ∧ (objectOf .basin).due = false ∧ o.st ≠ .hbm ∧ (objectOf .basin).sampled ≠ s.now / 1000 + 1 ∧
      ({ base with objects := [objectOf .basin] } : State).objectAt 0 0x20000 = some (objectOf .basin) ∧ base.objectAt 0 0x20000 = none) := by
  refine ⟨by decide +kernel, ?_, by decide +kernel⟩
  unfold apart windowBase; omega

/-! ### Witnesses: power, errors, boot, host, links -/

/-- Windows and intervals at their instants and between them; the pair of a ballast turn; a timer that is set and one that is not; a
cluster that may sleep, one that sleeps and wakes; dies and permits. -/
def sAt (t : Nat) : State := { base with now := t }
def withCluster (f : ClusterSt → ClusterSt) (s : State) : State := { s with clusters := aput s.clusters 0 (f (s.cluster 0)) }
def sAsleep : State := withCluster (fun c => { c with asleep := true }) base
def sNap (t : Nat) : State := { (base.setReg (.retctl 0) 1) with groups := [], now := t }
theorem witness_Power :
    ((sAt 32).now % 32 = 0 ∧ ((sAt 32).cluster 0).window ≠ 32 ∧ (sAt 33).now % 32 ≠ 0 ∧
      ((sAt 5000).die 0).boundary ≠ 5000 ∧ (sAt 5001).now % 5000 ≠ 0) ∧
    (let heavy := 10; let low := 2; heavy < 10 * (heavy - low)) ∧
    ((∀ k ∈ ([0, 1] : List Nat), (base.cluster k).lighter = false) ∧
      (let s := withCluster (fun c => { c with lighter := true }) base
       (s.cluster 0).lighter = true ∧ (s.cluster 1).lighter = false ∧ (s.cluster 1).heldIn = false)) ∧
    ((base.reg (.ctxstat 0)).getLsbD 0 = false ∧ base.timerSet = false ∧ ({ base with timerSet := true } : State).timerSet = true ∧
      999800 ≤ 1000000 ∧ 1000201 > 1000200) ∧
    ((base.setReg (.boost 0) 1).claims 0 = [0] ∧ base.claims 0 = [] ∧ (base.die 0).permits < 100) ∧
    (((sNap 5).reg (.retctl 0)).getLsbD 0 = true ∧ ((sNap 5).cluster 0).asleep = false ∧ ((sNap 5).cluster 0).offline = false ∧
      (sNap 5).clusterIdle 0 = true ∧ ((sNap 5).cluster 0).idleSince + 1000 * bits ((sNap 5).reg (.retctl 0)) 63 32 ≤ 5 ∧
      (sNap 5).groups = [] ∧ (base.cluster 0).asleep = false) ∧
    ((sAsleep.cluster 0).asleep = true ∧ sAsleep.wakes 0 = true ∧ (sNap 5).wakes 0 = false ∧ (∀ x ∈ sAsleep.groups, x.2.wait = .no) ∧
      sAsleep.group? 0 = some g0 ∧ clusterOf (coreOf 0) = 0 ∧ (12 : Nat) ≠ 0 ∧ g0.ldbc = false ∧
      (∃ q ∈ base.cells, q.2.core = some 0)) := by
  refine ⟨by decide +kernel, by decide, by decide +kernel, by decide +kernel, by decide +kernel, by decide +kernel, ?_⟩
  refine ⟨by decide +kernel, by decide +kernel, by decide +kernel, by decide +kernel, by decide +kernel, by decide +kernel,
    by decide, by decide +kernel, by decide +kernel⟩
/-- Errors: sites inside and outside a die, a cell, a group; the patrol on and off; the queue of events on and off. -/
theorem witness_Errors :
    (base.siteDie (.memory 0) = none ∧ base.siteDie (.memory (windowBase 3)) = some 3 ∧ (base.cell? 0).isSome = true ∧
      base.group? 0 = some g0 ∧ base.group? 5 = none ∧ base.siteDie (.operandBuffer 5 0) = none) ∧
    (bits (base.reg .patrol) 31 0 = 0 ∨ bits (base.reg .patrol) 31 0 ≠ 0) ∧
    (bits ((base.setReg .patrol 9).reg .patrol) 31 0 ≠ 0 ∧ (base.setReg .patrol 9).openParts = []) ∧
    ((base.reg (.evqctl 0)).getLsbD 0 = false ∧ ((base.setReg (.evqctl 0) 13).reg (.evqctl 0)).getLsbD 0 = true ∧
      (bits ((base.setReg (.evqctl 0) 13).reg (.evqctl 0)) 63 32 + 2 ^ 32 - bits (base.reg (.evqhead 0)) 31 0) % 2 ^ 32 ≠ 64) := by
  decide +kernel

/-- The mailbox: a command of each code and none; firmware images that break the header (whether one verifies is free); a die that may
lose its power, one that has lost it, one in use. -/
def sMail (cmd : Dword) : State := { (base.setReg .bmstat 1).setReg .bmcmd cmd with groups := [] }
theorem witness_Mailbox :
    (firmwareOk [] = false ∧ ¬leNat ((([] : List Byte).drop 0).take 4) = 0x5A4B4657) ∧
    ((sMail 1).command 1 = some 0 ∧ (sMail 4).command 4 = some 0 ∧ (sMail 6).command 6 = some 0 ∧ (sMail 0x90005).command 5 = some 9 ∧
      (sMail 0x100000002).command 2 = some 0x10000 ∧ base.command 1 = none ∧ base.command 4 = none ∧ base.command 6 = none) ∧
    ((sMail 2).openParts = [] ∧ (lists base).openParts ≠ [] ∧ leNat (base.bytes 16 8) ≤ 0x4000000 ∧ 0 + 512 ≤ 2 ^ 40 ∧
      0 + (512 + leNat (base.bytes 16 8) + 384 + 16224) ≤ 2 ^ 40 ∧ 2 ^ 40 < 2 ^ 40 - 8 + 512) ∧
    ((sMail 3).command 3 = some 0 ∧ (sMail 0x10003).command 3 = some 1 ∧ ((sMail 3).die 0).power = true ∧ (sMail 3).dieSlots 0 = [] ∧
      (sMail 3).groups = [] ∧ (sMail 3).objects = [] ∧ (∃ x ∈ base.groups, x.1 < 12288 ∧ unitDie x.1 = 0) ∧
      (({ sMail 3 with dies := aput base.dies 0 { base.die 0 with power := false } } : State).die 0).power = false) := by
  refine ⟨by decide +kernel, by decide +kernel, by decide +kernel, by decide +kernel, by decide +kernel, by decide +kernel, by decide +kernel,
    by decide +kernel, by decide +kernel, ⟨(0, g0), by decide +kernel, by decide +kernel, by decide +kernel⟩, by decide +kernel⟩
/-- Packages whose wiring is right and not; firmware that runs, with its measurement to take, and firmware that does not. -/
theorem witness_Boot :
    (base.wiring = [] ∧ ({ base with wiring := [3] } : State).wiring ≠ []) ∧
    (({ base with fwUp := true, safeMode := false } : State).fwUp = true ∧ agetD 0 base.mr 1 = 0 ∧
      ¬(({ base with safeMode := true } : State).fwUp = true ∧ ({ base with safeMode := true } : State).safeMode = false)) := by
  decide +kernel
/-- Host writes through BAR 0, to memory and under a context, of the physical function and of a virtual one. -/
theorem witness_Host :
    (inRegs 0x18000000000 = true ∧ (regAt 0x18000000000).isSome = true ∧ 0x400000 ≤ 0x400000 ∧ 0x10 < 0x400000 ∧
      (∃ p, (lists base).partOfFn ((lists base).partFn 0) = some p) ∧ base.partOfFn 1 = none ∧ (base.setReg (.ctxctl 0) 0x20010001).ctxFn 0 = 1 ∧ base.ctxFn 0 ≠ 1) ∧
    (inRegs 0x10000 = false ∧ base.physOk 0x10000 1 = true ∧ base.physOk (windowBase 0) 1 = true ∧ inHbm (windowBase 0) = false ∧
      inHbm 0x10000 = true ∧ ¬(base.reg .illock).getLsbD 0 = true ∧ (sLocked.reg .illock).getLsbD 0 = true ∧
      sLocked.physOk 0x10000 1 = true ∧ base.physOk 0x18000400000 1 = false) ∧
    (sM id).devRange 0 accEngWrite ((sM id).ctxSup 0) 0x10000 1 = .ok [⟨0x10000, 1, false, .c⟩] ∧
    (∀ j, j < 1 → inRegs (0x10000 + j) = false) := by
  refine ⟨⟨by decide +kernel, by decide +kernel, by decide, by decide, ⟨0, by decide +kernel⟩, by decide +kernel, by decide +kernel, by decide +kernel⟩,
    by decide +kernel, by decide +kernel, fun j h => ?_⟩
  obtain rfl : j = 0 := by omega
  decide +kernel
/-- Global packets: of each kind, to be routed, routed, out; a route to the stack of the packet's own entry, to another, to none. -/
def globOf (a : Dword) (src : Nat) (what : GlobWhat) : GlobPacket := ⟨4, a, 0, 0, src, some 0, none, 0, ⟨[], 0⟩, false, what⟩
def globStore : GlobPacket := globOf 0x200000010000 0 (.store { packet (.write [(0x8000200000010000, 7)] [] []) false with
  pa := 0x8000200000010000, glob := some 0x200000010000 })
def foreignOf (a : Dword) (r : ForeignReq) : GlobPacket := globOf a 0x10000 (.foreign r)
def bound (q : GlobPacket) : GlobPacket := { q with home := some 0 }
def sRoute (e : Dword) (q : GlobPacket) : State := { base.setReg (.route 0 40) e with globals := [q] }
def roomIn (s : State) (q : GlobPacket) (home : Nat) : Bool :=
  decide ((s.seqOf q.src home + 65536 - s.doneOf q.src home) % 65536 < 256) && s.affords q.payer .release (s.globalSize q)
theorem witness_GlobalRoute :
    (base.globals.all (fun q => !(q.out && q.port == 0)) = true ∧ base.globals.find? (fun q => q.id == 4) = none ∧ base.links = []) ∧
    ((sRoute 0x80 globStore).globals.find? (fun q => q.id == 4) = some globStore ∧ globStore.out = false ∧ globStore.home = none ∧
      bits (0x10000 : Dword) 62 45 = bits (base.reg .gident) 21 4 ∧ bits (0x200000010000 : Dword) 48 45 ≠ bits (base.reg .gident) 7 4 ∧
      bits (0x200000010000 : Dword) 62 49 = bits (base.reg .gident) 21 8) ∧
    ((sRoute 0x8000 globStore).globalClear globStore = true ∧
      (let q := globOf 0x200000010000 0 (.store { packet (.write [] [] []) false with after := [9] })
       let s : State := { sRoute 0x8000 q with acks := [{ ackOf 0 0 [] with stamp := 9 }] }
       s.globalClear q = false) ∧
      bits ((sRoute 0x8000 globStore).reg (.route 0 ((320 + 1) / 8))) 15 8 = 128 ∧
      bits ((sRoute 0 globStore).reg (.route 0 ((320 + 1) / 8))) 15 8 < 128 ∧
      roomIn (sRoute 0x8000 globStore) globStore 0 = true ∧
      roomIn ({ sRoute 0x8000 globStore with seqs := [(orderKey 0 0, 256)] }) globStore 0 = false ∧
      roomIn (sRoute 0 (foreignOf 0x10000 (.read 8))) (foreignOf 0x10000 (.read 8)) 0 = true) ∧
    ((sRoute 0x8000 (bound globStore)).globals.find? (fun q => q.id == 4) = some (bound globStore) ∧ (bound globStore).trip.way = [] ∧
      (bound globStore).seq = base.doneOf 0 0 ∧ ({ bound globStore with seq := 1 } : GlobPacket).seq ≠ base.doneOf 0 0) ∧
    (base.physOk 0x10000 8 = true ∧ inRegs 0x10000 = false ∧ inRegs 0x10008 = false ∧
      (bound (foreignOf 0x10000 (.write [7] none))).seq = base.doneOf 0x10000 0) := by decide +kernel
/-- A RouteFail of a store and of a lane; a store that has left and is answered. -/
theorem witness_RouteFail :
    ((packet (.write [(0x10000, 7)] [] []) false).body ≠ .marker ∧ globStore.src / 0x1000 ≠ 3) ∧
    (let p := landing (.ldb (hf 2) .b32 4 (.v 8) 0 false false) 4
     (sF (fPend p)).group? 0 = some (fPend p g0) ∧ (fPend p g0).pend.find? (fun q => q.tok == 1) = some p ∧
      p.lanes.find? (fun l => l.lane == 0) = some (laneOf [⟨0x10008, 4, false, .u⟩] 0) ∧ (fPend p g0).taking = none ∧
      (fPend p g0).wait = .no) ∧
    (let q := { globStore with out := true }
     (sRoute 0 q).globals.find? (fun x => x.id == 4 && x.out) = some q ∧ inRegs 0x8000200000010000 = false ∧
      (2 : Nat) ^ 63 ≤ 0x8000200000010000) := by decide +kernel
/-- Stacks and dies of the grid. -/
theorem witness_Links : (∃ p, p < 6 ∧ neighbour 0 p = some 1) ∧ hops 0 5 = 2 ∧ inHbm (windowBase 2 + 8) = false ∧
    basinOf (windowBase 2 + 8) = some (2, 8) :=
  ⟨⟨0, by decide +kernel, by decide +kernel⟩, by decide +kernel, by decide +kernel, by decide +kernel⟩

end Sys2Proof.Tests
end

section
/-! PROOF. SEL and PERM (06 R157, R166): their results by the laws of the forms of kind F, and the fields that the decoder
demands of their words. -/

namespace Sys2Proof.Machine

/-! ### What the decoder answers -/

/-- The instruction that the decoder result `r` holds, if it holds one, satisfies `P`. -/
def Answers (P : Instr → Prop) (r : Except DecodeError Instr) : Prop := ∀ i, r = .ok i → P i

section
variable {P : Instr → Prop}

@[simp] theorem answers_ok {i : Instr} : Answers P (.ok i) ↔ P i :=
  ⟨fun H => H i rfl, fun H _ e => Except.ok.inj e ▸ H⟩

@[simp] theorem answers_error {e : DecodeError} : Answers P (.error e) := fun _ c => by cases c

@[simp] theorem answers_bind {α : Type} {x : Except DecodeError α} {f : α → Except DecodeError Instr} :
    Answers P (x >>= f) ↔ ∀ a, x = .ok a → Answers P (f a) := by
  cases x with
  | error e => exact ⟨fun _ _ c => (by cases c), fun _ => answers_error⟩
  | ok a => exact ⟨fun H _ e => Except.ok.inj e ▸ H, fun H => H a rfl⟩

@[simp] theorem answers_ite {c : Prop} [Decidable c] {x y : Except DecodeError Instr} :
    Answers P (if c then x else y) ↔ (c → Answers P x) ∧ (¬c → Answers P y) := by
  by_cases hc : c <;> simp [hc]

/-- The value checks of a word refuse instructions and change none (04 R97). -/
theorem answers_decodeWord {w : Dword} (H : Answers P (parseWord w)) : Answers P (decodeWord w) := by
  unfold decodeWord
  split
  next => exact answers_error
  next i e => exact answers_ite.mpr ⟨fun _ => answers_ok.mpr (H i e), fun _ => answers_error⟩

end

theorem zero_eq_ok {n : Nat} {x : BitVec n} {r : Unit} : zero x = .ok r ↔ x = 0 := by
  unfold zero
  split <;> simp_all

theorem predOf_eq_ok {x : BitVec 10} {p : BitVec 3} : predOf x = .ok p ↔ x.toNat < 8 ∧ x.setWidth 3 = p := by
  unfold predOf
  split <;> simp_all

/-- A predicate source in C leaves C[9:3] zero and is C[2:0] (04 R89). -/
theorem fields_of_predOf_fC {w : Dword} {p : BitVec 3} (e : predOf (fC w) = .ok p) :
    w.extractLsb' 3 7 = 0 ∧ p = w.extractLsb' 0 3 := by
  obtain ⟨hlt, rfl⟩ := predOf_eq_ok.mp e
  constructor
  · apply BitVec.eq_of_toNat_eq
    simp only [fC, BitVec.extractLsb'_toNat, Nat.shiftRight_eq_div_pow] at hlt ⊢
    change _ = 0
    omega
  · apply BitVec.eq_of_toNat_eq
    simp [fC]

/-- What the decoder demands of the fields of a word that holds SEL or PERM. -/
@[simp] def LaneFields (w : Dword) : Instr → Prop
  | .sel _ x => w.extractLsb' 3 7 = 0 ∧ x.p = w.extractLsb' 0 3
  | .perm .. => fMod w = 0
  | _ => True

/-! The rule per family of the opcode map: 0x2 answers SEL and 0x8 answers PERM; the others answer neither. -/

section
variable (h : Head) (w : Dword)

theorem laneFields_decodeControl : Answers (LaneFields w) (decodeControl h w) := by
  unfold decodeControl
  refine answers_bind.mpr fun _ _ => ?_
  split
  case h_2 => -- BRA
    refine answers_bind.mpr fun _ _ => ?_
    split <;> simp
  all_goals simp

theorem laneFields_decodeInt : Answers (LaneFields w) (decodeInt h w) := by
  unfold decodeInt
  split
  case h_26 => -- MOV
    split <;> simp
  case h_40 => -- SEL
    simp only [answers_ite, answers_bind, answers_ok, answers_error, LaneFields]
    refine ⟨fun _ => trivial, ?_⟩
    intros
    exact fields_of_predOf_fC ‹predOf (fC w) = .ok _›
  all_goals simp

theorem laneFields_decodeCmp : Answers (LaneFields w) (decodeCmp h w) := by
  unfold decodeCmp
  split <;> simp

theorem laneFields_decodeFloat : Answers (LaneFields w) (decodeFloat h w) := by
  unfold decodeFloat
  split <;> simp

theorem laneFields_decodeCvt : Answers (LaneFields w) (decodeCvt h w) := by
  unfold decodeCvt
  split <;> simp

theorem laneFields_decodeCross : Answers (LaneFields w) (decodeCross h w) := by
  unfold decodeCross
  split
  case h_1 => -- PERM
    simp only [answers_bind, answers_ok, LaneFields]
    intros
    exact zero_eq_ok.mp ‹zero (fMod w) = .ok _›
  all_goals simp

theorem laneFields_decodeMem : Answers (LaneFields w) (decodeMem h w) := by
  unfold decodeMem
  split <;> simp

theorem laneFields_decodeAsync : Answers (LaneFields w) (decodeAsync h w) := by
  unfold decodeAsync
  split <;> simp

theorem laneFields_decodeMatrix : Answers (LaneFields w) (decodeMatrix h w) := by
  unfold decodeMatrix
  split
  case h_2 => -- RSV
    simp only [answers_bind]
    intros
    split <;> simp
  all_goals simp

theorem laneFields_decodeSync : Answers (LaneFields w) (decodeSync h w) := by
  unfold decodeSync
  split <;> simp

theorem laneFields_decodeEngine : Answers (LaneFields w) (decodeEngine h w) := by
  unfold decodeEngine
  split
  case h_6 => -- ROUTE
    simp only [answers_bind]
    intros
    split <;> simp
  all_goals simp

theorem laneFields_decodePriv : Answers (LaneFields w) (decodePriv h w) := by
  unfold decodePriv
  refine answers_bind.mpr fun _ _ => ?_
  split
  case h_3 => -- TLBINV, whose page forms take an s register
    simp only [answers_bind]
    intros
    split
    case h_1 | h_3 =>
      refine answers_bind.mpr fun _ _ => ?_
      split <;> simp
    all_goals simp
  all_goals simp

theorem laneFields_parseWord : Answers (LaneFields w) (parseWord w) := by
  simp only [parseWord]
  split
  · exact laneFields_decodeControl _ w
  · exact laneFields_decodeInt _ w
  · exact laneFields_decodeInt _ w
  · exact laneFields_decodeCmp _ w
  · exact laneFields_decodeFloat _ w
  · exact laneFields_decodeFloat _ w
  · exact laneFields_decodeCvt _ w
  · exact laneFields_decodeCvt _ w
  · exact laneFields_decodeCross _ w
  · exact laneFields_decodeMem _ w
  · exact laneFields_decodeMem _ w
  · exact laneFields_decodeAsync _ w
  · exact laneFields_decodeMatrix _ w
  · exact laneFields_decodeSync _ w
  · exact laneFields_decodeEngine _ w
  · exact laneFields_decodePriv _ w

end

theorem laneFields_decodeWord (w : Dword) : Answers (LaneFields w) (decodeWord w) :=
  answers_decodeWord (laneFields_parseWord w)

/-! ### The results -/

theorem fromLane_of_lt (s : State) (u : Nat) (g : Group) (a : Src) (other : Word) {j : Nat} (hj : j < 64) :
    fromLane s u g a j other = if g.present.getLsbD j = true then src32 s u g j a else other := by
  have hj' : (j : Int) < 64 := by exact_mod_cast hj
  simp [fromLane, hj']

/-- The lane `i mod W` that PERM reads is lane i of A below W and lane i − W of C from there on (06 R166). -/
theorem perm_source (s : State) (u : Nat) (g : Group) (a c : Src) {i : Nat} (hi : i < 128) :
    (if g.present.getLsbD (i % 64) = true then src32 s u g (i % 64) (if i < 64 then a else c) else 0) =
      if i < 64 then fromLane s u g a i 0 else fromLane s u g c (i - 64) 0 := by
  by_cases hA : i < 64
  · rw [if_pos hA, if_pos hA, Nat.mod_eq_of_lt hA, fromLane_of_lt s u g a 0 hA]
  · have hmod : i % 64 = i - 64 := by omega
    have hlane : (i : Int) - 64 = ((i - 64 : Nat) : Int) := by omega
    rw [if_neg hA, if_neg hA, hmod, hlane, fromLane_of_lt s u g c 0 (by omega)]

/-- PERM is the cross-lane form with R166's choice among the 2W values. -/
theorem exec_perm (h : Head) (d : BitVec 9) (a b c : Src) (s : State) :
    exec (.perm h d a b c) s = cross h d s fun u g _ L =>
      let i := (src32 s u g L b).toNat % 128
      if i < 64 then fromLane s u g a i 0 else fromLane s u g c (i - 64) 0 := by
  show execPerm h d a b c s = _
  unfold execPerm
  congr
  funext u g _ L
  exact perm_source s u g a c (Nat.mod_lt _ (by decide))

/-- Settles O6: SEL is a form of kind F (06 R157), and the decoder takes its predicate from C. -/
theorem select : Obligations.Select := by
  unfold Obligations.Select
  exact ⟨fun _ _ => formF_writes fun _ => rfl, fun w _ _ e => laneFields_decodeWord w _ e⟩

/-- Settles O20: PERM reads the lane of A or C that R166 names, and the decoder refuses a nonzero MOD. -/
theorem permute : Obligations.Permute := by
  unfold Obligations.Permute
  exact ⟨fun h d a b c => cross_writes (exec_perm h d a b c), fun w _ _ _ _ _ e => laneFields_decodeWord w _ e⟩

end Sys2Proof.Machine
end

section
/-! PROOF. FCLASS (08 R199): the class of a code is the class of its value, and the fields that the decoder demands to be
zero. -/

namespace Sys2Proof.Machine

/-! ### The class of a code -/

theorem abs_rat_fin (n : Bool) (m : Nat) (e : Int) : |(FVal.fin n m e).rat| = m * 2 ^ e := by
  cases n <;> simp [FVal.rat, abs_mul]

/-- The class of a finite value depends on its magnitude in units of 2^e (08 R199). -/
theorem classOfVal_fin (n : Bool) (m : Nat) (e : Int) :
    classOfVal (.fin n m e) =
      if m = 0 then (if n then 3 else 4)
      else if (m : ℚ) * 2 ^ e < 2 ^ (-126 : ℤ) then (if n then 2 else 5)
      else if n then 1 else 6 := by
  rw [← abs_rat_fin n m e]
  rfl

/-- A nonzero fraction in units of 2^−149 lies below the least normal magnitude. -/
theorem classOfVal_subnormal (n : Bool) {f : Nat} (h0 : f ≠ 0) (hf : f < 2 ^ 23) :
    classOfVal (.fin n f (-149)) = if n then 2 else 5 := by
  have hq : (f : ℚ) < 2 ^ 23 := by exact_mod_cast hf
  have hlt : (f : ℚ) * 2 ^ (-149 : ℤ) < 2 ^ (-126 : ℤ) :=
    calc (f : ℚ) * 2 ^ (-149 : ℤ) < 2 ^ 23 * 2 ^ (-149 : ℤ) := by gcongr
      _ = 2 ^ (-126 : ℤ) := by norm_num
  rw [classOfVal_fin, if_neg h0, if_pos hlt]

/-- A significand with its leading bit, in units of 2^(e − 150), is no less than the least normal magnitude. -/
theorem classOfVal_normal (n : Bool) (f : Nat) {e : Nat} (he : e ≠ 0) :
    classOfVal (.fin n (2 ^ 23 + f) (e - 150)) = if n then 1 else 6 := by
  have hm : (2 : ℚ) ^ 23 ≤ ((2 ^ 23 + f : Nat) : ℚ) := by exact_mod_cast Nat.le_add_right _ f
  have hle : (2 : ℚ) ^ (-126 : ℤ) ≤ ((2 ^ 23 + f : Nat) : ℚ) * 2 ^ ((e : ℤ) - 150) :=
    calc (2 : ℚ) ^ (-126 : ℤ) = 2 ^ 23 * 2 ^ (-149 : ℤ) := by norm_num
      _ ≤ ((2 ^ 23 + f : Nat) : ℚ) * 2 ^ ((e : ℤ) - 150) := by
        gcongr
        · norm_num
        · omega
  rw [classOfVal_fin, if_neg (by omega), if_neg hle.not_gt]

/-- The value of an FP32 code by its fields (07 R174). -/
theorem f32_eq (x : Word) :
    f32 x =
      if x.toNat / 2 ^ 23 % 256 = 255 then (if x.toNat % 2 ^ 23 = 0 then .inf (x.getLsbD 31) else .nan)
      else if x.toNat / 2 ^ 23 % 256 = 0 then .fin (x.getLsbD 31) (x.toNat % 2 ^ 23) (-149)
      else .fin (x.getLsbD 31) (2 ^ 23 + x.toNat % 2 ^ 23) ((x.toNat / 2 ^ 23 % 256 : Nat) - 150) := by
  have hneg : x.toNat.testBit 31 = x.getLsbD 31 := rfl
  simp [f32, Fmt.decode, Fmt.emin, fp32, hneg, sub_sub]

/-- The class bit that FCLASS takes from a code is the class of the code's value (08 R199). -/
theorem fclassBit_eq_classOfVal (x : Word) : fclassBit x = classOfVal (f32 x) := by
  rw [f32_eq]
  unfold fclassBit
  have hf : x.toNat % 2 ^ 23 < 2 ^ 23 := Nat.mod_lt _ (by decide)
  generalize x.toNat / 2 ^ 23 % 256 = e
  generalize x.toNat % 2 ^ 23 = f at hf ⊢
  generalize x.getLsbD 31 = n
  by_cases htop : e = 255
  · by_cases hf0 : f = 0 <;> simp [htop, hf0, classOfVal]
  by_cases hsub : e = 0
  · by_cases hf0 : f = 0
    · simp [hsub, hf0, classOfVal]
    · rw [if_neg htop, if_pos hsub, classOfVal_subnormal n hf0 hf]
      simp [hsub, hf0]
  · rw [if_neg htop, if_neg hsub, classOfVal_normal n f hsub]
    simp [htop, hsub]

theorem classOfVal_le (v : FVal) : classOfVal v ≤ 8 := by
  unfold classOfVal
  split
  case h_1 => exact le_rfl
  all_goals split_ifs <;> decide

/-- A single bit of a 32-bit result, as the result of a form. -/
theorem plain_twoPow {k : Nat} (hk : k < 32) : plain (BitVec.twoPow 32 k) = (BitVec.ofNat 64 (2 ^ k), 0) := by
  have hlt : 2 ^ k < 2 ^ 32 := Nat.pow_lt_pow_right (by decide) hk
  refine Prod.ext (BitVec.eq_of_toNat_eq ?_) rfl
  simp only [plain, BitVec.toNat_setWidth, BitVec.toNat_twoPow, BitVec.toNat_ofNat, Nat.mod_eq_of_lt hlt]

/-- FCLASS is the vector form that writes the bit of the class of a's value. -/
theorem exec_fclass (h : Head) (d : BitVec 9) (a : Src) (s : State) :
    exec (.fclass h d a) s = vecF h d.toNat false s fun u g L =>
      plain (BitVec.twoPow 32 (classOfVal (f32 (srcF32 s u g L a)))) := by
  show execFclass h d a s = _
  unfold execFclass fp1
  congr
  funext u g L
  have hk := classOfVal_le (f32 (srcF32 s u g L a))
  rw [plain_twoPow (by omega), ← fclassBit_eq_classOfVal]

/-! ### The fields of the word -/

/-- The forms of families 0x4 and 0x5 (04 R102). -/
@[simp] def isFloatForm : Instr → Bool
  | .fadd .. | .fsub .. | .fmul .. | .ffma .. | .fmin .. | .fmax .. | .frnd .. | .fclass .. | .fscale .. | .fexp ..
  | .hadd2 .. | .hmul2 .. | .hfma2 .. | .badd2 .. | .bmul2 .. | .bfma2 .. | .hmnx2 .. | .hdot2 .. => true
  | _ => false

/-- The decoder result `r` holds no form of families 0x4 and 0x5. -/
abbrev NoFloat (r : Except DecodeError Instr) : Prop := Answers (fun i => isFloatForm i = false) r

/-! The other families of the opcode map answer none of these forms. -/

section
variable (h : Head) (w : Dword)

theorem noFloat_decodeControl : NoFloat (decodeControl h w) := by
  unfold decodeControl
  refine answers_bind.mpr fun _ _ => ?_
  split
  case h_2 => -- BRA
    refine answers_bind.mpr fun _ _ => ?_
    split <;> simp
  all_goals simp

theorem noFloat_decodeInt : NoFloat (decodeInt h w) := by
  unfold decodeInt
  split
  case h_26 => -- MOV
    split <;> simp
  all_goals simp

theorem noFloat_decodeCmp : NoFloat (decodeCmp h w) := by
  unfold decodeCmp
  split <;> simp

theorem noFloat_decodeCvt : NoFloat (decodeCvt h w) := by
  unfold decodeCvt
  split <;> simp

theorem noFloat_decodeCross : NoFloat (decodeCross h w) := by
  unfold decodeCross
  split <;> simp

theorem noFloat_decodeMem : NoFloat (decodeMem h w) := by
  unfold decodeMem
  split <;> simp

theorem noFloat_decodeAsync : NoFloat (decodeAsync h w) := by
  unfold decodeAsync
  split <;> simp

theorem noFloat_decodeMatrix : NoFloat (decodeMatrix h w) := by
  unfold decodeMatrix
  split
  case h_2 => -- RSV
    simp only [answers_bind]
    intros
    split <;> simp
  all_goals simp

theorem noFloat_decodeSync : NoFloat (decodeSync h w) := by
  unfold decodeSync
  split <;> simp

theorem noFloat_decodeEngine : NoFloat (decodeEngine h w) := by
  unfold decodeEngine
  split
  case h_6 => -- ROUTE
    simp only [answers_bind]
    intros
    split <;> simp
  all_goals simp

theorem noFloat_decodePriv : NoFloat (decodePriv h w) := by
  unfold decodePriv
  refine answers_bind.mpr fun _ _ => ?_
  split
  case h_3 => -- TLBINV
    simp only [answers_bind]
    intros
    split
    case h_1 | h_3 =>
      refine answers_bind.mpr fun _ _ => ?_
      split <;> simp
    all_goals simp
  all_goals simp

end

/-- A result without these forms says of each one it holds, for it holds none, that `decodeFloat` answers it. -/
theorem NoFloat.decodeFloat_of_float {w : Dword} {r : Except DecodeError Instr} (H : NoFloat r) :
    Answers (fun i => isFloatForm i = true → decodeFloat (headOf w) w = .ok i) r := by
  intro i e hf
  rw [H i e] at hf
  cases hf

theorem decodeFloat_of_parseWord (w : Dword) :
    Answers (fun i => isFloatForm i = true → decodeFloat (headOf w) w = .ok i) (parseWord w) := by
  simp only [parseWord]
  split
  · exact (noFloat_decodeControl _ w).decodeFloat_of_float
  · exact (noFloat_decodeInt _ w).decodeFloat_of_float
  · exact (noFloat_decodeInt _ w).decodeFloat_of_float
  · exact (noFloat_decodeCmp _ w).decodeFloat_of_float
  · exact fun _ e _ => e
  · exact fun _ e _ => e
  · exact (noFloat_decodeCvt _ w).decodeFloat_of_float
  · exact (noFloat_decodeCvt _ w).decodeFloat_of_float
  · exact (noFloat_decodeCross _ w).decodeFloat_of_float
  · exact (noFloat_decodeMem _ w).decodeFloat_of_float
  · exact (noFloat_decodeMem _ w).decodeFloat_of_float
  · exact (noFloat_decodeAsync _ w).decodeFloat_of_float
  · exact (noFloat_decodeMatrix _ w).decodeFloat_of_float
  · exact (noFloat_decodeSync _ w).decodeFloat_of_float
  · exact (noFloat_decodeEngine _ w).decodeFloat_of_float
  · exact (noFloat_decodePriv _ w).decodeFloat_of_float

/-- A word that holds a form of families 0x4 and 0x5 is decoded by their rule. -/
theorem decodeFloat_of_decodeWord {w : Dword} {i : Instr} (e : decodeWord w = .ok i) (hf : isFloatForm i = true) :
    decodeFloat (headOf w) w = .ok i :=
  answers_decodeWord (decodeFloat_of_parseWord w) i e hf

/-- A form of D and A alone leaves MOD, B and C zero. -/
theorem fields_of_decU {w : Dword} {x : BitVec 9 × Src} (e : decU w = .ok x) : fMod w = 0 ∧ fB w = 0 ∧ fC w = 0 := by
  simp only [decU, bind, Except.bind] at e
  split at e
  case h_1 => cases e
  case h_2 hMod =>
  split at e
  case h_1 => cases e
  split at e
  case h_1 => cases e
  case h_2 hB =>
  split at e
  case h_1 => cases e
  case h_2 hC => exact ⟨zero_eq_ok.mp hMod, zero_eq_ok.mp hB, zero_eq_ok.mp hC⟩

/-- B and C are the low 20 bits of the word. -/
theorem low_zero_of_fields {w : Dword} (hB : fB w = 0) (hC : fC w = 0) : w.extractLsb' 0 20 = 0 := by
  have hB' := congrArg BitVec.toNat hB
  have hC' := congrArg BitVec.toNat hC
  apply BitVec.eq_of_toNat_eq
  simp only [fB, fC, BitVec.extractLsb'_toNat, Nat.shiftRight_eq_div_pow, BitVec.ofNat_eq_ofNat, BitVec.toNat_ofNat,
    Nat.zero_mod] at hB' hC' ⊢
  omega

/-- What the decoder demands of the fields of a word that holds FCLASS. -/
@[simp] def FclassFields (w : Dword) : Instr → Prop
  | .fclass .. => fMod w = 0 ∧ fB w = 0 ∧ fC w = 0
  | _ => True

theorem fclassFields_decodeFloat (h : Head) (w : Dword) : Answers (FclassFields w) (decodeFloat h w) := by
  unfold decodeFloat
  split
  case h_8 => -- FCLASS
    simp only [answers_bind, answers_ok, FclassFields]
    intros
    exact fields_of_decU ‹decU w = .ok _›
  all_goals simp

/-- Settles O14: FCLASS is a vector form of the class of a's value (08 R199), and the decoder demands its unused fields to
be zero. -/
theorem floatClass : Obligations.FloatClass := by
  unfold Obligations.FloatClass
  refine ⟨fun h d a => vecF_writes (exec_fclass h d a), fun w h d a e => ?_⟩
  obtain ⟨hMod, hB, hC⟩ := fclassFields_decodeFloat _ w _ (decodeFloat_of_decodeWord e rfl)
  exact ⟨low_zero_of_fields hB hC, hMod⟩

end Sys2Proof.Machine
end
